-- ==== Sys2Proof/Word.lean ====
section
/-! DEFINITION. The word types of the CLH-9 and their plainest arithmetic (R4, R5). -/

namespace Sys2Proof

/-- A byte of memory. -/
abbrev Byte := BitVec 8
/-- A 32-bit register or instruction word (R112, R152). -/
abbrev Word := BitVec 32
/-- A 64-bit virtual or physical address, or a register pair. -/
abbrev Dword := BitVec 64
/-- One bit per lane of a warp (R132, R153). -/
abbrev Mask := BitVec 128

/-- The number of lanes of a warp (R21). -/
def nLanes : Nat := 128

/-- Is lane `l` in mask `m`? -/
def Mask.has (m : Mask) (l : Nat) : Bool := m.getLsbD l

/-- Every lane. -/
def Mask.all : Mask := BitVec.allOnes 128

/-- The mask of the lanes for which `f` holds. -/
def Mask.ofFn (f : Nat → Bool) : Mask := BitVec.ofBoolListLE ((List.range 128).map f)

/-- The lanes of a mask in ascending order. -/
def Mask.lanes (m : Mask) : List Nat := (List.range 128).filter m.has

/-- The lowest lane of a mask, 0 when there is none. -/
def Mask.lowest (m : Mask) : Nat := m.lanes.headD 0

/-- Least multiple of `k` at or above `n` (`k` positive), divided by `k`. -/
def ceilDiv (n k : Nat) : Nat := (n + k - 1) / k

end Sys2Proof
end

