-- ==== Sys2Proof/Config.lean ====
section
/-! DEFINITION. What an implementation fixes and the values the spec leaves open. An opaque constant has no body: nothing
can prove what it is, so a statement about it holds whatever it is. -/

namespace Sys2Proof.Config

/-- Free 32-bit words: the value of an undefined register or word, applied to the state's counter of free values and to a
position (log 2). -/
opaque freeWord : Nat → Nat → Word

/-- The FP32 result of a transcendental function on an argument for which the working precisions of
Machine/Transcendental.lean do not settle the rounding; no such argument is known (log 6). -/
opaque transcendental : Nat → Word → Word

/-- Byte i of the boot ROM's digest of Gicel's firmware public key (R438). -/
opaque romFirmwareDigest : Nat → Byte

/-- Byte i of the boot ROM's digest of Gicel's configuration public key (R438). -/
opaque romConfigDigest : Nat → Byte

/-- The corrected response of the physically unclonable function of I/O die 0 (R446). -/
opaque pufResponse : List Byte

end Sys2Proof.Config
end

