-- ==== Sys2Proof/Syntax.lean ====
section
/-! DEFINITION. The instruction set and the part's events as syntax: one constructor of `Instr` for each row of
spec/opcode_table.json (R112 to R134 for the words; spec/95_what_each_step_holds.md for the events).
Operand fields keep the spec's names; a register field is its number. -/

namespace Sys2Proof

/-! ## Operand forms -/

/-- A predicate field: bit 25 negates, bits 24:22 name p0 to p6, or pt with 7 (R118). -/
structure Pred where
  neg : Bool
  idx : BitVec 3
  deriving DecidableEq, Repr, Inhabited

/-- The predicate every unpredicated instruction requires: 0b0111 (R118). -/
def Pred.pt : Pred := ⟨false, 7⟩

/-- A 5-bit register field (R119). -/
abbrev Reg5 := BitVec 5
/-- A 6-bit uniform register field (R119). -/
abbrev Reg6 := BitVec 6

/-- The integer types in the order of their codes (R126). -/
inductive IntTy where
  | n32 | i32 | n64 | i64 | n16 | i16 | n8 | i8
  deriving DecidableEq, Repr, Inhabited

/-- The four types of IMAD and ISET (R125, R126). -/
inductive WideTy where
  | n32 | i32 | n64 | i64
  deriving DecidableEq, Repr, Inhabited

/-- The file mode of an integer A-format instruction together with its b operand (R126). -/
inductive IntB where
  /-- mode 00: d, a, b per-thread -/
  | thread (b : Reg5)
  /-- mode 01: d and a per-thread, b uniform -/
  | uni (b : Reg5)
  /-- mode 10: d, a and b uniform -/
  | allUni (b : Reg5)
  /-- mode 11: d and a uniform, b the literal word -/
  | lit (w : Word)
  deriving DecidableEq, Repr, Inhabited

/-- The file of a unary integer instruction: modes 00 and 10 only (R126). -/
inductive UnFile where
  | thread | uni
  deriving DecidableEq, Repr, Inhabited

/-- The source mode of b in float, pair-float and SHFL instructions, with b (R127, R193). -/
inductive FltB where
  | thread (b : Reg5)
  | uni (b : Reg5)
  | lit (w : Word)
  deriving DecidableEq, Repr, Inhabited

/-- Rounding directions in the order of their codes (R127). -/
inductive Rnd where
  | rn | rz | rm | rp
  deriving DecidableEq, Repr, Inhabited

/-- Scalar float types (R127). -/
inductive FltTy where
  | f32 | f16 | bf16
  deriving DecidableEq, Repr, Inhabited

/-- Pair types (R127). -/
inductive PairTy where
  | f16 | bf16
  deriving DecidableEq, Repr, Inhabited

/-- Integer conditions (R126). -/
inductive ICond where
  | eq | ne | lt | le | gt | ge
  deriving DecidableEq, Repr, Inhabited

/-- Float conditions (R197). -/
inductive FCond where
  | eq | ne | lt | le | gt | ge | unord | ord
  deriving DecidableEq, Repr, Inhabited

/-- SHFL modes (R128). -/
inductive ShflMode where
  | idx | up | down | xor
  deriving DecidableEq, Repr, Inhabited

/-- SHFL segment widths, 4 to 128 lanes (R128). -/
inductive SegW where
  | s4 | s8 | s16 | s32 | s64 | s128
  deriving DecidableEq, Repr, Inhabited

/-- VOTE modes (R128). -/
inductive VoteMode where
  | every | some | same | odd
  deriving DecidableEq, Repr, Inhabited

/-- SCAN and REDUX operations (R128). -/
inductive LaneOp where
  | add | min | max | and | or | xor | fadd
  deriving DecidableEq, Repr, Inhabited

/-- SCAN and REDUX types (R128). -/
inductive LaneTy where
  | n32 | i32 | f32
  deriving DecidableEq, Repr, Inhabited

/-- Format codes (R215), reserved codes apart. -/
inductive Fmt where
  | f32 | f16 | bf16 | i8 | n8 | i16 | n16 | i32 | n32 | e4m3 | e5m2 | e3m2 | e2m3 | e2m1 | e8m0 | w3 | w4 | w8
  deriving DecidableEq, Repr, Inhabited

/-- The conversion word of major 0x1B (R127, R231). -/
structure ConvWord where
  dst : Fmt
  src : Fmt
  rnd : Rnd
  sat : Bool
  ftz : Bool
  deriving DecidableEq, Repr, Inhabited

/-- The five spaces (R239). -/
inductive Space where
  | g | x | w | c | k
  deriving DecidableEq, Repr, Inhabited

/-- Ordering suffixes (R122). -/
inductive Ord where
  | plain | acq | rel | acqrel
  deriving DecidableEq, Repr, Inhabited

/-- Scopes (R122, R330). -/
inductive Scope where
  | w | b | d | p | n | y
  deriving DecidableEq, Repr, Inhabited

/-- Access sizes (R122): 1, 2, 4, 8, 16 bytes, and the predicate byte. -/
inductive MSize where
  | b1 | b2 | b4 | b8 | b16 | pred
  deriving DecidableEq, Repr, Inhabited

/-- Cache hints (R122, R257). -/
inductive Hint where
  | normal | stream | keep | nol1
  deriving DecidableEq, Repr, Inhabited

/-- Atomic operations in the order of their codes (R122). -/
inductive AtomOp where
  | add32 | add64 | fadd | minI32 | minN32 | maxI32 | maxN32 | minI64 | minN64 | maxI64 | maxN64
  | and32 | or32 | xor32 | and64 | or64 | xor64 | exch32 | exch64 | cas32 | cas64
  deriving DecidableEq, Repr, Inhabited

/-- The fields of the first word of an M-format instruction (R119). -/
structure MFields where
  p    : Pred
  d    : Reg5
  a    : Reg5
  la   : BitVec 4
  sw   : BitVec 3
  size : MSize
  hint : Hint
  deriving DecidableEq, Repr, Inhabited

/-- The address word of an M-format instruction other than ATOM and RED (R122). -/
structure AddrWord where
  space : Space
  base  : Option Reg6
  sext  : Bool
  ord   : Ord
  scope : Scope
  off   : BitVec 16
  deriving DecidableEq, Repr, Inhabited

/-- The address word of ATOM and RED: bits 15:11 hold the operation (R122). -/
structure AtomWord where
  space : Space
  base  : Option Reg6
  ord   : Ord
  scope : Scope
  op    : AtomOp
  off   : BitVec 11
  deriving DecidableEq, Repr, Inhabited

/-- The fields of a format E instruction other than v (R119, R129). -/
structure EFields where
  p  : Pred
  t  : BitVec 3
  s  : Reg6
  la : BitVec 4
  deriving DecidableEq, Repr, Inhabited

/-- The barrier object an instruction of majors 0x30 and 0x31 names (R130, R339). -/
inductive BarObj where
  | slot (a : Reg5) (imm : BitVec 8)
  | hw (n : BitVec 8)
  deriving DecidableEq, Repr, Inhabited

/-- A BRX or CALLX operand: bit 21 chooses the file (R158). -/
inductive XSrc where
  | thread (a : Reg5)
  | uni (a : Reg5)
  deriving DecidableEq, Repr, Inhabited

/-! ## What the events name -/

/-- Who makes a register access (R58, R60). -/
inductive Agent where
  | cc | host | program | peer
  deriving DecidableEq, Repr, Inhabited

/-- A warp: the master (block or task) that holds it, and its index there. -/
structure WRef where
  m : Nat
  w : Nat
  deriving DecidableEq, Repr, Inhabited

/-- An entry of a ready pool: a grid with undispatched blocks, or one waiting task, pre-empted or migrating master. -/
inductive PoolRef where
  | grid (uid : Nat)
  | master (mid : Nat)
  deriving DecidableEq, Repr, Inhabited

/-- The fields of the register blocks that a write can name (R58, R248, R407, R436). -/
inductive RegField where
  | qRingBase (q : BitVec 16) | qSizeExp (q : BitVec 16) | qKind (q : BitVec 16) | qPriority (q : BitVec 16)
  | qRights (q : BitVec 16) | qTaskDie (q : BitVec 16) | qThreshold (q : BitVec 16)
  | qReadOnly (q : BitVec 16) (off : BitVec 6)
  | mmAddress | mmSize | mmAsid | mmDie | mmOperation | mmStart
  | mmOther (off : BitVec 6) -- the status field at 24, and the reserved ones
  | mcOperation | mcTargetKind | mcGridId | mcTarget | mcStart | mcReadIndex
  | mcOther (off : BitVec 6) -- the read-only fields at 20 and 32, and the reserved ones
  | buObjectAddress | buObjectSize | buStart | buNonce (k : BitVec 3)
  deriving DecidableEq, Repr, Inhabited

/-- What an inbound or host request asks for (R378, R444). -/
inductive ReqOp where
  | read (size : Nat)
  | write (bytes : List Byte)
  | atomic (op : AtomOp) (v : Dword) (new : Dword)
  deriving DecidableEq, Repr, Inhabited

/-! ## Instructions and events -/

/-- One constructor for each row of spec/opcode_table.json, in the table's order. -/
inductive Instr where
  /-- IADD (R184) -/
  | iadd (p : Pred) (d a : Reg5) (b : IntB) (t : IntTy)
  /-- ISUB (R184) -/
  | isub (p : Pred) (d a : Reg5) (b : IntB) (t : IntTy)
  /-- IADD_SAT (R184) -/
  | iaddSat (p : Pred) (d a : Reg5) (b : IntB) (t : IntTy)
  /-- ISUB_SAT (R184) -/
  | isubSat (p : Pred) (d a : Reg5) (b : IntB) (t : IntTy)
  /-- IMUL (R184) -/
  | imul (p : Pred) (d a : Reg5) (b : IntB) (t : IntTy)
  /-- IMULH (R184) -/
  | imulh (p : Pred) (d a : Reg5) (b : IntB) (t : IntTy)
  /-- IMIN (R184) -/
  | imin (p : Pred) (d a : Reg5) (b : IntB) (t : IntTy)
  /-- IMAX (R184) -/
  | imax (p : Pred) (d a : Reg5) (b : IntB) (t : IntTy)
  /-- IMAD (R185) -/
  | imad (p : Pred) (d a b c : Reg5) (t : WideTy)
  /-- AND (R184) -/
  | and (p : Pred) (d a : Reg5) (b : IntB) (t : IntTy)
  /-- OR (R184) -/
  | or (p : Pred) (d a : Reg5) (b : IntB) (t : IntTy)
  /-- XOR (R184) -/
  | xor (p : Pred) (d a : Reg5) (b : IntB) (t : IntTy)
  /-- ANDN (R184) -/
  | andn (p : Pred) (d a : Reg5) (b : IntB) (t : IntTy)
  /-- NOT (R184) -/
  | not (p : Pred) (d a : Reg5) (f : UnFile) (t : IntTy)
  /-- IABS (R184) -/
  | iabs (p : Pred) (d a : Reg5) (f : UnFile) (t : IntTy)
  /-- INEG (R184) -/
  | ineg (p : Pred) (d a : Reg5) (f : UnFile) (t : IntTy)
  /-- POPC (R184) -/
  | popc (p : Pred) (d a : Reg5) (f : UnFile) (t : IntTy)
  /-- CLZ (R184) -/
  | clz (p : Pred) (d a : Reg5) (f : UnFile) (t : IntTy)
  /-- BREV (R184) -/
  | brev (p : Pred) (d a : Reg5) (f : UnFile) (t : IntTy)
  /-- MOV (R184) -/
  | mov (p : Pred) (d : Reg5) (b : IntB) (t : IntTy)
  /-- SHL (R187) -/
  | shl (p : Pred) (d a : Reg5) (b : IntB) (t : IntTy)
  /-- SHR (R187) -/
  | shr (p : Pred) (d a : Reg5) (b : IntB) (t : IntTy)
  /-- SAR (R187) -/
  | sar (p : Pred) (d a : Reg5) (b : IntB) (t : IntTy)
  /-- ROT (R187) -/
  | rot (p : Pred) (d a : Reg5) (b : IntB) (t : IntTy)
  /-- ISET (R190) -/
  | iset (p : Pred) (q : BitVec 3) (a b : Reg5) (u : Bool) (c : ICond) (t : WideTy)
  /-- BFX (R188) -/
  | bfx (p : Pred) (d a : Reg5) (b : IntB) (t : IntTy)
  /-- IADDC (R186) -/
  | iaddc (p : Pred) (d a : Reg5) (b : IntB)
  /-- ISUBB (R186) -/
  | isubb (p : Pred) (d a : Reg5) (b : IntB)
  /-- BFI (R189) -/
  | bfi (p : Pred) (d a b c : Reg5)
  /-- PERM (R189) -/
  | perm (p : Pred) (d a b c : Reg5)
  /-- SEL (R189) -/
  | sel (p : Pred) (d a b : Reg5) (n : BitVec 3)
  /-- LEA (R189) -/
  | lea (p : Pred) (d a b : Reg5) (n : BitVec 5)
  /-- MOVI (R191) -/
  | movi (p : Pred) (d : Reg5) (i : BitVec 16)
  /-- MOVI_HI (R191) -/
  | moviHi (p : Pred) (d : Reg5) (i : BitVec 16)
  /-- IADD_IMM (R192) -/
  | iaddImm (p : Pred) (d a : Reg5) (i : BitVec 8)
  /-- ISUB_IMM (R192) -/
  | isubImm (p : Pred) (d a : Reg5) (i : BitVec 8)
  /-- AND_IMM (R192) -/
  | andImm (p : Pred) (d a : Reg5) (i : BitVec 8)
  /-- OR_IMM (R192) -/
  | orImm (p : Pred) (d a : Reg5) (i : BitVec 8)
  /-- XOR_IMM (R192) -/
  | xorImm (p : Pred) (d a : Reg5) (i : BitVec 8)
  /-- SHL_IMM (R192) -/
  | shlImm (p : Pred) (d a : Reg5) (i : BitVec 8)
  /-- SHR_IMM (R192) -/
  | shrImm (p : Pred) (d a : Reg5) (i : BitVec 8)
  /-- SAR_IMM (R192) -/
  | sarImm (p : Pred) (d a : Reg5) (i : BitVec 8)
  /-- ROT_IMM (R192) -/
  | rotImm (p : Pred) (d a : Reg5) (i : BitVec 8)
  /-- IMUL_IMM (R192) -/
  | imulImm (p : Pred) (d a : Reg5) (i : BitVec 8)
  /-- FADD (R198) -/
  | fadd (p : Pred) (d a : Reg5) (b : FltB) (r : Rnd) (f : Bool) (t : FltTy)
  /-- FSUB (R198) -/
  | fsub (p : Pred) (d a : Reg5) (b : FltB) (r : Rnd) (f : Bool) (t : FltTy)
  /-- FMUL (R198) -/
  | fmul (p : Pred) (d a : Reg5) (b : FltB) (r : Rnd) (f : Bool) (t : FltTy)
  /-- FFMA (R199) -/
  | ffma (p : Pred) (d a b c : Reg5) (r : Rnd)
  /-- FMIN (R200) -/
  | fmin (p : Pred) (d a : Reg5) (b : FltB) (f : Bool) (t : FltTy)
  /-- FMAX (R200) -/
  | fmax (p : Pred) (d a : Reg5) (b : FltB) (f : Bool) (t : FltTy)
  /-- FSET (R201) -/
  | fset (p : Pred) (q : BitVec 3) (a : Reg5) (b : FltB) (c : FCond) (t : FltTy)
  /-- FRND (R202) -/
  | frnd (p : Pred) (d a : Reg5) (r : Rnd) (f : Bool) (t : FltTy)
  /-- FCLASS (R203) -/
  | fclass (p : Pred) (d a : Reg5) (f : Bool) (t : FltTy)
  /-- RCP (R204) -/
  | rcp (p : Pred) (d a : Reg5) (f : Bool)
  /-- RSQ (R204) -/
  | rsq (p : Pred) (d a : Reg5) (f : Bool)
  /-- SQRT (R204) -/
  | sqrt (p : Pred) (d a : Reg5) (f : Bool)
  /-- EX2 (R204) -/
  | ex2 (p : Pred) (d a : Reg5) (f : Bool)
  /-- LG2 (R204) -/
  | lg2 (p : Pred) (d a : Reg5) (f : Bool)
  /-- SIN (R204) -/
  | sin (p : Pred) (d a : Reg5) (f : Bool)
  /-- COS (R204) -/
  | cos (p : Pred) (d a : Reg5) (f : Bool)
  /-- TANH (R204) -/
  | tanh (p : Pred) (d a : Reg5) (f : Bool)
  /-- FDIVS (R198) -/
  | fdivs (p : Pred) (d a : Reg5) (b : FltB) (r : Rnd) (f : Bool)
  /-- HADD2 (R206) -/
  | hadd2 (p : Pred) (d a : Reg5) (b : FltB) (r : Rnd) (t : PairTy)
  /-- HMUL2 (R206) -/
  | hmul2 (p : Pred) (d a : Reg5) (b : FltB) (r : Rnd) (t : PairTy)
  /-- HFMA2 (R207) -/
  | hfma2 (p : Pred) (d a b c : Reg5) (t : PairTy)
  /-- CVT (R233) -/
  | cvt (p : Pred) (d a : Reg5) (w : ConvWord)
  /-- CVT_MX (R234) -/
  | cvtMx (p : Pred) (d a b : Reg5) (w : ConvWord)
  /-- QBLK (R236) -/
  | qblk (p : Pred) (d a : Reg5) (w : ConvWord)
  /-- QDEC (R237) -/
  | qdec (p : Pred) (d a : Reg5) (w : ConvWord)
  /-- QSCALE (R235) -/
  | qscale (p : Pred) (d a : Reg5) (w : ConvWord)
  /-- SHFL (R210) -/
  | shfl (p : Pred) (d a : Reg5) (b : FltB) (m : ShflMode) (w : SegW)
  /-- VOTE (R211) -/
  | vote (p : Pred) (q a : BitVec 3) (m : VoteMode)
  /-- BALLOT (R211) -/
  | ballot (p : Pred) (d : Reg5) (a : BitVec 3)
  /-- MATCH (R211) -/
  | matchLane (p : Pred) (d a : Reg5) (wide : Bool)
  /-- SCAN (R212) -/
  | scan (p : Pred) (d a : Reg5) (excl : Bool) (o : LaneOp) (t : LaneTy)
  /-- REDUX (R212) -/
  | redux (p : Pred) (d a : Reg5) (o : LaneOp) (t : LaneTy)
  /-- BMAND (R214) -/
  | bmand (p : Pred) (d a b : Reg5)
  /-- LD (R267) -/
  | ld (f : MFields) (w : AddrWord)
  /-- ST (R268) -/
  | st (f : MFields) (w : AddrWord)
  /-- LDA (R269) -/
  | lda (f : MFields) (w : AddrWord)
  /-- LDW (R270) -/
  | ldw (f : MFields) (w : AddrWord)
  /-- ATOM (R273) -/
  | atom (f : MFields) (w : AtomWord)
  /-- RED (R274) -/
  | red (f : MFields) (w : AtomWord)
  /-- PREF (R271) -/
  | pref (f : MFields) (w : AddrWord)
  /-- CCTL (R272) -/
  | cctl (f : MFields) (w : AddrWord)
  /-- CPY (R279) -/
  | cpy (e : EFields)
  /-- CPY_TX (R284) -/
  | cpyTx (e : EFields)
  /-- CPY_FO (R294) -/
  | cpyFo (e : EFields)
  /-- CPY_TX_FO (R294) -/
  | cpyTxFo (e : EFields)
  /-- LDWS (R312) -/
  | ldws (e : EFields)
  /-- LDWS_W (R312) -/
  | ldwsW (e : EFields)
  /-- SWAPW (R313) -/
  | swapw (p : Pred) (t : BitVec 3) (la : BitVec 4)
  /-- MMA (R314) -/
  | mma (e : EFields) (v : Reg5)
  /-- MMA_CHAIN (R316) -/
  | mmaChain (e : EFields) (v : Reg5)
  /-- MMA_SMX (R315) -/
  | mmaSmx (e : EFields) (v : Reg5)
  /-- ENCT (R317) -/
  | enct (e : EFields)
  /-- ENCT_AUTO (R317) -/
  | enctAuto (e : EFields)
  /-- ACCRD (R318) -/
  | accrd (e : EFields)
  /-- ACCWR (R318) -/
  | accwr (e : EFields)
  /-- ACCZ (R319) -/
  | accz (e : EFields)
  /-- ACCSC (R320) -/
  | accsc (e : EFields)
  /-- XLAT (R363) -/
  | xlat (p : Pred) (s : Reg6) (la : BitVec 4) (v : Reg5)
  /-- XLAT_WR (R363) -/
  | xlatWr (p : Pred) (s : Reg6) (la : BitVec 4) (v : Reg5)
  /-- KVFORK (R369) -/
  | kvfork (e : EFields)
  /-- KVEXT (R368) -/
  | kvext (e : EFields)
  /-- KVCOW (R370) -/
  | kvcow (e : EFields)
  /-- KVFREE (R371) -/
  | kvfree (e : EFields)
  /-- COLL (R382) -/
  | coll (e : EFields)
  /-- BINIT (R341) -/
  | binit (p : Pred) (o : BarObj) (d : Reg5)
  /-- BRETIRE (R341) -/
  | bretire (p : Pred) (a : Reg5) (i : BitVec 8)
  /-- ARRIVE (R342) -/
  | arrive (p : Pred) (o : BarObj) (d : Reg5)
  /-- EXPECT (R342) -/
  | expect (p : Pred) (o : BarObj) (d : Reg5)
  /-- WAITPH (R343) -/
  | waitph (p : Pred) (o : BarObj) (d : Reg5)
  /-- TESTPH (R343) -/
  | testph (p : Pred) (o : BarObj) (q : BitVec 3)
  /-- SEAL (R344) -/
  | seal (p : Pred)
  /-- WAITB (R344) -/
  | waitb (p : Pred) (n : BitVec 8)
  /-- WAITT (R344) -/
  | waitt (p : Pred) (m : BitVec 8)
  /-- PARK_G (R345) -/
  | parkG (p : Pred) (d a : Reg5) (i : BitVec 8)
  /-- PARK_X (R345) -/
  | parkX (p : Pred) (d a : Reg5) (i : BitVec 8)
  /-- FENCE (R346) -/
  | fence (p : Pred) (s : Scope)
  /-- QFENCE (R347) -/
  | qfence (p : Pred) (m : BitVec 8)
  /-- XFENCE (R347) -/
  | xfence (p : Pred) (s : Scope)
  /-- ACQ (R346) -/
  | acq (p : Pred) (s : Scope)
  /-- REL (R346) -/
  | rel (p : Pred) (s : Scope)
  /-- BIND (R348) -/
  | bind (p : Pred) (d a : Reg5)
  /-- UNBIND (R348) -/
  | unbind (p : Pred) (d a : Reg5)
  /-- BRA (R159) -/
  | bra (p : Pred) (o : BitVec 22)
  /-- CALL (R161) -/
  | call (v : BitVec 2) (o : BitVec 20)
  /-- BRC (R160) -/
  | brc (c : Reg5) (o : BitVec 17)
  /-- NOP (R166) -/
  | nop (p : Pred)
  /-- BRX (R162) -/
  | brx (p : Pred) (a : XSrc)
  /-- CALLX (R163) -/
  | callx (v : BitVec 2) (a : XSrc)
  /-- RET (R164) -/
  | ret
  /-- EXIT (R165) -/
  | exit (p : Pred)
  /-- TRAP (R167) -/
  | trap (p : Pred) (i : BitVec 4)
  /-- TRET (R169) -/
  | tret
  /-- SRD (R170) -/
  | srd (p : Pred) (d : Reg5) (f : Bool) (n : BitVec 6)
  /-- SUBMIT (R171) -/
  | submit (d a b : Reg5)
  /-- LAUNCH (R171) -/
  | launch (d a b : Reg5)
  /-- TRIG (R173) -/
  | trig
  /-- WAITDEP (R174) -/
  | waitdep
  /-- SWITCHPT (R175) -/
  | switchpt (i : BitVec 10)
  /-- STEP (R176) -/
  | step
  /-- BEAT (R178) -/
  | beat
  /-- REGGIVE (R179) -/
  | reggive (n : BitVec 6)
  /-- REGCLAIM (R179) -/
  | regclaim (q : BitVec 3) (n : BitVec 6)
  /-- KEYDROP (R180) -/
  | keydrop (a : Reg5)
  /-- SWR (R418) -/
  | swr (a : Reg5) (n : BitVec 6)
  /-- SEGSET (R419) -/
  | segset (a : Reg5) (g : BitVec 3)
  /-- SPILLF (R420) -/
  | spillf (a : Reg5) (n : BitVec 6)
  /-- FILLF (R420) -/
  | fillf (a : Reg5) (n : BitVec 6)
  /-- CTXSV (R421) -/
  | ctxsv (d a : Reg5)
  /-- CTXLD (R421) -/
  | ctxld (d a : Reg5)
  /-- TLBINV (R422) -/
  | tlbinv (a : Reg5)
  /-- FREEZE (R423) -/
  | freeze (d a : Reg5)
  /-- THAW (R423) -/
  | thaw (d a : Reg5)
  /-- PERFSEL (R424) -/
  | perfsel (d a : Reg5) (n : BitVec 6)
  /-- MOV_LONG (R134) -/
  | movLong (d b : Reg6)
  /-- CLAUSE_ENTRY (R113) -/
  | clauseEntry
  /-- LOAD_COMPLETE (R123) -/
  | loadComplete (w : WRef) (k : Nat)
  /-- LDA_LANE_PERFORM (R297) -/
  | ldaLanePerform (w : WRef) (k lane : Nat)
  /-- REGISTER_WRITE (R58) -/
  | registerWrite (ag : Agent) (r : RegField) (v : Dword)
  /-- QUEUE_ENABLE (R59) -/
  | queueEnable (ag : Agent) (q : BitVec 16) (kind : BitVec 8)
  /-- QUEUE_DISABLE (R59) -/
  | queueDisable (ag : Agent) (q : BitVec 16)
  /-- RESERVE_INDEX_READ (R58) -/
  | reserveIndexRead (ag : Agent) (q : BitVec 16)
  /-- DOORBELL (R62) -/
  | doorbell (ag : Agent) (q : BitVec 16)
  /-- LAUNCH_COMMAND (R56) -/
  | launchCommand (q : BitVec 16)
  /-- TASK_COMMAND (R74) -/
  | taskCommand (q : BitVec 16)
  /-- SIGNAL (R74) -/
  | signal (q : BitVec 16)
  /-- CADD (R67) -/
  | cadd (q : BitVec 16)
  /-- CSET (R65) -/
  | cset (q : BitVec 16)
  /-- WSLOAD (R265) -/
  | wsload (q : BitVec 16)
  /-- HOLD (R64) -/
  | hold (q : BitVec 16)
  /-- HOLD_RELEASE (R64) -/
  | holdRelease (q : BitVec 16)
  /-- QUEUE_RESUME (R76) -/
  | queueResume (q : BitVec 16)
  /-- COUNTER_APERTURE_WRITE (R67) -/
  | counterApertureWrite (ag : Agent) (off size : Nat) (v : Dword)
  /-- HELD_CANCEL_DELIVERY (R76) -/
  | heldCancelDelivery
  /-- DISPATCH_STEP (R89) -/
  | dispatchStep (die : Nat)
  /-- KEY_GRANT (R98) -/
  | keyGrant (die : Nat)
  /-- WARP_RELEASE (R91) -/
  | warpRelease (m : Nat)
  /-- ENTRY_AGED (R95) -/
  | entryAged (die : Nat) (e : PoolRef)
  /-- PLACEMENT_WAIT_LIMIT (R89) -/
  | placementWaitLimit (die : Nat) (e : PoolRef)
  /-- PREEMPTION_DELAY_EXPIRY (R106) -/
  | preemptionDelayExpiry (die : Nat) (e : PoolRef)
  /-- READMISSION_DELAY_EXPIRY (R106) -/
  | readmissionDelayExpiry (m : Nat)
  /-- SWITCH_COMPLETE (R102) -/
  | switchComplete (m : Nat)
  /-- PREEMPTION_TAKE_EFFECT (R412) -/
  | preemptionTakeEffect (m : Nat)
  /-- CONTEXT_SAVE_COMPLETE (R412) -/
  | contextSaveComplete (m : Nat)
  /-- WATCHDOG_FIRE (R109) -/
  | watchdogFire (m : Nat)
  /-- INVALIDATE_TRANSLATIONS (R248) -/
  | invalidateTranslations (ag : Agent)
  /-- CLEAN_AND_INVALIDATE (R248) -/
  | cleanAndInvalidate (ag : Agent)
  /-- SET_PACKED (R254) -/
  | setPacked (ag : Agent)
  /-- SET_UNPACKED (R254) -/
  | setUnpacked (ag : Agent)
  /-- RETRY_MISS (R252) -/
  | retryMiss (ag : Agent)
  /-- DECLINE_MISS (R252) -/
  | declineMiss (ag : Agent)
  /-- MAINTENANCE_COMPLETE (R248) -/
  | maintenanceComplete
  /-- WS_REFRESH_WINDOW (R263) -/
  | wsRefreshWindow (g : Nat)
  /-- WSLOAD_COPY_START (R265) -/
  | wsloadCopyStart (k : Nat)
  /-- WSLOAD_COMPLETE (R265) -/
  | wsloadComplete (k : Nat)
  /-- COPY_START (R280) -/
  | copyStart (m k : Nat)
  /-- GRANULE_LAND (R287) -/
  | granuleLand (m k : Nat)
  /-- ENGINE_COMMAND_START (R308) -/
  | engineCommandStart (m k : Nat)
  /-- ENGINE_COMMAND_COMPLETE (R309) -/
  | engineCommandComplete (m k : Nat)
  /-- PAGE_UNIT_OPERATION (R359) -/
  | pageUnitOperation (die k : Nat)
  /-- KVCOW_COPY_COMPLETE (R370) -/
  | kvcowCopyComplete (m k : Nat)
  /-- PARK_WAKE (R345) -/
  | parkWake (w : WRef) (cause : BitVec 2)
  /-- WARP_RETIRE (R165) -/
  | warpRetire (w : WRef)
  /-- BLOCK_RETIRE (R427) -/
  | blockRetire (m : Nat)
  /-- TASK_RETIRE (R428) -/
  | taskRetire (m : Nat)
  /-- DRAIN_SWEEP_END (R433) -/
  | drainSweepEnd (grid : Nat)
  /-- FREEZE_REQUEST (R408) -/
  | freezeRequest (ag : Agent)
  /-- THAW_REQUEST (R405) -/
  | thawRequest (ag : Agent)
  /-- ABORT_REQUEST (R406) -/
  | abortRequest (ag : Agent)
  /-- PREEMPT_REQUEST (R408) -/
  | preemptRequest (ag : Agent)
  /-- HELD_REQUEST_APPLY (R408) -/
  | heldRequestApply (m : Nat)
  /-- FAULT_RECORD_APPEND (R401) -/
  | faultRecordAppend (die : Nat)
  /-- FAULT_INTERRUPT (R401) -/
  | faultInterrupt
  /-- COLL_STEP_BEGIN (R389) -/
  | collStepBegin (k : Nat)
  /-- CHUNK_TRANSFER (R387) -/
  | chunkTransfer (k step : Nat)
  /-- INBOUND_CHUNK (R387) -/
  | inboundChunk (k buf idx : Nat) (bytes : List Byte)
  /-- COLL_COMPLETE (R392) -/
  | collComplete (k : Nat)
  /-- COLL_TIMEOUT (R395) -/
  | collTimeout (k : Nat)
  /-- COLL_ABORT (R395) -/
  | collAbort (k : Nat) (code : BitVec 8)
  /-- INBOUND_REQUEST (R378) -/
  | inboundRequest (peer : Nat) (pa : Nat) (op : ReqOp)
  /-- CXL_MEM_REQUEST (R444) -/
  | cxlMemRequest (pa : Nat) (op : ReqOp)
  /-- CXL_SNOOP (R338) -/
  | cxlSnoop (pa : Nat)
  /-- CXL_LINK_DOWN (R444) -/
  | cxlLinkDown
  /-- LINK_DOWN (R443) -/
  | linkDown (bit : Nat)
  /-- LINK_UP (R443) -/
  | linkUp (bit : Nat)
  /-- PACKAGE_RESET (R437) -/
  | packageReset
  /-- LOAD_FIRMWARE (R439) -/
  | loadFirmware (ag : Agent)
  /-- FIRMWARE_VERIFY_DONE (R439) -/
  | firmwareVerifyDone
  /-- LOAD_BLOB (R440) -/
  | loadBlob (ag : Agent)
  /-- BLOB_VERIFY_DONE (R440) -/
  | blobVerifyDone
  /-- EXTEND_MEASUREMENT (R445) -/
  | extendMeasurement (ag : Agent)
  /-- REQUEST_QUOTE (R447) -/
  | requestQuote (ag : Agent)
  /-- QUOTE_DONE (R447) -/
  | quoteDone
  /-- FUNCTION_READY (R441) -/
  | functionReady (bit : Nat)
  /-- THROTTLE (R448) -/
  | throttle
  /-- CRITICAL_TEMPERATURE (R448) -/
  | criticalTemperature
  /-- REMOTE_REFUSAL (R378) -/
  | remoteRefusal (w : WRef) (k : Nat) (lanes : Mask)
  /-- THROTTLE_END (R448) -/
  | throttleEnd
  deriving DecidableEq, Repr, Inhabited

/-- The rows of the table that are events of the part, not instruction words: nothing encodes them. -/
def Instr.isEvent : Instr → Bool
  | .clauseEntry .. => true
  | .loadComplete .. => true
  | .ldaLanePerform .. => true
  | .registerWrite .. => true
  | .queueEnable .. => true
  | .queueDisable .. => true
  | .reserveIndexRead .. => true
  | .doorbell .. => true
  | .launchCommand .. => true
  | .taskCommand .. => true
  | .signal .. => true
  | .cadd .. => true
  | .cset .. => true
  | .wsload .. => true
  | .hold .. => true
  | .holdRelease .. => true
  | .queueResume .. => true
  | .counterApertureWrite .. => true
  | .heldCancelDelivery .. => true
  | .dispatchStep .. => true
  | .keyGrant .. => true
  | .warpRelease .. => true
  | .entryAged .. => true
  | .placementWaitLimit .. => true
  | .preemptionDelayExpiry .. => true
  | .readmissionDelayExpiry .. => true
  | .switchComplete .. => true
  | .preemptionTakeEffect .. => true
  | .contextSaveComplete .. => true
  | .watchdogFire .. => true
  | .invalidateTranslations .. => true
  | .cleanAndInvalidate .. => true
  | .setPacked .. => true
  | .setUnpacked .. => true
  | .retryMiss .. => true
  | .declineMiss .. => true
  | .maintenanceComplete .. => true
  | .wsRefreshWindow .. => true
  | .wsloadCopyStart .. => true
  | .wsloadComplete .. => true
  | .copyStart .. => true
  | .granuleLand .. => true
  | .engineCommandStart .. => true
  | .engineCommandComplete .. => true
  | .pageUnitOperation .. => true
  | .kvcowCopyComplete .. => true
  | .parkWake .. => true
  | .warpRetire .. => true
  | .blockRetire .. => true
  | .taskRetire .. => true
  | .drainSweepEnd .. => true
  | .freezeRequest .. => true
  | .thawRequest .. => true
  | .abortRequest .. => true
  | .preemptRequest .. => true
  | .heldRequestApply .. => true
  | .faultRecordAppend .. => true
  | .faultInterrupt .. => true
  | .collStepBegin .. => true
  | .chunkTransfer .. => true
  | .inboundChunk .. => true
  | .collComplete .. => true
  | .collTimeout .. => true
  | .collAbort .. => true
  | .inboundRequest .. => true
  | .cxlMemRequest .. => true
  | .cxlSnoop .. => true
  | .cxlLinkDown .. => true
  | .linkDown .. => true
  | .linkUp .. => true
  | .packageReset .. => true
  | .loadFirmware .. => true
  | .firmwareVerifyDone .. => true
  | .loadBlob .. => true
  | .blobVerifyDone .. => true
  | .extendMeasurement .. => true
  | .requestQuote .. => true
  | .quoteDone .. => true
  | .functionReady .. => true
  | .throttle .. => true
  | .criticalTemperature .. => true
  | .remoteRefusal .. => true
  | .throttleEnd .. => true
  | .iadd .. => false
  | .isub .. => false
  | .iaddSat .. => false
  | .isubSat .. => false
  | .imul .. => false
  | .imulh .. => false
  | .imin .. => false
  | .imax .. => false
  | .imad .. => false
  | .and .. => false
  | .or .. => false
  | .xor .. => false
  | .andn .. => false
  | .not .. => false
  | .iabs .. => false
  | .ineg .. => false
  | .popc .. => false
  | .clz .. => false
  | .brev .. => false
  | .mov .. => false
  | .shl .. => false
  | .shr .. => false
  | .sar .. => false
  | .rot .. => false
  | .iset .. => false
  | .bfx .. => false
  | .iaddc .. => false
  | .isubb .. => false
  | .bfi .. => false
  | .perm .. => false
  | .sel .. => false
  | .lea .. => false
  | .movi .. => false
  | .moviHi .. => false
  | .iaddImm .. => false
  | .isubImm .. => false
  | .andImm .. => false
  | .orImm .. => false
  | .xorImm .. => false
  | .shlImm .. => false
  | .shrImm .. => false
  | .sarImm .. => false
  | .rotImm .. => false
  | .imulImm .. => false
  | .fadd .. => false
  | .fsub .. => false
  | .fmul .. => false
  | .ffma .. => false
  | .fmin .. => false
  | .fmax .. => false
  | .fset .. => false
  | .frnd .. => false
  | .fclass .. => false
  | .rcp .. => false
  | .rsq .. => false
  | .sqrt .. => false
  | .ex2 .. => false
  | .lg2 .. => false
  | .sin .. => false
  | .cos .. => false
  | .tanh .. => false
  | .fdivs .. => false
  | .hadd2 .. => false
  | .hmul2 .. => false
  | .hfma2 .. => false
  | .cvt .. => false
  | .cvtMx .. => false
  | .qblk .. => false
  | .qdec .. => false
  | .qscale .. => false
  | .shfl .. => false
  | .vote .. => false
  | .ballot .. => false
  | .matchLane .. => false
  | .scan .. => false
  | .redux .. => false
  | .bmand .. => false
  | .ld .. => false
  | .st .. => false
  | .lda .. => false
  | .ldw .. => false
  | .atom .. => false
  | .red .. => false
  | .pref .. => false
  | .cctl .. => false
  | .cpy .. => false
  | .cpyTx .. => false
  | .cpyFo .. => false
  | .cpyTxFo .. => false
  | .ldws .. => false
  | .ldwsW .. => false
  | .swapw .. => false
  | .mma .. => false
  | .mmaChain .. => false
  | .mmaSmx .. => false
  | .enct .. => false
  | .enctAuto .. => false
  | .accrd .. => false
  | .accwr .. => false
  | .accz .. => false
  | .accsc .. => false
  | .xlat .. => false
  | .xlatWr .. => false
  | .kvfork .. => false
  | .kvext .. => false
  | .kvcow .. => false
  | .kvfree .. => false
  | .coll .. => false
  | .binit .. => false
  | .bretire .. => false
  | .arrive .. => false
  | .expect .. => false
  | .waitph .. => false
  | .testph .. => false
  | .seal .. => false
  | .waitb .. => false
  | .waitt .. => false
  | .parkG .. => false
  | .parkX .. => false
  | .fence .. => false
  | .qfence .. => false
  | .xfence .. => false
  | .acq .. => false
  | .rel .. => false
  | .bind .. => false
  | .unbind .. => false
  | .bra .. => false
  | .call .. => false
  | .brc .. => false
  | .nop .. => false
  | .brx .. => false
  | .callx .. => false
  | .ret .. => false
  | .exit .. => false
  | .trap .. => false
  | .tret .. => false
  | .srd .. => false
  | .submit .. => false
  | .launch .. => false
  | .trig .. => false
  | .waitdep .. => false
  | .switchpt .. => false
  | .step .. => false
  | .beat .. => false
  | .reggive .. => false
  | .regclaim .. => false
  | .keydrop .. => false
  | .swr .. => false
  | .segset .. => false
  | .spillf .. => false
  | .fillf .. => false
  | .ctxsv .. => false
  | .ctxld .. => false
  | .tlbinv .. => false
  | .freeze .. => false
  | .thaw .. => false
  | .perfsel .. => false
  | .movLong .. => false

end Sys2Proof
end

