-- ==== Sys2Proof/WellFormed.lean ====
section
/-! DEFINITION. Which instructions are well formed: the conditions of R135 that an instruction word shows by itself
(subcodes 0x02, 0x03 and 0x06 of R135, with the instruction descriptions' own restrictions). Conditions that need the
state of the warp (descriptors, limits, rights, privilege) belong to the meanings. -/

namespace Sys2Proof

/-- The subcode `k`, unless the condition holds. -/
def need (ok : Bool) (k : Nat) : List Nat := if ok then [] else [k]

/-- R118: the predicate value 0b1111 is reserved. -/
def Pred.ok (p : Pred) : List Nat := need (!(p.neg && p.idx == 7)) 3

/-- An unpredicated form requires 0b0111 (R118). -/
def Pred.none (p : Pred) : List Nat := need (p == Pred.pt) 3

/-- R119: `n` registers named by a 5-bit field: 1 anything, 2 an even pair, 4 a quad; 31 is the zero register. -/
def regs5 (f : Reg5) (n : Nat) : List Nat :=
  need (f == 31 || (f.toNat % n == 0 && decide (f.toNat + n ≤ 31))) 6

/-- R119: `n` registers named by a 6-bit field; 63 is the zero register. -/
def regs6 (f : Reg6) (n : Nat) : List Nat :=
  need (f == 63 || (f.toNat % n == 0 && decide (f.toNat + n ≤ 63))) 6

/-- The width in bits of an integer type (R182). -/
def IntTy.bits : IntTy → Nat
  | .n32 | .i32 => 32 | .n64 | .i64 => 64 | .n16 | .i16 => 16 | .n8 | .i8 => 8

/-- Does the type read two's complement? (R182) -/
def IntTy.signed : IntTy → Bool
  | .i32 | .i64 | .i16 | .i8 => true
  | .n32 | .n64 | .n16 | .n8 => false

/-- Registers of an operand of the type: a pair for 64 bits (R182). -/
def IntTy.nregs (t : IntTy) : Nat := if t.bits == 64 then 2 else 1

/-- Registers of an operand of an IMAD or ISET type. -/
def WideTy.nregs : WideTy → Nat
  | .n32 | .i32 => 1 | .n64 | .i64 => 2

/-- R126: file modes 10 and 11 require the predicate 0b0111; b is checked unless it is a literal. -/
def IntB.subs (p : Pred) (nb : Nat) : IntB → List Nat
  | .thread b => p.ok ++ regs5 b nb
  | .uni b => p.ok ++ regs5 b nb
  | .allUni b => p.none ++ regs5 b nb
  | .lit _ => p.none

/-- The checks of a two-operand integer instruction whose d, a and b name `nd`, `na`, `nb` registers. -/
def intSubs (p : Pred) (d a : Reg5) (b : IntB) (nd na nb : Nat) : List Nat :=
  b.subs p nb ++ regs5 d nd ++ regs5 a na

/-- The checks of a unary integer instruction (R183): file modes 00 and 10. -/
def unSubs (p : Pred) (d a : Reg5) (f : UnFile) (nd na : Nat) : List Nat :=
  (match f with | .thread => p.ok | .uni => p.none) ++ regs5 d nd ++ regs5 a na

/-- Bytes of an access size; a predicate load reads one byte (R122). -/
def MSize.bytes : MSize → Nat
  | .b1 => 1 | .b2 => 2 | .b4 => 4 | .b8 => 8 | .b16 => 16 | .pred => 1

/-- Registers an access size moves (R122, R266). -/
def MSize.nregs : MSize → Nat
  | .b1 | .b2 | .b4 | .pred => 1 | .b8 => 2 | .b16 => 4

/-- Width in bytes of an atomic operation (R122). -/
def AtomOp.bytes : AtomOp → Nat
  | .add32 | .fadd | .minI32 | .minN32 | .maxI32 | .maxN32 | .and32 | .or32 | .xor32 | .exch32 | .cas32 => 4
  | .add64 | .minI64 | .minN64 | .maxI64 | .maxN64 | .and64 | .or64 | .xor64 | .exch64 | .cas64 => 8

def AtomOp.isCas : AtomOp → Bool
  | .cas32 | .cas64 => true | _ => false

def AtomOp.isExch : AtomOp → Bool
  | .exch32 | .exch64 => true | _ => false

/-- Registers of d that an atomic reads: operand, or compare value followed by new value (R273). -/
def AtomOp.nregs (o : AtomOp) : Nat := (if o.bytes == 8 then 2 else 1) * (if o.isCas then 2 else 1)

/-- R122: the base register and the index of an access to `space`. -/
def addrSubs (a : Reg5) (space : Space) (base : Option Reg6) : List Nat :=
  match space, base with
  | .g, none => regs5 a 2
  | .g, some b => regs6 b 2
  | _, none => []
  | _, some _ => []

/-- R257, R261: hint 0 for x: and w:, swizzle 0 outside x: (LDA's swizzle is its destination's). -/
def hintSwSubs (f : MFields) (space : Space) (swFree : Bool) : List Nat :=
  need (f.hint == .normal || !(space == .x || space == .w)) 3 ++
  need (f.sw == 0 || swFree || space == .x) 3

/-- R122: the scope is zero when the ordering is plain. -/
def scopeSubs (o : Ord) (s : Scope) : List Nat := need (o != .plain || s == .w) 3

/-- The checks common to LD, ST, LDA, LDW, PREF and CCTL. -/
def memSubs (f : MFields) (w : AddrWord) (spaces : List Space) (ords : List Ord) (sizes : List MSize)
    (sextOk swFree : Bool) : List Nat :=
  f.p.ok ++ need (spaces.contains w.space) 2 ++ need (ords.contains w.ord) 2 ++ need (sizes.contains f.size) 2 ++
  addrSubs f.a w.space w.base ++ hintSwSubs f w.space swFree ++ scopeSubs w.ord w.scope ++
  need (sextOk || !w.sext) 3

/-- The checks of ATOM and RED (R122, R273, R274). -/
def atomSubs (f : MFields) (w : AtomWord) (ords : List Ord) (red : Bool) : List Nat :=
  f.p.ok ++ need (w.space == .g || w.space == .x) 2 ++ need (ords.contains w.ord) 2 ++
  need (f.size == (if w.op.bytes == 8 then .b8 else .b4)) 2 ++
  need (!(red && (w.op.isCas || w.op.isExch))) 2 ++
  addrSubs f.a w.space w.base ++ regs5 f.d w.op.nregs ++ hintSwSubs f w.space false ++ scopeSubs w.ord w.scope

def smallSizes : List MSize := [.b1, .b2, .b4, .b8, .b16]

/-- Codes of the conversion formats (R215). -/
def Fmt.code : Fmt → Nat
  | .f32 => 0 | .f16 => 1 | .bf16 => 2 | .i8 => 3 | .n8 => 4 | .i16 => 5 | .n16 => 6 | .i32 => 7 | .n32 => 8
  | .e4m3 => 9 | .e5m2 => 10 | .e3m2 => 11 | .e2m3 => 12 | .e2m1 => 13 | .e8m0 => 14 | .w3 => 16 | .w4 => 17 | .w8 => 18

def Fmt.isFloat (f : Fmt) : Bool := decide (f.code ≤ 2)
def Fmt.isInt (f : Fmt) : Bool := decide (3 ≤ f.code ∧ f.code ≤ 8)
def Fmt.isElem (f : Fmt) : Bool := decide (9 ≤ f.code ∧ f.code ≤ 13)
def Fmt.isBlock (f : Fmt) : Bool := decide (16 ≤ f.code)

/-- Pairings of CVT (R231). -/
def ConvWord.cvtOk (w : ConvWord) : Bool :=
  decide (w.src.code ≤ 14) && decide (w.dst.code ≤ 13) && !(w.dst.isInt && w.sat)
/-- Pairings of CVT.MX (R231). -/
def ConvWord.mxOk (w : ConvWord) : Bool :=
  (w.src.isElem && w.dst.isFloat && !w.sat) || (w.src.isFloat && w.dst.isElem)
/-- Pairings of QSCALE (R231). -/
def ConvWord.scaleOk (w : ConvWord) : Bool := w.src.isFloat && w.dst.isElem && w.rnd == .rn && !w.sat
/-- Pairings of QBLK (R231). -/
def ConvWord.qblkOk (w : ConvWord) : Bool := w.src.isFloat && w.dst.isBlock && !w.sat
/-- Pairings of QDEC (R231). -/
def ConvWord.qdecOk (w : ConvWord) : Bool := w.src.isBlock && w.dst.isFloat && !w.sat

/-- R132: a special register number whose special is 64 bits wide. -/
def special64 (n : BitVec 6) : Bool := n == 13 || n == 21

/-- The subcodes of R135 that the instruction meets by its own fields. -/
def Instr.staticSubs : Instr → List Nat
  | .iadd p d a b t | .isub p d a b t | .iaddSat p d a b t | .isubSat p d a b t
  | .imul p d a b t | .imulh p d a b t | .imin p d a b t | .imax p d a b t
  | .and p d a b t | .or p d a b t | .xor p d a b t | .andn p d a b t => intSubs p d a b t.nregs t.nregs t.nregs
  | .shl p d a b t | .shr p d a b t | .sar p d a b t | .rot p d a b t
  | .bfx p d a b t => intSubs p d a b t.nregs t.nregs 1
  | .iaddc p d a b | .isubb p d a b => intSubs p d a b 2 1 1
  | .imad p d a b c t => p.ok ++ regs5 d t.nregs ++ regs5 a t.nregs ++ regs5 b t.nregs ++ regs5 c t.nregs
  | .not p d a f t | .iabs p d a f t | .ineg p d a f t | .brev p d a f t => unSubs p d a f t.nregs t.nregs
  | .popc p d a f t | .clz p d a f t => unSubs p d a f 1 t.nregs
  | .mov p d b t => b.subs p t.nregs ++ regs5 d t.nregs
  | .iset p _ a b _ _ t => p.ok ++ regs5 a t.nregs ++ regs5 b t.nregs
  | .bfi p .. | .perm p .. | .sel p .. | .lea p .. | .movi p .. | .moviHi p .. | .iaddImm p .. | .isubImm p ..
  | .andImm p .. | .orImm p .. | .xorImm p .. | .shlImm p .. | .shrImm p .. | .sarImm p .. | .rotImm p ..
  | .imulImm p .. | .fadd p .. | .fsub p .. | .fmul p .. | .ffma p .. | .fmin p .. | .fmax p .. | .fset p ..
  | .frnd p .. | .fclass p .. | .rcp p .. | .rsq p .. | .sqrt p .. | .ex2 p .. | .lg2 p .. | .sin p .. | .cos p ..
  | .tanh p .. | .fdivs p .. | .hadd2 p .. | .hmul2 p .. | .hfma2 p .. => p.ok
  | .cvt p _ _ w => p.ok ++ need w.cvtOk 2
  | .cvtMx p _ _ _ w => p.ok ++ need w.mxOk 2
  | .qblk p _ _ w => p.ok ++ need w.qblkOk 2
  | .qdec p _ _ w => p.ok ++ need w.qdecOk 2
  | .qscale p _ _ w => p.ok ++ need w.scaleOk 2
  | .shfl p .. | .vote p .. => p.ok
  | .ballot p d _ => p.ok ++ regs5 d 4
  | .matchLane p _ a wide => p.ok ++ regs5 a (if wide then 2 else 1)
  | .scan p _ _ _ o t | .redux p _ _ o t => p.ok ++ need ((o == .fadd) == (t == .f32)) 2
  | .bmand p d _ _ => p.ok ++ regs5 d 2
  | .ld f w =>
      memSubs f w [.g, .x, .c, .k] [.plain, .acq] (.pred :: smallSizes) (f.size == .b1 || f.size == .b2) false ++
      (if f.size == .pred then need (f.d.toNat < 8) 3 else regs5 f.d f.size.nregs)
  | .st f w => memSubs f w [.g, .x, .k] [.plain, .rel] smallSizes false false ++ regs5 f.d f.size.nregs
  | .lda f w => memSubs f w [.g] [.plain] smallSizes false true
  | .ldw f w => memSubs f w [.w] [.plain] smallSizes false false ++ regs5 f.d f.size.nregs
  | .atom f w => atomSubs f w [.plain, .acq, .rel, .acqrel] false
  | .red f w => atomSubs f w [.plain, .rel] true
  | .pref f w => memSubs f w [.g] [.plain] [.b1, .b2] false false ++ need (f.d == 0) 3
  | .cctl f w => memSubs f w [.g] [.plain] smallSizes false false ++ need (f.d.toNat < 4) 2 ++
      need (f.size == .b1 && f.hint == .normal) 3
  | .cpy e | .cpyTx e | .cpyFo e | .cpyTxFo e | .ldws e | .ldwsW e | .enct e | .enctAuto e | .accrd e | .accwr e
  | .accz e | .accsc e | .kvfork e | .kvext e | .kvcow e | .kvfree e | .coll e => e.p.ok
  | .mma e _ | .mmaChain e _ | .mmaSmx e _ => e.p.ok
  | .swapw p _ _ => p.ok
  | .xlat p _ _ v | .xlatWr p _ _ v => p.ok ++ regs5 v 2
  | .binit p .. | .bretire p .. | .arrive p .. | .expect p .. | .waitph p .. | .testph p .. | .seal p
  | .waitb p _ | .waitt p _ | .parkX p .. | .fence p _ | .qfence p _ | .xfence p _ | .acq p _ | .rel p _
  | .bind p .. => p.ok
  | .parkG p _ a _ | .unbind p _ a => p.ok ++ need (a.toNat % 2 == 0 && decide (a.toNat ≤ 28)) 6
  | .bra p _ | .nop p | .brx p _ | .exit p | .trap p _ => p.ok
  | .srd p d f n => (if f then p.none else p.ok) ++ (if special64 n then regs5 d 2 else [])
  | .submit _ a _ | .launch _ a _ => regs5 a 2
  | .call v _ | .callx v _ => need (v != 0) 2
  | .brc .. | .ret | .tret | .trig | .waitdep | .switchpt _ | .step | .beat | .reggive _
  | .regclaim .. | .keydrop _ => []
  | .swr a n => if special64 n then regs5 a 2 else []
  | .segset a g => need (g.toNat ≤ 4) 2 ++ need (a.toNat % 4 == 0 && decide (a.toNat ≤ 24)) 6
  | .spillf a _ | .fillf a _ => need (a.toNat % 2 == 0 && decide (a.toNat ≤ 28)) 6
  | .ctxsv _ a | .ctxld _ a | .tlbinv a | .freeze _ a | .thaw _ a => regs5 a 4
  | .perfsel d _ _ => need (d.toNat % 2 == 0 && decide (d.toNat ≤ 28)) 6
  | .movLong .. => []
  | .clauseEntry | .loadComplete .. | .ldaLanePerform .. | .registerWrite .. | .queueEnable .. | .queueDisable ..
  | .reserveIndexRead .. | .doorbell .. | .launchCommand .. | .taskCommand .. | .signal .. | .cadd .. | .cset ..
  | .wsload .. | .hold .. | .holdRelease .. | .queueResume .. | .counterApertureWrite .. | .heldCancelDelivery
  | .dispatchStep .. | .keyGrant .. | .warpRelease .. | .entryAged .. | .placementWaitLimit ..
  | .preemptionDelayExpiry .. | .readmissionDelayExpiry .. | .switchComplete .. | .preemptionTakeEffect ..
  | .contextSaveComplete .. | .watchdogFire .. | .invalidateTranslations .. | .cleanAndInvalidate .. | .setPacked ..
  | .setUnpacked .. | .retryMiss .. | .declineMiss .. | .maintenanceComplete | .wsRefreshWindow ..
  | .wsloadCopyStart .. | .wsloadComplete .. | .copyStart .. | .granuleLand .. | .engineCommandStart ..
  | .engineCommandComplete .. | .pageUnitOperation .. | .kvcowCopyComplete .. | .parkWake .. | .warpRetire ..
  | .blockRetire .. | .taskRetire .. | .drainSweepEnd .. | .freezeRequest .. | .thawRequest .. | .abortRequest ..
  | .preemptRequest .. | .heldRequestApply .. | .faultRecordAppend .. | .faultInterrupt | .collStepBegin ..
  | .chunkTransfer .. | .inboundChunk .. | .collComplete .. | .collTimeout .. | .collAbort .. | .inboundRequest ..
  | .cxlMemRequest .. | .cxlSnoop .. | .cxlLinkDown | .linkDown .. | .linkUp .. | .packageReset | .loadFirmware ..
  | .firmwareVerifyDone | .loadBlob .. | .blobVerifyDone | .extendMeasurement .. | .requestQuote .. | .quoteDone
  | .functionReady .. | .throttle | .criticalTemperature | .remoteRefusal .. | .throttleEnd => []

/-- The lowest of a list of subcodes (R135: the lowest subcode is reported). -/
def lowestSub : List Nat → Option Nat
  | [] => none
  | k :: ks => match lowestSub ks with
    | none => some k
    | some j => some (min k j)

/-- An instruction is well formed when its own fields meet no condition of R135. -/
def Instr.WellFormed (i : Instr) : Bool := !i.isEvent && i.staticSubs.isEmpty

end Sys2Proof
end

