-- ==== Sys2Proof/Decode.lean ====
section
/-! DEFINITION. Decoding of instruction words (R112, R116 to R135, R157, R158, R183, R197, R231, R339, R416) and the
encoder. Decoding is total: a word is an instruction, or it is refused with the subcode of R135 and, where its fields
can still be read, the instruction they spell. -/

namespace Sys2Proof

/-! ## Fields of a word -/

/-- `n` bits of `w` from bit `lo`. -/
abbrev fld (w : Word) (lo n : Nat) : BitVec n := w.extractLsb' lo n

/-- The major opcode (R118). -/
def major (w : Word) : BitVec 6 := fld w 26 6
/-- The predicate field (R118). -/
def predOf (w : Word) : Pred := ⟨(fld w 25 1) == 1, fld w 22 3⟩
def fD (w : Word) : Reg5 := fld w 17 5
def fA (w : Word) : Reg5 := fld w 12 5
def fB (w : Word) : Reg5 := fld w 7 5
def fC (w : Word) : Reg5 := fld w 2 5
def fImm8 (w : Word) : BitVec 8 := fld w 4 8

/-! ## Codes -/

def Pred.code (p : Pred) : BitVec 4 := (BitVec.ofBool p.neg) ++ p.idx

def IntTy.code : IntTy → BitVec 3
  | .n32 => 0 | .i32 => 1 | .n64 => 2 | .i64 => 3 | .n16 => 4 | .i16 => 5 | .n8 => 6 | .i8 => 7
def intTyOf (c : BitVec 3) : IntTy :=
  match c.toNat with
  | 0 => .n32 | 1 => .i32 | 2 => .n64 | 3 => .i64 | 4 => .n16 | 5 => .i16 | 6 => .n8 | _ => .i8

def WideTy.code : WideTy → BitVec 2
  | .n32 => 0 | .i32 => 1 | .n64 => 2 | .i64 => 3
def wideTyOf (c : BitVec 2) : WideTy :=
  match c.toNat with | 0 => .n32 | 1 => .i32 | 2 => .n64 | _ => .i64

def Rnd.code : Rnd → BitVec 2
  | .rn => 0 | .rz => 1 | .rm => 2 | .rp => 3
def rndOf (c : BitVec 2) : Rnd :=
  match c.toNat with | 0 => .rn | 1 => .rz | 2 => .rm | _ => .rp

def FltTy.code : FltTy → BitVec 2
  | .f32 => 0 | .f16 => 1 | .bf16 => 2
def fltTyOf (c : BitVec 2) : Option FltTy :=
  match c.toNat with | 0 => some .f32 | 1 => some .f16 | 2 => some .bf16 | _ => none

def PairTy.code : PairTy → BitVec 2
  | .f16 => 0 | .bf16 => 1
def pairTyOf (c : BitVec 2) : Option PairTy :=
  match c.toNat with | 0 => some .f16 | 1 => some .bf16 | _ => none

def ICond.code : ICond → BitVec 3
  | .eq => 0 | .ne => 1 | .lt => 2 | .le => 3 | .gt => 4 | .ge => 5
def icondOf (c : BitVec 3) : Option ICond :=
  match c.toNat with
  | 0 => some .eq | 1 => some .ne | 2 => some .lt | 3 => some .le | 4 => some .gt | 5 => some .ge | _ => none

def FCond.code : FCond → BitVec 3
  | .eq => 0 | .ne => 1 | .lt => 2 | .le => 3 | .gt => 4 | .ge => 5 | .unord => 6 | .ord => 7
def fcondOf (c : BitVec 3) : FCond :=
  match c.toNat with
  | 0 => .eq | 1 => .ne | 2 => .lt | 3 => .le | 4 => .gt | 5 => .ge | 6 => .unord | _ => .ord

def ShflMode.code : ShflMode → BitVec 2
  | .idx => 0 | .up => 1 | .down => 2 | .xor => 3
def shflModeOf (c : BitVec 2) : ShflMode :=
  match c.toNat with | 0 => .idx | 1 => .up | 2 => .down | _ => .xor

def SegW.code : SegW → BitVec 3
  | .s4 => 0 | .s8 => 1 | .s16 => 2 | .s32 => 3 | .s64 => 4 | .s128 => 5
def segWOf (c : BitVec 3) : Option SegW :=
  match c.toNat with
  | 0 => some .s4 | 1 => some .s8 | 2 => some .s16 | 3 => some .s32 | 4 => some .s64 | 5 => some .s128 | _ => none

def VoteMode.code : VoteMode → BitVec 3
  | .every => 0 | .some => 1 | .same => 2 | .odd => 3
def voteModeOf (c : BitVec 3) : Option VoteMode :=
  match c.toNat with
  | 0 => some .every | 1 => some .some | 2 => some .same | 3 => some .odd | _ => none

def LaneOp.code : LaneOp → BitVec 3
  | .add => 0 | .min => 1 | .max => 2 | .and => 3 | .or => 4 | .xor => 5 | .fadd => 6
def laneOpOf (c : BitVec 3) : Option LaneOp :=
  match c.toNat with
  | 0 => some .add | 1 => some .min | 2 => some .max | 3 => some .and | 4 => some .or | 5 => some .xor
  | 6 => some .fadd | _ => none

def LaneTy.code : LaneTy → BitVec 2
  | .n32 => 0 | .i32 => 1 | .f32 => 2
def laneTyOf (c : BitVec 2) : Option LaneTy :=
  match c.toNat with | 0 => some .n32 | 1 => some .i32 | 2 => some .f32 | _ => none

/-- Format codes (R215). -/
def fmtOf (c : Nat) : Option Fmt :=
  match c with
  | 0 => some .f32 | 1 => some .f16 | 2 => some .bf16 | 3 => some .i8 | 4 => some .n8 | 5 => some .i16
  | 6 => some .n16 | 7 => some .i32 | 8 => some .n32 | 9 => some .e4m3 | 10 => some .e5m2 | 11 => some .e3m2
  | 12 => some .e2m3 | 13 => some .e2m1 | 14 => some .e8m0 | 16 => some .w3 | 17 => some .w4 | 18 => some .w8
  | _ => none

def Space.code : Space → BitVec 3
  | .g => 0 | .x => 1 | .w => 2 | .c => 3 | .k => 4
def spaceOf (c : BitVec 3) : Option Space :=
  match c.toNat with
  | 0 => some .g | 1 => some .x | 2 => some .w | 3 => some .c | 4 => some .k | _ => none

def Ord.code : Ord → BitVec 2
  | .plain => 0 | .acq => 1 | .rel => 2 | .acqrel => 3
def ordOf (c : BitVec 2) : Ord :=
  match c.toNat with | 0 => .plain | 1 => .acq | 2 => .rel | _ => .acqrel

def Scope.code : Scope → BitVec 3
  | .w => 0 | .b => 1 | .d => 2 | .p => 3 | .n => 4 | .y => 5
/-- Scope codes; 6 and above are reserved (R122, R340). -/
def scopeOf (c : Nat) : Option Scope :=
  match c with
  | 0 => some .w | 1 => some .b | 2 => some .d | 3 => some .p | 4 => some .n | 5 => some .y | _ => none

def MSize.code : MSize → BitVec 3
  | .b1 => 0 | .b2 => 1 | .b4 => 2 | .b8 => 3 | .b16 => 4 | .pred => 5
def msizeOf (c : BitVec 3) : Option MSize :=
  match c.toNat with
  | 0 => some .b1 | 1 => some .b2 | 2 => some .b4 | 3 => some .b8 | 4 => some .b16 | 5 => some .pred | _ => none

def Hint.code : Hint → BitVec 2
  | .normal => 0 | .stream => 1 | .keep => 2 | .nol1 => 3
def hintOf (c : BitVec 2) : Hint :=
  match c.toNat with | 0 => .normal | 1 => .stream | 2 => .keep | _ => .nol1

def AtomOp.code : AtomOp → BitVec 5
  | .add32 => 0 | .add64 => 1 | .fadd => 2 | .minI32 => 3 | .minN32 => 4 | .maxI32 => 5 | .maxN32 => 6
  | .minI64 => 7 | .minN64 => 8 | .maxI64 => 9 | .maxN64 => 10 | .and32 => 11 | .or32 => 12 | .xor32 => 13
  | .and64 => 14 | .or64 => 15 | .xor64 => 16 | .exch32 => 17 | .exch64 => 18 | .cas32 => 19 | .cas64 => 20
def atomOpOf (c : BitVec 5) : Option AtomOp :=
  match c.toNat with
  | 0 => some .add32 | 1 => some .add64 | 2 => some .fadd | 3 => some .minI32 | 4 => some .minN32
  | 5 => some .maxI32 | 6 => some .maxN32 | 7 => some .minI64 | 8 => some .minN64 | 9 => some .maxI64
  | 10 => some .maxN64 | 11 => some .and32 | 12 => some .or32 | 13 => some .xor32 | 14 => some .and64
  | 15 => some .or64 | 16 => some .xor64 | 17 => some .exch32 | 18 => some .exch64 | 19 => some .cas32
  | 20 => some .cas64 | _ => none

/-! ## Formats (R119) -/

def fmtA (mj : BitVec 6) (p : BitVec 4) (d a b : BitVec 5) (minor : BitVec 7) : Word := mj ++ p ++ d ++ a ++ b ++ minor
def fmtB (mj : BitVec 6) (p : BitVec 4) (d a : BitVec 5) (i : BitVec 8) (minor : BitVec 4) : Word :=
  mj ++ p ++ d ++ a ++ i ++ minor
def fmtC (mj : BitVec 6) (p : BitVec 4) (d a b c : BitVec 5) (minor : BitVec 2) : Word :=
  mj ++ p ++ d ++ a ++ b ++ c ++ minor
def fmtI (mj : BitVec 6) (p : BitVec 4) (d : BitVec 5) (i : BitVec 16) (minor : BitVec 1) : Word :=
  mj ++ p ++ d ++ i ++ minor
def fmtM (mj : BitVec 6) (f : MFields) : Word :=
  mj ++ f.p.code ++ f.d ++ f.a ++ f.la ++ f.sw ++ f.size.code ++ f.hint.code
def fmtE (mj : BitVec 6) (e : EFields) (minor : BitVec 3) (v : Reg5) : Word :=
  mj ++ e.p.code ++ e.t ++ e.s ++ (0 : BitVec 1) ++ e.la ++ minor ++ v
def fmtS (d a : BitVec 5) (n o : BitVec 6) : Word := (0x3C : BitVec 6) ++ (7 : BitVec 4) ++ d ++ a ++ n ++ o

/-! ## Literals and places in a clause -/

/-- Does the word carry a literal word? (R120) -/
def hasLiteral (w : Word) : Bool :=
  let m := (major w).toNat
  let mode := (fld w 5 2).toNat
  if [0x00, 0x01, 0x03, 0x04, 0x05, 0x06, 0x08].contains m then mode == 3
  else if [0x10, 0x11, 0x12, 0x14, 0x15, 0x18, 0x19, 0x1C].contains m then mode == 2
  else m == 0x1B || (0x20 ≤ m && m ≤ 0x27) || m == 0x3D

/-- The clause-ending instructions (R115): BRA, BRC, CALL, BRX, CALLX, RET, EXIT, TRAP, TRET, SWITCHPT, STEP. -/
def endsClause (w : Word) : Bool :=
  match (major w).toNat with
  | 0x38 | 0x39 | 0x3A => true
  | 0x3B => [1, 2, 3, 4, 5, 6, 0xC, 0xD].contains (fld w 0 7).toNat
  | _ => false

/-- The suspending instructions (R115): WAITPH, WAITB, WAITT, PARK, WAITDEP. -/
def suspends (w : Word) : Bool :=
  match (major w).toNat with
  | 0x31 => fld w 0 3 == 0
  | 0x32 => [1, 2].contains (fld w 0 4).toNat
  | 0x33 => [0, 1].contains (fld w 0 4).toNat
  | 0x3B => fld w 0 7 == 0xB
  | _ => false

/-- R114: the class a major needs, 0 for the general ones and for 0x3E and 0x3F. -/
def classOf (m : Nat) : Nat :=
  if 0x20 ≤ m && m ≤ 0x27 then 1 else if 0x28 ≤ m && m ≤ 0x2F then 2
  else if 0x30 ≤ m && m ≤ 0x37 then 3 else if m == 0x3C then 4 else 0

/-! ## Clause headers -/

/-- The fields of a clause header (R112). -/
structure Header where
  prio   : BitVec 8
  tokens : BitVec 8
  ldWait : Bool
  stWait : Bool
  cls    : BitVec 4
  n      : BitVec 4
  deriving DecidableEq, Repr, Inhabited

/-- R112: a header, when the marker is 0b111110. -/
def headerOf (w : Word) : Option Header :=
  if fld w 26 6 == 0x3E then
    some ⟨fld w 18 8, fld w 10 8, fld w 9 1 == 1, fld w 8 1 == 1, fld w 4 4, fld w 0 4⟩
  else none

def Header.encode (h : Header) : Word :=
  (0x3E : BitVec 6) ++ h.prio ++ h.tokens ++ BitVec.ofBool h.ldWait ++ BitVec.ofBool h.stWait ++ h.cls ++ h.n

/-- The first failing condition of R116 among the words from index `k` on: its word index and subcode. `k` counts from 1,
`first` is true at the first instruction, `lit` when the word is the literal of the instruction before it. -/
def clauseWordsCheck (cls : Nat) (k : Nat) (first lit : Bool) : List Word → Option (Nat × Nat)
  | [] => none
  | w :: rest =>
    if lit then clauseWordsCheck cls (k + 1) false false rest
    else
      let c := classOf (major w).toNat
      let l := hasLiteral w
      if c != 0 && cls != c && cls != 5 then some (k, 3)
      else if endsClause w && !(rest.drop (if l then 1 else 0)).isEmpty then some (k, 4)
      else if suspends w && !first then some (k, 5)
      else if l && rest.isEmpty then some (k, 6)
      else clauseWordsCheck cls (k + 1) false l rest

/-- R116: the condition a clause meets at the lowest word index, then the lowest subcode: (word index, subcode). -/
def clauseCheck (h : Header) (words : List Word) : Option (Nat × Nat) :=
  if h.n == 0 then some (0, 1)
  else if decide (6 ≤ h.cls.toNat) then some (0, 2)
  else clauseWordsCheck h.cls.toNat 1 true false words

/-! ## Reading an instruction's fields -/

/-- The fields of a word, or the subcode that leaves none (R135: 0x01, 0x02, 0x04, 0x05). -/
abbrev Parsed := Except Nat Instr

/-- A reserved code (R135, subcode 0x02). -/
def res : Parsed := .error 2

def orRes {α : Type} (o : Option α) (f : α → Instr) : Parsed :=
  match o with
  | some x => .ok (f x)
  | none => res

/-- The b operand of an integer A-format instruction by file mode (R126). -/
def intBOf (w lit : Word) : IntB :=
  match (fld w 5 2).toNat with
  | 0 => .thread (fB w) | 1 => .uni (fB w) | 2 => .allUni (fB w) | _ => .lit lit

/-- The b operand by source mode (R127); mode 11 is reserved. -/
def fltBOf (w lit : Word) : Option FltB :=
  match (fld w 5 2).toNat with
  | 0 => some (.thread (fB w)) | 1 => some (.uni (fB w)) | 2 => some (.lit lit) | _ => none

/-- Unary instructions accept file modes 00 and 10 only (R126). -/
def unFileOf (w : Word) : Option UnFile :=
  match (fld w 5 2).toNat with
  | 0 => some .thread | 2 => some .uni | _ => none

def intParse (mk : Pred → Reg5 → Reg5 → IntB → IntTy → Instr) (w lit : Word) : Parsed :=
  .ok (mk (predOf w) (fD w) (fA w) (intBOf w lit) (intTyOf (fld w 2 3)))

def unParse (mk : Pred → Reg5 → Reg5 → UnFile → IntTy → Instr) (w : Word) : Parsed :=
  orRes (unFileOf w) fun f => mk (predOf w) (fD w) (fA w) f (intTyOf (fld w 2 3))

/-- IADDC and ISUBB take the type .n32 only (R183). -/
def carryParse (mk : Pred → Reg5 → Reg5 → IntB → Instr) (w lit : Word) : Parsed :=
  if fld w 2 3 == 0 then .ok (mk (predOf w) (fD w) (fA w) (intBOf w lit)) else res

def immParse (mk : Pred → Reg5 → Reg5 → BitVec 8 → Instr) (w : Word) : Parsed :=
  .ok (mk (predOf w) (fD w) (fA w) (fImm8 w))

def fltParse (mk : Pred → Reg5 → Reg5 → FltB → Rnd → Bool → FltTy → Instr) (w lit : Word) : Parsed :=
  match fltBOf w lit, fltTyOf (fld w 0 2) with
  | some b, some t => .ok (mk (predOf w) (fD w) (fA w) b (rndOf (fld w 3 2)) (fld w 2 1 == 1) t)
  | _, _ => res

def minMaxParse (mk : Pred → Reg5 → Reg5 → FltB → Bool → FltTy → Instr) (w lit : Word) : Parsed :=
  match fltBOf w lit, fltTyOf (fld w 0 2) with
  | some b, some t => .ok (mk (predOf w) (fD w) (fA w) b (fld w 2 1 == 1) t)
  | _, _ => res

def transParse (mk : Pred → Reg5 → Reg5 → Bool → Instr) (w : Word) : Parsed :=
  .ok (mk (predOf w) (fD w) (fA w) (fld w 1 1 == 1))

def pairParse (mk : Pred → Reg5 → Reg5 → FltB → Rnd → PairTy → Instr) (w lit : Word) : Parsed :=
  match fltBOf w lit, pairTyOf (fld w 0 2) with
  | some b, some t => .ok (mk (predOf w) (fD w) (fA w) b (rndOf (fld w 3 2)) t)
  | _, _ => res

/-- The conversion word (R127, R231); bits 17:0 are compared by the round trip. -/
def convWordOf (lit : Word) : Option ConvWord :=
  match fmtOf (fld lit 27 5).toNat, fmtOf (fld lit 22 5).toNat with
  | some d, some s => some ⟨d, s, rndOf (fld lit 20 2), fld lit 19 1 == 1, fld lit 18 1 == 1⟩
  | _, _ => none

def mFieldsOf (w : Word) : Option MFields :=
  match msizeOf (fld w 2 3) with
  | some z => some ⟨predOf w, fD w, fA w, fld w 8 4, fld w 5 3, z, hintOf (fld w 0 2)⟩
  | none => none

/-- R122: the base of an address word; bits 27:22 are zero without one. -/
def baseOf (lit : Word) : Option Reg6 := if fld lit 28 1 == 1 then some (fld lit 22 6) else none

def addrWordOf (lit : Word) : Option AddrWord :=
  match spaceOf (fld lit 29 3), scopeOf (fld lit 16 3).toNat with
  | some sp, some sc => some ⟨sp, baseOf lit, fld lit 21 1 == 1, ordOf (fld lit 19 2), sc, fld lit 0 16⟩
  | _, _ => none

def atomWordOf (lit : Word) : Option AtomWord :=
  match spaceOf (fld lit 29 3), scopeOf (fld lit 16 3).toNat, atomOpOf (fld lit 11 5) with
  | some sp, some sc, some op => some ⟨sp, baseOf lit, ordOf (fld lit 19 2), sc, op, fld lit 0 11⟩
  | _, _, _ => none

def memParse (mk : MFields → AddrWord → Instr) (w lit : Word) : Parsed :=
  match mFieldsOf w, addrWordOf lit with
  | some f, some a => .ok (mk f a)
  | _, _ => res

def atomParse (mk : MFields → AtomWord → Instr) (w lit : Word) : Parsed :=
  match mFieldsOf w, atomWordOf lit with
  | some f, some a => .ok (mk f a)
  | _, _ => res

def eFieldsOf (w : Word) : EFields := ⟨predOf w, fld w 19 3, fld w 13 6, fld w 8 4⟩
def fV (w : Word) : Reg5 := fld w 0 5

/-- The object named by minor bit 3 (R130, R339). -/
def barOf (w : Word) : BarObj := if fld w 3 1 == 1 then .hw (fImm8 w) else .slot (fA w) (fImm8 w)

def xsrcOf (w : Word) : XSrc := if fld w 21 1 == 1 then .uni (fA w) else .thread (fA w)

/-- Major 0x3B by its op (R131, R158). -/
def parse3B (w : Word) : Parsed :=
  let p := predOf w
  match (fld w 0 7).toNat with
  | 0x00 => .ok (.nop p)
  | 0x01 => .ok (.brx p (xsrcOf w))
  | 0x02 => .ok (.callx (fld w 17 2) (xsrcOf w))
  | 0x03 => .ok .ret
  | 0x04 => .ok (.exit p)
  | 0x05 => .ok (.trap p (fld w 7 4))
  | 0x06 => .ok .tret
  | 0x07 => .ok (.srd p (fD w) (fld w 16 1 == 1) (fld w 7 6))
  | 0x08 => .ok (.submit (fD w) (fA w) (fB w))
  | 0x09 => .ok (.launch (fD w) (fA w) (fB w))
  | 0x0A => .ok .trig
  | 0x0B => .ok .waitdep
  | 0x0C => .ok (.switchpt (fld w 7 10))
  | 0x0D => .ok .step
  | 0x0E => .ok .beat
  | 0x0F => .ok (.reggive (fld w 7 6))
  | 0x10 => .ok (.regclaim (fld w 17 3) (fld w 7 6))
  | 0x11 => .ok (.keydrop (fA w))
  | _ => res

/-- Majors 0x28 to 0x2F by minor (R129). -/
def parseE (m : Nat) (w : Word) : Parsed :=
  let e := eFieldsOf w
  match m, (fld w 5 3).toNat with
  | 0x28, 0 => .ok (.cpy e) | 0x28, 1 => .ok (.cpyTx e) | 0x28, 2 => .ok (.cpyFo e) | 0x28, 3 => .ok (.cpyTxFo e)
  | 0x29, 0 => .ok (.ldws e) | 0x29, 1 => .ok (.ldwsW e) | 0x29, 2 => .ok (.swapw e.p e.t e.la)
  | 0x2A, 0 => .ok (.mma e (fV w)) | 0x2A, 1 => .ok (.mmaChain e (fV w)) | 0x2A, 2 => .ok (.mmaSmx e (fV w))
  | 0x2B, 0 => .ok (.enct e) | 0x2B, 1 => .ok (.enctAuto e)
  | 0x2C, 0 => .ok (.accrd e) | 0x2C, 1 => .ok (.accwr e) | 0x2C, 2 => .ok (.accz e) | 0x2C, 3 => .ok (.accsc e)
  | 0x2D, 0 => .ok (.xlat e.p e.s e.la (fV w)) | 0x2D, 1 => .ok (.xlatWr e.p e.s e.la (fV w))
  | 0x2E, 0 => .ok (.kvfork e) | 0x2E, 1 => .ok (.kvext e) | 0x2E, 2 => .ok (.kvcow e) | 0x2E, 3 => .ok (.kvfree e)
  | 0x2F, 0 => .ok (.coll e)
  | _, _ => res

/-- Majors 0x30 to 0x36 by minor (R130, R339, R340). -/
def parseSync (m : Nat) (w : Word) : Parsed :=
  let p := predOf w
  let sc := scopeOf (fImm8 w).toNat
  match m, (fld w 0 3).toNat, (fld w 0 4).toNat with
  | 0x30, 0, _ => .ok (.binit p (barOf w) (fD w))
  | 0x30, 1, _ => .ok (.bretire p (fA w) (fImm8 w))
  | 0x30, 2, _ => .ok (.arrive p (barOf w) (fD w))
  | 0x30, 3, _ => .ok (.expect p (barOf w) (fD w))
  | 0x31, 0, _ => .ok (.waitph p (barOf w) (fD w))
  | 0x31, 1, _ => .ok (.testph p (barOf w) (fld w 17 3))
  | 0x32, _, 0 => .ok (.seal p)
  | 0x32, _, 1 => .ok (.waitb p (fImm8 w))
  | 0x32, _, 2 => .ok (.waitt p (fImm8 w))
  | 0x33, _, 0 => .ok (.parkG p (fD w) (fA w) (fImm8 w))
  | 0x33, _, 1 => .ok (.parkX p (fD w) (fA w) (fImm8 w))
  | 0x34, _, 0 => orRes sc (.fence p)
  | 0x34, _, 1 => .ok (.qfence p (fImm8 w))
  | 0x34, _, 2 => orRes sc (.xfence p)
  | 0x35, _, 0 => orRes sc (.acq p)
  | 0x35, _, 1 => orRes sc (.rel p)
  | 0x36, _, 0 => .ok (.bind p (fD w) (fA w))
  | 0x36, _, 1 => .ok (.unbind p (fD w) (fA w))
  | _, _, _ => res

/-- Major 0x3C by system op (R133, R416). -/
def parseSys (w : Word) : Parsed :=
  let n : BitVec 6 := fld w 6 6
  match (fld w 0 6).toNat with
  | 0 => .ok (.swr (fA w) n)
  | 1 => .ok (.segset (fA w) (fld w 9 3))
  | 2 => .ok (.spillf (fA w) n)
  | 3 => .ok (.fillf (fA w) n)
  | 4 => .ok (.ctxsv (fD w) (fA w))
  | 5 => .ok (.ctxld (fD w) (fA w))
  | 6 => .ok (.tlbinv (fA w))
  | 7 => .ok (.freeze (fD w) (fA w))
  | 8 => .ok (.thaw (fD w) (fA w))
  | 9 => .ok (.perfsel (fD w) (fA w) n)
  | _ => res

/-- Majors 0x00 to 0x1F (R125 to R128). -/
def parseCompute (m : Nat) (w lit : Word) : Parsed :=
  let p := predOf w
  match m, (fld w 0 2).toNat with
  | 0x00, 0 => intParse .iadd w lit | 0x00, 1 => intParse .isub w lit
  | 0x00, 2 => intParse .iaddSat w lit | 0x00, 3 => intParse .isubSat w lit
  | 0x01, 0 => intParse .imul w lit | 0x01, 1 => intParse .imulh w lit
  | 0x01, 2 => intParse .imin w lit | 0x01, 3 => intParse .imax w lit
  | 0x02, _ => .ok (.imad p (fD w) (fA w) (fB w) (fC w) (wideTyOf (fld w 0 2)))
  | 0x03, 0 => intParse .and w lit | 0x03, 1 => intParse .or w lit
  | 0x03, 2 => intParse .xor w lit | 0x03, 3 => intParse .andn w lit
  | 0x04, 0 => unParse .not w | 0x04, 1 => unParse .iabs w
  | 0x04, 2 => unParse .ineg w | 0x04, 3 => unParse .popc w
  | 0x05, 0 => unParse .clz w | 0x05, 1 => unParse .brev w
  | 0x05, 2 => .ok (.mov p (fD w) (intBOf w lit) (intTyOf (fld w 2 3)))
  | 0x06, 0 => intParse .shl w lit | 0x06, 1 => intParse .shr w lit
  | 0x06, 2 => intParse .sar w lit | 0x06, 3 => intParse .rot w lit
  | 0x07, _ => orRes (icondOf (fld w 2 3)) fun c =>
      .iset p (fld w 17 3) (fA w) (fB w) (fld w 6 1 == 1) c (wideTyOf (fld w 0 2))
  | 0x08, 0 => intParse .bfx w lit | 0x08, 1 => carryParse .iaddc w lit | 0x08, 2 => carryParse .isubb w lit
  | 0x09, 0 => .ok (.bfi p (fD w) (fA w) (fB w) (fC w)) | 0x09, 1 => .ok (.perm p (fD w) (fA w) (fB w) (fC w))
  | 0x09, 2 => .ok (.sel p (fD w) (fA w) (fB w) (fld w 2 3)) | 0x09, 3 => .ok (.lea p (fD w) (fA w) (fB w) (fC w))
  | 0x0A, 0 | 0x0A, 2 => .ok (.movi p (fD w) (fld w 1 16))
  | 0x0A, _ => .ok (.moviHi p (fD w) (fld w 1 16))
  | 0x0B, _ => match (fld w 0 4).toNat with
    | 0 => immParse .iaddImm w | 1 => immParse .isubImm w | 2 => immParse .andImm w | 3 => immParse .orImm w
    | 4 => immParse .xorImm w | 5 => immParse .shlImm w | 6 => immParse .shrImm w | 7 => immParse .sarImm w
    | 8 => immParse .rotImm w | 9 => immParse .imulImm w | _ => res
  | 0x10, _ => fltParse .fadd w lit
  | 0x11, _ => fltParse .fsub w lit
  | 0x12, _ => fltParse .fmul w lit
  | 0x13, _ => .ok (.ffma p (fD w) (fA w) (fB w) (fC w) (rndOf (fld w 0 2)))
  | 0x14, _ => match (fld w 3 2).toNat with
    | 0 => minMaxParse .fmin w lit | 1 => minMaxParse .fmax w lit | _ => res
  | 0x15, _ => match fltBOf w lit, fltTyOf (fld w 0 2) with
    | some b, some t => .ok (.fset p (fld w 17 3) (fA w) b (fcondOf (fld w 2 3)) t)
    | _, _ => res
  | 0x16, _ => match (fld w 5 2).toNat, fltTyOf (fld w 0 2) with
    | 0, some t => .ok (.frnd p (fD w) (fA w) (rndOf (fld w 3 2)) (fld w 2 1 == 1) t)
    | 1, some t => .ok (.fclass p (fD w) (fA w) (fld w 2 1 == 1) t)
    | _, _ => res
  | 0x17, _ => match (fld w 2 3).toNat with
    | 0 => transParse .rcp w | 1 => transParse .rsq w | 2 => transParse .sqrt w | 3 => transParse .ex2 w
    | 4 => transParse .lg2 w | 5 => transParse .sin w | 6 => transParse .cos w | _ => transParse .tanh w
  | 0x18, _ => match fltBOf w lit, fltTyOf (fld w 0 2) with
    | some b, some .f32 => .ok (.fdivs p (fD w) (fA w) b (rndOf (fld w 3 2)) (fld w 2 1 == 1))
    | _, _ => res
  | 0x19, _ => if fld w 2 1 == 0 then pairParse .hadd2 w lit else pairParse .hmul2 w lit
  | 0x1A, _ => orRes (pairTyOf (fld w 0 2)) (.hfma2 p (fD w) (fA w) (fB w) (fC w))
  | 0x1B, _ => match (fld w 0 7).toNat with
    | 0 => orRes (convWordOf lit) (.cvt p (fD w) (fA w)) | 1 => orRes (convWordOf lit) (.cvtMx p (fD w) (fA w) (fB w))
    | 2 => orRes (convWordOf lit) (.qblk p (fD w) (fA w)) | 3 => orRes (convWordOf lit) (.qdec p (fD w) (fA w))
    | 4 => orRes (convWordOf lit) (.qscale p (fD w) (fA w)) | _ => res
  | 0x1C, _ => match fltBOf w lit, segWOf (fld w 0 3) with
    | some b, some s => .ok (.shfl p (fD w) (fA w) b (shflModeOf (fld w 3 2)) s)
    | _, _ => res
  | 0x1D, 0 => orRes (voteModeOf (fld w 2 3)) (.vote p (fld w 17 3) (fld w 12 3))
  | 0x1D, 1 => if fld w 2 3 == 0 then .ok (.ballot p (fD w) (fld w 12 3)) else res
  | 0x1D, 2 => match (fld w 2 3).toNat with
    | 0 => .ok (.matchLane p (fD w) (fA w) false) | 1 => .ok (.matchLane p (fD w) (fA w) true) | _ => res
  | 0x1E, _ => match laneOpOf (fld w 2 3), laneTyOf (fld w 0 2) with
    | some o, some t =>
      if fld w 6 1 == 0 then .ok (.scan p (fD w) (fA w) (fld w 5 1 == 1) o t) else .ok (.redux p (fD w) (fA w) o t)
    | _, _ => res
  | 0x1F, _ => if fld w 0 7 == 0 then .ok (.bmand p (fD w) (fA w) (fB w)) else res
  | _, _ => res

/-- The instruction that a word and its literal word spell (R125). -/
def parse (w lit : Word) : Parsed :=
  let m := (major w).toNat
  if (0x0C ≤ m && m ≤ 0x0F) || m == 0x37 then .error 1
  else if m == 0x3E then .error 4
  else if m == 0x3F then .error 5
  else if m ≤ 0x1F then parseCompute m w lit
  else if 0x28 ≤ m && m ≤ 0x2F then parseE m w
  else if 0x30 ≤ m && m ≤ 0x36 then parseSync m w
  else match m with
    | 0x20 => memParse .ld w lit | 0x21 => memParse .st w lit | 0x22 => memParse .lda w lit
    | 0x23 => memParse .ldw w lit | 0x24 => atomParse .atom w lit | 0x25 => atomParse .red w lit
    | 0x26 => memParse .pref w lit | 0x27 => memParse .cctl w lit
    | 0x38 => .ok (.bra (predOf w) (fld w 0 22))
    | 0x39 => .ok (.call (fld w 20 2) (fld w 0 20))
    | 0x3A => .ok (.brc (fD w) (fld w 0 17))
    | 0x3B => parse3B w
    | 0x3C => parseSys w
    | 0x3D => if fld lit 24 8 == 1 then .ok (.movLong (fld w 16 6) (fld w 10 6)) else res
    | _ => res

/-! ## The encoder -/

def FltB.mode : FltB → BitVec 2
  | .thread _ => 0 | .uni _ => 1 | .lit _ => 2
def FltB.field : FltB → Reg5
  | .thread b => b | .uni b => b | .lit _ => 0
def FltB.lits : FltB → List Word
  | .lit w => [w] | _ => []
def IntB.mode : IntB → BitVec 2
  | .thread _ => 0 | .uni _ => 1 | .allUni _ => 2 | .lit _ => 3
def IntB.field : IntB → Reg5
  | .thread b => b | .uni b => b | .allUni b => b | .lit _ => 0
def IntB.lits : IntB → List Word
  | .lit w => [w] | _ => []
def UnFile.mode : UnFile → BitVec 2
  | .thread => 0 | .uni => 2

def encInt (m : BitVec 6) (o : BitVec 2) (p : Pred) (d a : Reg5) (b : IntB) (t : IntTy) : List Word :=
  fmtA m p.code d a b.field (b.mode ++ t.code ++ o) :: b.lits
def encUn (m : BitVec 6) (o : BitVec 2) (p : Pred) (d a : Reg5) (f : UnFile) (t : IntTy) : List Word :=
  [fmtA m p.code d a 31 (f.mode ++ t.code ++ o)]
def encImm (o : BitVec 4) (p : Pred) (d a : Reg5) (i : BitVec 8) : List Word := [fmtB 0x0B p.code d a i o]
def encFlt (m : BitVec 6) (p : Pred) (d a : Reg5) (b : FltB) (r : Rnd) (f : Bool) (t : BitVec 2) : List Word :=
  fmtA m p.code d a b.field (b.mode ++ r.code ++ BitVec.ofBool f ++ t) :: b.lits
def encTrans (o : BitVec 3) (p : Pred) (d a : Reg5) (f : Bool) : List Word :=
  [fmtA 0x17 p.code d a 31 ((0 : BitVec 2) ++ o ++ BitVec.ofBool f ++ (0 : BitVec 1))]
def ConvWord.encode (w : ConvWord) : Word :=
  BitVec.ofNat 5 w.dst.code ++ BitVec.ofNat 5 w.src.code ++ w.rnd.code ++ BitVec.ofBool w.sat ++ BitVec.ofBool w.ftz ++
    (0 : BitVec 18)
def encConv (o : BitVec 7) (p : Pred) (d a b : Reg5) (w : ConvWord) : List Word := [fmtA 0x1B p.code d a b o, w.encode]
def encBase : Option Reg6 → BitVec 7
  | none => 0
  | some b => (1 : BitVec 1) ++ b
def AddrWord.encode (w : AddrWord) : Word :=
  w.space.code ++ encBase w.base ++ BitVec.ofBool w.sext ++ w.ord.code ++ w.scope.code ++ w.off
def AtomWord.encode (w : AtomWord) : Word :=
  w.space.code ++ encBase w.base ++ (0 : BitVec 1) ++ w.ord.code ++ w.scope.code ++ w.op.code ++ w.off
def BarObj.field (o : BarObj) : Reg5 := match o with | .slot a _ => a | .hw _ => 31
def BarObj.imm (o : BarObj) : BitVec 8 := match o with | .slot _ i => i | .hw n => n
def BarObj.bit (o : BarObj) : BitVec 1 := match o with | .slot .. => 0 | .hw _ => 1
def encBar (m : BitVec 6) (k : BitVec 3) (p : Pred) (o : BarObj) (d : Reg5) : List Word :=
  [fmtB m p.code d o.field o.imm (o.bit ++ k)]
def XSrc.bit (a : XSrc) : BitVec 1 := match a with | .thread _ => 0 | .uni _ => 1
def XSrc.field (a : XSrc) : Reg5 := match a with | .thread r => r | .uni r => r
def encE (m : BitVec 6) (k : BitVec 3) (e : EFields) (v : Reg5) : List Word := [fmtE m e k v]
/-- A word of major 0x3B: predicate, operand field 21:7, op (R131). -/
def enc3B (p : Pred) (f : BitVec 15) (o : BitVec 7) : List Word := [(0x3B : BitVec 6) ++ p.code ++ f ++ o]

/-- The words of an instruction (R119 to R134); events have none. -/
def encode : Instr → List Word
  | .iadd p d a b t => encInt 0x00 0 p d a b t
  | .isub p d a b t => encInt 0x00 1 p d a b t
  | .iaddSat p d a b t => encInt 0x00 2 p d a b t
  | .isubSat p d a b t => encInt 0x00 3 p d a b t
  | .imul p d a b t => encInt 0x01 0 p d a b t
  | .imulh p d a b t => encInt 0x01 1 p d a b t
  | .imin p d a b t => encInt 0x01 2 p d a b t
  | .imax p d a b t => encInt 0x01 3 p d a b t
  | .imad p d a b c t => [fmtC 0x02 p.code d a b c t.code]
  | .and p d a b t => encInt 0x03 0 p d a b t
  | .or p d a b t => encInt 0x03 1 p d a b t
  | .xor p d a b t => encInt 0x03 2 p d a b t
  | .andn p d a b t => encInt 0x03 3 p d a b t
  | .not p d a f t => encUn 0x04 0 p d a f t
  | .iabs p d a f t => encUn 0x04 1 p d a f t
  | .ineg p d a f t => encUn 0x04 2 p d a f t
  | .popc p d a f t => encUn 0x04 3 p d a f t
  | .clz p d a f t => encUn 0x05 0 p d a f t
  | .brev p d a f t => encUn 0x05 1 p d a f t
  | .mov p d b t => encInt 0x05 2 p d 31 b t
  | .shl p d a b t => encInt 0x06 0 p d a b t
  | .shr p d a b t => encInt 0x06 1 p d a b t
  | .sar p d a b t => encInt 0x06 2 p d a b t
  | .rot p d a b t => encInt 0x06 3 p d a b t
  | .iset p q a b u c t =>
      [fmtA 0x07 p.code ((0 : BitVec 2) ++ q) a b (BitVec.ofBool u ++ (0 : BitVec 1) ++ c.code ++ t.code)]
  | .bfx p d a b t => encInt 0x08 0 p d a b t
  | .iaddc p d a b => encInt 0x08 1 p d a b .n32
  | .isubb p d a b => encInt 0x08 2 p d a b .n32
  | .bfi p d a b c => [fmtC 0x09 p.code d a b c 0]
  | .perm p d a b c => [fmtC 0x09 p.code d a b c 1]
  | .sel p d a b n => [fmtC 0x09 p.code d a b ((0 : BitVec 2) ++ n) 2]
  | .lea p d a b n => [fmtC 0x09 p.code d a b n 3]
  | .movi p d i => [fmtI 0x0A p.code d i 0]
  | .moviHi p d i => [fmtI 0x0A p.code d i 1]
  | .iaddImm p d a i => encImm 0 p d a i
  | .isubImm p d a i => encImm 1 p d a i
  | .andImm p d a i => encImm 2 p d a i
  | .orImm p d a i => encImm 3 p d a i
  | .xorImm p d a i => encImm 4 p d a i
  | .shlImm p d a i => encImm 5 p d a i
  | .shrImm p d a i => encImm 6 p d a i
  | .sarImm p d a i => encImm 7 p d a i
  | .rotImm p d a i => encImm 8 p d a i
  | .imulImm p d a i => encImm 9 p d a i
  | .fadd p d a b r f t => encFlt 0x10 p d a b r f t.code
  | .fsub p d a b r f t => encFlt 0x11 p d a b r f t.code
  | .fmul p d a b r f t => encFlt 0x12 p d a b r f t.code
  | .ffma p d a b c r => [fmtC 0x13 p.code d a b c r.code]
  | .fmin p d a b f t => fmtA 0x14 p.code d a b.field (b.mode ++ (0 : BitVec 2) ++ BitVec.ofBool f ++ t.code) :: b.lits
  | .fmax p d a b f t => fmtA 0x14 p.code d a b.field (b.mode ++ (1 : BitVec 2) ++ BitVec.ofBool f ++ t.code) :: b.lits
  | .fset p q a b c t => fmtA 0x15 p.code ((0 : BitVec 2) ++ q) a b.field (b.mode ++ c.code ++ t.code) :: b.lits
  | .frnd p d a r f t => [fmtA 0x16 p.code d a 31 ((0 : BitVec 2) ++ r.code ++ BitVec.ofBool f ++ t.code)]
  | .fclass p d a f t => [fmtA 0x16 p.code d a 31 ((1 : BitVec 2) ++ (0 : BitVec 2) ++ BitVec.ofBool f ++ t.code)]
  | .rcp p d a f => encTrans 0 p d a f
  | .rsq p d a f => encTrans 1 p d a f
  | .sqrt p d a f => encTrans 2 p d a f
  | .ex2 p d a f => encTrans 3 p d a f
  | .lg2 p d a f => encTrans 4 p d a f
  | .sin p d a f => encTrans 5 p d a f
  | .cos p d a f => encTrans 6 p d a f
  | .tanh p d a f => encTrans 7 p d a f
  | .fdivs p d a b r f => encFlt 0x18 p d a b r f 0
  | .hadd2 p d a b r t => encFlt 0x19 p d a b r false t.code
  | .hmul2 p d a b r t => encFlt 0x19 p d a b r true t.code
  | .hfma2 p d a b c t => [fmtC 0x1A p.code d a b c t.code]
  | .cvt p d a w => encConv 0 p d a 31 w
  | .cvtMx p d a b w => encConv 1 p d a b w
  | .qblk p d a w => encConv 2 p d a 31 w
  | .qdec p d a w => encConv 3 p d a 31 w
  | .qscale p d a w => encConv 4 p d a 31 w
  | .shfl p d a b m w => fmtA 0x1C p.code d a b.field (b.mode ++ m.code ++ w.code) :: b.lits
  | .vote p q a m =>
      [fmtA 0x1D p.code ((0 : BitVec 2) ++ q) ((0 : BitVec 2) ++ a) 31 ((0 : BitVec 2) ++ m.code ++ (0 : BitVec 2))]
  | .ballot p d a => [fmtA 0x1D p.code d ((0 : BitVec 2) ++ a) 31 1]
  | .matchLane p d a wide =>
      [fmtA 0x1D p.code d a 31 ((0 : BitVec 4) ++ BitVec.ofBool wide ++ (2 : BitVec 2))]
  | .scan p d a e o t => [fmtA 0x1E p.code d a 31 ((0 : BitVec 1) ++ BitVec.ofBool e ++ o.code ++ t.code)]
  | .redux p d a o t => [fmtA 0x1E p.code d a 31 ((2 : BitVec 2) ++ o.code ++ t.code)]
  | .bmand p d a b => [fmtA 0x1F p.code d a b 0]
  | .ld f w => [fmtM 0x20 f, w.encode]
  | .st f w => [fmtM 0x21 f, w.encode]
  | .lda f w => [fmtM 0x22 f, w.encode]
  | .ldw f w => [fmtM 0x23 f, w.encode]
  | .atom f w => [fmtM 0x24 f, w.encode]
  | .red f w => [fmtM 0x25 f, w.encode]
  | .pref f w => [fmtM 0x26 f, w.encode]
  | .cctl f w => [fmtM 0x27 f, w.encode]
  | .cpy e => encE 0x28 0 e 31
  | .cpyTx e => encE 0x28 1 e 31
  | .cpyFo e => encE 0x28 2 e 31
  | .cpyTxFo e => encE 0x28 3 e 31
  | .ldws e => encE 0x29 0 e 31
  | .ldwsW e => encE 0x29 1 e 31
  | .swapw p t la => encE 0x29 2 ⟨p, t, 0, la⟩ 31
  | .mma e v => encE 0x2A 0 e v
  | .mmaChain e v => encE 0x2A 1 e v
  | .mmaSmx e v => encE 0x2A 2 e v
  | .enct e => encE 0x2B 0 e 31
  | .enctAuto e => encE 0x2B 1 e 31
  | .accrd e => encE 0x2C 0 e 31
  | .accwr e => encE 0x2C 1 e 31
  | .accz e => encE 0x2C 2 e 31
  | .accsc e => encE 0x2C 3 e 31
  | .xlat p s la v => encE 0x2D 0 ⟨p, 0, s, la⟩ v
  | .xlatWr p s la v => encE 0x2D 1 ⟨p, 0, s, la⟩ v
  | .kvfork e => encE 0x2E 0 e 31
  | .kvext e => encE 0x2E 1 e 31
  | .kvcow e => encE 0x2E 2 e 31
  | .kvfree e => encE 0x2E 3 e 31
  | .coll e => encE 0x2F 0 e 31
  | .binit p o d => encBar 0x30 0 p o d
  | .bretire p a i => [fmtB 0x30 p.code 31 a i 1]
  | .arrive p o d => encBar 0x30 2 p o d
  | .expect p o d => encBar 0x30 3 p o d
  | .waitph p o d => encBar 0x31 0 p o d
  | .testph p o q => encBar 0x31 1 p o ((0 : BitVec 2) ++ q)
  | .seal p => [fmtB 0x32 p.code 31 31 0 0]
  | .waitb p n => [fmtB 0x32 p.code 31 31 n 1]
  | .waitt p m => [fmtB 0x32 p.code 31 31 m 2]
  | .parkG p d a i => [fmtB 0x33 p.code d a i 0]
  | .parkX p d a i => [fmtB 0x33 p.code d a i 1]
  | .fence p s => [fmtB 0x34 p.code 31 31 (s.code.setWidth 8) 0]
  | .qfence p m => [fmtB 0x34 p.code 31 31 m 1]
  | .xfence p s => [fmtB 0x34 p.code 31 31 (s.code.setWidth 8) 2]
  | .acq p s => [fmtB 0x35 p.code 31 31 (s.code.setWidth 8) 0]
  | .rel p s => [fmtB 0x35 p.code 31 31 (s.code.setWidth 8) 1]
  | .bind p d a => [fmtB 0x36 p.code d a 0 0]
  | .unbind p d a => [fmtB 0x36 p.code d a 0 1]
  | .bra p o => [(0x38 : BitVec 6) ++ p.code ++ o]
  | .call v o => [(0x39 : BitVec 6) ++ (7 : BitVec 4) ++ v ++ o]
  | .brc c o => [(0x3A : BitVec 6) ++ (7 : BitVec 4) ++ c ++ o]
  | .nop p => enc3B p 0 0x00
  | .brx p a => enc3B p (a.bit ++ (0 : BitVec 4) ++ a.field ++ (0 : BitVec 5)) 0x01
  | .callx v a => enc3B .pt (a.bit ++ (0 : BitVec 2) ++ v ++ a.field ++ (0 : BitVec 5)) 0x02
  | .ret => enc3B .pt 0 0x03
  | .exit p => enc3B p 0 0x04
  | .trap p i => enc3B p ((0 : BitVec 11) ++ i) 0x05
  | .tret => enc3B .pt 0 0x06
  | .srd p d f n => enc3B p (d ++ BitVec.ofBool f ++ (0 : BitVec 3) ++ n) 0x07
  | .submit d a b => enc3B .pt (d ++ a ++ b) 0x08
  | .launch d a b => enc3B .pt (d ++ a ++ b) 0x09
  | .trig => enc3B .pt 0 0x0A
  | .waitdep => enc3B .pt 0 0x0B
  | .switchpt i => enc3B .pt ((0 : BitVec 5) ++ i) 0x0C
  | .step => enc3B .pt 0 0x0D
  | .beat => enc3B .pt 0 0x0E
  | .reggive n => enc3B .pt ((0 : BitVec 9) ++ n) 0x0F
  | .regclaim q n => enc3B .pt ((0 : BitVec 2) ++ q ++ (0 : BitVec 4) ++ n) 0x10
  | .keydrop a => enc3B .pt ((0 : BitVec 5) ++ a ++ (0 : BitVec 5)) 0x11
  | .swr a n => [fmtS 0 a n 0]
  | .segset a g => [fmtS 0 a (g ++ (0 : BitVec 3)) 1]
  | .spillf a n => [fmtS 0 a n 2]
  | .fillf a n => [fmtS 0 a n 3]
  | .ctxsv d a => [fmtS d a 0 4]
  | .ctxld d a => [fmtS d a 0 5]
  | .tlbinv a => [fmtS 0 a 0 6]
  | .freeze d a => [fmtS d a 0 7]
  | .thaw d a => [fmtS d a 0 8]
  | .perfsel d a n => [fmtS d a n 9]
  | .movLong d b => [(0x3D : BitVec 6) ++ (7 : BitVec 4) ++ d ++ b ++ (0 : BitVec 10), (1 : BitVec 8) ++ (0 : BitVec 24)]
  | _ => []

/-! ## Decoding -/

/-- What a word at an instruction position decodes to. -/
inductive Decoded where
  /-- a well-formed instruction -/
  | instr (i : Instr)
  /-- refused by the words alone with the lowest subcode of R135 they meet; the instruction is what the fields spell,
  kept because a condition of a lower subcode may lie in the registers it names (R135) -/
  | illegal (sub : Nat) (i : Option Instr)
  deriving DecidableEq, Repr

/-- Decode an instruction word; `lit` is the word after it, which counts only when the word carries a literal. A field
that the instruction does not use, or that must hold a fixed value, is checked by encoding what was read (R135, 0x03). -/
def decode (w lit : Word) : Decoded :=
  match parse w lit with
  | .error sub => .illegal sub none
  | .ok i =>
    let words := if hasLiteral w then [w, lit] else [w]
    match lowestSub (i.staticSubs ++ need (encode i == words) 3) with
    | some sub => .illegal sub (some i)
    | none => .instr i

/-- The instruction of a word numbered as spec/opcode_table.json numbers it: the first word in the low 32 bits, its
literal word above; bits above `nbits` are zero (the fixed interface). -/
def decodeTableWord (nbits w : Nat) : Option Instr :=
  let v := w % 2 ^ nbits
  match decode (BitVec.ofNat 32 v) (BitVec.ofNat 32 (v / 2 ^ 32)) with
  | .instr i => some i
  | .illegal _ _ => none

end Sys2Proof
end

