-- ==== Sys2Proof/Machine/Flags.lean ====
section
/-! DEFINITION. Exception classes (R155) and the exact values, roundings and encodings of the scalar, element and block
formats (R193 to R195, R215 to R223, R450). Everything here is exact arithmetic on integers. -/

namespace Sys2Proof

/-! ## Exception classes (R155) -/

/-- A set of exception classes in the layout of %fflags. -/
abbrev Exc := BitVec 5

def excNone : Exc := 0
def excInvalid : Exc := 1
def excDivZero : Exc := 2
def excOverflow : Exc := 4
def excUnderflow : Exc := 8
def excInexact : Exc := 16

def excIf (b : Bool) (e : Exc) : Exc := if b then e else 0

/-! ## Exact values (R222) -/

/-- An exact value: a NaN with its sign, whether it signals, and its payload aligned to the 22 bits below FP32's quiet
bit; an infinity; or (-1)^neg * m * 2^e. -/
inductive FVal where
  | nan (neg signalling : Bool) (payload : Nat)
  | inf (neg : Bool)
  | fin (neg : Bool) (m : Nat) (e : Int)
  deriving DecidableEq, Repr, Inhabited

def FVal.isNaN : FVal → Bool | .nan .. => true | _ => false
def FVal.isSNaN : FVal → Bool | .nan _ s _ => s | _ => false
def FVal.isInf : FVal → Bool | .inf _ => true | _ => false
def FVal.isZero : FVal → Bool | .fin _ 0 _ => true | _ => false
def FVal.sign : FVal → Bool | .nan n _ _ => n | .inf n => n | .fin n _ _ => n
/-- R194: the canonical NaN. -/
def FVal.canonical : FVal := .nan false false 0
def FVal.zero (neg : Bool) : FVal := .fin neg 0 0
/-- R222: quiet(x). -/
def FVal.quiet : FVal → FVal | .nan n _ p => .nan n false p | x => x
def FVal.negate : FVal → FVal
  | .nan n s p => .nan (!n) s p | .inf n => .inf (!n) | .fin n m e => .fin (!n) m e
/-- An integer as an exact value. -/
def FVal.ofInt (i : Int) : FVal := .fin (decide (i < 0)) i.natAbs 0
/-- x times 2^k, exactly. -/
def FVal.scale (x : FVal) (k : Int) : FVal :=
  match x with | .fin n m e => .fin n m (e + k) | y => y

/-- The integer value of m * 2^e in units of 2^u, for u at most e. -/
def inUnits (m : Nat) (e u : Int) : Nat := m <<< (e - u).toNat

/-- The signed integer value of a finite value in units of 2^u. -/
def signedUnits (neg : Bool) (m : Nat) (e u : Int) : Int :=
  if neg then -(inUnits m e u : Int) else (inUnits m e u : Int)

/-- floor(log2 (m * 2^e)) for positive m. -/
def floorLog2 (m : Nat) (e : Int) : Int := (m.log2 : Int) + e

/-! ## Rounding (R193) -/

/-- `hi` rounded by what lies below it: `rem` out of 2^s, under the rounding direction. -/
def roundUp (rd : Rnd) (neg : Bool) (hi rem s : Nat) : Bool :=
  match rd with
  | .rn => decide (2 * rem > 2 ^ s) || (decide (2 * rem = 2 ^ s) && hi % 2 == 1)
  | .rz => false
  | .rm => neg && decide (rem ≠ 0)
  | .rp => !neg && decide (rem ≠ 0)

/-- m * 2^e rounded to a multiple of 2^q: the multiple, and whether it was inexact. -/
def roundQ (rd : Rnd) (neg : Bool) (m : Nat) (e q : Int) : Nat × Bool :=
  if q ≤ e then (inUnits m e q, false)
  else
    let s := (q - e).toNat
    let hi := m >>> s
    let rem := m % 2 ^ s
    (if roundUp rd neg hi rem s then hi + 1 else hi, decide (rem ≠ 0))

/-! ## Formats (R216, R217) -/

/-- How the top of a floating format is used. -/
inductive FTop where
  | ieee   -- top exponent: infinities and NaNs
  | e4m3   -- only S.1111.111 is NaN, no infinity
  | finite -- every code is finite
  deriving DecidableEq, Repr

/-- A floating format: exponent bits, fraction bits, bias, top. -/
structure FShape where
  eb : Nat
  fb : Nat
  bias : Nat
  top : FTop
  deriving DecidableEq, Repr

def fp32 : FShape := ⟨8, 23, 127, .ieee⟩
def fp16 : FShape := ⟨5, 10, 15, .ieee⟩
def bfp16 : FShape := ⟨8, 7, 127, .ieee⟩

/-- The shape of a scalar or element format; none for integers, scales and blocks. -/
def Fmt.shape : Fmt → Option FShape
  | .f32 => some fp32 | .f16 => some fp16 | .bf16 => some bfp16
  | .e4m3 => some ⟨4, 3, 7, .e4m3⟩ | .e5m2 => some ⟨5, 2, 15, .ieee⟩ | .e3m2 => some ⟨3, 2, 3, .finite⟩
  | .e2m3 => some ⟨2, 3, 1, .finite⟩ | .e2m1 => some ⟨2, 1, 1, .finite⟩
  | _ => none

def FltTy.fmt : FltTy → Fmt | .f32 => .f32 | .f16 => .f16 | .bf16 => .bf16
def PairTy.fmt : PairTy → Fmt | .f16 => .f16 | .bf16 => .bf16

def FShape.width (f : FShape) : Nat := 1 + f.eb + f.fb
def FShape.maxExpField (f : FShape) : Nat := 2 ^ f.eb - 1
/-- The bits of the largest finite magnitude. -/
def FShape.maxBits (f : FShape) : Nat :=
  match f.top with
  | .ieee => (f.maxExpField <<< f.fb) - 1
  | .e4m3 => (f.maxExpField <<< f.fb) + 2 ^ f.fb - 2
  | .finite => (f.maxExpField <<< f.fb) + 2 ^ f.fb - 1
/-- Exponent of the smallest subnormal's quantum. -/
def FShape.emin (f : FShape) : Int := 1 - (f.bias : Int)

/-- R222: the exact value of the bits of a floating format. -/
def FShape.decode (f : FShape) (x : Nat) : FVal :=
  let bits := x % 2 ^ f.width
  let neg := decide (bits / 2 ^ (f.eb + f.fb) = 1)
  let ef := bits / 2 ^ f.fb % 2 ^ f.eb
  let fr := bits % 2 ^ f.fb
  if f.top == .ieee && ef == f.maxExpField then
    if fr == 0 then .inf neg
    else .nan neg (fr / 2 ^ (f.fb - 1) == 0) ((fr % 2 ^ (f.fb - 1)) <<< (23 - f.fb))
  else if f.top == .e4m3 && ef == f.maxExpField && fr == 2 ^ f.fb - 1 then .nan neg false 0
  else if ef == 0 then .fin neg fr (f.emin - f.fb)
  else .fin neg (fr + 2 ^ f.fb) ((ef : Int) - f.bias - f.fb)

/-- Is the value subnormal (non-zero and below the smallest normal)? -/
def FShape.subnormal (f : FShape) : FVal → Bool
  | .fin _ m e => m != 0 && decide (floorLog2 m e < f.emin)
  | _ => false

/-- R450: a source in FP32, FP16 or BF16 that is subnormal there reads as a zero of its sign under .ftz. -/
def ftzSource (ftz : Bool) (f : FShape) (x : FVal) : FVal :=
  if ftz && f.subnormal x then .zero x.sign else x

/-- The bits of n * 2^q as a magnitude of the format, for n * 2^q representable and at most the largest finite. -/
def FShape.magBits (f : FShape) (n : Nat) (q : Int) : Nat :=
  if n == 0 then 0
  else
    let e := floorLog2 n q
    if e < f.emin then inUnits n q (f.emin - f.fb)
    else (((e + f.bias).toNat) <<< f.fb) + ((n <<< (f.fb + 1)) >>> (n.log2 + 1) - 2 ^ f.fb)

/-- R193: does overflow go to the infinity (and not to the largest finite magnitude)? -/
def overflowsToInf (rd : Rnd) (neg : Bool) : Bool :=
  match rd with | .rn => true | .rz => false | .rm => neg | .rp => !neg

/-- R218: encode a value in a floating format; `flush` says that .ftz flushes subnormal results. -/
def FShape.encode (f : FShape) (x : FVal) (rd : Rnd) (sat flush : Bool) : Nat × Exc :=
  let sb (neg : Bool) : Nat := if neg then 2 ^ (f.eb + f.fb) else 0
  let infBits := f.maxExpField <<< f.fb
  match x with
  | .nan neg s p =>
    match f.top with
    | .ieee =>
      let pay := if f.fb ≤ 2 then 0 else p >>> (23 - f.fb)
      (sb neg + infBits + 2 ^ (f.fb - 1) + pay, excIf s excInvalid)
    | .e4m3 => (sb neg + 2 ^ (f.eb + f.fb) - 1, excIf s excInvalid)
    | .finite => (0, excInvalid)
  | .inf neg =>
    match f.top with
    | .ieee => (sb neg + infBits, 0)
    | .e4m3 => if sat then (sb neg + f.maxBits, 0) else (sb neg + 2 ^ (f.eb + f.fb) - 1, excInvalid)
    | .finite => (sb neg + f.maxBits, 0)
  | .fin neg 0 _ => (sb neg, 0)
  | .fin neg m e =>
    let lg := floorLog2 m e
    let q := max lg f.emin - f.fb
    let (n, inexact) := roundQ rd neg m e q
    let mag := f.magBits n q
    if n != 0 && (decide (floorLog2 n q > (f.maxExpField : Int) - f.bias) || decide (mag > f.maxBits)) then
      let exc := excOverflow ||| excInexact
      if f.top == .ieee && !sat then
        (sb neg + (if overflowsToInf rd neg then infBits else f.maxBits), exc)
      else if f.top == .e4m3 && !sat then (sb neg + 2 ^ (f.eb + f.fb) - 1, exc)
      else (sb neg + f.maxBits, exc)
    else
      let (nu, _) := roundQ rd neg m e (lg - f.fb)
      let tiny := decide (nu ≠ 0 → floorLog2 nu (lg - f.fb) < f.emin)
      let result := n != 0 && decide (floorLog2 n q < f.emin)
      if flush && result then (sb neg, excUnderflow ||| excInexact)
      else (sb neg + mag, excIf inexact excInexact ||| excIf (inexact && tiny) excUnderflow)

/-- The width and signedness of an integer format (R215). -/
def Fmt.intShape : Fmt → Option (Nat × Bool)
  | .i8 => some (8, true) | .n8 => some (8, false) | .i16 => some (16, true) | .n16 => some (16, false)
  | .i32 => some (32, true) | .n32 => some (32, false) | _ => none

/-- R218, integer f: round to an integer, the nearest limit with invalid outside the range. -/
def encodeInt (w : Nat) (signed : Bool) (x : FVal) (rd : Rnd) : Int × Exc :=
  let lo : Int := if signed then -(2 ^ (w - 1) : Nat) else 0
  let hi : Int := if signed then (2 ^ (w - 1) : Nat) - 1 else (2 ^ w : Nat) - 1
  match x with
  | .nan .. => (0, excInvalid)
  | .inf neg => (if neg then lo else hi, excInvalid)
  | .fin neg m e =>
    if floorLog2 m e > 64 && m != 0 then (if neg then lo else hi, excInvalid)
    else
      let (n, inexact) := roundQ rd neg m e 0
      let v : Int := if neg then -(n : Int) else n
      if v < lo then (lo, excInvalid) else if v > hi then (hi, excInvalid)
      else (v, excIf inexact excInexact)

/-- R222: decode(f, bits) for scalar, element and scale formats (block formats have no scalar value). -/
def Fmt.decode (f : Fmt) (x : Word) : FVal :=
  match f.shape, f.intShape with
  | some s, _ => s.decode x.toNat
  | none, some (w, sg) =>
    let v := x.toNat % 2 ^ w
    .ofInt (if sg && decide (2 ^ (w - 1) ≤ v) then (v : Int) - (2 ^ w : Nat) else v)
  | none, none =>
    if x.toNat % 256 == 255 then .canonical else .fin false 1 (((x.toNat % 256 : Nat) : Int) - 127)

/-- R218: encode(f, x, rd, sat, ftz) as it stands in a register, integers extended as R182 states. -/
def Fmt.encode (f : Fmt) (x : FVal) (rd : Rnd) (sat ftz : Bool) : Word × Exc :=
  match f.shape, f.intShape with
  | some s, _ => let (b, e) := s.encode x rd sat (ftz && f.isFloat); (BitVec.ofNat 32 b, e)
  | none, some (w, sg) => let (v, e) := encodeInt w sg x rd; (BitVec.ofInt 32 v, e)
  | none, none => (0, 0)

/-- R450: a source of format f under .ftz. -/
def Fmt.ftzSource (f : Fmt) (ftz : Bool) (x : FVal) : FVal :=
  match f.shape with
  | some s => if f.isFloat then Sys2Proof.ftzSource ftz s x else x
  | none => x

/-! ## Arithmetic on exact values (R194, R198, R199) -/

/-- R194: the first NaN operand, quieted; invalid when some operand signals. -/
def nanResult (xs : List FVal) : Option (FVal × Exc) :=
  match xs.find? FVal.isNaN with
  | some x => some (x.quiet, excIf (xs.any FVal.isSNaN) excInvalid)
  | none => none

/-- The exact sum of two finite values; an exact zero of opposite signs is +0, or -0 under .rm (R193). -/
def addFin (rd : Rnd) (n1 : Bool) (m1 : Nat) (e1 : Int) (n2 : Bool) (m2 : Nat) (e2 : Int) : FVal :=
  if m1 == 0 && m2 == 0 then .zero (if n1 == n2 then n1 else rd == .rm)
  else if m2 == 0 then .fin n1 m1 e1
  else if m1 == 0 then .fin n2 m2 e2
  else
    let u := min e1 e2
    let s := signedUnits n1 m1 e1 u + signedUnits n2 m2 e2 u
    if s == 0 then .zero (rd == .rm) else .fin (decide (s < 0)) s.natAbs u

def FVal.add (rd : Rnd) (a b : FVal) : FVal × Exc :=
  match nanResult [a, b] with
  | some r => r
  | none =>
    match a, b with
    | .inf n1, .inf n2 => if n1 == n2 then (.inf n1, 0) else (.canonical, excInvalid)
    | .inf n, _ => (.inf n, 0)
    | _, .inf n => (.inf n, 0)
    | .fin n1 m1 e1, .fin n2 m2 e2 => (addFin rd n1 m1 e1 n2 m2 e2, 0)
    | _, _ => (.canonical, 0)

def FVal.mul (a b : FVal) : FVal × Exc :=
  match nanResult [a, b] with
  | some r => r
  | none =>
    match a, b with
    | .inf n1, .inf n2 => (.inf (n1 != n2), 0)
    | .inf n1, .fin n2 m _ => if m == 0 then (.canonical, excInvalid) else (.inf (n1 != n2), 0)
    | .fin n1 m _, .inf n2 => if m == 0 then (.canonical, excInvalid) else (.inf (n1 != n2), 0)
    | .fin n1 m1 e1, .fin n2 m2 e2 => (.fin (n1 != n2) (m1 * m2) (e1 + e2), 0)
    | _, _ => (.canonical, 0)

/-- A quotient of magnitudes, exact or marked: 128 quotient bits and a last bit that is set when a remainder is left,
which decides every rounding to a format of at most 24 bits. -/
def divMag (m1 : Nat) (e1 : Int) (m2 : Nat) (e2 : Int) : Nat × Int :=
  let q := (m1 <<< 128) / m2
  let r := (m1 <<< 128) % m2
  (2 * q + (if r == 0 then 0 else 1), e1 - e2 - 129)

def FVal.div (a b : FVal) : FVal × Exc :=
  match nanResult [a, b] with
  | some r => r
  | none =>
    match a, b with
    | .inf _, .inf _ => (.canonical, excInvalid)
    | .inf n1, .fin n2 _ _ => (.inf (n1 != n2), 0)
    | .fin n1 _ _, .inf n2 => (.zero (n1 != n2), 0)
    | .fin n1 m1 e1, .fin n2 m2 e2 =>
      if m2 == 0 then (if m1 == 0 then (.canonical, excInvalid) else (.inf (n1 != n2), excDivZero))
      else let (m, e) := divMag m1 e1 m2 e2; (.fin (n1 != n2) m e, 0)
    | _, _ => (.canonical, 0)

/-- R199: a * b + c; 0 times infinity raises invalid whatever c holds. -/
def FVal.fma (rd : Rnd) (a b c : FVal) : FVal × Exc :=
  let sn := excIf (a.isSNaN || b.isSNaN || c.isSNaN) excInvalid
  if a.isNaN then (a.quiet, sn)
  else if b.isNaN then (b.quiet, sn)
  else
    let (p, e1) := a.mul b
    if p.isNaN then ((if c.isNaN then c.quiet else .canonical), e1)
    else let (r, e2) := p.add rd c; (r, e2)

/-- Numerical order of two values that are not NaNs: a < b, with -0 equal to +0. -/
def FVal.lt (a b : FVal) : Bool :=
  match a, b with
  | .inf n1, .inf n2 => n1 && !n2
  | .inf n, _ => n
  | _, .inf n => !n
  | .fin n1 m1 e1, .fin n2 m2 e2 =>
    let u := min e1 e2
    decide (signedUnits n1 m1 e1 u < signedUnits n2 m2 e2 u)
  | _, _ => false

def FVal.eqv (a b : FVal) : Bool := !a.isNaN && !b.isNaN && !a.lt b && !b.lt a

/-- R201: the condition holds of the two values. -/
def FCond.holds (c : FCond) (a b : FVal) : Bool :=
  let un := a.isNaN || b.isNaN
  match c with
  | .eq => !un && a.eqv b
  | .ne => un || !a.eqv b
  | .lt => !un && a.lt b
  | .le => !un && !b.lt a
  | .gt => !un && b.lt a
  | .ge => !un && !a.lt b
  | .unord => un
  | .ord => !un

/-! ## Integer square roots -/

/-- The bits of floor(sqrt x) below the positions already settled in `r`. -/
def isqrtGo (x : Nat) : Nat → Nat → Nat
  | 0, r => r
  | b + 1, r => isqrtGo x b (if (r + 2 ^ b) * (r + 2 ^ b) ≤ x then r + 2 ^ b else r)

/-- floor(sqrt x). -/
def isqrt (x : Nat) : Nat := isqrtGo x (x.log2 / 2 + 1) 0

/-- sqrt(m * 2^e), exact or marked by its last bit. -/
def sqrtMag (m : Nat) (e : Int) : Nat × Int :=
  let odd := e % 2 == 1
  let m' := (if odd then 2 * m else m) <<< 128
  let e' := (if odd then e - 1 else e) - 128
  let s := isqrt m'
  (2 * s + (if s * s == m' then 0 else 1), e' / 2 - 1)

/-- 1 / sqrt(m * 2^e), exact or marked by its last bit. -/
def rsqrtMag (m : Nat) (e : Int) : Nat × Int :=
  let odd := e % 2 == 1
  let m' := if odd then 2 * m else m
  let e' := if odd then e - 1 else e
  let s := isqrt (2 ^ 256 / m')
  (2 * s + (if s * s * m' == 2 ^ 256 then 0 else 1), -(e' / 2) - 129)

/-! ## The native blocks (R219 to R221) -/

/-- Magnitude bits of a block format (R219). -/
def Fmt.blockN : Fmt → Nat | .w3 => 2 | .w4 => 3 | _ => 7

/-- Bytes of a block of n magnitude bits (R219). -/
def blockBytes (n : Nat) : Nat := 2 + 2 * (n + 1)

/-- R220: the value of element k of a block held as a number, with invalid for a reserved code. A reserved code or a NaN
block reads as the canonical NaN, in a NaN block without invalid (log 94). -/
def wblockDecode (b k n : Nat) : FVal × Exc :=
  let ee := b % 256
  let mu := b / 2 ^ (8 + k / 2) % 2
  let el := b / 2 ^ (16 + (n + 1) * k) % 2 ^ (n + 1)
  let s := el / 2 ^ n
  let m := el % 2 ^ n
  if ee == 255 then (.canonical, 0)
  else if s == 1 && m == 0 then (.canonical, excInvalid)
  else (.fin (s == 1) m ((ee : Int) - 127 - mu - ((n : Int) - 1)), 0)

/-- An input of the block encoder (R221, R229). -/
inductive BlkIn where
  | value (x : FVal)
  | skip                       -- padding or excluded: codes +0, no part in choosing E or mu
  | clamped (neg : Bool) (t : FVal) -- counts as magnitude t in choosing E, then the top code
  deriving DecidableEq, Repr, Inhabited

/-- c(x, e, u) of R221: the rounded code magnitude. -/
def blkCode (n : Nat) (rd : Rnd) (x : FVal) (e : Nat) (u : Nat) : Nat × Bool :=
  match x with
  | .fin neg m xe => roundQ rd neg m (xe + ((n : Int) - 1) - ((e : Int) - 127) + u) 0
  | _ => (0, false)

/-- The value that counts in choosing E. -/
def BlkIn.forE : BlkIn → Option FVal
  | .value x => some x | .skip => none | .clamped _ t => some t

/-- The smallest e from `lo` on, `fuel` candidates, for which every code fits. -/
def blkExpGo (n : Nat) (rd : Rnd) (xs : List FVal) : Nat → Nat → Option Nat
  | 0, _ => none
  | fuel + 1, e =>
    if xs.all fun x => decide ((blkCode n rd x e 0).1 ≤ 2 ^ n - 1) then some e else blkExpGo n rd xs fuel (e + 1)

/-- R221 (with the clamped inputs of R229): the block and the classes raised for each element. The inputs are already
flushed where R450 says so. -/
def wblockEncode (ins : List BlkIn) (n : Nat) (rd : Rnd) : Nat × List Exc :=
  let vals := ins.filterMap BlkIn.forE
  if vals.any fun x => x.isNaN || x.isInf then
    (255, ins.map fun i => match i with
      | .value x => excIf (x.isSNaN || x.isInf) excInvalid
      | _ => 0)
  else if vals.all FVal.isZero then (0, ins.map fun _ => 0)
  else
    let top := vals.foldl (fun a x => match x with
      | .fin _ 0 _ => a
      | .fin _ m e => max a (floorLog2 m e)
      | _ => a) (-1000)
    -- codes shrink as e grows, and none fits while the largest input exceeds the code range by a binade
    let start := (top + 127 - 1).toNat
    let first := if start ≥ 255 then none else blkExpGo n rd vals (255 - start) start
    let ee := first.getD 254
    let cap := 2 ^ n - 1
    let pair (j : Nat) : Bool :=
      let ps := [ins.getD (2 * j) .skip, ins.getD (2 * j + 1) .skip]
      let hasNonZero := ps.any fun i => match i with | .value x => !x.isZero | _ => false
      let fits := ps.all fun i => match i with
        | .value x => decide ((blkCode n rd x ee 1).1 ≤ cap)
        | .skip => true
        | .clamped .. => false
      hasNonZero && fits
    let mu (k : Nat) : Nat := if pair (k / 2) then 1 else 0
    let elem (k : Nat) : Nat × Exc :=
      match ins.getD k .skip with
      | .skip => (0, 0)
      | .clamped neg _ => ((if neg then 2 ^ n else 0) + cap, 0)
      | .value x =>
        let (c, inexact) := blkCode n rd x ee (mu k)
        let capped := decide (c > cap)
        let m := if capped then cap else c
        let s := if x.sign && m != 0 then 2 ^ n else 0
        (s + m, if capped then excOverflow ||| excInexact
                else excIf inexact excInexact ||| excIf (!x.isZero && m == 0) excUnderflow)
    let codes := (List.range 16).map elem
    let elements := (List.range 16).foldl (fun a k => a + ((codes.getD k (0, 0)).1 <<< (16 + (n + 1) * k))) 0
    let mus := (List.range 8).foldl (fun a j => a + (if pair j then 2 ^ (8 + j) else 0)) 0
    (ee + mus + elements, codes.map Prod.snd)

/-! ## The window sum (R223) -/

/-- R223: an FP32 result and the classes raised; `reserved` says that some term came from a reserved code. -/
def windowSum (ts : List FVal) (reserved : Bool) : Word × Exc :=
  match ts.find? FVal.isNaN with
  | some x => ((Fmt.f32.encode x.quiet .rn false false).1, excIf (reserved || ts.any FVal.isSNaN) excInvalid)
  | none =>
    if ts.contains (.inf false) && ts.contains (.inf true) then (0x7FC00000, excInvalid)
    else match ts.find? FVal.isInf with
    | some x => Fmt.f32.encode x .rn false false
    | none =>
      if ts.all FVal.isZero then (if !ts.isEmpty && ts.all FVal.sign then 0x80000000 else 0, 0)
      else
        let e := ts.foldl (fun a x => match x with
          | .fin _ 0 _ => a
          | .fin _ m e => max a (floorLog2 m e)
          | _ => a) (-100000)
        let q := e - 63
        let part (x : FVal) : Int × Bool := match x with
          | .fin neg m te =>
            let (n, ix) := roundQ .rz neg m te q
            (if neg then -(n : Int) else n, ix)
          | _ => (0, false)
        let parts := ts.map part
        let s : Int := (parts.map Prod.fst).foldl (· + ·) 0
        let sticky := parts.any Prod.snd
        if s == 0 then (0, excIf sticky excInexact)
        else
          -- epsilon lies far below every FP32 quantum
          let m := (s.natAbs <<< 512) + (if sticky then 1 else 0)
          let (b, ex) := Fmt.f32.encode (.fin (decide (s < 0)) m (q - 512)) .rn false false
          (b, ex ||| excIf sticky excInexact)

end Sys2Proof
end

