-- ==== Sys2Proof/Machine/State.lean ====
section
/-! DEFINITION. The state of the machine: plain data, holding everything the spec gives it. The agents that act on it and
the events among them are rows of the opcode table; the order in which they act comes from the schedule (log 1). -/

namespace Sys2Proof.Machine

/-! ## Keyed lists -/

/-- The value at a key of a list with ascending keys. -/
def aget {α : Type} (l : List (Nat × α)) (k : Nat) : Option α :=
  match l with
  | [] => none
  | (j, v) :: r => if j == k then some v else aget r k

/-- Set a key of a list with ascending keys. -/
def aset {α : Type} (l : List (Nat × α)) (k : Nat) (v : α) : List (Nat × α) :=
  match l with
  | [] => [(k, v)]
  | (j, u) :: r => if j < k then (j, u) :: aset r k v else if j == k then (k, v) :: r else (k, v) :: (j, u) :: r

/-- Remove a key. -/
def adel {α : Type} (l : List (Nat × α)) (k : Nat) : List (Nat × α) := l.filter fun p => p.1 != k

/-- The least natural number that is not a key. -/
def freshKey {α : Type} (l : List (Nat × α)) : Nat :=
  l.foldl (fun n p => if p.1 == n then n + 1 else n) 0

/-- Bytes by ascending address; an unlisted address reads 0x00, and no 0x00 is listed (log 4). -/
abbrev Memory := List Host.Cell

def Memory.read (m : Memory) (a : Nat) : Byte := (aget m a).getD 0
def Memory.write (m : Memory) (a : Nat) (b : Byte) : Memory := if b == 0 then adel m a else aset m a b

/-- Ascending addresses, nothing listed that reads as an unlisted address does. -/
def Memory.wf : Memory → Bool
  | [] => true
  | (a, b) :: r => b != 0 && (match r with | [] => true | (c, _) :: _ => decide (a < c)) && Memory.wf r

/-! ## Images and records (02) -/

/-- A switch-point table entry (R37). -/
structure SwitchPt where
  id : Nat
  resume : Nat
  carried : Nat
  deriving DecidableEq, Repr, Inhabited

/-- A variant table entry (R34). -/
structure Variant where
  pref : Nat
  warps : Nat
  span : Nat
  frames : Nat
  slots : Nat
  scratch : Nat
  hwbars : Nat
  acc : Nat
  stages : List Nat
  entry : Nat
  codeOff : Nat
  codeSize : Nat
  switches : List SwitchPt
  deriving DecidableEq, Repr, Inhabited

/-- An image as read at acceptance (R30, R55). -/
structure Image where
  base : Dword
  size : Nat
  id : Dword
  stepCarried : Nat
  variants : List Variant
  deriving DecidableEq, Repr, Inhabited

/-- A transform binding (R46). -/
structure XformBind where
  transform : Nat
  swizzle : Nat
  format : Nat
  dest : Nat
  src : Dword
  rows : Nat
  rowBytes : Nat
  pitch : Nat
  stepX : Nat
  stepY : Nat
  deriving DecidableEq, Repr, Inhabited

/-- A region binding (R48, R49, R348). -/
structure RegionBind where
  base : Dword
  size : Nat
  kind : Nat
  isExpr : Bool
  number : Nat
  sync : Dword
  deriving DecidableEq, Repr, Inhabited

/-- A translation-context entry as read at acceptance (R243); the root is read at each walk. -/
structure TransCtx where
  asid : Nat
  pkr : Word
  wsBase : Nat
  wsLimit : Nat
  kvBase : Nat
  kvLimit : Nat
  deriving DecidableEq, Repr, Inhabited

/-- A usable KV context entry as read at acceptance (R355). -/
structure KvCtx where
  seqTable : Nat
  pool : Nat
  stride : Nat
  seqCount : Nat
  frameCount : Nat
  frameBase : Nat
  kBytes : Nat
  vBytes : Nat
  deriving DecidableEq, Repr, Inhabited

/-- The fields of a launch record that stay with the grid (R39). -/
structure Launch where
  varMask : BitVec 8
  priority : Nat
  wdExp : Nat
  persistent : Bool
  earlyStart : Bool
  complInt : Bool
  heartbeat : Nat
  gx : Nat
  gy : Nat
  gz : Nat
  bx : Nat
  by' : Nat
  bz : Nat
  minDies : Nat
  maxDies : Nat
  dieMask : BitVec 8
  argAddr : Dword
  argSize : Nat
  keyExprs : List Dword
  traps : List Dword          -- the 32 vectors; empty without a trap table
  complAddr : Dword
  ctxArea : Dword
  spillArea : Dword
  binds : List XformBind
  regions : List RegionBind
  deriving DecidableEq, Repr, Inhabited

/-! ## Warps (06) -/

/-- The 128 lane values of a register. -/
abbrev Lanes := List Word

/-- A frontier entry (R143). `prio` is 256 when the word at the address could not be read as a header (log 7);
`vec` marks an entry at a trap vector (R51). -/
structure FEntry where
  prio : Nat
  addr : Dword
  lanes : Mask
  base : Nat
  vec : Bool
  deriving DecidableEq, Repr, Inhabited

/-- A register as the scoreboard names it: a per-thread register by its frame and slot, a predicate, a uniform one. -/
inductive RegName where
  | v (key : Nat)
  | p (n : Nat)
  | s (n : Nat)
  deriving DecidableEq, Repr, Inhabited

/-- A lookahead span in force (R124): the pending destination and the instructions left in it. -/
structure Span where
  dests : List RegName
  left : Nat
  deriving DecidableEq, Repr, Inhabited

/-- A clause in progress (R113, R117): words after the header, and the index of the next word. -/
structure Clause where
  hdr : Dword
  words : List Word
  next : Nat
  lanes : Mask
  base : Nat
  prio : Nat
  spans : List Span
  deriving DecidableEq, Repr, Inhabited

/-- What an outstanding memory operation does (R267 to R274, R420). -/
inductive MemKind where
  | ld | st | lda | ldw | atom (o : AtomOp) | red (o : AtomOp) | spill | fill | xlat (wr : Bool)
  deriving DecidableEq, Repr, Inhabited

/-- Where one lane of an outstanding operation stands. -/
inductive LaneSt where
  | ready                  -- to be performed
  | missing (idx : Nat)    -- waits on a miss entry of the die (R251)
  | full                   -- waits for a free miss entry (R251)
  | remote                 -- sent to another package (R378)
  | half (hi : Bool)       -- one 64-bit half of a 128-bit access has performed, this one has not (R258)
  | refused                -- refused there; performed again on thaw (R399)
  | declined               -- not mapped; walks again on thaw (R252)
  | done
  deriving DecidableEq, Repr, Inhabited

/-- One lane's access. -/
structure LaneAcc where
  lane : Nat
  ea : Dword
  dst : Dword          -- LDA: the x: destination; SPILLF, FILLF: the register key
  data : List Byte     -- bytes to store, or the operand; CAS: the compare value
  cmp : List Byte      -- CAS: the new value
  val : List Byte      -- bytes read
  st : LaneSt
  deriving DecidableEq, Repr, Inhabited

/-- An outstanding memory operation of a warp. -/
structure MemOp where
  k : Nat
  pc : Dword
  kind : MemKind
  space : Space
  bytes : Nat
  dests : List RegName
  sext : Bool
  ord : Ord
  scope : Scope
  sw : Nat
  batch : Nat
  lanes : List LaneAcc
  deriving DecidableEq, Repr, Inhabited

/-- What a token slot delivers at the next wait on it (R306, R317, R291); a copy's trap carries its span core and progress
word (R289). -/
inductive Delivery where
  | trap (vector : Nat) (info : Word) (copy : Option (Nat × Nat))
  | fault (cause : Nat) (info : Dword)
  deriving DecidableEq, Repr, Inhabited

/-- A barrier object's name (R322): a slot by its x: offset, or a hardware barrier. -/
inductive BarName where
  | slot (off : Nat)
  | hw (n : Nat)
  deriving DecidableEq, Repr, Inhabited

/-- A warp paused in PARK (R345). -/
structure Park where
  isG : Bool
  addr : Nat               -- physical key of the watched line, or the x: offset of the word
  until' : Nat             -- cycle at which the time has passed
  hit : Bool               -- a watched byte has been written
  late : Bool              -- and not before the time had passed
  d : Reg5                 -- where the reason goes
  deriving DecidableEq, Repr, Inhabited

/-- Lanes held aside in no entry that issues (R169, R175, R176): where each group continues, whether a STEP holds it, and the
index in its clause of the word it executed. -/
structure Held where
  next : Dword
  lanes : Mask
  base : Nat
  step : Bool
  idx : Nat
  deriving DecidableEq, Repr, Inhabited

/-- A trap handler in progress (R168, R169). -/
structure Handler where
  susp : Clause
  setAside : List FEntry
  vector : Nat
  tpcWritten : Bool
  tret : List Held
  low : Nat                -- vector 11: the lowest return base (R420)
  deriving DecidableEq, Repr, Inhabited

/-- A trap that became a fault: on thaw the warp goes on as TRET would from a handler that changed nothing (R399). -/
structure Stall where
  completed : Bool
  tpc : Dword
  deriving DecidableEq, Repr, Inhabited

structure Warp where
  frontier : List FEntry
  clause : Option Clause
  regs : List (Nat × Lanes)
  preds : List Mask
  unif : List Word
  allot : Nat
  resident : Nat
  tokens : List Nat
  stray : List Nat          -- what a slot reads above its count, from a switch until a command is counted on it (log 19)
  deliveries : List (Nat × Delivery)
  fflags : BitVec 5
  fctl : BitVec 5
  tlanes : Mask
  tpc : Dword
  tcause : Word
  tinfo : Word
  handler : Option Handler
  held : List Held
  heldId : Option Nat       -- the switch point that lanes held at one have named (R175)
  arrived : Bool
  arrival : Option (BarName × Nat)
  waits : Option Nat        -- the comparand of a WAITPH that has issued and waits (R343)
  openBatch : Nat
  sealOn : Option Nat       -- the batch for which a SEAL waits (R344)
  outs : List MemOp
  opCount : Nat
  park : Option Park
  fetchMiss : Option LaneSt
  stall : Option Stall
  exitAt : Option Clause    -- the clause whose EXIT took the last lanes, until the warp retires (R165)
  retired : Bool
  request : Option Bool     -- a FREEZE that waits for a transient state; true once some target has accepted (R408)
  deriving DecidableEq, Repr, Inhabited

/-! ## Masters: blocks and tasks (02, 04) -/

/-- The fields of a barrier object (R323, R324). -/
structure Barrier where
  phase : Nat
  expArr : Nat              -- 0 on a hardware barrier means auto
  arrived : Nat
  expBytes : Nat
  landed : Nat
  posted : Bool
  inFlight : Nat
  delivered : Bool
  under : Bool
  faulted : Bool
  autoSet : List Nat        -- warps counted in this phase on an auto barrier
  overflow : Bool           -- the failure was a count overflow (R326)
  deriving DecidableEq, Repr, Inhabited

/-- A segment register with the limit loaded at placement (R240, R419). -/
structure Seg where
  base : Nat
  limit : Nat
  loaded : Nat
  deriving DecidableEq, Repr, Inhabited

/-- R93. -/
inductive Phase where
  | waiting | prologue | running | switching | preempting | preempted | migrating | frozen | retired
  deriving DecidableEq, Repr, Inhabited

/-- Do engines go on with what has been issued (R102, R404, R412)? A migrating block's go on until it leaves its die
(log 82). -/
def Phase.works : Phase → Bool
  | .running | .switching | .migrating => true
  | .waiting | .prologue | .preempting | .preempted | .frozen | .retired => false

/-- Do issued accesses of warps go on? -/
def Phase.drains : Phase → Bool
  | .running | .switching | .preempting | .migrating => true
  | .waiting | .prologue | .preempted | .frozen | .retired => false

/-- What a master is: a block of a grid, or a task with its record (R52). -/
inductive MKind where
  | block (grid : Nat) (lin : Nat)
  | task (record : Dword)
  deriving DecidableEq, Repr, Inhabited

/-- Per-core holdings of a placed master (R83). -/
structure CoreHold where
  core : Nat
  warpSlots : List Nat
  frames : Nat
  xBase : Nat
  xSize : Nat
  slots : Nat
  hwbars : List Nat
  array : Bool
  tiles : List Nat
  pool : Nat                -- the frame pool (R156)
  deriving DecidableEq, Repr, Inhabited

/-- A freeze request or a pre-emption held for the end of a state (R408); `chosen` once the pre-emption has been chosen and
waits to take effect (log 46). -/
inductive HeldReq where
  | freeze | preempt | chosen
  deriving DecidableEq, Repr, Inhabited

/-- A consumed command, as its later effects name it (R63, R64, R66). -/
structure CmdRef where
  ticket : Nat
  queue : Nat
  slot : Nat
  tag : Word
  compl : Option (Nat × Nat)   -- completion counter and amount
  deriving DecidableEq, Repr, Inhabited

/-- Who waits for keys: an undispatched block of a grid, or a task, a pre-empted or a migrating block (R95). -/
inductive Waiter where
  | block (uid lin : Nat)
  | master (mid : Nat)
  deriving DecidableEq, Repr, Inhabited

/-- Why a variant switch is pending (R100). -/
inductive SwitchWhy where
  | better
  | room (e : PoolRef)
  deriving DecidableEq, Repr, Inhabited

/-! ### Engine commands of a block (10, 11, 14) -/

inductive EOp where
  | copy (tx fo : Bool) | fill | ldws (w : Bool) | swapw | mma | mmaChain | mmaSmx | enct (auto : Bool)
  | accrd | accwr | accz | accsc | kvfork | kvext | kvcow | kvfree | qfence
  deriving DecidableEq, Repr, Inhabited

/-- Where an entry of the block order stands. -/
inductive ESt where
  | queued
  | started
  | faulted (cause : Nat) (info : Nat)  -- to be delivered at a token wait (R306)
  | delivered                           -- faulted and delivered: dropped on thaw
  | stopped                             -- a copy stopped by a violation: resumes on thaw (R289)
  | dropped                             -- a copy stopped by a malformed tile: dropped on thaw (R284)
  deriving DecidableEq, Repr, Inhabited

/-- An entry of the block order: a closed copy, a prologue fill, a command, or a QFENCE joining entry (R280, R308, R347). -/
structure Entry where
  op : EOp
  words : List Word            -- the descriptor; a copy's common words
  fo : List Word               -- a copy's follow-on registers s(m) to s(m + 3) (R293)
  fmt : Word                   -- the format word (R305); a QFENCE's mask; a fill's binding index
  span : Nat                   -- span core whose engine performs it
  warp : Nat                   -- the issuing warp; of a copy, slice 0's
  toks : List (Nat × Nat)      -- warp and token slot of each count
  st : ESt
  landed : Nat                 -- destination bytes landed (R289)
  copied : Option Nat          -- of a follow-on command, the progress word of its copy (R289)
  stage : List (Nat × List Byte × Nat) -- what a copy has read for the unit it is in: gather index, tiles (R284)
  clamp : Option (Nat × Nat)   -- first tile past its spill allowance: index and clamped count (R291)
  wait : LaneSt
  deriving DecidableEq, Repr, Inhabited

/-- A collection that gathers slices (R279): slice index, warp and token slot of each. -/
structure Collection where
  op : EOp
  words : List Word
  fo : List Word
  parts : List (Nat × Nat × Nat)
  deriving DecidableEq, Repr, Inhabited

/-- A non-empty plane tile (R299). -/
structure PlaneTile where
  fmt : Nat
  rows : Nat
  cols : Nat
  bytes : List Byte
  deriving DecidableEq, Repr, Inhabited

/-- An accumulator tile: words 0 to 16,383 are its elements by row, 16,384 on its side registers in the order of R301.
`base` none is what ACCZ leaves, `some n` a tile of free values; `words` holds the words written since. -/
structure AccTile where
  base : Option Nat
  words : List (Nat × Word)
  deriving DecidableEq, Repr, Inhabited

/-- Array state of one span core (R299). -/
structure ArraySt where
  p0 : List (Option PlaneTile)
  p1 : List (Option PlaneTile)
  tiles : List AccTile
  deriving DecidableEq, Repr, Inhabited

structure Master where
  kind : MKind
  queue : Nat
  tag : Word
  gridId : Word
  privileged : Bool
  priority : Nat
  ctx : TransCtx
  kv : Option KvCtx
  image : Image
  varIdx : Nat
  phase : Phase
  frozenFrom : Phase
  die : Nat
  cores : List CoreHold
  coord : Nat × Nat × Nat
  keys : List Nat           -- keys held, in the order of expressions or positions
  keyNames : List Nat       -- every key the expressions or positions name, in order
  stale : BitVec 4
  segs : List Seg           -- g, x, w, c, k
  warps : List Warp
  x : Memory
  xPoison : List Nat        -- offsets of poisoned x: bytes (R249, R306)
  slots : List (Nat × Barrier)
  hw : List Barrier
  binds : List RegionBind
  timer : Nat               -- cycle of the last reset of the watchdog timer
  stoppedAt : Nat           -- cycle at which it was last frozen or pre-empted, where the timer stopped (R110)
  restoring : Bool          -- its context slot could not be read at readmission (R412)
  placedAt : Nat
  poolAt : Nat
  inPool : Bool
  aged : Bool
  ctxSlot : Option Nat
  heldReq : Option HeldReq
  evicted : Bool            -- its die was withdrawn under it, and it has not left the die yet (R104, R105)
  preempt : Bool            -- pre-emption chosen; it takes effect at clause boundaries (R107)
  switchPend : Option SwitchWhy
  switchTo : Option (Nat × List CoreHold × Nat) -- variant, cores and switch point of a switch being made (R102)
  entries : List (Nat × Entry) -- the block order: keys rise in issue order (R308)
  collections : List (Nat × Collection)
  arrays : List ArraySt
  cmd : Option CmdRef
  counted : Option Nat      -- the grid a counted task belongs to (R432)
  retiring : Bool           -- a task whose warp has retired and whose keys are released (R428)
  sigWait : LaneSt
  op0 : Nat                 -- a task's declared operands (R52)
  op1 : Nat
  submitDie : Option Nat    -- the die of the submitting warp (R88)
  poolDie : Option Nat      -- the task die of its queue (R58)
  triggered : Bool
  signalled : Nat
  cancelled : Bool
  highPriority : Bool
  predecessors : Nat
  argPtr : Dword
  entryOff : Nat
  succCount : Nat
  succList : Dword
  threshold : Nat
  deriving DecidableEq, Repr, Inhabited

/-- Do the master's issued accesses go on? What was issued before a freeze completes (R404), but what a pre-emption has put
away stays there. -/
def Master.drains (b : Master) : Bool := b.phase.drains || (b.phase == .frozen && b.frozenFrom.drains)

/-! ## Grids (02, 04, 17) -/

/-- The states of drain (R433). -/
inductive Drain where
  | idle | first | second (s v : Nat)
  deriving DecidableEq, Repr, Inhabited

/-- An accepted grid. -/
structure Grid where
  id : Word
  queue : Nat
  tag : Word
  privileged : Bool
  threshold : Nat
  ctx : TransCtx
  kv : Option KvCtx
  image : Image
  launch : Launch
  cmd : CmdRef
  complKey : Nat            -- physical key of the completion record
  complPacked : Bool        -- the packed bit of the entry it was reached through (R254)
  recState : Nat            -- state of the completion record (R80)
  acceptNs : Nat
  triggerNs : Nat
  dieSet : BitVec 8
  started : Bool            -- its first dies have joined (R86)
  stepped : Bool            -- its first step boundary has completed (R86)
  inPool : Bool
  poolAt : Nat
  aged : Bool
  nextLin : Nat             -- every block at or above is undispatched
  skipped : List Nat        -- undispatched blocks below
  producers : List Nat      -- keys of the records of producers not yet met (R71)
  producerFailed : Bool
  trigBlocks : Nat          -- blocks that have executed TRIG or retired (R70)
  triggered : Bool
  blocksRetired : Nat
  diesUsed : BitVec 8
  args : List (Nat × List Byte) -- the argument block's copy on each die (R42)
  drain : Drain
  sweep : List (Nat × Nat)  -- counters read by the sweep in progress, die 0 first (R433)
  sweepAt : Nat             -- cycle at which it began
  sent : List Nat
  received : List Nat
  submitted : Bool          -- some SUBMIT of its blocks was accepted
  aborted : Bool
  withdraw : BitVec 8       -- dies whose withdrawal the control complex has requested (R104)
  firstCause : Option Nat   -- the cause of the earliest primary record (R406)
  progressed : Bool         -- some block of it has made progress in this step (R110)
  deriving DecidableEq, Repr, Inhabited

/-! ## Dies (09, 16) -/

/-- A cached valid page-table entry (R247). -/
structure TlbEnt where
  asid : Nat
  level : Nat
  vpre : Nat             -- the virtual address bits that select it
  entry : Dword
  deriving DecidableEq, Repr, Inhabited

/-- A 32-byte sector of a line homed elsewhere, held on the die (R257), with the packed bit of the request that filled it
(R254). -/
structure Sector where
  bytes : List Byte
  dirty : BitVec 32
  packed : Bool
  deriving DecidableEq, Repr, Inhabited

/-- An entry of the miss table (R251). -/
structure MissEnt where
  asid : Nat
  vpn : Nat
  level : Nat
  write : Bool
  deriving DecidableEq, Repr, Inhabited

/-- A performance counter (R424). -/
structure PerfCtr where
  count : Dword
  event : BitVec 8
  since : Nat               -- cycle from which event 1 counts
  deriving DecidableEq, Repr, Inhabited

/-- A 64-byte record of the fault queue (R402). -/
structure FRecord where
  kind : Nat
  cause : Nat
  flags : Nat
  die : Nat
  core : Nat
  slot : Nat
  queue : Nat
  gridTag : Word
  index : Word
  identity : Dword
  pc : Dword
  lanes : Mask
  address : Dword
  info : Dword
  deriving DecidableEq, Repr, Inhabited

/-- A grant request outstanding at the heddle table (R89, R98). -/
structure Grant where
  who : Waiter
  varIdx : Nat
  cores : List CoreHold
  keys : List Nat
  deriving DecidableEq, Repr, Inhabited

/-- Where an operation of the page unit stands (R359). -/
inductive PageSt where
  | waiting
  | absent (l : LaneSt)      -- a structure access is not present (R361)
  | copying (old new : Nat)  -- a KVCOW whose copy has not landed (R370)
  deriving DecidableEq, Repr, Inhabited

/-- An operation in page-unit order: a KV command (its entry), or lanes of an XLAT (its memory operation). -/
structure PageOp where
  m : Nat
  w : Nat
  k : Nat
  kv : Bool
  lanes : Mask
  st : PageSt
  deriving DecidableEq, Repr, Inhabited

structure Die where
  tlb : List TlbEnt
  copies : List (Nat × Sector)
  miss : List (Nat × MissEnt)
  perf : List PerfCtr
  records : List FRecord    -- records that wait because the ring is full (R401)
  grant : Option Grant
  lastPlace : Option Nat    -- cycle of the last placement (R89)
  blocking : Option PoolRef
  passed : List (PoolRef × Nat) -- entries passed over for lack of room, and since when (R89, R106)
  pageOps : List (Nat × PageOp)
  pageSeq : Nat
  contend : List (Nat × Nat × Nat) -- contention counters: a line's count and the core of its last atomic (R259)
  deriving DecidableEq, Repr, Inhabited

/-! ## Queues, triggers and signals (03) -/

/-- A queue's register block and consumption (R58 to R64). -/
structure Queue where
  ringBase : Dword
  sizeExp : Nat
  kind : Nat
  priority : Nat
  rights : BitVec 8
  taskDie : Nat
  threshold : Nat           -- as written; 0 reads as 50
  reserve : Dword
  consume : Dword
  state : Nat
  consuming : Bool
  hold : Option (List Nat)  -- tickets a HOLD awaits
  owners : List (Nat × Agent) -- who reserved the slots not yet consumed (R61)
  deriving DecidableEq, Repr, Inhabited

/-- A queue after reset (log 3). -/
def Queue.reset : Queue := ⟨0, 4, 0, 0, 0, 0, 0, 0, 0, 0, false, none, []⟩

/-- A 64-byte command with its reference and what its queue gave it when it was consumed (R59): priority, task die and
reservation threshold. -/
structure QCmd where
  ref : CmdRef
  bytes : List Byte
  priority : Nat
  taskDie : Nat
  usec : Nat
  deriving DecidableEq, Repr, Inhabited

/-- A triggered command in the trigger list (R68, R69). -/
structure Trig where
  counter : Nat
  threshold : Nat
  cmd : QCmd
  deriving DecidableEq, Repr, Inhabited

/-- An entry of the signal table (R74, R75). -/
inductive SigEnt where
  | pending (count : Nat) (cancel : Bool) (mid : Nat)
  | early (count : Nat) (cancel : Bool)
  deriving DecidableEq, Repr, Inhabited

/-- A WSLOAD that has taken effect (R265). -/
structure WsLoad where
  ref : CmdRef
  die : Nat
  dest : Nat
  size : Nat
  src : Dword
  ctx : TransCtx
  started : Bool
  deriving DecidableEq, Repr, Inhabited

/-! ## Collectives (15) -/

/-- A chunk that has been sent and has not landed, or that the switch has not accepted: the rank it goes to, the buffer and
chunk there, or the aperture chunk, and its bytes (R387). -/
structure SentChunk where
  peer : Nat
  buf : Nat
  idx : Nat
  bytes : List Byte
  deriving DecidableEq, Repr, Inhabited

/-- An execution of a data step (R387, R389). -/
structure StepExec where
  step : Nat
  peer : Nat
  src : Nat
  dst : Nat
  count : Nat
  next : Nat                -- the next chunk to send or request
  landed : Nat              -- chunks completed
  wait : LaneSt             -- an access of it that is not present (R393)
  out : List SentChunk      -- what it has sent and nothing has taken yet, oldest first
  answers : List (List Byte) -- chunks that a GET's peer has answered, oldest first
  deriving DecidableEq, Repr, Inhabited

/-- A running instance. -/
structure Coll where
  m : Nat
  w : Nat
  tok : Nat
  die : Nat
  group : Nat
  seq : Nat
  n : Nat
  rank : Nat
  timeout : Nat
  mapBuf : Nat
  statusVa : Dword
  mapVa : Dword
  efMapVa : Dword
  efVa : Dword
  bufs : List (Dword × Nat)
  limits : List Nat
  steps : List (List Dword)
  ctrs : List Nat
  pc : Nat
  execs : List StepExec
  inbound : Nat
  exc : BitVec 5
  landed : Nat
  efDone : Nat
  progressAt : Nat
  wait : LaneSt
  ctx : TransCtx
  queue : Nat
  blockVa : Dword           -- the collective block
  accepted : Bool           -- the block and program have been read and checked (R385)
  ending : Option (Nat × Nat × Nat) -- state, code and step that the status record is to take (R392, R395)
  peers : List LaneSt       -- accesses by peers that are not present (R252, R393)
  deriving DecidableEq, Repr, Inhabited

/-- A contribution to an aperture chunk (R380). -/
structure Contrib where
  rank : Nat
  op : Nat
  fmt : Nat                 -- 0 FP32, 1 BF16, 2 .i32, 3 .n32
  q4 : Bool
  noPull : Bool
  bytes : List Byte
  deriving DecidableEq, Repr, Inhabited

/-- An aperture chunk of a group and sequence, as this package's ports show it (R380). -/
structure Aperture where
  group : Nat
  seq : Nat
  chunk : Nat
  contribs : List Contrib
  pulled : List Nat         -- ranks that have pulled the result
  deriving DecidableEq, Repr, Inhabited

/-! ## Register blocks of the control complex (R248, R407, R436) -/

/-- The operand fields of the maintenance block. -/
structure MaintOp where
  addr : Dword
  size : Dword
  asid : Nat
  die : Nat
  op : Nat
  deriving DecidableEq, Repr, Inhabited

structure Maint where
  regs : MaintOp
  reserved : List Nat       -- offsets of the reserved fields that hold what is not zero
  status : Nat
  run : MaintOp             -- the operation in progress, as its operands stood when it began
  deriving DecidableEq, Repr, Inhabited

structure MasterCtl where
  op : Nat
  kind : Nat
  gridId : Word
  target : Dword
  reserved : List Nat       -- offsets of the reserved fields that hold what is not zero
  status : Nat
  run : Nat                 -- the target kind of the operation in progress
  outcome : Nat             -- the status that the blocks settled so far give it, 0 before any (R408)
  deriving DecidableEq, Repr, Inhabited

structure BringUp where
  state : Nat
  objAddr : Dword
  objSize : Nat
  error : Nat
  quoteStatus : Nat
  nonce : List Byte
  quote : List Byte
  meas : List (List Byte)
  fwMin : Nat               -- fused minimums (R439)
  cfgMin : Nat
  owner : Option (List Byte) -- the owner key digest, none while its fuses are blank (R440)
  objOk : Bool              -- the address and size of the load in progress were within their limits when it began (R439)
  obj : Option (List Byte)  -- the object read at the start of a load, none when the read failed (R439)
  quoting : List Byte       -- the message of the quote in progress (R447)
  deriving DecidableEq, Repr, Inhabited

/-! ## The part -/

/-- A register block that can be read; a performance counter by die, core and number (R424). -/
inductive RegBlock where
  | queue (q : BitVec 16)
  | maint | master | bringUp | counters
  | perf (die core c : Nat)
  deriving DecidableEq, Repr, Inhabited

/-- What the management controller may read (R449). -/
inductive MgmtItem where
  | readiness | measurements | identityKey | quote | temperature | power | linkEvents
  deriving DecidableEq, Repr, Inhabited

/-- Happenings the spec describes without an opcode-table row: what caches and media do by themselves, and what other
agents write (log 9). -/
inductive Background where
  | ccWrite (pa : Nat) (bytes : List Byte)   -- the control complex stores to HBM (R355, R379, R451)
  | hostWrite (pa : Nat) (bytes : List Byte) -- the host stores to its own memory (R338)
  | contribute (group seq chunk : Nat) (c : Contrib) -- another member's PUSH reaches the switch (R380)
  | pulled (group seq chunk rank : Nat)      -- another member's PULL takes a final result (R380)
  | answerGet (k step : Nat) (bytes : List Byte) -- a peer answers a GET of instance k with a chunk (R387)
  | serveGet (k buf idx n : Nat)             -- a peer's GET asks for chunk idx, of n bytes, of a buffer of instance k (R387, R393)
  | resetGroup (group : Nat)                 -- the control complex resets a group in the switch (R396)
  | refuseCopy (m k va : Nat)                -- another package refuses an access of a copy or fill (R378)
  | refusePage (die k va : Nat)              -- the same of an operation of the page unit
  | refuseColl (k va : Nat)                  -- the same of a collective
  | refuseSignal (m n : Nat)                 -- the same of entry n of a retiring task's successor list
  | readReg (ag : Agent) (r : RegBlock) (off n : Nat) -- an agent reads n bytes of a register block (R58, R67, R248, R407, R424, R436)
  | mgmtRead (x : MgmtItem)                  -- the management controller reads (R449)
  | fuseOwner (digest : List Byte)           -- the owner writes the owner key digest into the fuses (R440)
  | remoteWrite (pa : Nat) (bytes : List Byte) -- another package stores to its own HBM (R376)
  | withdraw (uid die : Nat)                 -- the control complex asks that a die be withdrawn (R104)
  | softError (key : Nat)                    -- an uncorrectable error poisons a byte (R249, R262)
  | softErrorX (m off : Nat)                 -- the same in a master's scratchpad (R249, R306)
  | dropTranslation (die idx : Nat)          -- a cached translation is replaced (R247)
  | evictCopy (die sector : Nat)             -- a copy of a remote sector is written back and dropped (R257)
  | replaceCount (die line : Nat)            -- a contention counter is replaced (R259)
  deriving DecidableEq, Repr, Inhabited

/-- Who moves next (log 1): a warp, an event of the opcode table, or a happening in the background. -/
inductive Turn where
  | warp (w : WRef)
  | event (i : Instr)
  | background (b : Background)
  deriving DecidableEq, Repr, Inhabited

/-- The form tag of a 4 KiB page of HBM (R254); unlisted pages are unpacked. -/
inductive PageForm where
  | packed | mismatched
  deriving DecidableEq, Repr, Inhabited

/-- An inbound window (R378, R440). -/
structure InWindow where
  base : Nat
  pages : Nat
  read : Bool
  write : Bool
  deriving DecidableEq, Repr, Inhabited

/-- The accepted configuration blob (R440). -/
structure Blob where
  package : Nat
  carveStacks : BitVec 8
  carveMiB : Nat
  fqExp : Nat
  privFirst : Nat
  privCount : Nat
  taskSlotSize : Nat
  queueAperture : Nat
  counterAperture : Nat
  transTable : Nat
  kvTable : Nat
  mmBlock : Nat
  mcBlock : Nat
  faultQueue : Nat
  groupTable : Nat
  perfBlock : Nat
  taskSpill : Nat
  taskCtx : Nat
  cxlBase : Nat
  cxlSize : Nat
  windows : List InWindow
  deriving DecidableEq, Repr, Inhabited

/-- A move: cycles that pass first, then a turn. -/
structure Move where
  cycles : Nat
  turn : Turn
  deriving DecidableEq, Repr, Inhabited

structure State where
  cycles : Nat              -- arithmetic-clock cycles since package start
  clockOff : Nat            -- what SWR of %clock has added (R418): %clock = cycles + clockOff
  freeTick : Nat
  schedule : List Move
  cur : Option WRef
  mem : Memory
  poison : List Nat         -- keys of poisoned bytes
  tags : List (Nat × PageForm)
  blob : Option Blob
  ready : BitVec 1024       -- the readiness map (R442)
  cxlUp : Bool
  fqWrite : Nat             -- fault queue write index (R401, R407)
  fqRead : Nat
  fqWindow : Option Nat     -- cycle at which the open interrupt window closes (R401)
  interrupts : Nat          -- interrupts raised to the control complex (R39, R401)
  dies : List Die
  masters : List (Nat × Master)
  grids : List (Nat × Grid)
  queues : List (Nat × Queue)
  counters : List (Nat × Nat)
  trigs : List Trig
  tickets : Nat             -- tickets given so far
  pendingCmds : List (Nat × Nat)  -- queue and ticket of each command that has not completed (R64)
  signals : List (Nat × SigEnt)
  cancels : List (Nat × Bool) -- held signals in the order sent; true for a cancel (R76)
  stale : List Nat          -- keys whose stale flag is set (R94)
  finals : List Nat         -- places of the completion records in state 3, 4 or 5 (R82, R331)
  wsloads : List (Nat × WsLoad)
  colls : List (Nat × Coll)
  aperture : List Aperture
  maint : Maint
  mctl : MasterCtl
  bring : BringUp
  throttled : Bool
  halted : Bool
  links : List (Nat × Bool) -- changes of link and port bits reported to the management controller, oldest first (R443, R449)
  reply : Option (List Byte) -- what the last read by another agent returned; none is poison or refusal (log 9)
  deriving DecidableEq, Repr, Inhabited

/-- A die after reset: eight performance counters for each of 24 cores, and nothing else. -/
def Die.reset : Die := ⟨[], [], [], List.replicate 192 ⟨0, 0, 0⟩, [], none, none, none, [], [], 0, []⟩

/-- The machine at the end of package reset (R437; log 3 for what the spec gives no value): it awaits firmware. -/
def State.reset : State where
  cycles := 0
  clockOff := 0
  freeTick := 0
  schedule := []
  cur := none
  mem := []
  poison := []
  tags := []
  blob := none
  ready := 0
  cxlUp := true
  fqWrite := 0
  fqRead := 0
  fqWindow := none
  interrupts := 0
  dies := List.replicate 8 Die.reset
  masters := []
  grids := []
  queues := []
  counters := []
  trigs := []
  tickets := 0
  pendingCmds := []
  signals := []
  cancels := []
  stale := []
  finals := []
  wsloads := []
  colls := []
  aperture := []
  maint := ⟨⟨0, 0, 0, 0, 0⟩, [], 0, ⟨0, 0, 0, 0, 0⟩⟩
  mctl := ⟨0, 0, 0, 0, [], 0, 0, 0⟩
  bring := ⟨1, 0, 0, 0, 0, List.replicate 64 0, List.replicate 114 0, List.replicate 3 (List.replicate 64 0), 0, 0, none, false, none, []⟩
  throttled := false
  halted := false
  links := []
  reply := none

/-- Why the model itself stops. -/
inductive Fault where
  /-- a meaning was asked for with no warp whose turn it is, or no clause in progress: no step does this (safe) -/
  | noWarp
  deriving DecidableEq, Repr

/-- Why an instruction has no meaning. -/
inductive Refusal where
  /-- the model gives the instruction no meaning yet; raised by `exec` (safe) -/
  | notModelled (mnemonic : String)
  deriving DecidableEq, Repr

end Sys2Proof.Machine
end

