-- ==== Sys2Proof/Machine/Regs.lean ====
section
/-! DEFINITION. Reaching warps and masters, reading and writing registers, and the frontier's order (R119, R143, R144, R147,
R152, R153). -/

namespace Sys2Proof.Machine

/-! ## Lists by index -/

/-- Replace element `i` by `f` of it. -/
def modAt {α : Type} (l : List α) (i : Nat) (f : α → α) : List α :=
  match l, i with
  | [], _ => []
  | a :: r, 0 => f a :: r
  | a :: r, i + 1 => a :: modAt r i f

/-- The first `n` elements of a list, element `i` replaced by `f` of it: a file of `n` registers with one written. -/
def fileAt {α : Type} [Inhabited α] (n : Nat) (l : List α) (i : Nat) (f : α → α) : List α :=
  (List.range n).map fun j => if j == i then f (l.getD j default) else l.getD j default

/-! ## Reaching a warp -/

def State.master (s : State) (m : Nat) : Option Master := aget s.masters m
def State.setMaster (s : State) (m : Nat) (b : Master) : State := { s with masters := aset s.masters m b }
def State.modMaster (s : State) (m : Nat) (f : Master → Master) : State :=
  match s.master m with
  | some b => s.setMaster m (f b)
  | none => s
def Master.modWarp (b : Master) (w : Nat) (f : Warp → Warp) : Master := { b with warps := modAt b.warps w f }
def State.warp (s : State) (r : WRef) : Option Warp :=
  match s.master r.m with
  | some b => b.warps[r.w]?
  | none => none
def State.modWarp (s : State) (r : WRef) (f : Warp → Warp) : State := s.modMaster r.m fun b => b.modWarp r.w f
def State.modDie (s : State) (d : Nat) (f : Die → Die) : State := { s with dies := fileAt 8 s.dies d f }
def State.die (s : State) (d : Nat) : Die := s.dies.getD d default

/-- The variant a master holds. -/
def Master.variant (b : Master) : Variant := b.image.variants.getD b.varIdx default
/-- Span core of warp `w` (R35). -/
def Master.spanOf (b : Master) (w : Nat) : Nat := w / (b.variant.warps / b.variant.span)
def Master.coreHold (b : Master) (w : Nat) : CoreHold := b.cores.getD (b.spanOf w) default
def Master.isTask (b : Master) : Bool := match b.kind with | .task _ => true | .block .. => false
def Master.gridUid (b : Master) : Option Nat := match b.kind with | .block g _ => some g | .task _ => none
def State.gridOf (s : State) (b : Master) : Option Grid := b.gridUid.bind fun u => aget s.grids u

/-- What a meaning works on: the warp whose turn it is, with its master and its clause in progress. -/
structure Ctx where
  ref : WRef
  b : Master
  w : Warp
  c : Clause
  deriving DecidableEq, Repr

/-- The current warp and its clause. -/
def State.ctx (s : State) : Option Ctx :=
  match s.cur with
  | none => none
  | some r =>
    match s.master r.m with
    | none => none
    | some b =>
      match b.warps[r.w]? with
      | none => none
      | some w =>
        match w.clause with
        | none => none
        | some c => some ⟨r, b, w, c⟩

/-- Run a meaning on the current warp; without one the model faults (no step does this). -/
def withCtx (s : State) (f : Ctx → State) : Host.Outcome State Fault Refusal :=
  match s.ctx with
  | some c => .next (f c)
  | none => .fault .noWarp

/-! ## Registers (R119, R147, R152, R153) -/

/-- The key of register r of the window at `base` (R147): frame and slot. -/
def vKey (base r : Nat) : Nat := 8 * base + r

/-- v(r) of lane l; v31 reads zero. -/
def Warp.v (w : Warp) (base : Nat) (r : Nat) (l : Nat) : Word :=
  if r == 31 then 0 else ((aget w.regs (vKey base r)).getD []).getD l 0

/-- The pair v(r):v(r+1); vz reads zero. -/
def Warp.v2 (w : Warp) (base : Nat) (r : Nat) (l : Nat) : Dword :=
  if r == 31 then 0 else w.v base (r + 1) l ++ w.v base r l

/-- Write v(r) in the lanes of `m`; vz discards. -/
def Warp.setV (w : Warp) (base : Nat) (r : Nat) (m : Mask) (f : Nat → Word) : Warp :=
  if r == 31 then w
  else
    let old := (aget w.regs (vKey base r)).getD []
    { w with regs := aset w.regs (vKey base r) ((List.range 128).map fun l => if m.has l then f l else old.getD l 0) }

/-- Write the pair v(r):v(r+1). -/
def Warp.setV2 (w : Warp) (base : Nat) (r : Nat) (m : Mask) (f : Nat → Dword) : Warp :=
  if r == 31 then w
  else (w.setV base r m fun l => (f l).extractLsb' 0 32).setV base (r + 1) m fun l => (f l).extractLsb' 32 32

/-- s(r); 63 is sz. -/
def Warp.s (w : Warp) (r : Nat) : Word := if r == 63 then 0 else w.unif.getD r 0
/-- A 5-bit uniform field: 31 is sz (R119). -/
def u5 (r : Reg5) : Nat := if r == 31 then 63 else r.toNat
def Warp.s5 (w : Warp) (r : Reg5) : Word := w.s (u5 r)
def Warp.s2 (w : Warp) (r : Nat) : Dword := if r == 63 then 0 else w.s (r + 1) ++ w.s r
def Warp.s52 (w : Warp) (r : Reg5) : Dword := w.s2 (u5 r)
def Warp.setS (w : Warp) (r : Nat) (x : Word) : Warp := if r == 63 then w else { w with unif := fileAt 63 w.unif r fun _ => x }
def Warp.setS5 (w : Warp) (r : Reg5) (x : Word) : Warp := w.setS (u5 r) x
def Warp.setS2 (w : Warp) (r : Nat) (x : Dword) : Warp :=
  if r == 63 then w else (w.setS r (x.extractLsb' 0 32)).setS (r + 1) (x.extractLsb' 32 32)

/-- p(n) as a mask; pt is true in every lane. -/
def Warp.p (w : Warp) (n : Nat) : Mask := if n == 7 then Mask.all else w.preds.getD n 0
/-- Write p(n) in the lanes of `m`; pt discards. -/
def Warp.setP (w : Warp) (n : Nat) (m : Mask) (x : Mask) : Warp :=
  if n == 7 then w else { w with preds := fileAt 7 w.preds n fun old => (old &&& ~~~m) ||| (x &&& m) }

/-- The lanes that execute: the clause's lanes whose predicate is true (R118). -/
def Ctx.active (c : Ctx) (p : Pred) : Mask :=
  let t := c.w.p p.idx.toNat
  c.c.lanes &&& (if p.neg then ~~~t else t)

/-- Does a once-per-entry instruction execute (R152, R339)? -/
def Ctx.executes (c : Ctx) (p : Pred) : Bool := c.active p != 0

/-! ## Addresses of a clause -/

/-- Address of word `i` of a clause; word 0 is the header. -/
def Clause.addr (c : Clause) (i : Nat) : Dword := c.hdr + BitVec.ofNat 64 (4 * i)
/-- Address of the instruction about to issue. -/
def Clause.pc (c : Clause) : Dword := c.addr c.next
/-- Address of the header that follows the clause (R115). -/
def Clause.fall (c : Clause) : Dword := c.addr (c.words.length + 1)

/-! ## The frontier (R143, R144) -/

/-- Entry a ranks above entry b (R143). -/
def FEntry.above (a b : FEntry) : Bool :=
  decide (b.prio < a.prio) || (a.prio == b.prio &&
    (decide (a.addr.toNat < b.addr.toNat) || (a.addr == b.addr && decide (b.base < a.base))))

/-- Insert an entry at its rank. -/
def insertEntry (l : List FEntry) (e : FEntry) : List FEntry :=
  match l with
  | [] => [e]
  | x :: r => if e.above x then e :: x :: r else x :: insertEntry r e

/-- Add an entry, merging it with one of the same address and window base (R144); entries stay ranked. -/
def addEntry (l : List FEntry) (e : FEntry) : List FEntry :=
  if e.lanes == 0 then l
  else if l.any fun x => x.addr == e.addr && x.base == e.base then
    l.map fun x => if x.addr == e.addr && x.base == e.base then { x with lanes := x.lanes ||| e.lanes, vec := x.vec || e.vec }
      else x
  else insertEntry l e

/-- A place that lanes reach: next address and window base. -/
structure Reach where
  addr : Dword
  base : Nat
  lanes : Mask
  deriving DecidableEq, Repr, Inhabited

/-- Group lanes by the place each reaches (R144). -/
def groupReach (l : List Reach) : List Reach :=
  l.foldl (fun acc r =>
    if acc.any fun x => x.addr == r.addr && x.base == r.base then
      acc.map fun x => if x.addr == r.addr && x.base == r.base then { x with lanes := x.lanes ||| r.lanes } else x
    else acc ++ [r]) []

/-- Every lane a warp still runs: frontier, clause, held aside, and a handler's. -/
def Warp.liveLanes (w : Warp) : Mask :=
  let f (l : List FEntry) : Mask := l.foldl (fun m e => m ||| e.lanes) 0
  let h (l : List Held) : Mask := l.foldl (fun m e => m ||| e.lanes) 0
  f w.frontier ||| (match w.clause with | some c => c.lanes | none => 0) ||| h w.held |||
    (match w.handler with | some x => f x.setAside ||| h x.tret | none => 0)

/-- Indices of the warps that still run some lane. -/
def Master.liveWarps (b : Master) : List Nat :=
  (List.range b.warps.length).filter fun i => (b.warps.getD i default).liveLanes != 0

/-- Window bases of every entry of the warp, suspended and set-aside ones included (R147). -/
def Warp.bases (w : Warp) : List Nat :=
  w.frontier.map FEntry.base ++ (match w.clause with | some c => [c.base] | none => []) ++ w.held.map Held.base ++
  (match w.handler with
   | some h => h.susp.base :: (h.setAside.map FEntry.base ++ h.tret.map Held.base)
   | none => [])

/-- The highest frame any entry's window reaches (R147). -/
def Warp.topFrame (w : Warp) : Nat := (w.bases.foldl max 0) + 3
/-- Resident frames (R179). -/
def Warp.residentFrames (w : Warp) : Nat := w.topFrame + 1 - w.resident

end Sys2Proof.Machine
end

