-- ==== Sys2Proof/Machine/Memory.lean ====
section
/-! DEFINITION. Physical memory, its homes and copies, poison and packed pages (R246, R249, R254, R255, R257, R333),
translation (R243 to R247) and the miss table (R251). -/

namespace Sys2Proof.Machine

/-! ## Physical memory as one list of bytes

The key of a byte of HBM is its physical address; host memory (kind 1), other packages' HBM (kind 2) and the weight
stores lie above it. A physical address has 52 bits (R245, R246); one beyond them leads to a place that nothing answers
(log 83). -/

def hostKey (pa : Nat) : Nat := 2 ^ 60 + min pa (2 ^ 59)
def remoteKey (pa : Nat) : Nat := 2 ^ 61 + min pa (2 ^ 59)
def wsKey (die off : Nat) : Nat := 2 ^ 62 + 2 ^ 31 * die + off
def hbmBytes : Nat := 2 ^ 39

/-- The home die of a key: the die of its HBM stack, or of its weight store. -/
def homeOf (key : Nat) : Option Nat :=
  if key < hbmBytes then some (key / 2 ^ 36)
  else if 2 ^ 62 ≤ key then some ((key - 2 ^ 62) / 2 ^ 31) else none

def readBytes (m : Memory) (key n : Nat) : List Byte := (List.range n).map fun i => m.read (key + i)
def writeBytes (m : Memory) (key : Nat) (bs : List Byte) : Memory :=
  (bs.zipIdx).foldl (fun acc p => acc.write (key + p.2) p.1) m

/-- Little-endian value of bytes (R5). -/
def leNat : List Byte → Nat
  | [] => 0
  | b :: r => b.toNat + 256 * leNat r
/-- The `n` low bytes of a number, little-endian. -/
def leBytes : Nat → Nat → List Byte
  | 0, _ => []
  | n + 1, x => BitVec.ofNat 8 x :: leBytes n (x / 256)
def le32 (bs : List Byte) : Word := BitVec.ofNat 32 (leNat bs)
def le64 (bs : List Byte) : Dword := BitVec.ofNat 64 (leNat bs)
/-- A field of a record read as bytes. -/
def recNat (bs : List Byte) (off n : Nat) : Nat := leNat ((bs.drop off).take n)

def overlapsList (l : List Nat) (key n : Nat) : Bool := l.any fun k => decide (key ≤ k ∧ k < key + n)

/-- The control complex's carve-out: the top of each selected stack (R440). -/
def Blob.inCarve (b : Blob) (pa n : Nat) : Bool :=
  (List.range 8).any fun h =>
    b.carveStacks.getLsbD h && decide (pa < 2 ^ 36 * (h + 1) ∧ 2 ^ 36 * (h + 1) - 2 ^ 20 * b.carveMiB < pa + n)

def State.carved (s : State) (pa n : Nat) : Bool :=
  match s.blob with
  | some b => b.inCarve pa n
  | none => false

/-- Does a read of the `n` bytes at the key deliver poison whatever they hold? (R443: a stack or a bank group that they meet
is not ready, the CXL link is down for kind 1; log 83: they lie beyond physical memory) -/
def State.unreachable (s : State) (key n : Nat) : Bool :=
  if key < hbmBytes then !s.ready.getLsbD (512 + key / 2 ^ 36) || !s.ready.getLsbD (512 + (key + (n - 1)) / 2 ^ 36)
  else if 2 ^ 62 ≤ key then
    let o := key - 2 ^ 62
    (List.range (min 16 ((o % 128 + n + 127) / 128))).any fun i => !s.ready.getLsbD (384 + 16 * (o / 2 ^ 31) + (o / 128 + i) % 16)
  else if 2 ^ 61 ≤ key then decide (2 ^ 61 + 2 ^ 52 < key + n)
  else if 2 ^ 60 ≤ key then !s.cxlUp || decide (2 ^ 60 + 2 ^ 52 < key + n)
  else true

/-! ## Page forms (R254, R255) -/

def State.formOf (s : State) (key : Nat) : Option PageForm := aget s.tags (key / 4096)

/-! ## The fault queue (R401, R402) -/

def FRecord.bytes (r : FRecord) : List Byte :=
  leBytes 1 r.kind ++ leBytes 1 r.cause ++ leBytes 1 r.flags ++ leBytes 1 r.die ++ leBytes 1 r.core ++ leBytes 1 r.slot ++
  leBytes 2 r.queue ++ leBytes 4 r.gridTag.toNat ++ leBytes 4 r.index.toNat ++ leBytes 8 r.identity.toNat ++
  leBytes 8 r.pc.toNat ++ leBytes 16 r.lanes.toNat ++ leBytes 8 r.address.toNat ++ leBytes 8 r.info.toNat

def State.fqSize (s : State) : Nat := match s.blob with | some b => 2 ^ b.fqExp | none => 0

/-- Append a record to the ring, when the ring has room: bytes, then the write index, then the interrupt window. -/
def State.fqAppend (s : State) (r : FRecord) : Option State :=
  match s.blob with
  | none => none
  | some b =>
    if s.fqWrite - s.fqRead < s.fqSize then
      some { s with
        mem := writeBytes s.mem (b.faultQueue + 64 * (s.fqWrite % s.fqSize)) r.bytes
        fqWrite := s.fqWrite + 1
        -- a window that has closed by now has raised its interrupt, and this append opens the next
        fqWindow := match s.fqWindow with
          | some t => if s.cycles < t then some t else some (s.cycles + 1600)
          | none => some (s.cycles + 1600)
        interrupts := match s.fqWindow with
          | some t => if s.cycles < t then s.interrupts else s.interrupts + 1
          | none => s.interrupts }
    else none

/-- A record arises at a die: it is appended, or waits at the die while the ring is full or while older records of the
die wait (R401). -/
def State.record (s : State) (die : Nat) (r : FRecord) : State :=
  let wait (t : State) : State := t.modDie die fun d => { d with records := d.records ++ [r] }
  if (s.die die).records.isEmpty then (s.fqAppend r).getD (wait s) else wait s

def FRecord.blank : FRecord := ⟨0, 0, 0, 255, 255, 255, 0, 0, 0, 0, 0, 0, 0, 0⟩

/-- R255: a request whose packed bit disagrees with the page's tag makes the page mismatched; the first such request
appends a packing-mismatch record. -/
def State.checkForm (s : State) (key : Nat) (packed : Bool) : State :=
  if key < hbmBytes then
    match s.formOf key, packed with
    | none, false => s
    | some .packed, true => s
    | some .mismatched, _ => s
    | _, _ =>
      { s with tags := aset s.tags (key / 4096) .mismatched }.record (key / 2 ^ 36)
        { FRecord.blank with kind := 4, die := key / 2 ^ 36, address := BitVec.ofNat 64 (key / 4096 * 4096) }
  else s

/-- Does the tag of the page agree with a request's packed bit (R254)? -/
def State.formAgrees (s : State) (key : Nat) (packed : Bool) : Bool :=
  decide (hbmBytes ≤ key) || s.formOf key == (if packed then some .packed else none)

/-- Is a read of `n` bytes at the key poisoned at its home? -/
def State.poisoned (s : State) (key n : Nat) : Bool :=
  s.unreachable key n || overlapsList s.poison key n || s.formOf key == some .mismatched

/-! ## Access at the home, and through a die's copies (R257, R333, R335) -/

/-- Read at the home: none is poison. -/
def State.homeRead (s : State) (key n : Nat) : Option (List Byte) :=
  if s.poisoned key n then none else some (readBytes s.mem key n)

/-- Write at the home. A write to a mismatched page leaves undefined contents (R255) and a write to memory that is not
reachable is lost. -/
def State.homeWrite (s : State) (key : Nat) (bs : List Byte) : State :=
  if s.unreachable key bs.length || s.formOf key == some .mismatched then s
  else { s with mem := writeBytes s.mem key bs
                poison := s.poison.filter fun k => !decide (key ≤ k ∧ k < key + bs.length) }

/-- Write a sector's dirty bytes to its home: a request that carries the sector's packed bit (R254). -/
def State.publishSector (s : State) (idx : Nat) (sec : Sector) : State :=
  (List.range 32).foldl (fun t i => if sec.dirty.getLsbD i then t.homeWrite (32 * idx + i) [sec.bytes.getD i 0] else t)
    (if sec.dirty == 0 then s else s.checkForm (32 * idx) sec.packed)

/-- Publish and drop the die's copies whose sectors meet `f` (R333: dirty bytes are written back first). -/
def State.dropCopies (s : State) (d : Nat) (f : Nat → Bool) : State :=
  let hit := (s.die d).copies.filter fun p => f p.1
  let t := hit.foldl (fun t p => t.publishSector p.1 p.2) s
  t.modDie d fun x => { x with copies := x.copies.filter fun p => !f p.1 }

/-- Publish the die's dirty copies whose sectors meet `f`; the copies stay, clean. -/
def State.publishCopies (s : State) (d : Nat) (f : Nat → Bool) : State :=
  let hit := (s.die d).copies.filter fun p => f p.1
  let t := hit.foldl (fun t p => t.publishSector p.1 p.2) s
  t.modDie d fun x => { x with copies := x.copies.map fun p => if f p.1 then (p.1, { p.2 with dirty := 0 }) else p }

/-- Does die d keep copies of the line (it is homed elsewhere and not another package's)? Lines of other packages are
reached uncached (log 8). -/
def copyable (d key : Nat) : Bool := homeOf key != some d && decide (key < 2 ^ 61)

/-- The sector a die holds, filled from the home when it holds none, by a request with that packed bit; none is poison. -/
def State.fillSector (s : State) (d idx : Nat) (packed : Bool) : State × Option Sector :=
  match aget (s.die d).copies idx with
  | some sec => (s, some sec)
  | none =>
    let s := s.checkForm (32 * idx) packed
    match s.homeRead (32 * idx) 32 with
    | none => (s, none)
    | some bs =>
      let sec : Sector := ⟨bs, 0, packed⟩
      (s.modDie d fun x => { x with copies := aset x.copies idx sec }, some sec)

/-- What a held sector gives: nothing but poison while its page is mismatched (R255). -/
def State.sectorRead (s : State) (sec : Sector) (key n : Nat) : Option (List Byte) :=
  if s.formOf key == some .mismatched then none else some ((sec.bytes.drop (key % 32)).take n)

/-- A SIMT read of `n` bytes inside one sector by die d; `fresh` reads at the home (an access ordered at package scope or
wider, R331). none is poison. -/
def State.dieRead (s : State) (d key n : Nat) (fresh packed : Bool) : State × Option (List Byte) :=
  if !copyable d key then
    let t := s.checkForm key packed
    (t, t.homeRead key n)
  else if fresh then
    let t := (s.dropCopies d fun i => i == key / 32).checkForm key packed
    (t, t.homeRead key n)
  else
    let (t, o) := s.fillSector d (key / 32) packed
    match o with
    | none =>
      -- bytes of the sector are poisoned: only a read of those is
      (t, t.homeRead key n)
    | some sec => (t, t.sectorRead sec key n)

/-- A write to a physical range of one line reaches the PARKs that watch the line (R345). -/
def State.touch (s : State) (key n : Nat) : State :=
  let see (p : Park) : Bool := p.isG && !p.hit && decide (p.addr < key + n ∧ key < p.addr + 128)
  if s.masters.any fun m => m.2.warps.any fun w => w.park.any see then
    { s with masters := s.masters.map fun m => (m.1, { m.2 with warps := m.2.warps.map fun w =>
        { w with park := w.park.map fun p => if see p then { p with hit := true } else p } }) }
  else s

/-- A SIMT write of bytes inside one sector by die d. -/
def State.dieWrite (s : State) (d key : Nat) (bs : List Byte) (fresh packed : Bool) : State :=
  let s := s.touch key bs.length
  if !copyable d key then (s.checkForm key packed).homeWrite key bs
  else if fresh then ((s.dropCopies d fun i => i == key / 32).checkForm key packed).homeWrite key bs
  else
    let (t, o) := s.fillSector d (key / 32) packed
    match o with
    | none => t.homeWrite key bs
    | some sec =>
      let put := (bs.zipIdx).foldl (fun (a : Sector) p => { a with
        bytes := modAt a.bytes (key % 32 + p.2) fun _ => p.1
        dirty := a.dirty ||| BitVec.ofNat 32 (2 ^ (key % 32 + p.2)) }) sec
      t.modDie d fun x => { x with copies := aset x.copies (key / 32) put }

/-- An engine's write: at the home, dropping every copy of the line on the engine's own die (R335). -/
def State.engineWrite (s : State) (d key : Nat) (bs : List Byte) (packed : Bool) : State :=
  let s := (s.checkForm key packed).touch key bs.length
  ((s.dropCopies d fun i => decide (key / 128 ≤ i / 4 ∧ i / 4 ≤ (key + bs.length - 1) / 128)).homeWrite key bs)

/-- An engine's read, at the home. -/
def State.engineRead (s : State) (key n : Nat) (packed : Bool) : State × Option (List Byte) :=
  let s := s.checkForm key packed
  (s, s.homeRead key n)

/-! ## Page tables (R243 to R247) -/

/-- What an access needs of the leaf (R249 checks 5 and 6); where an address homes, nothing (R88, R246, R336). -/
inductive Access where
  | read | write | rmw | fetch | home
  deriving DecidableEq, Repr

/-- Where a translated address leads. -/
structure Place where
  key : Nat
  kind : Nat
  packed : Bool
  deriving DecidableEq, Repr, Inhabited

/-- The outcome of a walk with its checks 3 to 6. -/
inductive Walk where
  | ok (p : Place)
  | missing (level : Nat)
  | malformed
  | permission
  | keyed
  deriving DecidableEq, Repr

def pte (e : Dword) (hi lo : Nat) : Nat := e.toNat / 2 ^ lo % 2 ^ (hi + 1 - lo)

/-- Bits of the page offset of a leaf at a level (R244). -/
def levelShift (level : Nat) : Nat := 12 + 9 * (5 - level)

/-- Does a kind-2 physical address name this package, so that it is treated as kind 0 (R246)? -/
def State.ownPackage (s : State) (pa : Nat) : Bool :=
  match s.blob with
  | some b => pa / 2 ^ 42 == b.package
  | none => false

/-- R245: is a valid entry malformed? -/
def State.pteMalformed (s : State) (level : Nat) (e : Dword) : Bool :=
  let leaf := pte e 1 1 == 1
  let size := 2 ^ levelShift level
  let frame := pte e 51 12 * 4096
  let kind := pte e 9 8
  let packed := pte e 5 5 == 1
  pte e 59 52 != 0 || pte e 11 10 != 0 || pte e 7 6 != 0 ||
  (!leaf && (pte e 63 60 != 0 || kind != 0 || pte e 5 2 != 0)) ||
  (leaf && decide (level ≤ 2)) || (!leaf && level == 5) ||
  (leaf && frame % size != 0) || kind == 3 || (packed && kind != 0) ||
  (leaf && kind == 0 && (decide (hbmBytes < frame + size) || s.carved frame size)) ||
  (leaf && kind == 2 && s.ownPackage frame &&
    (decide (hbmBytes < frame % 2 ^ 42 + size) || s.carved (frame % 2 ^ 42) size))

/-- Read a page-table entry at its home; a table outside HBM or poisoned cannot be read. -/
def State.readPte (s : State) (table idx : Nat) : Option Dword :=
  if decide (table + 4096 ≤ hbmBytes) then (s.homeRead (table + 8 * idx) 8).map le64 else none

/-- The cached entry of die d for an address at a level. -/
def State.tlbFind (s : State) (d asid level va : Nat) : Option Dword :=
  ((s.die d).tlb.find? fun t => t.asid == asid && t.level == level && t.vpre == va / 2 ^ levelShift level).map
    TlbEnt.entry

/-- Keep a valid entry in the die's translation cache. -/
def State.tlbFill (s : State) (d asid level va : Nat) (e : Dword) : State :=
  s.modDie d fun x => { x with tlb := ⟨asid, level, va / 2 ^ levelShift level, e⟩ :: x.tlb }

/-- The physical place of an address under a leaf (R246); a package's own number is kind 0. -/
def State.leafPlace (s : State) (level va : Nat) (e : Dword) : Place :=
  let pa := pte e 51 12 * 4096 + va % 2 ^ levelShift level
  let packed := pte e 5 5 == 1
  match pte e 9 8 with
  | 0 => ⟨pa, 0, packed⟩
  | 1 => ⟨hostKey pa, 1, false⟩
  | _ => if s.ownPackage pa then ⟨pa % 2 ^ 42, 0, packed⟩ else ⟨remoteKey pa, 2, false⟩

def leafPermits (e : Dword) : Access → Bool
  | .read => pte e 2 2 == 1
  | .write => pte e 3 3 == 1
  | .rmw => pte e 2 2 == 1 && pte e 3 3 == 1
  | .fetch => pte e 4 4 == 1
  | .home => true

def keyPermits (pkr : Word) (e : Dword) : Access → Bool
  | .read | .fetch => pkr.getLsbD (2 * pte e 63 60)
  | .write => pkr.getLsbD (2 * pte e 63 60 + 1)
  | .home => true
  | .rmw => pkr.getLsbD (2 * pte e 63 60) && pkr.getLsbD (2 * pte e 63 60 + 1)

/-- Walk from a level on: `table` is the physical address of the level's table. -/
def walkGo (d asid va : Nat) (pkr : Word) (acc : Access) : Nat → Nat → Nat → State → State × Walk
  | 0, _, _, s => (s, .malformed)
  | fuel + 1, level, table, s =>
    let e? := match s.tlbFind d asid level va with
      | some e => some e
      | none => s.readPte table (va / 2 ^ levelShift level % 512)
    match e? with
    | none => (s, .malformed)
    | some e =>
      if pte e 0 0 == 0 then (s, .missing level)
      else
        let s := if (s.tlbFind d asid level va).isSome then s else s.tlbFill d asid level va e
        if s.pteMalformed level e then (s, .malformed)
        else if pte e 1 1 == 0 then walkGo d asid va pkr acc fuel (level + 1) (pte e 51 12 * 4096) s
        else if !leafPermits e acc then (s, .permission)
        else if !keyPermits pkr e acc then (s, .keyed)
        else (s, .ok (s.leafPlace level va e))

/-- The deepest level at which the die caches an entry for the address; walks start there (R247). -/
def State.startLevel (s : State) (d asid va : Nat) : Nat :=
  match [5, 4, 3, 2].find? fun l => (s.tlbFind d asid l va).isSome with
  | some l => l
  | none => 1

/-- R243, R244: translate a virtual address for a master of queue q with its context entry. The root is read at each
walk. -/
def State.translate (s : State) (d q : Nat) (ctx : TransCtx) (va : Nat) (acc : Access) : State × Walk :=
  let l := s.startLevel d ctx.asid va
  if l == 1 then
    match s.blob with
    | none => (s, .malformed)
    | some b =>
      match s.homeRead (b.transTable + 64 * q) 8 with
      | none => (s, .malformed)
      | some bs => walkGo d ctx.asid va ctx.pkr acc 5 1 (leNat bs) s
  else walkGo d ctx.asid va ctx.pkr acc 5 l 0 s

/-! ## The miss table (R251) -/

/-- A lane joins the entry for its granule, or creates one and its record; a full table leaves it waiting. -/
def State.joinMiss (s : State) (d asid va level : Nat) (write : Bool) : State × LaneSt :=
  let vpn := va / 4096 % 2 ^ 45
  match (s.die d).miss.find? fun p => p.2.asid == asid && p.2.vpn == vpn with
  | some p => (s, .missing p.1)
  | none =>
    let idx := freshKey (s.die d).miss
    if idx < 4096 then
      let t := s.modDie d fun x => { x with miss := aset x.miss idx ⟨asid, vpn, level, write⟩ }
      (t.record d { FRecord.blank with kind := 2, flags := (if write then 8 else 0), die := d, index := BitVec.ofNat 32 idx,
                                       identity := BitVec.ofNat 64 (asid + 2 ^ 16 * level),
                                       address := BitVec.ofNat 64 (4096 * vpn) }, .missing idx)
    else (s, .full)

/-! ## Ranges of virtual addresses, as the part and its engines access them -/

/-- What such an access gives; `bad` carries the cause of R399. -/
inductive VaRes where
  | ok (bs : List Byte)
  | missing (va level : Nat)
  | bad (cause : Nat) (va : Nat)
  deriving DecidableEq, Repr

/-- A range cut at 4 KiB pages: address and length of each piece. -/
def vaPieces (va n : Nat) : List (Nat × Nat) :=
  (List.range (n / 4096 + 2)).filterMap fun i =>
    let a := if i == 0 then va else (va / 4096 + i) * 4096
    let b := min (va + n) ((va / 4096 + i + 1) * 4096)
    if a < b then some (a, b - a) else none

/-- The cause of a failed walk (R249, R399). -/
def Walk.cause : Walk → Nat
  | .malformed => 0x12
  | .permission => 0x13
  | .keyed => 0x14
  | .missing _ | .ok _ => 0

/-- Translate a range piece by piece: the places, or the first failure. Bits 63:57 must be zero (R241). -/
def State.vaPlaces (s : State) (d q : Nat) (ctx : TransCtx) (va n : Nat) (acc : Access) :
    State × Except VaRes (List (Place × Nat)) :=
  if 2 ^ 57 < va + n then (s, .error (.bad 0x11 va))
  else (vaPieces va n).foldl (fun (p : State × Except VaRes (List (Place × Nat))) q' =>
    match p with
    | (s, .error e) => (s, .error e)
    | (s, .ok l) =>
      match s.translate d q ctx q'.1 acc with
      | (t, .ok pl) => (t, .ok (l ++ [(pl, q'.2)]))
      | (t, .missing lv) => (t, .error (.missing q'.1 lv))
      | (t, w) => (t, .error (.bad w.cause q'.1))) (s, .ok [])

/-- Read a range at the homes. -/
def State.vaRead (s : State) (d q : Nat) (ctx : TransCtx) (va n : Nat) : State × VaRes :=
  match s.vaPlaces d q ctx va n .read with
  | (t, .error e) => (t, e)
  | (t, .ok l) => l.foldl (fun (p : State × VaRes) x =>
      match p with
      | (t, .ok bs) =>
        match t.engineRead x.1.key x.2 x.1.packed with
        | (u, some b) => (u, .ok (bs ++ b))
        | (u, none) => (u, .bad 0x15 va)
      | r => r) (t, .ok [])

/-- Write a range at the homes, whole or not at all. -/
def State.vaWrite (s : State) (d q : Nat) (ctx : TransCtx) (va : Nat) (bs : List Byte) : State × VaRes :=
  match s.vaPlaces d q ctx va bs.length .write with
  | (t, .error e) => (t, e)
  | (t, .ok l) => ((l.foldl (fun (p : State × List Byte) x =>
      (p.1.engineWrite d x.1.key (p.2.take x.2) x.1.packed, p.2.drop x.2)) (t, bs)).1, .ok [])

/-- The die number under which the part itself walks: it caches nothing. -/
def noDie : Nat := 8

end Sys2Proof.Machine
end

