-- ==== Sys2Proof/Machine/Ops.lean ====
section
/-! DEFINITION. The operations the meanings share: fetching words, ending an instruction and a clause (R117, R144),
freezing a master (R400, R402, R404), taking a trap and returning from one (R51, R168, R169). -/

namespace Sys2Proof.Machine

/-! ## Time (R81, R109, R154) -/

/-- %clock. -/
def State.clockVal (s : State) : Nat := s.cycles + s.clockOff
/-- The package timestamp in ns at a cycle (R81). -/
def State.stampAt (s : State) (cycle : Nat) : Nat := 5 * (cycle + s.clockOff) / 8
def State.stamp (s : State) : Nat := s.stampAt s.cycles

/-- Is the master's launch persistent (R39)? -/
def State.persistent (s : State) (b : Master) : Bool :=
  match s.gridOf b with
  | some g => g.launch.persistent
  | none => false

/-- R109: an event that resets the no-progress timer; `always` for the ones that count for persistent launches too. -/
def State.progress (s : State) (m : Nat) (always : Bool) : State :=
  match s.master m with
  | none => s
  | some b =>
    if always || !s.persistent b then
      let t := s.setMaster m { b with timer := s.cycles }
      match b.gridUid with
      | some u => match aget t.grids u with
        | some g => { t with grids := aset t.grids u { g with progressed := true } }
        | none => t
      | none => t
    else s

/-! ## Fetching words (R112, R116) -/

/-- The copy that the die holds of the sector, when it holds one. -/
def State.heldSector (s : State) (d key : Nat) : Option Sector :=
  if copyable d key then aget (s.die d).copies (key / 32) else none

/-- Bytes as the die sees them now, without filling a copy. -/
def State.peek (s : State) (d key n : Nat) : Option (List Byte) :=
  match s.heldSector d key with
  | some sec => s.sectorRead sec key n
  | none => s.homeRead key n

/-- Would a read by the die give bytes and no poison: from the copy that it holds, or by a request whose packed bit agrees with
the page's tag (R249, R255)? -/
def State.readable (s : State) (d key n : Nat) (packed : Bool) : Bool :=
  (s.peek d key n).isSome && ((s.heldSector d key).isSome || s.formAgrees key packed)

/-- A request of the die for the sector: with no copy held, it goes to the home with its packed bit (R254, R255). -/
def State.request (s : State) (d key : Nat) (packed : Bool) : State :=
  if (s.heldSector d key).isSome then s else s.checkForm key packed

/-- What fetching a word gives (R116). -/
inductive Fetch where
  | word (w : Word)
  | missing (level : Nat)
  | violation (cause : Nat)   -- the cause of R399
  deriving DecidableEq, Repr

def Image.holds (i : Image) (va : Dword) : Bool :=
  decide (i.base.toNat ≤ va.toNat ∧ va.toNat + 4 ≤ i.base.toNat + i.size)

/-- Fetch one word for a master: it must lie in the image, be executable and not poisoned. -/
def State.fetchWord (s : State) (b : Master) (va : Dword) : State × Fetch :=
  if !b.image.holds va then (s, .violation 0x11)
  else
    let (t, w) := s.translate b.die b.queue b.ctx va.toNat .fetch
    match w with
    | .ok p =>
      let t := t.request b.die p.key p.packed
      match t.peek b.die p.key 4 with
      | some bs => (t, .word (le32 bs))
      | none => (t, .violation 0x15)
    | .missing l => (t, .missing l)
    | .malformed => (t, .violation 0x12)
    | .permission => (t, .violation 0x13)
    | .keyed => (t, .violation 0x14)

/-- The priority of the clause header at an address (R113, R144); 256 when the word there is no header or cannot be
fetched, so that the entry is tried first and meets its cause (log 7). -/
def State.headerPrio (s : State) (b : Master) (va : Dword) : Nat :=
  match (s.fetchWord b va).2 with
  | .word w => match headerOf w with
    | some h => h.prio.toNat
    | none => 256
  | _ => 256

/-- How many frontier entries the warp has, as its record counts them: the clause in progress, those that issue, those that a
trap suspends or sets aside, and lanes held aside (R415). -/
def Warp.entryCount (w : Warp) : Nat :=
  w.clause.toList.length + w.frontier.length + w.held.length +
  (match w.handler with | some h => h.setAside.length + 1 + h.tret.length | none => 0)

/-- The entry of lanes that reach a place. -/
def State.entryAt (s : State) (b : Master) (r : Reach) : FEntry := ⟨s.headerPrio b r.addr, r.addr, r.lanes, r.base, false⟩

/-! ## Freezing (R400, R402, R404) -/

/-- What a freeze record names beside the master. -/
structure FreezeAt where
  cause : Nat
  warp : Option Nat
  fetch : Bool
  pc : Dword
  lanes : Mask
  address : Dword
  info : Dword
  deriving DecidableEq, Repr

def FreezeAt.blank (cause : Nat) : FreezeAt := ⟨cause, none, false, 0, 0, 0, 0⟩

/-- The record of a freeze (R402); cause 0x03 is met at trap entry, before the handler (R51). -/
def freezeRecord (b : Master) (f : FreezeAt) (secondary : Bool) : FRecord :=
  let w := f.warp.bind fun i => b.warps[i]?
  let hold := match f.warp with
    | some i => b.coreHold i
    | none => default
  { FRecord.blank with
    kind := 1, cause := f.cause
    flags := (if secondary then 1 else 0) + (if f.fetch then 2 else 0) +
             (match w with | some x => if x.handler.isSome && f.cause != 0x03 then 4 else 0 | none => 0)
    die := b.die
    core := if f.warp.isSome then hold.core else 255
    slot := match f.warp with
      | some i => hold.warpSlots.getD (i % (b.variant.warps / b.variant.span)) 255
      | none => 255
    queue := b.queue, gridTag := b.gridId
    index := match b.kind with | .block _ lin => BitVec.ofNat 32 lin | .task _ => BitVec.ofNat 32 b.signalled
    identity := match b.kind with | .block .. => b.image.id | .task r => r
    pc := f.pc, lanes := f.lanes, address := f.address, info := f.info }

/-- Freeze a master (R400): the first violation freezes it and is the primary record; later ones append their own with
the secondary flag. A master whose context save meets a violation returns to Running on thaw (R412); a save that cannot be
written is restarted (R399). -/
def State.freeze (s : State) (m : Nat) (f : FreezeAt) : State :=
  match s.master m with
  | none => s
  | some b =>
    if b.phase == .frozen then s.record b.die (freezeRecord b f true)
    else
      let t := s.setMaster m { b with
        phase := .frozen
        frozenFrom := if b.phase == .preempting && f.cause != 0x1A then .running else b.phase
        switchPend := none, stoppedAt := s.cycles }
      let t := match b.gridUid with
        | some u => match aget t.grids u with
          | some g => { t with grids := aset t.grids u { g with firstCause := some (g.firstCause.getD f.cause) } }
          | none => t
        | none => t
      t.record b.die (freezeRecord b f false)

/-! ## Ending an instruction, a clause, a handler -/

/-- Words an instruction takes (R120). -/
def instrLen (w : Word) : Nat := if hasLiteral w then 2 else 1

/-- The index after the instruction at index `i` of a clause. -/
def Clause.after (c : Clause) (i : Nat) : Nat := i + instrLen (c.words.getD (i - 1) 0)

/-- The lanes `live` of a suspended clause go on in a warp with no clause in progress (R169): after the instruction at `tpc`
when it has completed, else at that instruction again or at `tpc` as a header. -/
def State.goOn (s : State) (b : Master) (w : Warp) (c : Clause) (live : Mask) (completed : Bool) (tpc : Dword) : Warp :=
  let asHeader (a : Dword) : Warp := { w with frontier := addEntry w.frontier (s.entryAt b ⟨a, c.base, live⟩) }
  let idx := (tpc - c.hdr).toNat / 4
  let inClause := (tpc - c.hdr).toNat % 4 == 0 && decide (1 ≤ idx ∧ idx ≤ c.words.length)
  if completed then
    let n := c.after idx
    if n > c.words.length then asHeader c.fall
    else { w with clause := some { c with next := n, lanes := live, spans := [] } }
  else if inClause then
    -- the words are fetched again, so that code rewritten meanwhile takes effect
    let words := (List.range c.words.length).map fun i =>
      match (s.fetchWord b (c.addr (i + 1))).2 with
      | .word x => x
      | _ => c.words.getD i 0
    { w with clause := some { c with words := words, next := idx, lanes := live, spans := [] } }
  else asHeader tpc

/-- The lanes of a handler that has ended resume (R169). -/
def State.resumeSuspended (s : State) (b : Master) (w : Warp) (h : Handler) : Warp :=
  let live := h.tret.foldl (fun m e => m ||| e.lanes) 0
  let w := { w with handler := none, frontier := h.setAside, clause := none }
  if live == 0 then w
  else if h.tpcWritten then { w with frontier := addEntry w.frontier (s.entryAt b ⟨w.tpc, h.susp.base, live⟩) }
  else s.goOn b w h.susp live (w.tcause.getLsbD 31) w.tpc

/-- Is a held group the handler's own: its lanes came into the handler, rather than being held before the trap? -/
def Handler.owns (h : Handler) (x : Held) : Bool := x.lanes &&& h.susp.lanes != 0

/-- A handler ends when none of its lanes is left to issue or is held at a switch point or step (R168, R169). -/
def State.settleHandler (s : State) (b : Master) (w : Warp) : Warp :=
  match w.handler with
  | none => w
  | some h => if w.frontier.isEmpty && w.clause.isNone && !w.held.any h.owns then s.resumeSuspended b w h else w

/-- End the current clause: its lanes form the entries of the places they reach (R144). -/
def State.endClause (s : State) (b : Master) (w : Warp) (reaches : List Reach) : Warp :=
  let fs := (groupReach reaches).foldl (fun l r => addEntry l (s.entryAt b r)) w.frontier
  s.settleHandler b { w with clause := none, frontier := fs }

/-- The span counters after one more instruction has issued (R124). -/
def Clause.tick (c : Clause) : Clause :=
  { c with spans := (c.spans.map fun p => { p with left := p.left - 1 }).filter fun p => p.left != 0 }

/-- Move past an instruction of `n` words; a clause that ends so falls through (R115, R117). -/
def State.stepOver (s : State) (b : Master) (w : Warp) (c : Clause) (n : Nat) : Warp :=
  if c.next + n > c.words.length then s.endClause b w [⟨c.fall, c.base, c.lanes⟩]
  else { w with clause := some { c.tick with next := c.next + n } }

/-- Count one event for the core of a warp (R424). -/
def State.perf (s : State) (d core : Nat) (event : Nat) (n : Nat) : State :=
  s.modDie d fun x => { x with perf := (x.perf.zipIdx).map fun p =>
    if p.2 / 8 == core && p.1.event == BitVec.ofNat 8 event then { p.1 with count := p.1.count + BitVec.ofNat 64 n } else p.1 }

/-- An instruction retires: it is counted and resets the watchdog timer (R109, R424). -/
def State.retireInstr (s : State) (c : Ctx) : State :=
  (s.perf c.b.die (c.b.coreHold c.ref.w).core 2 1).progress c.ref.m false

/-- The effect of an instruction on its own warp, then moving past its `n` words. -/
def done (s : State) (c : Ctx) (n : Nat) (w : Warp) : State :=
  (s.modWarp c.ref fun _ => s.stepOver c.b w c.c n).retireInstr c

/-- The effect of a clause-ending instruction: the places its lanes reach. -/
def doneTo (s : State) (c : Ctx) (w : Warp) (reaches : List Reach) : State :=
  (s.modWarp c.ref fun _ => s.endClause c.b w reaches).retireInstr c

/-! ## Taking a trap (R51, R168, R169) -/

/-- R169: bit 31 of %tcause by vector. -/
def trapCompleted (vec : Nat) : Bool := (decide (3 ≤ vec) && decide (vec ≤ 7)) || decide (16 ≤ vec)

/-- The vector's address: none when it is zero or there is no table (R51); a task has no trap table. -/
def State.vectorOf (s : State) (b : Master) (vec : Nat) : Option Dword :=
  match s.gridOf b with
  | some g => match g.launch.traps[vec]? with
    | some a => if a == 0 then none else some a
    | none => none
  | none => none

/-- A vector that points to no clause header (R51, R399 cause 0x03). -/
def vectorBad (w vec : Nat) (lanes : Mask) (tpc : Dword) (info : Word) : FreezeAt :=
  { FreezeAt.blank 0x03 with warp := some w, pc := tpc, lanes := lanes, info := BitVec.ofNat 64 (vec + 2 ^ 32 * info.toNat) }

/-- Take a trap in warp `r`: `susp` is the clause to suspend, its `next` at the trapping word. In a handler, or without
a vector, the trap becomes a fault that freezes the master (R51, R168); otherwise the trap registers are written, the
warp's other entries are set aside and the handler's entry starts at the vector with every lane of the suspended entry.
This is the model's one operation for taking an exception. -/
def State.takeTrap (s : State) (r : WRef) (susp : Clause) (vec : Nat) (lanes : Mask) (tpc : Dword) (info : Word) : State :=
  match s.master r.m with
  | none => s
  | some b =>
    let freezeWith (cause : Nat) (inf : Nat) : State :=
      (s.modWarp r fun w => { w with clause := some susp, stall := some ⟨trapCompleted vec, tpc⟩ }).freeze r.m
        { FreezeAt.blank cause with warp := some r.w, pc := tpc, lanes := lanes
                                    info := BitVec.ofNat 64 (inf + 2 ^ 32 * info.toNat) }
    match b.warps[r.w]? with
    | none => s
    | some w =>
      if w.handler.isSome then freezeWith 0x02 (vec + 0x80)
      else match s.vectorOf b vec with
        | none => freezeWith 0x01 vec
        | some a =>
          let h : Handler := ⟨susp, w.frontier, vec, false, [], susp.base⟩
          let t := s.modWarp r fun w => { w with
            handler := some h
            clause := none
            frontier := [⟨s.headerPrio b a, a, susp.lanes, susp.base, true⟩]
            tlanes := lanes
            tpc := tpc
            tcause := BitVec.ofNat 32 (vec + if trapCompleted vec then 2 ^ 31 else 0)
            tinfo := info }
          match (s.fetchWord b a).2 with
          | .word x => if (headerOf x).isNone then t.freeze r.m (vectorBad r.w vec lanes tpc info) else t
          | _ => t

/-- %tinfo with a subcode and a word index (R116, R135). -/
def subInfo (sub idx : Nat) : Word := BitVec.ofNat 32 (sub + 256 * idx)

/-- Raise illegal instruction at the current instruction (R135): precise, with no effect. -/
def illegal (s : State) (c : Ctx) (sub : Nat) : State :=
  s.takeTrap c.ref c.c 0 c.c.lanes c.c.pc (subInfo sub c.c.next)

/-- The effect of an instruction that may be illegal by values it reads. -/
def checked (s : State) (c : Ctx) (subs : List Nat) (f : State) : State :=
  match lowestSub subs with
  | some k => illegal s c k
  | none => f

/-! ## Free values (R2) -/

/-- A lane register of free values (log 2). -/
def freeLanes (tick r : Nat) : Lanes := (List.range 128).map fun l => Config.freeWord tick (128 * r + l)

/-- Take the next free-value index. -/
def State.fresh (s : State) : State × Nat := ({ s with freeTick := s.freeTick + 1 }, s.freeTick)

/-- Take the next `n` free-value indices. -/
def State.freshMany (s : State) (n : Nat) : State × Nat := ({ s with freeTick := s.freeTick + n }, s.freeTick)

end Sys2Proof.Machine
end

