-- ==== Sys2Proof/Machine/Barriers.lean ====
section
/-! DEFINITION. Barrier objects (R322 to R328), the regions bound to objects (R334, R336), and what releases and acquires
do to a die's copies (R331 to R333, R338, R346). -/

namespace Sys2Proof.Machine

/-! ## Barrier objects -/

def maxCount : Nat := 2 ^ 31 - 1

/-- The 16 bytes of a live slot (R323). -/
def Barrier.bytes (b : Barrier) : List Byte :=
  let bit (c : Bool) (n : Nat) : Nat := if c then 2 ^ n else 0
  leBytes 16 (b.phase + 2 ^ 16 * b.expArr + 2 ^ 32 * b.arrived + 2 ^ 48 * b.expBytes + 2 ^ 80 * b.landed +
    bit b.posted 112 + bit b.faulted 113 + bit b.delivered 114 + bit b.under 115 + 2 ^ 116 * min b.inFlight 15)

/-- An object at phase `ph`, idle, expecting `n` arrivals (0: auto). -/
def Barrier.idle (ph n : Nat) : Barrier := ⟨ph, n, 0, 0, 0, false, 0, false, false, false, [], false⟩

def Barrier.failed (b : Barrier) : Bool := b.delivered || b.under || b.faulted

/-- R341: nothing counted and nothing in flight. -/
def Barrier.quiet (b : Barrier) : Bool :=
  b.arrived == 0 && b.expBytes == 0 && b.landed == 0 && b.inFlight == 0 && !b.posted

/-- Complete the phase (R325). -/
def Barrier.complete (b : Barrier) : Barrier :=
  { b with phase := (b.phase + 1) % 65536, arrived := 0, expBytes := 0, landed := 0, posted := false, autoSet := []
           overflow := false }

/-- The object of a name; none when the slot is not live or there is no such hardware barrier. -/
def Master.bar (b : Master) : BarName → Option Barrier
  | .slot o => aget b.slots o
  | .hw n => if n < b.variant.hwbars then b.hw[n]? else none

/-- A write of `n` bytes at an x: offset reaches the PARKs that watch a word of them (R345). -/
def Master.parkHit (b : Master) (off n : Nat) : Master :=
  let see (p : Park) : Bool := !p.isG && !p.hit && decide (p.addr < off + n ∧ off < p.addr + 4)
  if b.warps.any fun w => w.park.any see then
    { b with warps := b.warps.map fun w => { w with park := w.park.map fun p => if see p then { p with hit := true } else p } }
  else b

/-- Bytes written to x: replace what was there, poison included, and wake the PARKs that watch them. -/
def Master.putX (b : Master) (off : Nat) (bs : List Byte) : Master :=
  ({ b with x := writeBytes b.x off bs
            xPoison := b.xPoison.filter fun k => !decide (off ≤ k ∧ k < off + bs.length) } : Master).parkHit off bs.length

/-- Bytes of x:; none is poison. -/
def Master.xRead (b : Master) (off n : Nat) : Option (List Byte) :=
  if overlapsList b.xPoison off n then none else some (readBytes b.x off n)

/-- Store an object; a live slot's 16 bytes follow its fields (R323). -/
def Master.setBar (b : Master) (n : BarName) (x : Barrier) : Master :=
  match n with
  | .slot o => ({ b with slots := aset b.slots o x } : Master).putX o x.bytes
  | .hw i => { b with hw := modAt b.hw i fun _ => x }

/-- Are the phase's arrivals complete (R325, R324)? -/
def Barrier.arrivals (x : Barrier) (live : List Nat) : Bool :=
  if x.expArr == 0 then live.all x.autoSet.contains else x.arrived == x.expArr

/-- The fault information and the object of a barrier-accounting record (R402, R403). -/
def barrierFreeze (n : BarName) (x : Barrier) (reason : Nat) : FreezeAt :=
  { FreezeAt.blank 0x20 with
    lanes := BitVec.ofNat 128 (x.expBytes + 2 ^ 32 * x.landed)
    address := match n with | .slot o => BitVec.ofNat 64 o | .hw i => BitVec.ofNat 64 i
    info := BitVec.ofNat 64 (2 ^ 61 * reason + (match n with | .hw _ => 2 ^ 60 | .slot _ => 0) + x.arrived) }

/-- After an event: the phase completes (R325), or fails its accounting (R326; log 14 for two failures met together), or
neither. -/
def State.judge (s : State) (m : Nat) (n : BarName) : State :=
  match s.master m with
  | none => s
  | some b =>
    match b.bar n with
    | none => s
    | some x =>
      if x.failed || !x.arrivals b.liveWarps then s
      else
        let tooMany := decide (x.expBytes < x.landed)
        let short := x.inFlight == 0 && decide (x.landed < x.expBytes)
        if tooMany || short || x.overflow then
          let y := { x with delivered := tooMany || x.overflow, under := short }
          (s.setMaster m (b.setBar n y)).freeze m (barrierFreeze n y (if tooMany then 1 else if short then 2 else 4))
        else if x.posted && x.inFlight == 0 then (s.setMaster m (b.setBar n x.complete)).progress m true
        else s

/-- Change an object by one event, then judge it. -/
def State.barEvent (s : State) (m : Nat) (n : BarName) (f : Barrier → Barrier) : State :=
  (s.modMaster m fun b => match b.bar n with
    | some x => b.setBar n (f x)
    | none => b).judge m n

/-- A post of `n` bytes (R325, R326). -/
def Barrier.post (x : Barrier) (n : Nat) : Barrier :=
  { x with expBytes := min (x.expBytes + n) maxCount, overflow := x.overflow || decide (maxCount < x.expBytes + n)
           posted := true }

/-- The ARRIVE event of warp w posting `n` bytes. -/
def Barrier.arrive (x : Barrier) (w n : Nat) : Barrier :=
  if x.expArr == 0 && x.autoSet.contains w then x.post n
  else { (x.post n) with arrived := x.arrived + 1, autoSet := if x.expArr == 0 then x.autoSet ++ [w] else x.autoSet }

/-- A landing of `n` bytes. -/
def Barrier.land (x : Barrier) (n : Nat) : Barrier :=
  { x with landed := min (x.landed + n) maxCount, overflow := x.overflow || decide (maxCount < x.landed + n) }

/-- A bound copy stopped by a violation (R326, reason 3). -/
def State.barStopped (s : State) (m : Nat) (n : BarName) : State :=
  match s.master m with
  | none => s
  | some b => match b.bar n with
    | none => s
    | some x =>
      let y := { x with faulted := true }
      (s.setMaster m (b.setBar n y)).freeze m (barrierFreeze n y 3)

/-- Every hardware barrier of a block is judged again when a warp exits (R325). -/
def State.judgeAuto (s : State) (m : Nat) : State :=
  (List.range 64).foldl (fun t i => match (t.master m).bind fun b => b.bar (.hw i) with
    | some x => if x.expArr == 0 then t.judge m (.hw i) else t
    | none => t) s

/-- R327: resolve the failed phases of a thawed block; `dropped` says whether a bound copy that failed the object is dropped
on this thaw. -/
def Master.thawBars (b : Master) (dropped : BarName → Bool) : Master :=
  let fix (n : BarName) (x : Barrier) : Barrier :=
    if x.delivered || x.under then ({ x with delivered := false, under := false, faulted := false }).complete
    else if x.faulted then
      let y := { x with faulted := false }
      if dropped n then y.complete else y
    else x
  let b := b.slots.foldl (fun b p => if p.2.failed then b.setBar (.slot p.1) (fix (.slot p.1) p.2) else b) b
  { b with hw := b.hw.zipIdx.map fun p => fix (.hw p.2) p.1 }

/-- An object whose state is undefined (R323: software wrote its bytes): every field is a free value (log 14). -/
def Barrier.undefined (tick off : Nat) : Barrier :=
  let f (i : Nat) : Nat := (Config.freeWord tick (4 * off + i)).toNat
  let flag (i : Nat) : Bool := f 5 / 2 ^ i % 2 == 1
  { phase := f 0 % 65536, expArr := 1 + f 1 % 65535, arrived := f 2 % 65536, expBytes := f 3 % 2 ^ 31, landed := f 4 % 2 ^ 31
    posted := flag 0, faulted := flag 1, delivered := flag 2, under := flag 3, overflow := flag 4, inFlight := f 6 % 2 ^ 16
    autoSet := [] }

/-- Bytes written to x: by anything but the barrier instructions: a live slot they meet becomes undefined. -/
def State.xWrite (s : State) (m off : Nat) (bs : List Byte) : State :=
  match s.master m with
  | none => s
  | some b =>
    let b := b.putX off bs
    let hit := b.slots.filter fun p => decide (p.1 < off + bs.length ∧ off < p.1 + 16)
    if hit.isEmpty then s.setMaster m b
    else
      let (t, tick) := s.fresh
      t.setMaster m (hit.foldl (fun b p => b.setBar (.slot p.1) (Barrier.undefined tick p.1)) b)

/-! ## Regions bound to objects (R334) -/

def State.regions (s : State) (b : Master) : List RegionBind :=
  (match s.gridOf b with | some g => g.launch.regions | none => []) ++ b.binds

/-- The key a region is bound to. -/
def RegionBind.key (r : RegionBind) (b : Master) : Option Nat :=
  if r.kind == 0 then (if r.isExpr then b.keyNames[r.number]? else some r.number) else none

/-- Physical ranges of a region, page by page; pages that do not translate have none. -/
def State.regionRanges (s : State) (b : Master) (r : RegionBind) : List (Nat × Nat) :=
  (vaPieces r.base.toNat r.size).filterMap fun p =>
    match (s.translate noDie b.queue b.ctx p.1 .home).2 with
    | .ok pl => some (pl.key, p.2)
    | _ => none

/-- Is the sector in one of the ranges? -/
def inRanges (l : List (Nat × Nat)) (sector : Nat) : Bool :=
  l.any fun p => decide (p.1 < 32 * sector + 32 ∧ 32 * sector < p.1 + p.2)

/-- Publish the die's dirty copies within the regions that meet `f`. -/
def State.publishRegions (s : State) (b : Master) (f : RegionBind → Bool) : State :=
  let l := ((s.regions b).filter f).flatMap (s.regionRanges b)
  if l.isEmpty then s else s.publishCopies b.die (inRanges l)

/-- Freshen the regions that meet `f`: drop the die's copies within them. -/
def State.freshenRegions (s : State) (b : Master) (f : RegionBind → Bool) : State :=
  let l := ((s.regions b).filter f).flatMap (s.regionRanges b)
  if l.isEmpty then s else s.dropCopies b.die (inRanges l)

/-! ## Releases and acquires -/

def Scope.wide : Scope → Bool
  | .w | .b | .d => false
  | .p | .n | .y => true

/-- A full-data release (R333): the die's dirty copies are published at their homes (R346). -/
def State.releaseAll (s : State) (die : Nat) : State := s.publishCopies die fun _ => true
/-- A full-data acquire: the die's copies are dropped, dirty bytes published first (R346). -/
def State.acquireAll (s : State) (die : Nat) : State := s.dropCopies die fun _ => true

/-- Does the access of `z` bytes at `va` carry the region (R331)? -/
def syncs (va : Nat) (z : Nat) (r : RegionBind) : Bool :=
  r.kind == 3 && decide (r.sync.toNat < va + z ∧ va < r.sync.toNat + 4)

/-- A release on a sync word (R331, R333, R338): at .p or wider the bound regions are published, at .y everything. -/
def State.releaseAt (s : State) (b : Master) (sc : Scope) (va z : Nat) : State :=
  match sc with
  | .y => s.releaseAll b.die
  | .p | .n => s.publishRegions b (syncs va z)
  | .w | .b | .d => s

/-- Does the access of `z` bytes at `va` meet a completion record in state 3, 4 or 5? -/
def State.onFinal (s : State) (b : Master) (va z : Nat) : Bool :=
  match s.translate b.die b.queue b.ctx va .home with
  | (_, .ok p) => s.finals.any fun k => decide (p.key < k + 64 ∧ k < p.key + z)
  | _ => false

/-- An acquire on a sync word: at .p or wider the bound regions are freshened. The acquiring read of a completion record in
state 3, 4 or 5 is a full-data acquire (R82, R331, R333), and so is every acquire at .y, its scope (log 84). -/
def State.acquireAt (s : State) (b : Master) (sc : Scope) (va z : Nat) : State :=
  if sc == .y || s.onFinal b va z then s.acquireAll b.die
  else match sc with
    | .p | .n => s.freshenRegions b (syncs va z)
    | .w | .b | .d | .y => s

/-- FENCE, REL and ACQ at a scope (R346). -/
def State.fenceAt (s : State) (die : Nat) (sc : Scope) : State := if Scope.wide sc then s.acquireAll die else s

/-- Release or acquire of a key (R336): the regions bound to it. -/
def boundToKey (b : Master) (k : Nat) (r : RegionBind) : Bool := r.key b == some k

end Sys2Proof.Machine
end

