-- ==== Sys2Proof/Machine/Accept.lean ====
section
/-! DEFINITION. Reading and checking images, launch records and task records (R30 to R56): what the part reads at
acceptance, and the codes of R56 that each structure meets. A structure is read only when the fields that place it are
sound; the lowest code met is the one reported (log 10). -/

namespace Sys2Proof.Machine

/-- A read of the part at acceptance, in the queue's address space. -/
def State.readG (s : State) (q : Nat) (ctx : TransCtx) (va n : Nat) : State × Option (List Byte) :=
  match s.vaRead noDie q ctx va n with
  | (t, .ok b) => (t, some b)
  | (t, _) => (t, none)

/-- Cut bytes into `n` entries of `w` bytes. -/
def cut (w n : Nat) (bs : List Byte) : List (List Byte) := (List.range n).map fun i => (bs.drop (w * i)).take w

def anyByte (bs : List Byte) (off n : Nat) : Bool := ((bs.drop off).take n).any fun b => b != 0

/-- The translation-context entry of queue q (R243); none when q has no address space. -/
def State.transCtx (s : State) (q : Nat) : Option TransCtx :=
  match s.blob with
  | none => none
  | some b => match s.homeRead (b.transTable + 64 * q) 64 with
    | none => none
    | some e =>
      let asid := recNat e 8 2
      if asid == 0 then none
      else some ⟨asid, le32 ((e.drop 12).take 4), recNat e 16 4, recNat e 20 4, recNat e 24 8, recNat e 32 4⟩

/-- The KV context entry of queue q, when it is usable (R355). -/
def State.kvCtx (s : State) (q : Nat) (ctx : TransCtx) : Option KvCtx :=
  match s.blob with
  | none => none
  | some b => match s.homeRead (b.kvTable + 64 * q) 64 with
    | none => none
    | some e =>
      let k : KvCtx := ⟨recNat e 0 8, recNat e 8 8, recNat e 16 8, recNat e 24 4, recNat e 28 4, recNat e 32 4, recNat e 36 2,
        recNat e 38 2⟩
      let size (n : Nat) : Bool := n % 16 == 0 && decide (16 ≤ n ∧ n ≤ 16384)
      if k.seqTable % 4096 == 0 && k.pool % 4096 == 0 && k.stride % 4096 == 0 &&
          decide (1 ≤ k.seqCount ∧ k.seqCount ≤ 1048576) && decide (1 ≤ k.frameCount ∧ k.frameCount ≤ 16777216) &&
          k.frameBase % 128 == 0 && size k.kBytes && size k.vBytes && !anyByte e 40 24 &&
          decide (k.frameBase + 8 * k.frameCount * (16 * (k.kBytes + k.vBytes)) ≤ ctx.kvLimit)
      then some k else none

/-! ## Images (R30 to R38) -/

/-- Is the offset a word of the variant's code? -/
def Variant.inCode (v : Variant) (off : Nat) : Bool :=
  off % 4 == 0 && decide (v.codeOff ≤ off ∧ off < v.codeOff + v.codeSize)

/-- An entry of the variant table (R34), its switch points apart. -/
def parseVariant (e : List Byte) : Variant :=
  { pref := recNat e 1 1, warps := recNat e 2 2, span := recNat e 4 1, frames := recNat e 5 1, slots := recNat e 6 2
    scratch := recNat e 8 4, hwbars := recNat e 12 1, acc := recNat e 13 1
    stages := (List.range 4).map fun i => recNat e (16 + 2 * i) 2
    entry := recNat e 24 4, codeOff := recNat e 28 4, codeSize := recNat e 32 4, switches := [] }

/-- The limits of R34 on the fields of a variant; its switch-point table offset apart. -/
def Variant.sound (v : Variant) : Bool :=
  decide (1 ≤ v.warps ∧ v.warps ≤ 256) && decide (1 ≤ v.span ∧ v.span ≤ 8) && v.warps % v.span == 0 &&
  decide (v.warps / v.span ≤ 64) && decide (4 ≤ v.frames ∧ v.frames ≤ 64) && decide (v.warps / v.span * v.frames ≤ 256) &&
  decide (v.slots ≤ 1024) && v.scratch % (128 * v.span) == 0 && decide (v.scratch / v.span ≤ 1048576) &&
  decide (1 ≤ v.hwbars ∧ v.hwbars ≤ 64) && decide (v.acc ≤ 8) && v.stages.foldl (· + ·) 0 == v.warps &&
  decide (v.codeOff ≤ v.entry ∧ v.entry < v.codeOff + v.codeSize) &&
  v.codeOff % 64 == 0 && v.codeSize % 4 == 0 && v.codeSize != 0

def parseSwitch (e : List Byte) : SwitchPt := ⟨recNat e 0 2, recNat e 4 4, recNat e 8 4⟩

/-- Are the ids strictly ascending? -/
def ascending : List Nat → Bool
  | [] => true
  | a :: r => (match r with | [] => true | b :: _ => decide (a < b)) && ascending r

/-- An image as read: none when its header could not be read; its id, and the codes of R56 it meets. -/
structure ImageRead where
  image : Option Image
  id : Dword
  codes : List Nat
  deriving Repr

def codeIf (bad : Bool) (c : Nat) : List Nat := if bad then [c] else []

/-- Read one variant with its switch-point table. The table's offset is a limit of R34, so 0x04; 0x05 is for what the table
holds (R37, log 80). -/
def State.readVariant (s : State) (q : Nat) (ctx : TransCtx) (base size sCount i : Nat) (e : List Byte) :
    State × Variant × List Nat :=
  let v := parseVariant e
  let sto := recNat e 36 4
  let codes := codeIf (anyByte e 14 2 || anyByte e 40 24) 2 ++
    codeIf (!v.sound || recNat e 0 1 != i || sto % 16 != 0 || (sCount == 0 && sto != 0)) 4 ++
    codeIf (decide (size < v.codeOff + v.codeSize)) 3 ++ codeIf (v.entry % 4 != 0) 6
  if sCount == 0 || 32 < sCount then (s, v, codes)
  else if sto % 16 != 0 then (s, v, codes)
  else if size < sto + 16 * sCount then (s, v, codes ++ [3])
  else match s.readG q ctx (base + sto) (16 * sCount) with
    | (t, none) => (t, v, codes ++ [1])
    | (t, some tb) =>
      let es := cut 16 sCount tb
      let sw := es.map parseSwitch
      (t, { v with switches := sw },
        codes ++ codeIf (es.any fun x => anyByte x 2 2 || anyByte x 12 4) 2 ++
        codeIf (!ascending (sw.map SwitchPt.id) || sw.any fun p => decide (1023 < p.id) || p.carried % 16 != 0 ||
          !v.inCode p.resume) 5)

/-- Read an image. Each table is read when the fields that place it are sound, whatever else is wrong with the image
(log 10), so that the lowest code of R56 is found; failures that no row names have the codes of log 80. -/
def State.readImage (s : State) (q : Nat) (ctx : TransCtx) (base : Nat) : State × ImageRead :=
  match s.readG q ctx base 64 with
  | (t, none) => (t, ⟨none, 0, [1]⟩)
  | (t, some h) =>
    let size := recNat h 8 8
    let vCount := recNat h 16 1
    let sCount := recNat h 17 1
    let vto := recNat h 20 4
    let rto := recNat h 24 4
    let rc := recNat h 28 4
    let yo := recNat h 32 4
    let step := recNat h 18 2
    let head := codeIf (decide (recNat h 6 2 > 1) || anyByte h 48 16) 2 ++
      codeIf (recNat h 0 4 != 0x00584749 || recNat h 4 2 != 1 || base % 128 != 0 || size == 0 || size % 128 != 0 ||
        recNat h 6 2 % 2 == 0 || vCount == 0 || decide (8 < vCount) || decide (32 < sCount) || vto % 64 != 0 ||
        decide (size < vto + 64 * vCount) || rto % 8 != 0 || (rc == 0 && rto != 0) || decide (size < rto + 16 * rc) ||
        (yo != 0 && decide (size < yo + recNat h 36 4))) 3 ++ codeIf (step % 16 != 0) 5
    let placed := decide (1 ≤ vCount ∧ vCount ≤ 8) && vto % 64 == 0 && decide (vto + 64 * vCount ≤ size) && base % 128 == 0
    let img (vs : List Variant) : Image := ⟨BitVec.ofNat 64 base, size, le64 ((h.drop 40).take 8), step, vs⟩
    if !placed then (t, ⟨some (img []), (img []).id, head⟩)
    else match t.readG q ctx (base + vto) (64 * vCount) with
      | (u, none) => (u, ⟨some (img []), (img []).id, 1 :: head⟩)
      | (u, some tb) =>
        let (u, vs, cs) := ((cut 64 vCount tb).zipIdx).foldl (fun (p : State × List Variant × List Nat) e =>
          let (u, v, c) := p.1.readVariant q ctx base size sCount e.2 e.1
          (u, p.2.1 ++ [v], p.2.2 ++ c)) (u, [], head)
        let minB := vs.foldl (fun m v => min m v.scratch) (2 ^ 32)
        let w0 := (vs.headD default).warps
        let table (v : Variant) : List (Nat × Nat) := v.switches.map fun p => (p.id, p.carried)
        let more := codeIf (vs.any fun v => v.warps != w0) 4 ++
          codeIf (decide (minB < step) || vs.any fun v => table v != table (vs.headD default) ||
            v.switches.any fun p => decide (minB < p.carried)) 5
        (u, ⟨some (img vs), (img vs).id, cs ++ more⟩)

/-! ## Launch records (R39 to R51) -/

/-- Bytes of a split tile of n magnitude bits (R224), by format code. -/
def tileBytes (fmt : Nat) : Nat := if fmt == 16 then 9344 else if fmt == 17 then 11392 else 19584
def isTile (fmt : Nat) : Bool := decide (16 ≤ fmt ∧ fmt ≤ 18)
/-- Bytes of a scalar format, codes 0 to 8 (R215). -/
def scalarBytes (fmt : Nat) : Nat :=
  if fmt == 0 || fmt == 7 || fmt == 8 then 4 else if fmt == 3 || fmt == 4 then 1 else 2

/-- The destination bytes of a transform binding; none when it breaks its row of R295 (or R46). -/
def XformBind.bytes (b : XformBind) : Option Nat :=
  if b.rows == 0 || b.rowBytes == 0 then none
  else match b.transform with
    | 0 => if decide (b.format ≤ 14) || isTile b.format then some (b.rows * b.rowBytes) else none
    | 1 => if isTile b.format && b.rowBytes == tileBytes b.format then some (32768 * b.rows) else none
    | 2 =>
      if decide (b.format ≤ 8) && b.rowBytes % scalarBytes b.format == 0 then
        let z := scalarBytes b.format
        some (32 * ceilDiv (b.rowBytes / z) 32 * (32 * ceilDiv b.rows 32) * z)
      else none
    | 3 => if isTile b.format && b.rowBytes == 512 then some (ceilDiv b.rows 64 * tileBytes b.format) else none
    | _ => none

def parseBind (e : List Byte) : XformBind :=
  ⟨recNat e 0 1, recNat e 1 1, recNat e 2 1, recNat e 4 4, le64 ((e.drop 8).take 8), recNat e 16 2, recNat e 18 2,
   recNat e 20 4, recNat e 24 4, recNat e 28 4⟩

/-- Do two of the ranges (start, length) overlap? -/
def overlapping : List (Nat × Nat) → Bool
  | [] => false
  | (a, n) :: r => r.any (fun p => decide (a < p.1 + p.2 ∧ p.1 < a + n)) || overlapping r

def parseRegion (e : List Byte) : RegionBind :=
  ⟨le64 (e.take 8), recNat e 8 8, recNat e 16 1, recNat e 17 1 % 2 == 1, recNat e 20 4, le64 ((e.drop 24).take 8)⟩

/-- Non-zero reserved fields of a region entry (R48). -/
def regionReserved (e : List Byte) : Bool := decide (1 < recNat e 17 1) || anyByte e 18 2

/-- Is a region entry malformed by R48 or R49? `exprs` is the key-expression or key count, `hwbars` the hardware barriers
of every permitted variant. -/
def RegionBind.malformed (r : RegionBind) (exprs : Nat) (hwbars : List Nat) : Bool :=
  r.base.toNat % 128 != 0 || r.size == 0 || r.size % 128 != 0 || decide (3 < r.kind) || (r.isExpr && r.kind != 0) ||
  (if r.kind == 3 then r.sync.toNat % 4 != 0 else r.sync != 0) ||
  (match r.kind with
   | 0 => if r.isExpr then decide (exprs ≤ r.number) else decide (2 ^ 20 ≤ r.number)
   | 1 => hwbars.any fun n => decide (n ≤ r.number)
   | _ => r.number != 0)

/-- A launch as read: what stays with the grid, the keys of the producers' records with their states, the key of its own
completion record when that is writable, with the packed bit of its page, or the code that rejects it. -/
structure LaunchRead where
  code : Option Nat
  launch : Launch
  image : Image
  producers : List (Nat × Nat)
  complKey : Option Nat
  complPacked : Bool
  imageId : Dword
  deriving Repr

def parseLaunch (r : List Byte) : Launch :=
  { varMask := BitVec.ofNat 8 (recNat r 8 1), priority := recNat r 9 1, wdExp := recNat r 10 1
    persistent := recNat r 11 1 % 2 == 1, earlyStart := recNat r 11 1 / 2 % 2 == 1, complInt := recNat r 11 1 / 4 % 2 == 1
    heartbeat := recNat r 12 4, gx := recNat r 16 4, gy := recNat r 20 4, gz := recNat r 24 4
    bx := recNat r 28 2, by' := recNat r 30 2, bz := recNat r 32 2, minDies := recNat r 34 1, maxDies := recNat r 35 1
    dieMask := BitVec.ofNat 8 (recNat r 39 1), argAddr := le64 ((r.drop 40).take 8), argSize := recNat r 48 4
    keyExprs := (List.range (min 4 (recNat r 36 1))).map fun i => le64 ((r.drop (96 + 8 * i)).take 8)
    traps := [], complAddr := le64 ((r.drop 80).take 8), ctxArea := le64 ((r.drop 160).take 8)
    spillArea := le64 ((r.drop 168).take 8), binds := [], regions := [] }

/-- The permitted dies of a launch (R39). -/
def Launch.dies (l : Launch) : BitVec 8 := if l.dieMask == 0 then 0xFF else l.dieMask
def popc8 (m : BitVec 8) : Nat := ((List.range 8).filter m.getLsbD).length
def Launch.blocks (l : Launch) : Nat := l.gx * l.gy * l.gz
def Launch.threads (l : Launch) : Nat := l.bx * l.by' * l.bz

/-- The permitted variants, in ascending number. -/
def Launch.permitted (l : Launch) (i : Image) : List Nat :=
  (List.range i.variants.length).filter fun k => l.varMask.getLsbD k

/-- The physical location of an aligned range inside one page, for reading or writing. -/
def State.locate (s : State) (q : Nat) (ctx : TransCtx) (va : Nat) (acc : Access) : Option Place :=
  if 2 ^ 57 ≤ va then none
  else match (s.translate noDie q ctx va acc).2 with
    | .ok p => some p
    | _ => none

/-- Codes of R56 for the fields of a launch record, in rows 0x02 and 0x06 to 0x0F; log 80 for those that no row names. -/
def launchCodes (r : List Byte) (l : Launch) (img : Image) (tb rg tt : List (List Byte)) (same : Bool) : List Nat :=
  let kc := recNat r 36 1
  let pc := recNat r 37 1
  let tc := recNat r 38 1
  let rc := recNat r 64 2
  let tta := recNat r 88 8
  let rta := recNat r 56 8
  let trap := recNat r 72 8
  let word (off i : Nat) : Nat := recNat r (off + 8 * i) 8
  let perm := (l.permitted img).map fun k => img.variants.getD k default
  let binds := tb.map parseBind
  let regions := rg.map parseRegion
  let vecs := tt.map fun e => recNat e 0 8
  codeIf (anyByte r 52 4 || anyByte r 66 6 || anyByte r 176 80 || decide (8 ≤ recNat r 11 1) ||
    (List.range 4).any (fun i => word 96 i % 16 != 0 || word 128 i % 64 != 0 ||
      (decide (kc ≤ i) && word 96 i != 0) || (decide (pc ≤ i) && word 128 i != 0)) ||
    tb.any (fun e => anyByte e 3 1) || rg.any regionReserved || vecs.any fun v => v % 4 != 0) 2 ++
  codeIf (l.varMask == 0 || decide (2 ^ img.variants.length ≤ l.varMask.toNat)) 6 ++
  codeIf (!(decide (1 ≤ l.gx ∧ l.gx ≤ 2147483647) && decide (1 ≤ l.gy ∧ l.gy ≤ 65535) && decide (1 ≤ l.gz ∧ l.gz ≤ 65535) &&
    [l.bx, l.by', l.bz].all (fun n => decide (1 ≤ n ∧ n ≤ 32768)) && decide (l.threads ≤ 32768) &&
    ceilDiv l.threads 128 == (img.variants.headD default).warps && decide (l.blocks ≤ 4294967295))) 7 ++
  codeIf (!(decide (1 ≤ l.minDies ∧ l.minDies ≤ 8) && decide (l.minDies ≤ l.maxDies ∧ l.maxDies ≤ 8) &&
    decide (l.maxDies ≤ popc8 l.dies))) 8 ++
  codeIf (if l.persistent then l.wdExp != 0 || !decide (1 ≤ l.heartbeat ∧ l.heartbeat ≤ 1000000)
    else decide (30 < l.wdExp) || l.heartbeat != 0) 9 ++
  codeIf (decide (4 < kc)) 10 ++
  codeIf (decide (4 < pc) || same) 11 ++
  codeIf (decide (8 < tc) || tta % 32 != 0 || (tc == 0 && tta != 0) ||
    (binds.any fun b => match b.bytes with
      | none => true
      | some n => decide (7 < b.swizzle) || b.dest % 128 != 0 || perm.any fun v => decide (v.scratch < b.dest + n)) ||
    overlapping (binds.map fun b => (b.dest, b.bytes.getD 0))) 12 ++
  codeIf (decide (4096 < rc) || rta % 32 != 0 || (rc == 0 && rta != 0) ||
    regions.any (fun g => g.malformed (min 4 kc) (perm.map Variant.hwbars)) ||
    overlapping (regions.map fun g => (g.base.toNat, g.size))) 13 ++
  codeIf (trap % 256 != 0 || (List.range vecs.length).any fun i =>
    let v := vecs.getD i 0
    v != 0 && (decide (12 ≤ i ∧ i ≤ 15) ||
      !(decide (img.base.toNat ≤ v / 4 * 4) && img.variants.any fun x => x.inCode (v / 4 * 4 - img.base.toNat)))) 14 ++
  codeIf (l.complAddr == 0 || l.complAddr.toNat % 64 != 0 || l.argAddr.toNat % 64 != 0 ||
    (l.argSize == 0 && l.argAddr != 0) || l.argSize % 4 != 0 || decide (65536 < l.argSize) ||
    l.ctxArea == 0 || l.ctxArea.toNat % 4096 != 0 || l.spillArea == 0 || l.spillArea.toNat % 4096 != 0) 15

/-- Read the state bytes of the producers' records, where the dependences lead (R45, R71); none where one cannot be read. -/
def State.readProducers (s : State) (q : Nat) (ctx : TransCtx) (vas : List Nat) : State × List (Option (Nat × Nat)) :=
  vas.foldl (fun (p : State × List (Option (Nat × Nat))) a =>
    match p.1.locate q ctx a .read with
    | none => (p.1, p.2 ++ [none])
    | some pl =>
      let (t, b) := p.1.engineRead pl.key 1 pl.packed
      (t, p.2 ++ [b.map fun x => (pl.key, leNat x)])) (s, [])

/-- Read a table of `n` entries of `w` bytes; a count of zero names no table. -/
def State.readTable (s : State) (q : Nat) (ctx : TransCtx) (va w n : Nat) : State × Option (List (List Byte)) :=
  if n == 0 then (s, some [])
  else match s.readG q ctx va (w * n) with
    | (t, some b) => (t, some (cut w n b))
    | (t, none) => (t, none)

/-- Read and check a launch record (R55, R56). -/
def State.readLaunch (s : State) (q : Nat) (ctx : Option TransCtx) (va : Nat) : State × LaunchRead :=
  let fail (c : Nat) (ck : Option Place) (l : Launch) (id : Dword) : LaunchRead :=
    ⟨some c, l, default, [], ck.map Place.key, (ck.map Place.packed).getD false, id⟩
  match ctx with
  | none => (s, fail 1 none default 0)
  | some ctx => match s.readG q ctx va 256 with
    | (t, none) => (t, fail 1 none default 0)
    | (t, some r) =>
      let l := parseLaunch r
      let ca := l.complAddr.toNat
      let ck := if ca == 0 || ca % 64 != 0 then none
        else (t.locate q ctx ca .write).filter fun p => !t.unreachable p.key 64
      let (t, im) := t.readImage q ctx (recNat r 0 8)
      let pc := min 4 (recNat r 37 1)
      let prodVas := (List.range pc).map fun i => recNat r (128 + 8 * i) 8 / 64 * 64
      -- its own record, wherever it may be written from (R45)
      let own := (t.locate q ctx (ca / 64 * 64) .home).map Place.key
      let (t, prods) := t.readProducers q ctx prodVas
      let tc := recNat r 38 1
      let rc := recNat r 64 2
      let (t, tb) := t.readTable q ctx (recNat r 88 8) 32 (if decide (tc ≤ 8) && recNat r 88 8 % 32 == 0 then tc else 0)
      let (t, rg) := t.readTable q ctx (recNat r 56 8) 32 (if decide (rc ≤ 4096) && recNat r 56 8 % 32 == 0 then rc else 0)
      let ta := recNat r 72 8
      let (t, tt) := t.readTable q ctx ta 8 (if ta != 0 && ta % 256 == 0 then 32 else 0)
      match im.image, tb, rg, tt with
      | some img, some tb, some rg, some tt =>
        let producers := prods.filterMap fun x => x
        let same := prodVas.contains (ca / 64 * 64) || producers.any fun p => own == some p.1
        let full := { l with traps := tt.map fun e => BitVec.ofNat 64 (recNat e 0 8 / 4 * 4), binds := tb.map parseBind
                             regions := rg.map parseRegion }
        (t, ⟨lowestSub (codeIf (prods.any Option.isNone) 1 ++ im.codes ++ launchCodes r l img tb rg tt same), full, img, producers,
          ck.map Place.key, (ck.map Place.packed).getD false, im.id⟩)
      | _, _, _, _ => (t, fail 1 ck l im.id)

/-! ## Task records (R52 to R54) -/

structure TaskRead where
  code : Option Nat
  image : Image
  varIdx : Nat
  entry : Nat
  preds : Nat
  succs : Nat
  high : Bool
  keys : List Nat
  argPtr : Dword
  succList : Dword
  tile : Nat × Nat × Nat
  op0 : Nat
  op1 : Nat
  deriving Repr, Inhabited

/-- The record size Z_v of a variant (R413). -/
def Variant.recordSize (v : Variant) : Nat :=
  let e := if v.acc == 0 then 16384 else 16384 + v.acc * 66560 + 156672
  ceilDiv (8192 + 2048 * v.warps + 4096 * v.warps * v.frames + v.scratch + v.span * e) 4096 * 4096

/-- Read and check a task record (R55, R56, R411). -/
def State.readTask (s : State) (q : Nat) (ctx : Option TransCtx) (va : Nat) : State × TaskRead :=
  let fail (c : Nat) : TaskRead := { (default : TaskRead) with code := some c }
  match ctx with
  | none => (s, fail 1)
  | some ctx => match s.readG q ctx va 64 with
    | (t, none) => (t, fail 1)
    | (t, some r) =>
      let iw := recNat r 0 8
      let ctl := recNat r 15 1
      let kc := ctl / 32
      let kf := recNat r 38 10
      let own := codeIf (iw / 8 % 16 != 0 || ctl % 16 != 0 || kf / 2 ^ (20 * min 4 kc) != 0) 2
      let (t, im) := t.readImage q ctx (iw / 128 * 128)
      match im.image with
        | none => (t, fail 1)
        | some img =>
          let v := img.variants.getD (iw % 8) default
          let ent := recNat r 8 4
          let sl := recNat r 24 8
          let op0 := recNat r 48 8
          let op1 := recNat r 56 8
          let slot := match s.blob with | some b => b.taskSlotSize | none => 0
          let codes := own ++ im.codes ++
            codeIf (decide (img.variants.length ≤ iw % 8) || v.warps != 1 || v.span != 1 || !v.inCode ent) 6 ++
            codeIf (decide (4 < kc)) 10 ++
            codeIf (recNat r 16 8 % 8 != 0 || sl % 8 != 0 || (recNat r 14 1 == 0 && sl != 0) || op0 % 128 != 0 ||
              op1 % 128 != 0 || (op0 == 0 && op1 != 0) || decide (slot < v.recordSize)) 15
          (t, ⟨lowestSub codes, img, iw % 8, ent, recNat r 12 2, recNat r 14 1, ctl / 16 % 2 == 1,
            (List.range (min 4 kc)).map fun i => kf / 2 ^ (20 * i) % 2 ^ 20, le64 ((r.drop 16).take 8), BitVec.ofNat 64 sl,
            (recNat r 32 2, recNat r 34 2, recNat r 36 2), op0, op1⟩)

end Sys2Proof.Machine
end

