-- ==== Sys2Proof/Machine/Queues.lean ====
section
/-! DEFINITION. What commands do when they take effect: queue errors (R66), trigger counters (R67, R68), launches accepted
and rejected (R55, R56, R70 to R73, R80), tasks pushed and signalled (R74 to R77, R88), CSET, WSLOAD and HOLD (R64, R65,
R265). -/

namespace Sys2Proof.Machine

/-! ## Queues -/

def State.queue (s : State) (q : Nat) : Queue := (aget s.queues q).getD Queue.reset
def State.setQueue (s : State) (q : Nat) (x : Queue) : State := { s with queues := aset s.queues q x }
def Queue.usec (x : Queue) : Nat := if x.threshold == 0 then 50 else x.threshold

/-- The base of the bring-up block (R436). -/
def bringUpBase : Nat := 0xF000000000

/-- A physical address of rings, objects and tables: HBM below 512 GiB, host memory above, but for the bring-up block, where no
memory answers (log 13). -/
def physKey (pa : Nat) : Nat :=
  if decide (pa < hbmBytes) || decide (bringUpBase ≤ pa ∧ pa < bringUpBase + 1024) then pa else hostKey pa

/-- R66: a queue error's record; while the ring is full it waits at die 0 (log 93). -/
def State.queueError (s : State) (q slot : Nat) (tag : Word) (code : Nat) (addr : Nat) : State :=
  s.record 0 { FRecord.blank with kind := 3, cause := code, queue := q, gridTag := tag, pc := BitVec.ofNat 64 slot,
                                  address := BitVec.ofNat 64 addr }

/-- An error raised by a register access names no slot (R66). -/
def State.regError (s : State) (q code addr : Nat) : State := s.queueError q (2 ^ 64 - 1) 0 code addr

def CmdRef.error (c : CmdRef) (s : State) (code : Nat) : State := s.queueError c.queue c.slot c.tag code 0

/-- A command has completed (R64). -/
def State.completeCmd (s : State) (c : CmdRef) : State :=
  { s with pendingCmds := s.pendingCmds.filter fun p => !(p.1 == c.queue && p.2 == c.ticket) }

/-- Is a queue within the privileged range (R398)? -/
def State.privQueue (s : State) (q : Nat) : Bool :=
  match s.blob with
  | some b => decide (b.privFirst ≤ q ∧ q < b.privFirst + b.privCount)
  | none => false

/-! ## Completion records and producers (R70, R71, R80) -/

def State.grid (s : State) (u : Nat) : Option Grid := aget s.grids u
def State.modGrid (s : State) (u : Nat) (f : Grid → Grid) : State :=
  match s.grid u with
  | some g => { s with grids := aset s.grids u (f g) }
  | none => s

/-- The part's own write of a record's bytes, at the home, with the packed bit of the entry that led there (R254). -/
def State.recWrite (s : State) (packed : Bool) (key off : Nat) (bs : List Byte) : State :=
  ((s.checkForm (key + off) packed).touch (key + off) bs.length).homeWrite (key + off) bs

/-- A grid with no unmet producer, or with early start, enters the pools (R73, R78). -/
def State.enterPools (s : State) (u : Nat) : State :=
  s.modGrid u fun g =>
    if !g.inPool && !g.aborted && (g.producers.isEmpty || g.launch.earlyStart) then { g with inPool := true, poolAt := s.cycles }
    else g

/-- Is a warp's current instruction one that `f` picks? -/
def Warp.standsAt (w : Warp) (f : Instr → Bool) : Bool :=
  match w.clause with
  | none => false
  | some c => match decode (c.words.getD (c.next - 1) 0) (c.words.getD c.next 0) with
    | .instr i => f i
    | _ => false

/-- Do all live warps wait in WAITDEP (R110)? -/
def Master.allWaitDep (b : Master) : Bool :=
  !b.liveWarps.isEmpty && b.liveWarps.all fun i => (b.warps.getD i default).standsAt fun i => i == .waitdep

/-- PRODUCER_MET (R71): every watch on the record is met. -/
def State.meetProducers (s : State) (key : Nat) (failed : Bool) : State :=
  (s.grids.filter fun p => p.2.producers.contains key).foldl (fun t p =>
    let t := t.modGrid p.1 fun g => { g with producers := g.producers.filter fun k => k != key
                                             producerFailed := g.producerFailed || failed }
    let t := if failed && !p.2.aborted then t.recWrite p.2.complPacked p.2.complKey 2 [1] else t
    t.enterPools p.1) s

/-- GRID_TRIGGER (R70): every block has triggered or retired. -/
def State.gridTrigger (s : State) (u : Nat) : State :=
  match s.grid u with
  | none => s
  | some g =>
    if g.triggered || g.trigBlocks < g.launch.blocks then s
    else
      let t := s.modGrid u fun g => { g with triggered := true, triggerNs := s.stamp, recState := max g.recState 2 }
      let t := if g.recState < 2 then
        (t.recWrite g.complPacked g.complKey 32 (leBytes 8 s.stamp)).recWrite g.complPacked g.complKey 0 [2] else t
      t.meetProducers g.complKey false

/-- A block is recorded as having triggered (R70, R173): once. -/
def State.blockTriggers (s : State) (m : Nat) : State :=
  match s.master m with
  | some b => match b.gridUid with
    | some u =>
      if b.triggered then s
      else ((s.setMaster m { b with triggered := true }).modGrid u fun g => { g with trigBlocks := g.trigBlocks + 1 }).gridTrigger u
    | none => s
  | none => s

/-! ## Accepting a launch -/

/-- The lowest %grid id that no grid holds reserved (R154). -/
def State.freeGridId (s : State) : Word :=
  let used := s.grids.map fun p => p.2.id.toNat
  BitVec.ofNat 32 (((List.range (used.length + 1)).filter fun i => !used.contains i).headD 0)

/-- The 64 bytes of a completion record (R80). -/
def complBytes (state code flags dies queue : Nat) (tag : Word) (id : Dword) (accept trig done' retired : Nat) : List Byte :=
  leBytes 1 state ++ leBytes 1 code ++ leBytes 2 flags ++ leBytes 1 dies ++ [0] ++ leBytes 2 queue ++ leBytes 4 tag.toNat ++
  leBytes 4 0 ++ leBytes 8 id.toNat ++ leBytes 8 accept ++ leBytes 8 trig ++ leBytes 8 done' ++ leBytes 8 retired ++ leBytes 8 0

/-- Write a record with its state byte last; reading it with acquire ordering is a full-data acquire once its state is 3, 4 or
5 (R82, R331, R333). -/
def State.complWrite (s : State) (packed : Bool) (key : Nat) (bs : List Byte) : State :=
  let t := (s.recWrite packed key 1 (bs.drop 1)).recWrite packed key 0 (bs.take 1)
  { t with finals := t.finals.filter (· != key) ++ if leNat (bs.take 1) < 3 then [] else [key] }

/-- A fresh grid. -/
def Grid.new (id : Word) (c : CmdRef) (priv : Bool) (thr : Nat) (ctx : TransCtx) (kv : Option KvCtx) (r : LaunchRead)
    (key : Nat) (packed : Bool) (now stamp : Nat) (watch : List Nat) (failed : Bool) : Grid :=
  { id := id, queue := c.queue, tag := c.tag, privileged := priv, threshold := thr, ctx := ctx, kv := kv, image := r.image
    launch := r.launch, cmd := c, complKey := key, complPacked := packed, recState := 1, acceptNs := stamp, triggerNs := 0, dieSet := 0
    started := false, stepped := false, inPool := false, poolAt := now, aged := false, nextLin := 0, skipped := []
    producers := watch, producerFailed := failed, trigBlocks := 0, triggered := false, blocksRetired := 0, diesUsed := 0
    args := [], drain := .idle, sweep := [], sweepAt := now, sent := List.replicate 8 0, received := List.replicate 8 0
    submitted := false, aborted := false, withdraw := 0, firstCause := none, progressed := false }

/-- A launch takes effect: accepted, or rejected with its code written to the record or carried by a queue error (R56). The
result also says which counter its completion adds to now, a rejected one's among them; its record has accept time 0 (log 80).
`usec` is the queue's threshold when the command was consumed. -/
def State.acceptLaunch (s : State) (c : CmdRef) (va usec : Nat) : State × List (Nat × Nat) :=
  let ctx := s.transCtx c.queue
  let (t, r) := s.readLaunch c.queue ctx va
  match r.code with
  | some code =>
    let t := t.completeCmd c
    match r.complKey with
    | some key =>
      let t := t.complWrite r.complPacked key (complBytes 5 code 0 0 c.queue c.tag r.imageId 0 0 s.stamp 0)
      let t := if r.launch.complInt then { t with interrupts := t.interrupts + 1 } else t
      (t.meetProducers key true, c.compl.toList)
    | none => (c.error t code, c.compl.toList)
  | none =>
    match ctx, r.complKey with
    | some ctx, some key =>
      let met (st : Nat) : Bool := decide (2 ≤ st ∧ st ≤ 5)
      let watch := (r.producers.filter fun p => !met p.2).map Prod.fst
      let failed := r.producers.any fun p => p.2 == 4 || p.2 == 5
      let u := freshKey t.grids
      let g := Grid.new t.freeGridId c (t.privQueue c.queue) usec ctx (t.kvCtx c.queue ctx) r key r.complPacked s.cycles s.stamp
        watch failed
      let t := { t with grids := aset t.grids u g }
      let t := t.complWrite r.complPacked key (complBytes 1 0 (if failed then 1 else 0) 0 c.queue c.tag r.image.id s.stamp 0 0 0)
      (t.enterPools u, [])
    | _, _ => (c.error (t.completeCmd c) 0x0F, c.compl.toList)

/-! ## Tasks and signals -/

/-- The die that homes an operand; none when it homes on no die (R88, R246). -/
def State.homesOn (s : State) (q : Nat) (ctx : TransCtx) (va : Nat) : Option Nat :=
  if va == 0 then none
  else (s.locate q ctx va .home).bind fun p => if p.kind == 0 then homeOf p.key else none

/-- Ready tasks in a die's pool. -/
def State.readyTasks (s : State) (d : Nat) : Nat :=
  (s.masters.filter fun p => p.2.isTask && p.2.inPool && p.2.phase == .waiting && p.2.die == d).length

/-- R88: the die of a task placed by its operands. -/
def State.taskDie (s : State) (q : Nat) (ctx : TransCtx) (op0 op1 : Nat) (own : Option Nat) : Nat :=
  match s.homesOn q ctx op0, s.homesOn q ctx op1 with
  | some d, some e => if 4096 < s.readyTasks d && decide (s.readyTasks e ≤ 4096) then e else d
  | some d, none => d
  | none, some e => e
  | none, none => match own with
    | some d => d
    | none => (List.range 8).foldl (fun m d => if s.readyTasks d < s.readyTasks m then d else m) 0

/-- A task becomes ready: into its pool, or to retirement when it is cancelled (R74, R77, R78). -/
def State.taskReady (s : State) (m : Nat) : State :=
  match s.master m with
  | none => s
  | some b =>
    let d := match b.poolDie with
      | some d => d
      | none => s.taskDie b.queue b.ctx b.op0 b.op1 b.submitDie
    if b.cancelled then s.setMaster m { b with retiring := true, die := d }
    else s.setMaster m { b with inPool := true, poolAt := s.cycles, die := d }

/-- The table's entry for a record address. -/
def sigAddr (a : Nat) : Nat := a / 64 * 64

/-- One signal or cancel to a record address; none when it needs an entry and the table is full (R74 to R76). -/
def State.sendSignal (s : State) (addr : Nat) (cancel : Bool) : Option State :=
  let a := sigAddr addr
  match aget s.signals a with
  | some (.pending n c m) =>
    let need := match s.master m with | some b => b.predecessors | none => 0
    let c := c || cancel
    if need ≤ n + 1 then
      let t := { s with signals := adel s.signals a }
      some ((t.modMaster m fun b => { b with cancelled := c }).taskReady m)
    else some { s with signals := aset s.signals a (.pending (n + 1) c m) }
  | some (.early n c) => some { s with signals := aset s.signals a (.early (n + 1) (c || cancel)) }
  | none => if s.signals.length < 1048576 then some { s with signals := aset s.signals a (.early 1 cancel) } else none

/-- A cancel of an abort or of a cancelled task: held, in the order sent, while the table is full (R76, R77); one for an
address that has an entry needs no other. -/
def State.sendOrHold (s : State) (addr : Nat) (cancel : Bool) : State :=
  let a := sigAddr addr
  let held : State := { s with cancels := s.cancels ++ [(a, cancel)] }
  if (aget s.signals a).isSome || s.cancels.isEmpty then (s.sendSignal a cancel).getD held else held

/-- What a push hands to the task beside its record. -/
structure Push where
  queue : Nat
  addr : Nat
  priority : Nat
  gridId : Word
  tag : Word
  counted : Option Nat
  submitDie : Option Nat
  poolDie : Option Nat
  usec : Nat
  cmd : Option CmdRef
  deriving Repr

/-- A task's master while it waits. -/
def Master.ofTask (p : Push) (a : Nat) (r : TaskRead) (ctx : TransCtx) (kv : Option KvCtx) (priv : Bool) (thr now : Nat) :
    Master :=
  { (default : Master) with
    kind := .task (BitVec.ofNat 64 a), queue := p.queue, tag := p.tag, gridId := p.gridId, privileged := priv
    priority := p.priority, ctx := ctx, kv := kv, image := r.image, varIdx := r.varIdx, phase := .waiting, coord := r.tile
    keyNames := r.keys, predecessors := r.preds, succCount := r.succs, succList := r.succList, highPriority := r.high
    argPtr := r.argPtr, entryOff := r.entry, threshold := thr, counted := p.counted, cmd := p.cmd, poolAt := now
    op0 := r.op0, op1 := r.op1, submitDie := p.submitDie, poolDie := p.poolDie, sigWait := .ready }

/-- Push a task (R74, R75): the state and the status, 0 when it is pending or ready. -/
def State.pushTask (s : State) (p : Push) : State × Nat :=
  let a := sigAddr p.addr
  let ctx := s.transCtx p.queue
  let (t, r) := s.readTask p.queue ctx a
  match r.code, ctx with
  | some c, _ => (t, c)
  | none, none => (t, 1)
  | none, some ctx =>
    let m := freshKey t.masters
    let b := Master.ofTask p a r ctx (t.kvCtx p.queue ctx) (t.privQueue p.queue) p.usec s.cycles
    match aget t.signals a with
    | some (.pending ..) => (t, 0x17)
    | some (.early e c) =>
      if r.preds == 0 then ((t.setMaster m b).taskReady m, 0)
      else if r.preds ≤ e then
        let left := e - r.preds
        let u := { t with signals := if left == 0 then adel t.signals a else aset t.signals a (.early left false) }
        ((u.setMaster m { b with cancelled := c }).taskReady m, 0)
      else ({ (t.setMaster m b) with signals := aset t.signals a (.pending e c m) }, 0)
    | none =>
      if r.preds == 0 then ((t.setMaster m b).taskReady m, 0)
      else if t.signals.length < 1048576 then
        ({ (t.setMaster m b) with signals := aset t.signals a (.pending 0 false m) }, 0)
      else (t, 0x10)

/-! ## Commands (R63, R64) -/

def QCmd.byte (c : QCmd) (i : Nat) : Nat := recNat c.bytes i 1
def QCmd.num (c : QCmd) (i n : Nat) : Nat := recNat c.bytes i n
def QCmd.opcode (c : QCmd) : Nat := c.byte 0
def QCmd.triggered (c : QCmd) : Bool := c.byte 1 % 2 == 1
def QCmd.addr (c : QCmd) : Nat := c.num 16 8

/-- Is the command malformed on a queue of this kind (R63, R64, R265)? -/
def QCmd.malformed (c : QCmd) (kind : Nat) : Bool :=
  let op := c.opcode
  let fl := c.byte 1
  let trig := fl % 2 == 1
  let add := fl / 2 % 2 == 1
  let zero (off n : Nat) : Bool := !anyByte c.bytes off n
  !(decide (1 ≤ op ∧ op ≤ 7)) || fl / 8 % 16 != 0 || !zero 26 2 ||
  (if op == 1 || op == 6 then kind != 1 else if op == 2 || op == 3 then kind != 2 else false) ||
  (fl / 4 % 2 == 1 && op != 2) || (add && !(op == 1 || op == 2 || op == 6)) ||
  (!trig && !(zero 2 2 && zero 8 8)) || (trig && op == 5) ||
  (if add then c.num 28 4 == 0 else !(zero 24 2 && zero 28 4)) ||
  (match op with
   | 1 | 2 => !zero 32 32
   | 3 => decide (1 < c.byte 32) || !zero 33 31
   | 4 | 5 => !(zero 16 8 && zero 34 6 && zero 48 16)
   | 6 => decide (7 < c.byte 32) || !(zero 33 3 && zero 44 20) || c.addr % 128 != 0 || c.num 36 4 % 128 != 0 ||
       c.num 40 4 % 128 != 0 || c.num 40 4 == 0 || decide (2 ^ 31 < c.num 36 4 + c.num 40 4)
   | 7 => !(zero 16 8 && zero 32 32)
   | _ => false)

/-- Weight-store bank groups that a range meets (R262). -/
def wsGroups (a n : Nat) : List Nat := (List.range (min 16 (ceilDiv n 128))).map fun i => (a / 128 + i) % 16

/-- What remains to be done: a command takes effect, or a counter rises. -/
inductive Work where
  | cmd (c : QCmd)
  | add (counter amount : Nat)
  deriving Repr

/-- Insert by threshold, after equal ones (R68). -/
def insertTrig (l : List Trig) (x : Trig) : List Trig :=
  match l with
  | [] => [x]
  | y :: r => if x.threshold < y.threshold then x :: y :: r else y :: insertTrig r x

/-- An addition to a counter (R67): it saturates, and the commands it fires leave the trigger list. -/
def State.addCounter (s : State) (c v : Nat) : State × List QCmd :=
  let n := min ((aget s.counters c).getD 0 + v) (2 ^ 64 - 1)
  let fire := (s.trigs.filter fun x => x.counter == c && decide (x.threshold ≤ n)).foldl insertTrig []
  ({ s with counters := aset s.counters c n
            trigs := s.trigs.filter fun x => !(x.counter == c && decide (x.threshold ≤ n)) }, fire.map Trig.cmd)

/-- The effect of one command (R64, R65), with the work it causes. -/
def State.effect (s : State) (c : QCmd) : State × List Work :=
  match c.opcode with
  | 1 => let (t, adds) := s.acceptLaunch c.ref c.addr c.usec; (t, adds.map fun a => .add a.1 a.2)
  | 2 =>
    if c.byte 1 / 4 % 2 == 1 then (s.completeCmd c.ref, [])
    else
      let (t, st) := s.pushTask { queue := c.ref.queue, addr := c.addr, priority := c.priority, gridId := 0xFFFFFFFF
                                  tag := c.ref.tag, counted := none, submitDie := none
                                  poolDie := if c.taskDie < 8 then some c.taskDie else none, usec := c.usec, cmd := some c.ref }
      if st == 0 then (t, []) else (c.ref.error (t.completeCmd c.ref) st, [])
  | 3 =>
    -- a triggered SIGNAL that fires while the table is full has left its slot: it is held as a cancel is (log 81)
    let a := sigAddr c.addr
    let cancel := c.byte 32 == 1
    ((s.sendSignal a cancel).getD { s with cancels := s.cancels ++ [(a, cancel)] }, [])
  | 4 => (s, [.add (c.num 32 2) (c.num 40 8)])
  | 5 =>
    if s.trigs.any fun x => x.counter == c.num 32 2 then (c.ref.error s 0x13, [])
    else ({ s with counters := aset s.counters (c.num 32 2) (c.num 40 8) }, [])
  | 6 =>
    match s.transCtx c.ref.queue with
    | none => (c.ref.error (s.completeCmd c.ref) 0x14, [])
    | some ctx =>
      let d := c.byte 32
      if (wsGroups (c.num 36 4) (c.num 40 4)).all fun g => s.ready.getLsbD (384 + 16 * d + g) then
        let w : WsLoad := ⟨c.ref, d, c.num 36 4, c.num 40 4, BitVec.ofNat 64 c.addr, ctx, false⟩
        ({ s with wsloads := aset s.wsloads (freshKey s.wsloads) w }, [])
      else (c.ref.error (s.completeCmd c.ref) 0x15, [])
  | 7 =>
    let before := (s.pendingCmds.filter fun p => p.1 == c.ref.queue && decide (p.2 < c.ref.ticket)).map Prod.snd
    -- a HOLD that fires while another still waits adds its commands to those awaited
    let x := s.queue c.ref.queue
    let before := x.hold.getD [] ++ before
    (s.setQueue c.ref.queue { x with hold := if before.isEmpty then none else some before }, [])
  | _ => (s, [])

/-- Carry out work depth first. Every command carried out beyond the first has left the trigger list, so the fuel given by
`doWork` suffices. -/
def runWork : Nat → List Work → State → State
  | 0, _, s => s
  | _ + 1, [], s => s
  | n + 1, .cmd c :: r, s => let (t, w) := s.effect c; runWork n (w ++ r) t
  | n + 1, .add c v :: r, s => let (t, l) := s.addCounter c v; runWork n (l.map .cmd ++ r) t

def State.doWork (s : State) (w : List Work) : State := runWork (2 * (s.trigs.length + w.length) + 1) w s

/-- A command completes: its completion add follows (R63, R82). -/
def State.finishCmd (s : State) (c : CmdRef) : State :=
  (s.completeCmd c).doWork (c.compl.toList.map fun a => .add a.1 a.2)

end Sys2Proof.Machine
end

