-- ==== Sys2Proof/Machine/Place.lean ====
section
/-! DEFINITION. Placing work: core resources and fitting (R83 to R85, R443), keys and eligibility (R43, R44, R94 to R98),
ready pools and their order (R78, R79), die sets (R86), placement and the release of warps (R42, R89 to R93, R142). -/

namespace Sys2Proof.Machine

/-! ## Resources of cores -/

/-- Per-core holdings of a master on its die, those of a switch in progress included (R84): a core that the new variant uses
again is reused, so of the resources that are counts only what the new demand exceeds the old by is held besides (R102). -/
def Master.holdings (b : Master) : List CoreHold :=
  let old (c : Nat) : CoreHold := (b.cores.find? fun h => h.core == c).getD { (default : CoreHold) with core := c }
  b.cores ++ (match b.switchTo with
    | some (_, cs, _) => cs.map fun h => { h with frames := h.frames - (old h.core).frames, slots := h.slots - (old h.core).slots }
    | none => [])

/-- What is held on core c of die d, master `excl` apart. -/
def State.holdsOn (s : State) (d c : Nat) (excl : Option Nat) : List CoreHold :=
  s.masters.flatMap fun p =>
    if p.2.die == d && some p.1 != excl then p.2.holdings.filter fun h => h.core == c else []

def sumBy {α : Type} (f : α → Nat) (l : List α) : Nat := l.foldl (fun n a => n + f a) 0

/-- The `n` lowest numbers below `limit` that are not taken. -/
def lowestFree (limit n : Nat) (taken : List Nat) : Option (List Nat) :=
  let l := ((List.range limit).filter fun i => !taken.contains i).take n
  if l.length == n then some l else none

/-- The lowest 128-byte-aligned range of `n` bytes of a core's scratchpad that overlaps none of `held`. -/
def lowestRange (n : Nat) (held : List (Nat × Nat)) : Option Nat :=
  let cands := 0 :: held.map fun h => ceilDiv (h.1 + h.2) 128 * 128
  let ok (a : Nat) : Bool := decide (a + n ≤ 1048576) && held.all fun h => decide (a + n ≤ h.1 ∨ h.1 + h.2 ≤ a) || n == 0 || h.2 == 0
  (cands.filter ok).foldl (fun m a => match m with | none => some a | some x => some (min x a)) none

/-- A core's readiness and its shuttle's (R442, R443). -/
def State.coreReady (s : State) (d c : Nat) : Bool := s.ready.getLsbD (24 * d + c) && s.ready.getLsbD (192 + 24 * d + c)

/-- What variant v would take on a core, when it has the whole demand free (R83). -/
def fitCore (c : Nat) (held : List CoreHold) (v : Variant) : Option CoreHold :=
  let w := v.warps / v.span
  match lowestFree 64 w (held.flatMap CoreHold.warpSlots), lowestRange (v.scratch / v.span) (held.map fun h => (h.xBase, h.xSize)),
        lowestFree 64 v.hwbars (held.flatMap CoreHold.hwbars), lowestFree 8 v.acc (held.flatMap CoreHold.tiles) with
  | some ws, some x, some hb, some ts =>
    if decide (sumBy CoreHold.frames held + w * v.frames ≤ 256) && decide (sumBy CoreHold.slots held + v.slots ≤ 1024) &&
        (v.acc == 0 || !held.any CoreHold.array)
    then some ⟨c, ws, w * v.frames, x, v.scratch / v.span, v.slots, hb, v.acc != 0, ts, 0⟩ else none
  | _, _, _, _ => none

/-- Fit a variant on a die (R85), the resources of master `excl` counting as free. -/
def State.fit (s : State) (d : Nat) (v : Variant) (excl : Option Nat) : Option (List CoreHold) :=
  let l := ((List.range 24).filterMap fun c => if s.coreReady d c then fitCore c (s.holdsOn d c excl) v else none).take v.span
  if l.length == v.span then some l else none

/-- Permitted variants in descending preference, equal ones by number (R90). -/
def byPreference (i : Image) : List Nat → List Nat
  | [] => []
  | k :: r =>
    let pref (j : Nat) : Nat := (i.variants.getD j default).pref
    let rec insert (l : List Nat) : List Nat := match l with
      | [] => [k]
      | j :: t => if pref j < pref k || (pref j == pref k && decide (k < j)) then k :: j :: t else j :: insert t
    insert (byPreference i r)

/-- The first variant of a list that fits (R90). -/
def State.firstFit (s : State) (d : Nat) (i : Image) (vs : List Nat) (excl : Option Nat) : Option (Nat × List CoreHold) :=
  vs.findSome? fun k => (s.fit d (i.variants.getD k default) excl).map fun c => (k, c)

/-! ## Keys (R43, R44, R94 to R98) -/

/-- Block coordinate of a linear index (R41). -/
def Launch.coord (l : Launch) (lin : Nat) : Nat × Nat × Nat := (lin % l.gx, lin / l.gx % l.gy, lin / l.gx / l.gy)

/-- The key an expression gives at a coordinate (R43). -/
def keyOf (e : Dword) (c : Nat × Nat × Nat) : Nat :=
  let f (lo n : Nat) : Nat := e.toNat / 2 ^ lo % 2 ^ n
  (f 44 20 + (f 32 12 * c.1 + f 20 12 * c.2.1 + f 8 12 * c.2.2) / 2 ^ f 4 4) % 2 ^ 20

/-- The keys of a block, one for each expression. -/
def Launch.keyNames (l : Launch) (lin : Nat) : List Nat := l.keyExprs.map fun e => keyOf e (l.coord lin)

/-- Does any master hold the key? -/
def State.keyHeld (s : State) (k : Nat) : Bool := s.masters.any fun p => p.2.keys.contains k

/-- Undispatched blocks of a grid, in ascending linear index (R87). -/
def Grid.undispatched (g : Grid) : List Nat :=
  g.skipped ++ (List.range (g.launch.blocks - g.nextLin)).map (g.nextLin + ·)

/-- A waiter with what ranks its age (R95): entry time, linear index, die, and R79's order. -/
structure Aged where
  who : PoolRef
  entered : Nat
  lin : Nat
  die : Nat
  rank : Nat × Nat × Nat

/-- R95: is waiter a older than b? Ties go by linear index in one grid, then by die, then by R79: priority, re-entry after
pre-emption and the high-priority bit, and an identifier for what the spec leaves open (log 18). -/
def Aged.older (a b : Aged) : Bool :=
  decide (a.entered < b.entered) || (a.entered == b.entered &&
    (if a.who == b.who then decide (a.lin < b.lin)
     else decide (a.die < b.die) || (a.die == b.die && (decide (b.rank.1 < a.rank.1) ||
       (a.rank.1 == b.rank.1 && (decide (b.rank.2.1 < a.rank.2.1) || (a.rank.2.1 == b.rank.2.1 && decide (a.rank.2.2 < b.rank.2.2))))))))

/-- The age of a grid's undispatched block `lin`; with an empty die set it counts as on a die after every real one (log 18). -/
def Grid.age (g : Grid) (u lin : Nat) : Aged :=
  ⟨.grid u, g.poolAt, lin, ((List.range 8).find? g.dieSet.getLsbD).getD 8, (g.launch.priority, 0, 2 * u)⟩
/-- The age of a master that waits in a pool. -/
def Master.age (b : Master) (m : Nat) : Aged :=
  ⟨.master m, b.poolAt, 0, b.die, (b.priority, (if b.phase == .waiting then 0 else 2) + (if b.highPriority then 1 else 0), 2 * m + 1)⟩

/-- R95: has what entered its pool at a cycle aged past a threshold in µs? -/
def State.pastAge (s : State) (at' thr : Nat) : Bool := decide (at' + 1600 * thr < s.cycles)

/-- Aged waiters that name a key, with the waiters they are: of each grid its lowest such block. -/
def State.agedFor (s : State) (k : Nat) : List (Aged × Waiter) :=
  (s.grids.filterMap fun p =>
    if p.2.inPool && (p.2.aged || s.pastAge p.2.poolAt p.2.threshold) && !p.2.aborted && !p.2.launch.keyExprs.isEmpty then
      (p.2.undispatched.find? fun lin => (p.2.launch.keyNames lin).contains k).map fun lin => (p.2.age p.1 lin, .block p.1 lin)
    else none) ++
  s.masters.filterMap fun p =>
    if p.2.inPool && (p.2.aged || s.pastAge p.2.poolAt p.2.threshold) && p.2.phase == .waiting && !p.2.retiring &&
        p.2.keyNames.contains k then some (p.2.age p.1, .master p.1)
    else none

/-- A key's reservation owner (R95): the oldest aged waiter that names it. -/
def State.keyOwner (s : State) (k : Nat) : Option Waiter :=
  match s.agedFor k with
  | [] => none
  | a :: r => some (r.foldl (fun m x => if x.1.older m.1 then x else m) a).2

/-- R95: is a waiter naming these keys eligible? An entry that names a key waits for the heddle table (R443). -/
def State.eligible (s : State) (who : Waiter) (names : List Nat) : Bool :=
  names.isEmpty || (s.ready.getLsbD 546 && names.all fun k => !s.keyHeld k && (match s.keyOwner k with
    | none => true
    | some o => o == who))

/-- The lowest-indexed undispatched block that is key-eligible (R87). -/
def State.nextBlock (s : State) (u : Nat) (g : Grid) : Option Nat :=
  if g.launch.keyExprs.isEmpty then
    (match g.skipped with
     | l :: _ => some l
     | [] => if g.nextLin < g.launch.blocks then some g.nextLin else none)
  else g.undispatched.find? fun lin => s.eligible (.block u lin) (g.launch.keyNames lin).eraseDups

/-! ## Where work may be placed -/

/-- The die's network links: its row neighbour on the right, and the one to the other row (R12, R442). -/
def State.linkUp (s : State) (a b : Nat) : Bool :=
  let (lo, hi) := (min a b, max a b)
  if hi == lo + 4 then s.ready.getLsbD (526 + lo) else s.ready.getLsbD (520 + (if lo < 4 then lo else lo - 1))

/-- The dies along a row from column to column. -/
def rowPath (row c e : Nat) : List (Nat × Nat) :=
  let (lo, hi) := (min c e, max c e)
  (List.range (hi - lo)).map fun i => (4 * row + lo + i, 4 * row + lo + i + 1)

/-- Does traffic from die a reach die b, along the row first or across rows first (R12, R443)? -/
def State.reaches (s : State) (a b : Nat) : Bool :=
  let cross (col : Nat) : List (Nat × Nat) := if a / 4 == b / 4 then [] else [(col, col + 4)]
  let ok (l : List (Nat × Nat)) : Bool := l.all fun p => s.linkUp p.1 p.2
  ok (rowPath (a / 4) (a % 4) (b % 4) ++ cross (b % 4)) || ok (cross (a % 4) ++ rowPath (b / 4) (a % 4) (b % 4))

/-- R443: a die that no other die's traffic reaches is placed on by nobody (log 16). -/
def State.dieOpen (s : State) (d : Nat) : Bool := (List.range 8).any fun e => e != d && s.reaches e d

/-- R265: no WSLOAD that has taken effect overlaps the window on the die. -/
def State.windowFree (s : State) (d : Nat) (ctx : TransCtx) : Bool :=
  ctx.wsLimit == 0 || s.wsloads.all fun p => p.2.die != d || decide (ctx.wsBase + ctx.wsLimit ≤ p.2.dest ∨ p.2.dest + p.2.size ≤ ctx.wsBase)

/-- The context slots of a grid (R411). -/
def Launch.slotCount (l : Launch) (i : Image) : Nat :=
  match i.variants[(l.permitted i).headD 0]? with
  | some v => 8 * (1536 / v.warps)
  | none => 0

/-- Context slots that are taken: by blocks of a grid, or by tasks of a die. -/
def State.slotsTaken (s : State) (f : Master → Bool) : List Nat := s.masters.filterMap fun p => if f p.2 then p.2.ctxSlot else none
def State.gridSlots (s : State) (u : Nat) : List Nat := s.slotsTaken fun b => b.gridUid == some u
def State.taskSlots (s : State) (d : Nat) : List Nat := s.slotsTaken fun b => b.isTask && b.die == d

/-- Could the die place the grid's next block now (R86)? -/
def State.canPlace (s : State) (d u : Nat) (g : Grid) : Bool :=
  s.dieOpen d && (s.nextBlock u g).isSome && (s.firstFit d g.image (byPreference g.image (g.launch.permitted g.image)) none).isSome &&
  (g.dieSet.getLsbD d || s.windowFree d g.ctx) && decide ((s.gridSlots u).length < g.launch.slotCount g.image)

/-- The die's copy of the argument block (R42); bytes that cannot be read are undefined (log 17). -/
def State.copyArgs (s : State) (u d : Nat) : State :=
  match s.grid u with
  | none => s
  | some g =>
    if (aget g.args d).isSome then s
    else if g.launch.argSize == 0 then s.modGrid u fun g => { g with args := aset g.args d [] }
    else
      let (t, r) := s.vaRead noDie g.queue g.ctx g.launch.argAddr.toNat g.launch.argSize
      match r with
      | .ok bs => t.modGrid u fun g => { g with args := aset g.args d bs }
      | _ =>
        let (t, k) := t.fresh
        t.modGrid u fun g => { g with args := aset g.args d ((List.range g.launch.argSize).map fun i =>
          (Config.freeWord k i).setWidth 8) }

def bit8 (d : Nat) : BitVec 8 := BitVec.ofNat 8 (2 ^ d)

/-- DIE_SET_JOIN (R86): dies join a grid's set outside step boundaries. -/
def State.joinDies (s : State) (u : Nat) : State :=
  match s.grid u with
  | none => s
  | some g =>
    if !g.inPool || g.aborted || g.stepped then s
    else
      let able := (List.range 8).filter fun d => g.launch.dies.getLsbD d && !g.dieSet.getLsbD d && s.canPlace d u g
      let have' := popc8 g.dieSet
      if !g.started && able.length < g.launch.minDies then s
      else
        let new := able.take (g.launch.maxDies - have')
        s.modGrid u fun g => { g with dieSet := new.foldl (fun m d => m ||| bit8 d) g.dieSet
                                      started := g.started || !new.isEmpty }

/-- Dies may join any grid. -/
def State.joinAll (s : State) : State := s.grids.foldl (fun t p => t.joinDies p.1) s

/-! ## The pool of a die -/

/-- A warp's live lanes are all held at one kind of point: at STEP (1,024), or at the switch point they named. -/
def Warp.arrivedId (w : Warp) : Option Nat := if !w.arrived then none else if w.held.all Held.step then some 1024 else w.heldId

/-- The id that every live warp of the block has arrived with; 1,024 stands for STEP. -/
def Master.arrivedAt (b : Master) : Option Nat :=
  let live := b.liveWarps.map fun i => b.warps.getD i default
  match live with
  | [] => none
  | w :: _ => if live.all fun x => x.arrived && x.arrivedId == w.arrivedId then w.arrivedId else none

/-- Has the block arrived at STEP with its step not complete (R108)? -/
def Master.atStep (b : Master) : Bool := b.arrivedAt == some 1024

/-- What orders a pool (R79): priority, re-entry after pre-emption, high priority, time, and an identifier. -/
structure Rank where
  prio : Nat
  again : Bool
  high : Bool
  at' : Nat
  id : Nat

def Rank.before (a b : Rank) : Bool :=
  if a.prio != b.prio then decide (b.prio < a.prio)
  else if a.again != b.again then a.again
  else if a.high != b.high then a.high
  else if a.at' != b.at' then decide (a.at' < b.at')
  else decide (a.id < b.id)

/-- May the die place blocks of the grid, or still join its die set (R78, R86, log 39)? -/
def Grid.awaits (g : Grid) (d : Nat) : Bool :=
  g.dieSet.getLsbD d || (g.launch.dies.getLsbD d && !g.stepped && decide (popc8 g.dieSet < g.launch.maxDies))

/-- Is the die in the set of the entry's grid (R86)? An entry that is no grid needs none. -/
def State.inSet (s : State) (d : Nat) : PoolRef → Bool
  | .grid u => (match s.grid u with | some g => g.dieSet.getLsbD d | none => false)
  | .master _ => true

/-- Entries of die d's pool with their ranks. -/
def State.pool (s : State) (d : Nat) : List (PoolRef × Rank) :=
  (s.grids.filterMap fun p =>
    if p.2.inPool && !p.2.aborted && p.2.awaits d && (!p.2.skipped.isEmpty || decide (p.2.nextLin < p.2.launch.blocks))
    then some (.grid p.1, ⟨p.2.launch.priority, false, false, p.2.poolAt, 2 * p.1⟩) else none) ++
  s.masters.filterMap fun p =>
    let b := p.2
    let here := b.die == d
    if b.phase == .waiting && b.inPool && !b.retiring && here then
      some (.master p.1, ⟨b.priority, false, b.highPriority, b.poolAt, 2 * p.1 + 1⟩)
    else if b.phase == .preempted && here && !b.atStep then
      some (.master p.1, ⟨b.priority, true, b.highPriority, b.poolAt, 2 * p.1 + 1⟩)
    else if b.phase == .migrating && b.inPool && (match s.gridOf b with | some g => g.dieSet.getLsbD d | none => false) then
      some (.master p.1, ⟨b.priority, true, false, b.poolAt, 2 * p.1 + 1⟩)
    else none

/-- Insertion by rank. -/
def insertRank (l : List (PoolRef × Rank)) (e : PoolRef × Rank) : List (PoolRef × Rank) :=
  match l with
  | [] => [e]
  | x :: r => if e.2.before x.2 then e :: x :: r else x :: insertRank r e

/-- Does the entry wait in the die's pool? -/
def State.waitsOn (s : State) (d : Nat) (e : PoolRef) : Bool := (s.pool d).any fun p => p.1 == e

/-- The pool in the order of R79. -/
def State.poolOrder (s : State) (d : Nat) : List (PoolRef × Rank) := (s.pool d).foldl insertRank []

/-- Is the entry key-eligible (R95): of a grid, is some block of it? -/
def State.keyEligible (s : State) (e : PoolRef) : Bool :=
  match e with
  | .grid u => (match s.grid u with | some g => (s.nextBlock u g).isSome | none => false)
  | .master m => match s.master m with
    | some b => b.phase != .waiting || s.eligible (.master m) b.keyNames.eraseDups
    | none => false

/-- What an entry would place: the waiter, its keys, and the variants it may take; none when it is not key-eligible or must
not be placed now. -/
def State.candidate (s : State) (d : Nat) (e : PoolRef) : Option (Waiter × List Nat × Image × List Nat) :=
  match e with
  | .grid u => match s.grid u with
    | none => none
    | some g =>
      if decide ((s.gridSlots u).length < g.launch.slotCount g.image) && (g.dieSet.getLsbD d || s.windowFree d g.ctx) then
        (s.nextBlock u g).map fun lin =>
          (.block u lin, (g.launch.keyNames lin).eraseDups, g.image, byPreference g.image (g.launch.permitted g.image))
      else none
  | .master m => match s.master m with
    | none => none
    | some b =>
      if b.phase == .waiting then
        let names := b.keyNames.eraseDups
        if s.eligible (.master m) names && s.windowFree d b.ctx && decide ((s.taskSlots d).length < 1536) then
          some (.master m, names, b.image, [b.varIdx])
        else none
      else some (.master m, [], b.image, [b.varIdx])

/-! ## Placement (R91 to R93) -/

/-- The segment registers at placement (R240). -/
def segsFor (ctx : TransCtx) (cores : List CoreHold) (v : Variant) : List Seg :=
  [⟨0, 2 ^ 57, 2 ^ 57⟩, ⟨(cores.headD default).xBase, v.scratch, v.scratch⟩, ⟨ctx.wsBase, ctx.wsLimit, ctx.wsLimit⟩,
   ⟨0, 65536, 65536⟩, ⟨ctx.kvBase, ctx.kvLimit, ctx.kvLimit⟩]

/-- Array state of a span core with empty planes, its tiles as ACCZ leaves them (R299, R301). -/
def ArraySt.empty (v : Variant) : ArraySt :=
  ⟨[none, none, none, none], [none, none, none, none], List.replicate v.acc ⟨none, []⟩⟩

def freshArrays (v : Variant) : List ArraySt := if v.acc == 0 then [] else List.replicate v.span (ArraySt.empty v)

/-- Array state with empty planes and undefined tiles (R299, R307). -/
def undefArrays (v : Variant) (tick : Nat) : List ArraySt :=
  (freshArrays v).zipIdx.map fun p => { p.1 with tiles := p.1.tiles.zipIdx.map fun t => ⟨some (tick + 8 * p.2 + t.2), []⟩ }

/-- x: with `c` bytes carried over, the rest of its `n` bytes undefined (R102, R267, log 4). -/
def carryX (x : Memory) (c n tick : Nat) : Memory :=
  (x.filter fun e => decide (e.1 < c)) ++ (List.range (n - c)).filterMap fun i =>
    let v : Byte := (Config.freeWord tick (2 ^ 20 + i)).setWidth 8
    if v == 0 then none else some (c + i, v)

/-- Every hardware barrier auto at phase 0 (R324). -/
def freshHw (v : Variant) : List Barrier := List.replicate v.hwbars (Barrier.idle 0 0)

/-- Stale flags of the keys in positions 0 to 3 (R92). -/
def staleBits (names stale : List Nat) : BitVec 4 :=
  BitVec.ofNat 4 (((names.take 4).zipIdx).foldl (fun n p => n + if stale.contains p.1 then 2 ^ p.2 else 0) 0)

/-- Keys of the block order for a cycle, span core and warp: commands issued in the same cycle take ascending span core, then
ascending warp index (R308), then their own order. -/
def entryBase (cycle span warp : Nat) : Nat := ((cycle * 16 + span) * 256 + warp) * 2 ^ 16
/-- The cycle in which an entry was issued. -/
def entryCycle (k : Nat) : Nat := k / 2 ^ 28

/-- The key of an entry that warp w issues now. -/
def Master.entryKey (b : Master) (now span w : Nat) : Nat :=
  let k := entryBase now span w
  b.entries.foldl (fun m p => if decide (k ≤ p.1 ∧ p.1 < k + 2 ^ 16) then max m (p.1 + 1) else m) k

/-- Append an entry to the block order, as warp w of a span core issues it in cycle `now` (R308). -/
def Master.enqueue (b : Master) (now span w : Nat) (e : Entry) : Master :=
  { b with entries := aset b.entries (b.entryKey now span w) e }

/-- An entry of the block order that has just been issued. -/
def Entry.issued (op : EOp) (words fo : List Word) (fmt : Word) (span warp : Nat) (toks : List (Nat × Nat)) : Entry :=
  { op := op, words := words, fo := fo, fmt := fmt, span := span, warp := warp, toks := toks, st := .queued, landed := 0
    copied := none, stage := [], clamp := none, wait := .ready }

/-- The prologue's fills (R295): one entry for each binding, in order, and their bytes posted on hardware barrier 0. -/
def Master.withFills (b : Master) (binds : List XformBind) : Master :=
  let b := (List.range binds.length).foldl (fun (b : Master) i =>
    b.enqueue b.placedAt 0 0 (Entry.issued .fill [] [] (BitVec.ofNat 32 i) 0 0 [])) b
  if binds.isEmpty then b
  else { b with hw := modAt b.hw 0 fun x => { x with expBytes := sumBy (fun e => (XformBind.bytes e).getD 0) binds, posted := true } }

/-- A block of a grid, placed. -/
def Master.ofBlock (g : Grid) (u lin d k now slot : Nat) (cores : List CoreHold) (stale : List Nat) : Master :=
  let v := g.image.variants.getD k default
  let names := g.launch.keyNames lin
  let b : Master := { (default : Master) with
    kind := .block u lin, queue := g.queue, tag := g.tag, gridId := g.id, privileged := g.privileged
    priority := g.launch.priority, ctx := g.ctx, kv := g.kv, image := g.image, varIdx := k
    phase := if g.launch.binds.isEmpty then .running else .prologue, frozenFrom := .running, die := d, cores := cores
    coord := g.launch.coord lin, keys := names.eraseDups, keyNames := names, stale := staleBits names stale
    segs := segsFor g.ctx cores v, hw := freshHw v, timer := now, placedAt := now, poolAt := now, ctxSlot := some slot
    arrays := freshArrays v, sigWait := .ready, entryOff := v.entry, threshold := g.threshold }
  b.withFills g.launch.binds

/-- Freshen the regions bound to the keys of a master that has just been granted them (R336). -/
def State.freshenKeys (s : State) (m : Nat) : State :=
  match s.master m with
  | some b => b.keys.foldl (fun t k => t.freshenRegions b (boundToKey b k)) s
  | none => s

/-- Take a block out of its grid's sequence (R87). -/
def Grid.take (g : Grid) (lin d : Nat) : Grid :=
  let g := if lin < g.nextLin then { g with skipped := g.skipped.filter fun l => l != lin }
    else { g with skipped := g.skipped ++ (List.range (lin - g.nextLin)).map (g.nextLin + ·), nextLin := lin + 1 }
  { g with diesUsed := g.diesUsed ||| bit8 d }

/-- The lowest context slot that is free. -/
def lowestSlot (taken : List Nat) : Nat := ((List.range (taken.length + 1)).filter fun i => !taken.contains i).headD 0

/-- A master as placement leaves its scratchpad and its arrays: undefined but for the empty planes (R267, R299). -/
def State.unwritten (s : State) (b : Master) : State × Master :=
  let (t, tick) := s.freshMany (1 + 8 * b.variant.span)
  (t, { b with x := carryX [] 0 b.variant.scratch tick, xPoison := [], arrays := undefArrays b.variant (tick + 1) })

/-- Place a granted waiter (R91): the keys are granted with it and their stale flags cleared. A pre-empted block returns
with its whole context, a migrating one with what it carries. -/
def State.place (s : State) (d : Nat) (g : Grant) : State :=
  let stale := s.stale.filter fun k => !g.keys.contains k
  match g.who with
  | .block u lin => match s.grid u with
    | none => s
    | some gr =>
      let m := freshKey s.masters
      let b := Master.ofBlock gr u lin d g.varIdx s.cycles (lowestSlot (s.gridSlots u)) g.cores s.stale
      let (t, b) := (({ s with stale := stale }.copyArgs u d).modGrid u fun x => x.take lin d).unwritten b
      (t.setMaster m b).freshenKeys m
  | .master m => match s.master m with
    | none => s
    | some b =>
      let seg (b : Master) : Master := { b with segs := fileAt 5 b.segs 1 fun x => { x with base := (g.cores.headD default).xBase } }
      if b.phase == .waiting then
        let v := b.variant
        let b := { b with
          phase := .running, frozenFrom := .running, inPool := false, cores := g.cores, die := d, keys := g.keys
          stale := staleBits b.keyNames s.stale, segs := segsFor b.ctx g.cores v, hw := freshHw v, timer := s.cycles
          placedAt := s.cycles, ctxSlot := some (lowestSlot (s.taskSlots d)) }
        let (t, b) := ({ s with stale := stale } : State).unwritten b
        (t.setMaster m b).freshenKeys m
      else
        -- readmission (R107, R412) or placement after migration (R105)
        let moved := b.phase == .migrating
        let b := if moved then { b with segs := segsFor b.ctx g.cores b.variant } else seg b
        let pools := b.cores.map CoreHold.pool
        let cores := g.cores.zipIdx.map fun p => { p.1 with pool := if moved then 0 else pools.getD p.2 0 }
        let t := s.setMaster m { b with phase := .running, inPool := false, cores := cores, die := d, timer := s.cycles
                                        placedAt := s.cycles }
        (match b.gridUid with
         | some u => (if moved then ((t.acquireAll d).copyArgs u d).modGrid u fun x => { x with diesUsed := x.diesUsed ||| bit8 d } else t)
         | none => t)

/-! ## Release of warps (R91, R142) -/

/-- A warp at entry. -/
def Warp.entry (f : Nat) (e : List FEntry) (u : List Word) : Warp :=
  { frontier := e, clause := none, regs := [], preds := List.replicate 7 0, unif := u, allot := f, resident := 0
    tokens := List.replicate 8 0, stray := List.replicate 8 0, deliveries := [], fflags := 0, fctl := 0, tlanes := 0, tpc := 0, tcause := 0, tinfo := 0
    handler := none, held := [], heldId := none, arrived := false, arrival := none, waits := none, openBatch := 0, sealOn := none, outs := [], opCount := 0
    park := none, fetchMiss := none, stall := none, exitAt := none, retired := false, request := none }

/-- Lanes of warp j of a block of T threads (R40). -/
def entryLanes (t j : Nat) : Mask := Mask.ofFn fun l => decide (128 * j + l < t)

/-- The warps of a placed master as they start. -/
def State.entryWarps (s : State) (b : Master) : List Warp :=
  let va := b.image.base + BitVec.ofNat 64 b.entryOff
  let unif : List Word := (List.range 63).map fun i =>
    if i == 2 then (b.stale.setWidth 32) else if b.isTask && i == 0 then b.argPtr.extractLsb' 0 32
    else if b.isTask && i == 1 then b.argPtr.extractLsb' 32 32 else 0
  let t := match s.gridOf b with | some g => g.launch.threads | none => 128
  (List.range b.variant.warps).map fun j =>
    Warp.entry b.variant.frames [s.entryAt b ⟨va, 0, entryLanes t j⟩] unif

/-- Keys are released (R96, R336): bound regions published first; freed by an abort, they are marked stale (R97). -/
def State.releaseKeys (s : State) (m : Nat) (ks : List Nat) (aborted : Bool) : State :=
  match s.master m with
  | none => s
  | some b =>
    let ks := ks.filter b.keys.contains
    let t := ks.foldl (fun t k => t.publishRegions b (boundToKey b k)) s
    let t := t.modMaster m fun b => { b with keys := b.keys.filter fun k => !ks.contains k }
    if aborted then { t with stale := t.stale ++ ks.filter fun k => !t.stale.contains k } else t

end Sys2Proof.Machine
end

