-- ==== Sys2Proof/Machine/Tokens.lean ====
section
/-! DEFINITION. Token slots and what is delivered at a wait on them (R113, R165, R291, R306, R317, R344). -/

namespace Sys2Proof.Machine

def Warp.token (w : Warp) (t : Nat) : Nat := w.tokens.getD t 0

/-- A slot that a switch left undefined, on which nothing has been counted since (R102, log 19). -/
def Warp.strayOn (w : Warp) (t : Nat) : Bool := w.stray.getD t 0 != 0

/-- Count one more outstanding command on a slot. -/
def Warp.takeToken (w : Warp) (t : Nat) : Warp :=
  { w with tokens := fileAt 8 w.tokens t (· + 1), stray := fileAt 8 w.stray t fun _ => 0 }

/-- Release the counts of a command that has completed. -/
def Master.releaseToks (b : Master) (toks : List (Nat × Nat)) : Master :=
  toks.foldl (fun b p => b.modWarp p.1 fun w => { w with tokens := fileAt 8 w.tokens p.2 (· - 1) }) b

/-- What a wait on some slots meets: the lowest slot's delivery first, a fault before a trap (log 15). -/
inductive TokWait where
  | clear
  | wait
  | trap (slot : Nat) (vector : Nat) (info : Word)
  | fault (entry cause : Nat) (info : Nat)
  deriving DecidableEq, Repr

/-- A faulted command counted on the slot. -/
def Master.faultOn (b : Master) (i t : Nat) : Option (Nat × Nat × Nat) :=
  b.entries.findSome? fun e => match e.2.st with
    | .faulted c inf => if e.2.toks.contains (i, t) then some (e.1, c, inf) else none
    | _ => none

def Warp.trapOn (w : Warp) (t : Nat) : Option (Nat × Word) :=
  w.deliveries.findSome? fun d => match d.2 with
    | .trap v x _ => if d.1 == t then some (v, x) else none
    | .fault .. => none

/-- The outcome of a wait of warp i on slots, lowest first. -/
def Master.tokenWait (b : Master) (i : Nat) (slots : List Nat) : TokWait :=
  match b.warps[i]? with
  | none => .clear
  | some w =>
    match slots.findSome? fun t => match b.faultOn i t with
      | some (k, c, x) => some (TokWait.fault k c x)
      | none => (w.trapOn t).map fun p => .trap t p.1 p.2 with
    | some x => x
    | none => if slots.all fun t => w.token t == 0 then .clear else .wait

/-- The same for a wait that an instruction or a header makes: it also waits while a named slot's undefined value is not zero
(R102, R113, R344, log 19). -/
def Master.slotWait (b : Master) (i : Nat) (slots : List Nat) : TokWait :=
  match b.tokenWait i slots with
  | .clear =>
    match b.warps[i]? with
    | some w => if slots.any w.strayOn then .wait else .clear
    | none => .clear
  | x => x

/-- The slots of a mask. -/
def maskSlots (m : Nat) : List Nat := (List.range 8).filter fun i => m.testBit i

/-- Deliver: a trap is taken with its delivery removed; a fault freezes the block (with cause 0x02 in a handler). -/
def State.deliver (s : State) (r : WRef) (susp : Clause) (pc : Dword) (lanes : Mask) (d : TokWait) : State :=
  match d with
  | .clear | .wait => s
  | .trap t v x =>
    (s.modWarp r fun w => { w with deliveries := w.deliveries.eraseP fun p => p.1 == t }).takeTrap r susp v lanes pc x
  | .fault k c x =>
    let t := s.modMaster r.m fun b => { b with entries := match aget b.entries k with
      | some e => aset b.entries k { e with st := .delivered }
      | none => b.entries }
    let inHandler := match s.warp r with
      | some w => w.handler.isSome
      | none => false
    t.freeze r.m { FreezeAt.blank (if inHandler then 0x02 else c) with
      warp := some r.w, pc := pc, lanes := lanes, info := BitVec.ofNat 64 (if inHandler then c else x) }

end Sys2Proof.Machine
end

