-- ==== Sys2Proof/Machine/Retire.lean ====
section
/-! DEFINITION. Collectives of a block and of a grid (R100 to R105, R175, R176), retirement of warps, blocks, tasks and
grids (R426 to R431), and drain (R432 to R434). -/

namespace Sys2Proof.Machine

/-! ## Quiet masters -/

/-- Have the block's engine commands, copies and collectives completed (R102, R427)? -/
def State.engineQuiet (s : State) (m : Nat) (b : Master) : Bool :=
  (b.entries.all fun e => e.2.op == .qfence) && s.colls.all fun c => c.2.m != m

/-- And its LDA batches and outstanding operations of every warp. -/
def State.quiet (s : State) (m : Nat) (b : Master) : Bool := s.engineQuiet m b && b.warps.all fun w => w.outs.isEmpty

/-! ## Lanes held at a switch point or step -/

def Warp.heldLanes (w : Warp) : Mask := w.held.foldl (fun m h => m ||| h.lanes) 0

/-- Has every live lane of the warp executed the instruction, or exited (R175)? -/
def Warp.allHeld (w : Warp) : Bool :=
  w.heldLanes != 0 && w.heldLanes == w.liveLanes && (w.held.all Held.step || w.held.all fun h => !h.step)

/-- The warp's held lanes continue where each group stands, at its own window base; those held before a trap whose handler
still runs continue with the entries set aside. -/
def State.resumeHeld (s : State) (b : Master) (w : Warp) : Warp :=
  let join (l : List FEntry) (hs : List Held) : List FEntry :=
    hs.foldl (fun l h => addEntry l (s.entryAt b ⟨h.next, h.base, h.lanes⟩)) l
  let w' : Warp := { w with held := [], heldId := none, arrived := false }
  match w.handler with
  | none => { w' with frontier := join w.frontier w.held }
  | some h => { w' with
      frontier := join w.frontier (w.held.filter h.owns)
      handler := some { h with setAside := join h.setAside (w.held.filter fun x => !h.owns x) } }

/-- Every warp that has arrived resumes. -/
def State.resumeAll (s : State) (m : Nat) : State :=
  s.modMaster m fun b => { b with warps := b.warps.map fun w => if w.arrived then s.resumeHeld b w else w }

/-! ## Carried state (R38, R102, R105) -/

/-- A warp as it resumes with its carried registers alone, everything else undefined (log 2, log 19). What its token slots
still count are slices of collections that this switch or an earlier one discards; those counts stay (R279). -/
def State.carryWarp (s : State) (b : Master) (w : Warp) (f : Nat) (next : Nat → Dword) (tick : Nat) : Warp :=
  let baseOf (l : Nat) : Nat := match w.held.find? fun h => h.lanes.has l with
    | some h => h.base
    | none => 0
  let reg (r : Nat) : Lanes :=
    if r < 8 then (List.range 128).map fun l => w.v (baseOf l) r l else freeLanes tick r
  let fs := (groupReach ((w.liveLanes.lanes).map fun l => ⟨next l, 0, Mask.ofFn fun k => k == l⟩)).foldl
    (fun l r => addEntry l (s.entryAt b r)) []
  let fw (i : Nat) : Word := Config.freeWord tick (2 ^ 16 + i)
  { Warp.entry f fs ((List.range 63).map fun i => if i < 8 then w.s i else fw i) with
    regs := (List.range 31).map fun r => (r, reg r)
    preds := (List.range 7).map fun i => Mask.ofFn fun l => (Config.freeWord tick (2 ^ 17 + 128 * i + l)).getLsbD 0
    fflags := (fw 100).setWidth 5, fctl := (fw 101).setWidth 5, tlanes := (fw 102).setWidth 128
    tokens := (List.range 8).map w.token
    stray := (List.range 8).map fun i => (fw (110 + i)).toNat % 2 ^ 16
    tpc := (fw 103).setWidth 64, tcause := fw 104, tinfo := fw 105, retired := w.retired, exitAt := w.exitAt }

/-- The block in a variant and on cores, with `c` carried bytes of x: and its warps resuming where `next` says. -/
def State.carry (s : State) (b : Master) (k c : Nat) (next : Warp → Nat → Dword) : State × Master :=
  let v := b.image.variants.getD k default
  let n := b.warps.length
  let (t, tick) := s.freshMany (1 + n + 8 * v.span)
  let b1 := { b with varIdx := k }
  (t, { b1 with
    warps := b.warps.zipIdx.map fun p =>
      if p.1.retired then { p.1 with allot := v.frames } else s.carryWarp b1 p.1 v.frames (next p.1) (tick + 1 + p.2)
    x := carryX b.x c v.scratch tick, xPoison := b.xPoison.filter (· < c), slots := []
    hw := (freshHw v).zipIdx.map fun p => { p.1 with phase := (Config.freeWord tick (2 ^ 18 + p.2)).toNat % 65536 }
    arrays := undefArrays v (tick + 1 + n), collections := [], entries := [] })

/-! ## Variant switches (R100 to R102) -/

/-- Variants of a waiting entry, in the order in which they would be tried. -/
def State.wants (s : State) (d : Nat) (e : PoolRef) : Option (Image × List Nat) :=
  (s.candidate d e).map fun c => (c.2.2.1, c.2.2.2)

/-- Would the entry have room if master m held `cores` instead of what it holds? -/
def State.roomWith (s : State) (d m : Nat) (cores : List CoreHold) (e : PoolRef) : Bool :=
  match s.wants d e with
  | none => false
  | some (i, vs) => ((s.modMaster m fun b => { b with cores := cores }).firstFit d i vs none).isSome

/-- The priority of a pool entry. -/
def State.prioOf (s : State) : PoolRef → Nat
  | .grid u => match s.grid u with | some g => g.launch.priority | none => 0
  | .master m => match s.master m with | some b => b.priority | none => 0

/-- The first permitted variant, in descending preference, that fits with the block's own resources free while leaving room
for the entry. -/
def State.roomVariant (s : State) (m : Nat) (b : Master) (g : Grid) (e : PoolRef) (ok : Nat → Bool) : Option (Nat × List CoreHold) :=
  (byPreference b.image (g.launch.permitted b.image)).findSome? fun k =>
    if ok k then
      match s.fit b.die (b.image.variants.getD k default) (some m) with
      | some cs => if s.roomWith b.die m cs e then some (k, cs) else none
      | none => none
    else none

/-- Does the entry wait in the die's pool, and is it key-eligible? -/
def State.stillWaits (s : State) (d : Nat) (e : PoolRef) : Bool := s.waitsOn d e && s.keyEligible e

/-- R100: does a switch become pending for the block, and why? -/
def State.switchCause (s : State) (m : Nat) (b : Master) : Option SwitchWhy :=
  match s.gridOf b with
  | none => none
  | some g =>
    let pref (k : Nat) : Nat := (b.image.variants.getD k default).pref
    if (g.launch.permitted b.image).any fun k => decide (pref b.varIdx < pref k) &&
        (s.fit b.die (b.image.variants.getD k default) (some m)).isSome then some .better
    else
      ((s.die b.die).passed.find? fun p => decide (b.priority < s.prioOf p.1) && s.stillWaits b.die p.1 &&
        (s.roomVariant m b g p.1 fun k => decide (pref k < pref b.varIdx)).isSome).map fun p => .room p.1

/-- SWITCH_PENDING: the dispatcher re-examines the running blocks of a die (R100). -/
def State.reexamine (s : State) (d : Nat) : State :=
  s.masters.foldl (fun t p =>
    match t.master p.1 with
    | some b =>
      if b.die == d && b.phase == .running && !b.isTask && b.switchPend.isNone then
        match t.switchCause p.1 b with
        | some y => t.setMaster p.1 { b with switchPend := some y }
        | none => t
      else t
    | none => t) s

/-- R101: the variant and cores chosen at a switch point. -/
def State.switchChoice (s : State) (m : Nat) (b : Master) : Option (Nat × List CoreHold) :=
  match b.switchPend, s.gridOf b with
  | some y, some g =>
    let waits := match y with
      | .room e => if (s.die b.die).passed.any (fun p => p.1 == e) && s.stillWaits b.die e then some e else none
      | .better => none
    (match waits with
     | some e => s.roomVariant m b g e fun _ => true
     | none => s.firstFit b.die b.image (byPreference b.image (g.launch.permitted b.image)) (some m)).filter fun c => c.1 != b.varIdx
  | _, _ => none

/-- The last live warp has arrived at a switch point: the switch is evaluated, and made or not (R101, R175). -/
def State.checkSwitch (s : State) (m : Nat) : State :=
  match s.master m with
  | none => s
  | some b =>
    if b.phase != .running then s
    else match b.arrivedAt with
      | none => s
      | some id =>
        if id == 1024 then s
        else match s.switchChoice m b with
          | none => (s.setMaster m { b with switchPend := none }).resumeAll m
          | some (k, cs) => s.setMaster m { b with phase := .switching, switchTo := some (k, cs, id) }

/-! ## Grids complete (R430) -/

/-- Write the completion record's end and state, then the completion add and the interrupt (R80, R82). -/
def State.endGrid (s : State) (u : Nat) (state code : Nat) : State :=
  match s.grid u with
  | none => s
  | some g =>
    let t := s.recWrite g.complPacked g.complKey 40 (leBytes 8 s.stamp ++ leBytes 8 g.blocksRetired)
    let t := t.recWrite g.complPacked g.complKey 4 (leBytes 1 g.diesUsed.toNat)
    let t := t.recWrite g.complPacked g.complKey 0 (leBytes 1 state ++ leBytes 1 code)
    let t := { t with finals := t.finals.filter (· != g.complKey) ++ [g.complKey] }
    let t := t.finishCmd g.cmd
    let t := if g.launch.complInt then { t with interrupts := t.interrupts + 1 } else t
    t.meetProducers g.complKey (state != 3)

/-- No dispatcher keeps anything of an entry that is no more. -/
def State.forget (s : State) (e : PoolRef) : State :=
  { s with dies := s.dies.map fun d => { d with
      passed := d.passed.filter fun p => p.1 != e
      blocking := if d.blocking == some e then none else d.blocking } }

/-- A grid is no more: its id is free (R430, R431). -/
def State.dropGrid (s : State) (u : Nat) : State := ({ s with grids := adel s.grids u } : State).forget (.grid u)

/-- R430: the grid has retired and drain has agreed. -/
def State.completeGrid (s : State) (u : Nat) : State := (s.endGrid u 3 0).dropGrid u

/-- Begin drain, or agree at once when nothing was submitted (R433). -/
def State.startDrain (s : State) (u : Nat) : State :=
  s.modGrid u fun g => { g with drain := .first, sweep := [], sweepAt := s.cycles }

/-! ## Step boundaries (R103 to R105, R176, R434) -/

/-- Masters that are blocks of the grid. -/
def State.blocksOf (s : State) (u : Nat) : List (Nat × Master) := s.masters.filter fun p => p.2.gridUid == some u

/-- Has the grid's last live block arrived at STEP? -/
def State.stepReady (s : State) (u : Nat) (g : Grid) : Bool :=
  let bs := s.blocksOf u
  !bs.isEmpty && g.skipped.isEmpty && decide (g.launch.blocks ≤ g.nextLin) && !g.aborted &&
    bs.all fun p => p.2.atStep && !p.2.evicted

/-- Has a key-eligible entry of higher priority in the die's pool been passed over for lack of room (R104)? -/
def State.pressed (s : State) (d prio : Nat) : Bool :=
  (s.die d).passed.any fun p => decide (prio < s.prioOf p.1) && s.stillWaits d p.1

/-- Dies withdrawn at this boundary, highest first, down to the minimum (R104). -/
def State.withdrawals (s : State) (g : Grid) : BitVec 8 :=
  ((List.range 8).reverse).foldl (fun (m : BitVec 8) d =>
    let left := popc8 (g.dieSet &&& ~~~m)
    if g.dieSet.getLsbD d && decide (g.launch.minDies < left) && (g.withdraw.getLsbD d || s.pressed d g.launch.priority)
    then m ||| bit8 d else m) 0

/-- Can the die place one of the grid's blocks: an undispatched one, or any other in the variant it holds (log 79)? -/
def State.canTake (s : State) (d u : Nat) (g : Grid) : Bool :=
  s.canPlace d u g || (s.dieOpen d && s.windowFree d g.ctx && (s.blocksOf u).any fun p => (s.fit d p.2.variant none).isSome)

/-- Additions after the withdrawals (R104). -/
def State.additions (s : State) (u : Nat) : State :=
  (List.range 8).foldl (fun t d =>
    match t.grid u with
    | none => t
    | some g =>
      if decide (popc8 g.dieSet < g.launch.maxDies) && g.launch.dies.getLsbD d && !g.dieSet.getLsbD d &&
          t.canTake d u g && (t.pool d).all (fun e => decide (e.2.prio < g.launch.priority) || e.1 == .grid u) then
        (t.modGrid u fun g => { g with dieSet := g.dieSet ||| bit8 d }).copyArgs u d
      else t) s

/-- A block of a withdrawn die leaves it (R105): its registers and step-carried bytes wait for another die. -/
def State.migrate (s : State) (m : Nat) : State :=
  match s.master m with
  | none => s
  | some b =>
    let at' (w : Warp) (l : Nat) : Dword := match w.held.find? fun h => h.lanes.has l with
      | some h => h.next
      | none => 0
    let (t, c) := s.carry b b.varIdx b.image.stepCarried at'
    (t.acquireAll b.die).setMaster m { c with phase := .migrating, evicted := false, cores := [], inPool := true, poolAt := s.cycles }

/-- A block whose die has been withdrawn under it moves (R93, R105, log 82): Running or Pre-empted, it enters Migrating; once its
engines have done what was issued, it leaves the die. A block that is Frozen or Pre-empting moves when that state has ended. -/
def State.moveBlock (s : State) (m : Nat) : State :=
  match s.master m with
  | none => s
  | some b =>
    let t := if b.phase == .running || b.phase == .preempted then
      s.setMaster m { b with phase := .migrating, inPool := false, switchPend := none } else s
    match t.master m with
    | some c => if c.phase == .migrating && !c.inPool && t.quiet m c then t.migrate m else t
    | none => t

/-- The blocks of a grid on dies that have been withdrawn. -/
def State.settleMoves (s : State) (u : Nat) : State :=
  (s.blocksOf u).foldl (fun t p => if p.2.evicted then t.moveBlock p.1 else t) s

/-- Regions bound to steps cross the boundary between dies (R337): published, then freshened, on every die of the set; drain
agreement acts as ACQ.p in every warp (R434). -/
def State.stepOrder (s : State) (u : Nat) : State :=
  (s.blocksOf u).foldl (fun t p => t.acquireAll p.2.die) s

/-- STEP_RELEASE: the boundary has completed and drain agrees (R104, R105, R176, R434). -/
def State.releaseStep (s : State) (u : Nat) : State :=
  match s.grid u with
  | none => s
  | some g =>
    let out := s.withdrawals g
    let t := (s.stepOrder u).modGrid u fun g => { g with
      dieSet := g.dieSet &&& ~~~out, withdraw := 0, stepped := true, drain := .idle, sweep := []
      args := g.args.filter fun a => !out.getLsbD a.1 }
    let t := (t.blocksOf u).foldl (fun t p =>
      t.modMaster p.1 fun b => { b with evicted := b.evicted || (out.getLsbD b.die && b.phase != .migrating) }) t
    let t := (t.settleMoves u).additions u
    (t.blocksOf u).foldl (fun t p => if out.getLsbD p.2.die then t else t.resumeAll p.1) t

/-- Look whether the boundary completes now; drain begins, or agrees at once. -/
def State.checkStep (s : State) (u : Nat) : State :=
  match s.grid u with
  | none => s
  | some g =>
    if g.drain == .idle && s.stepReady u g then
      if g.submitted then s.startDrain u else s.releaseStep u
    else s

/-! ## Warps (R165, R426) -/

/-- The last lanes of a warp have exited: what that may complete (R175, R176, R324). -/
def State.warpExits (s : State) (m : Nat) : State :=
  let t := (s.judgeAuto m).checkSwitch m
  match (t.master m).bind Master.gridUid with
  | some u => t.checkStep u
  | none => t

/-- WARP_RETIRE (R165, R426): the warp's outstanding operations are over and its tokens idle; its frames join its core's
pool. A fault counted on a token, or an outlier trap, is delivered at its EXIT first. -/
def execWarpRetire (r : WRef) (s : State) : Host.Outcome State Fault Refusal :=
  match s.master r.m with
  | none => .next s
  | some b => match b.warps[r.w]? with
    | none => .next s
    | some w =>
      if w.retired || b.phase != .running || w.liveLanes != 0 || !w.outs.isEmpty then .next s
      else match w.exitAt with
        | none => .next s
        | some c =>
          match b.tokenWait r.w (List.range 8) with
          | .wait => .next s
          | .clear =>
            let k := b.spanOf r.w
            .next ((s.setMaster r.m { b with
              warps := modAt b.warps r.w fun w => { w with retired := true, allot := 0, exitAt := none }
              cores := modAt b.cores k fun h => { h with pool := h.pool + w.allot } }).warpExits r.m)
          | .fault k x i => .next (s.deliver r c c.pc c.lanes (.fault k x i))
          | .trap t v x => .next ((s.modWarp r fun w => { w with exitAt := none }).deliver r c c.pc c.lanes (.trap t v x))

/-! ## Blocks (R427) -/

/-- Account a block's end to its grid: triggered, retired, and what that completes. -/
def State.blockEnded (s : State) (u : Nat) (counted : Bool) : State :=
  let t := if counted then s.modGrid u fun g => { g with blocksRetired := g.blocksRetired + 1 } else s
  match t.grid u with
  | none => t
  | some g =>
    if counted && decide (g.launch.blocks ≤ g.blocksRetired) then
      if g.submitted then t.startDrain u else t.completeGrid u
    else t.checkStep u

/-- Remove a master and what it holds. -/
def State.dropMaster (s : State) (m : Nat) : State :=
  ({ s with masters := adel s.masters m
            dies := s.dies.map fun d => { d with pageOps := d.pageOps.filter fun p => p.2.m != m } } : State).forget (.master m)

/-- BLOCK_RETIRE (R427). -/
def execBlockRetire (m : Nat) (s : State) : Host.Outcome State Fault Refusal :=
  match s.master m with
  | none => .next s
  | some b => match b.gridUid with
    | none => .next s
    | some u =>
      if b.phase != .running || b.warps.isEmpty || !b.warps.all Warp.retired || !s.engineQuiet m b then .next s
      else
        let t := (s.fenceAt b.die .y).releaseKeys m b.keys false
        let t := (t.blockTriggers m).dropMaster m
        .next (((t.blockEnded u true).joinAll).reexamine b.die)

/-! ## Tasks (R54, R409, R428) -/

/-- Send the remaining signals of a retiring task, in list order; each is one signal-table operation. -/
def signalGo : Nat → Nat → State → State
  | 0, _, s => s
  | n + 1, m, s =>
    match s.master m with
    | none => s
    | some b =>
      if b.phase == .frozen || b.sigWait != .ready || b.succCount ≤ b.signalled then s
      else
        let va := b.succList.toNat + 8 * b.signalled
        let (t, r) := s.vaRead b.die b.queue b.ctx va 8
        match r with
        | .missing v lv =>
          let (u, st) := t.joinMiss b.die b.ctx.asid v lv false
          u.modMaster m fun b => { b with sigWait := st }
        | .bad c v => t.freeze m { FreezeAt.blank c with address := BitVec.ofNat 64 v }
        | .ok bs =>
          let a := leNat bs
          let next (u : State) : State := signalGo n m (u.modMaster m fun b => { b with signalled := b.signalled + 1 })
          if b.cancelled then next (t.sendOrHold a true)
          else match t.sendSignal (sigAddr a) false with
            | some u => next u
            | none => t.freeze m (FreezeAt.blank 0x24)

/-- R434: progress for the blocks of a grid in which every warp waits at STEP. -/
def State.stepProgress (s : State) (u : Nat) : State :=
  (s.blocksOf u).foldl (fun t p => if p.2.atStep then t.modMaster p.1 fun b => { b with timer := s.cycles } else t) s

/-- Steps 3 to 6 of a task's retirement (R428): the signals, then the completion add and the count. -/
def State.retireTask (s : State) (m : Nat) : State :=
  match s.master m with
  | none => s
  | some b =>
    let t := signalGo (b.succCount + 1) m s
    match t.master m with
    | none => t
    | some b' =>
      if b'.phase == .frozen || b'.sigWait != .ready || b'.signalled < b'.succCount then t
      else
        let t := match b'.cmd with
          | some c => t.finishCmd c
          | none => t
        let t := match b'.counted with
          | some u => (t.modGrid u fun g => { g with received := modAt g.received b'.die (· + 1) }).stepProgress u
          | none => t
        ((t.dropMaster m).joinAll).reexamine b.die

/-- Does a task retire: its warp has, or it is doing so already? -/
def State.taskEnds (s : State) (m : Nat) (b : Master) : Bool :=
  b.isTask && b.phase != .frozen &&
    (b.retiring || (b.phase == .running && !b.warps.isEmpty && b.warps.all Warp.retired && s.engineQuiet m b))

/-- Steps 1 and 2 of a task's retirement, once: publication and key release. -/
def State.beginRetire (s : State) (m : Nat) (b : Master) : State :=
  if b.retiring then s
  else ((s.fenceAt b.die .y).releaseKeys m b.keys false).modMaster m fun b => { b with retiring := true, binds := [] }

/-- TASK_RETIRE (R428): publication and key release once, then the rest. -/
def execTaskRetire (m : Nat) (s : State) : Host.Outcome State Fault Refusal :=
  match s.master m with
  | none => .next s
  | some b => .next (if s.taskEnds m b then (s.beginRetire m b).retireTask m else s)

/-! ## Drain (R433) -/

/-- Readings of the sweeps in progress that fall due by now: die d is read 50 ns after die d − 1. -/
def State.takeReadings (s : State) : State :=
  { s with grids := s.grids.map fun p =>
      if p.2.drain == .idle then p
      else (p.1, (List.range 8).foldl (fun g d =>
        if g.sweep.length == d && decide (g.sweepAt + 80 * d ≤ s.cycles) then
          { g with sweep := g.sweep ++ [(g.sent.getD d 0, g.received.getD d 0)] }
        else g) p.2) }

/-- Drain has agreed: the id of an aborted grid is freed, a step is released, or the grid completes. -/
def State.drainAgrees (s : State) (u : Nat) : State :=
  match s.grid u with
  | none => s
  | some g =>
    if g.aborted then s.dropGrid u
    else if g.launch.blocks ≤ g.blocksRetired then s.completeGrid u
    else s.releaseStep u

/-- DRAIN_SWEEP_END (R433). -/
def execDrainSweepEnd (u : Nat) (s : State) : Host.Outcome State Fault Refusal :=
  match s.grid u with
  | none => .next s
  | some g =>
    if g.drain == .idle || g.sweep.length < 8 then .next s
    else
      let a := sumBy Prod.fst g.sweep
      let v := sumBy Prod.snd g.sweep
      let again (d : Drain) : State := s.modGrid u fun g => { g with drain := d, sweep := [], sweepAt := max (g.sweepAt + 640) s.cycles }
      .next (match g.drain with
        | .idle => s
        | .first => if a == v then again (.second a v) else again .first
        | .second x y =>
          if a == x && v == y then s.drainAgrees u else if a == v then again (.second a v) else again .first)

end Sys2Proof.Machine
end

