-- ==== Sys2Proof/Machine/Alu.lean ====
section
/-! DEFINITION. The results of the integer instructions (R182 to R192), lane by lane and independent of the machine. A
64-bit value stands for an operand: a register pair, or one register in the low word. -/

namespace Sys2Proof

/-- R182: the value of an operand's low w bits under the type. -/
def IntTy.val (t : IntTy) (x : Dword) : Int :=
  let u := x.toNat % 2 ^ t.bits
  if t.signed && decide (2 ^ (t.bits - 1) ≤ u) then (u : Int) - (2 ^ t.bits : Nat) else u

/-- The low w bits of an operand, unsigned. -/
def IntTy.raw (t : IntTy) (x : Dword) : Nat := x.toNat % 2 ^ t.bits

/-- R182: the result's low w bits, extended to 32 bits for widths up to 32 (signed types by sign). -/
def IntTy.res (t : IntTy) (r : Int) : Dword :=
  let u := (r % (2 ^ t.bits : Nat)).toNat
  if t.bits == 64 then BitVec.ofNat 64 u
  else
    let v : Int := if t.signed && decide (2 ^ (t.bits - 1) ≤ u) then (u : Int) - (2 ^ t.bits : Nat) else u
    (BitVec.ofInt 32 v).setWidth 64

/-- R184: saturation to the type's range. -/
def IntTy.sat (t : IntTy) (r : Int) : Int :=
  let lo : Int := if t.signed then -(2 ^ (t.bits - 1) : Nat) else 0
  let hi : Int := if t.signed then (2 ^ (t.bits - 1) : Nat) - 1 else (2 ^ t.bits : Nat) - 1
  max lo (min hi r)

def aluAdd (t : IntTy) (a b : Dword) : Dword := t.res (t.val a + t.val b)
def aluSub (t : IntTy) (a b : Dword) : Dword := t.res (t.val a - t.val b)
def aluAddSat (t : IntTy) (a b : Dword) : Dword := t.res (t.sat (t.val a + t.val b))
def aluSubSat (t : IntTy) (a b : Dword) : Dword := t.res (t.sat (t.val a - t.val b))
def aluMul (t : IntTy) (a b : Dword) : Dword := t.res (t.val a * t.val b)
/-- Bits 2w-1:w of the exact product (R184). -/
def aluMulh (t : IntTy) (a b : Dword) : Dword := t.res (Int.fdiv (t.val a * t.val b) (2 ^ t.bits : Nat))
def aluMin (t : IntTy) (a b : Dword) : Dword := t.res (min (t.val a) (t.val b))
def aluMax (t : IntTy) (a b : Dword) : Dword := t.res (max (t.val a) (t.val b))
def aluAnd (t : IntTy) (a b : Dword) : Dword := t.res ((a &&& b).toNat)
def aluOr (t : IntTy) (a b : Dword) : Dword := t.res ((a ||| b).toNat)
def aluXor (t : IntTy) (a b : Dword) : Dword := t.res ((a ^^^ b).toNat)
def aluAndn (t : IntTy) (a b : Dword) : Dword := t.res ((a &&& ~~~b).toNat)
def aluNot (t : IntTy) (a : Dword) : Dword := t.res ((~~~a).toNat)
def aluAbs (t : IntTy) (a : Dword) : Dword := t.res (t.val a).natAbs
def aluNeg (t : IntTy) (a : Dword) : Dword := t.res (-(t.val a))
/-- The number of set bits among the low `n` bits. -/
def popcount : Nat → Nat → Nat
  | 0, _ => 0
  | n + 1, x => x % 2 + popcount n (x / 2)
def aluPopc (t : IntTy) (a : Dword) : Dword := BitVec.ofNat 64 (popcount t.bits a.toNat)
/-- Zero bits above the highest set bit within w bits, w when all are zero. -/
def aluClz (t : IntTy) (a : Dword) : Dword :=
  BitVec.ofNat 64 (if t.raw a == 0 then t.bits else t.bits - 1 - (t.raw a).log2)
def bitRev : Nat → Nat → Nat → Nat
  | 0, _, acc => acc
  | n + 1, x, acc => bitRev n (x / 2) (2 * acc + x % 2)
def aluBrev (t : IntTy) (a : Dword) : Dword := t.res (bitRev t.bits (t.raw a) 0)
def aluMov (t : IntTy) (b : Dword) : Dword := t.res (t.raw b)

/-- R187: shifts by n = b<7:0>. -/
def aluShl (t : IntTy) (a b : Dword) : Dword :=
  let n := b.toNat % 256
  if n ≥ t.bits then 0 else t.res (t.raw a * 2 ^ n : Nat)
def aluShr (t : IntTy) (a b : Dword) : Dword :=
  let n := b.toNat % 256
  if n ≥ t.bits then 0 else t.res (t.raw a / 2 ^ n : Nat)
/-- SAR fills with bit w-1 whatever the type (R187). -/
def aluSar (t : IntTy) (a b : Dword) : Dword :=
  let n := b.toNat % 256
  let u := t.raw a
  let s : Int := if 2 ^ (t.bits - 1) ≤ u then (u : Int) - (2 ^ t.bits : Nat) else u
  t.res (Int.fdiv s (2 ^ min n t.bits : Nat))
def aluRot (t : IntTy) (a b : Dword) : Dword :=
  let n := b.toNat % 256 % t.bits
  t.res (t.raw a * 2 ^ n + t.raw a / 2 ^ (t.bits - n) : Nat)

/-- R188: the field of a at position b<7:0>, width b<15:8>. -/
def aluBfx (t : IntTy) (a b : Dword) : Dword :=
  let p := b.toNat % 256
  let q := b.toNat / 256 % 256
  let len := min (p + q) t.bits - p
  if len == 0 then 0
  else
    let f := t.raw a / 2 ^ p % 2 ^ len
    t.res (if t.signed && decide (2 ^ (len - 1) ≤ f) then (f : Int) - (2 ^ len : Nat) else f)

/-- R186: sum and carry word. -/
def aluAddc (a b cw : Word) : Word × Word :=
  let x := a.toNat + b.toNat + cw.toNat % 2
  (BitVec.ofNat 32 x, if 2 ^ 32 ≤ x then 1 else 0)
def aluSubb (a b cw : Word) : Word × Word :=
  let x : Int := a.toNat - b.toNat - (cw.toNat % 2 : Nat)
  (BitVec.ofInt 32 x, if x < 0 then 1 else 0)

/-- R189. -/
def aluBfi (a b c : Word) : Word :=
  let p := c.toNat % 256
  let q := min (c.toNat / 256 % 256) 32
  if p ≥ 32 || q == 0 then a
  else
    let len := min (p + q) 32 - p
    let m : Word := BitVec.ofNat 32 ((2 ^ len - 1) * 2 ^ p)
    (a &&& ~~~m) ||| (BitVec.ofNat 32 (b.toNat * 2 ^ p) &&& m)
def permByte (a b : Word) (sel : Nat) : Nat :=
  let j := sel % 8
  let x := (if j < 4 then a.toNat / 2 ^ (8 * j) else b.toNat / 2 ^ (8 * (j - 4))) % 256
  if sel / 8 % 2 == 0 then x else if x ≥ 128 then 255 else 0
def aluPerm (a b c : Word) : Word :=
  BitVec.ofNat 32 ((List.range 4).foldl (fun acc k => acc + permByte a b (c.toNat / 2 ^ (4 * k) % 16) * 2 ^ (8 * k)) 0)
def aluLea (a b : Word) (n : Nat) : Word := a + b <<< n

/-- The integer type of an IMAD or ISET type. -/
def WideTy.ty : WideTy → IntTy
  | .n32 => .n32 | .i32 => .i32 | .n64 => .n64 | .i64 => .i64
/-- R185. -/
def aluMad (t : WideTy) (a b c : Dword) : Dword := t.ty.res (t.ty.val a * t.ty.val b + t.ty.val c)
/-- R190. -/
def ICond.holds (c : ICond) (a b : Int) : Bool :=
  match c with
  | .eq => decide (a = b) | .ne => decide (a ≠ b) | .lt => decide (a < b)
  | .le => decide (a ≤ b) | .gt => decide (b < a) | .ge => decide (b ≤ a)

/-! ## Floating-point results on bits (R198 to R203, R206, R207) -/

/-- The source bits of a scalar type as an exact value, flushed under .ftz (R193, R195). -/
def FltTy.src (t : FltTy) (ftz : Bool) (x : Word) : FVal := t.fmt.ftzSource ftz (t.fmt.decode x)

inductive ArithOp where
  | add | sub | mul | div
  deriving DecidableEq, Repr

def arithVal (o : ArithOp) (rd : Rnd) (a b : FVal) : FVal × Exc :=
  match o with
  | .add => a.add rd b
  | .sub => match nanResult [a, b] with
    | some r => r
    | none => a.add rd b.negate
  | .mul => a.mul b
  | .div => a.div b

/-- FADD, FSUB, FMUL and FDIVS (R198). -/
def fpArith (o : ArithOp) (f : Fmt) (rd : Rnd) (ftz : Bool) (a b : Word) : Word × Exc :=
  let (v, e1) := arithVal o rd (f.ftzSource ftz (f.decode a)) (f.ftzSource ftz (f.decode b))
  let (r, e2) := f.encode v rd false ftz
  (r, e1 ||| e2)

/-- FFMA and each half of HFMA2 (R199, R207). -/
def fpFma (f : Fmt) (rd : Rnd) (a b c : Word) : Word × Exc :=
  let (v, e1) := (f.decode a).fma rd (f.decode b) (f.decode c)
  let (r, e2) := f.encode v rd false false
  (r, e1 ||| e2)

/-- FMIN and FMAX: minimumNumber and maximumNumber (R200). -/
def fpMinMax (isMax : Bool) (t : FltTy) (ftz : Bool) (a b : Word) : Word × Exc :=
  let x := t.src ftz a
  let y := t.src ftz b
  let e := excIf (x.isSNaN || y.isSNaN) excInvalid
  let pick : FVal :=
    if x.isNaN then (if y.isNaN then x.quiet else y)
    else if y.isNaN then x
    else
      -- -0 orders below +0
      let less := x.lt y || (x.eqv y && x.sign && !y.sign)
      if less != isMax then x else y
  ((t.fmt.encode pick .rn false false).1, e)

/-- FSET (R201). -/
def fpSet (c : FCond) (t : FltTy) (a b : Word) : Bool × Exc :=
  let x := t.fmt.decode a
  let y := t.fmt.decode b
  (c.holds x y, excIf (x.isSNaN || y.isSNaN) excInvalid)

/-- FRND (R202). -/
def fpRound (t : FltTy) (rd : Rnd) (ftz : Bool) (a : Word) : Word × Exc :=
  match t.src ftz a with
  | .fin n m e =>
    let (k, _) := roundQ rd n m e 0
    ((t.fmt.encode (if e ≥ 0 then .fin n m e else .fin n k 0) .rn false false).1, 0)
  | x => ((t.fmt.encode x.quiet .rn false false).1, excIf x.isSNaN excInvalid)

/-- FCLASS (R203). -/
def fpClass (t : FltTy) (ftz : Bool) (a : Word) : Word :=
  let raw := t.fmt.decode a
  let x := t.src ftz a
  let sub := match t.fmt.shape with
    | some s => s.subnormal x
    | none => false
  let bit : Nat := match x with
    | .nan _ s _ => if s then 0 else 1
    | .inf n => if n then 2 else 9
    | .fin n m _ =>
      if m == 0 then (if raw.sign then 5 else 6)
      else if sub then (if n then 4 else 7)
      else (if n then 3 else 8)
  BitVec.ofNat 32 (2 ^ bit)

/-- A half of a register (R206). -/
def half (h : Bool) (w : Word) : Word := if h then w >>> 16 else w &&& 0xFFFF
def joinHalves (lo hi : Word) : Word := (hi <<< 16) ||| (lo &&& 0xFFFF)

/-- HADD2 and HMUL2 (R206). -/
def fpPair (o : ArithOp) (t : PairTy) (rd : Rnd) (a b : Word) : Word × Exc :=
  let lo := fpArith o t.fmt rd false (half false a) (half false b)
  let hi := fpArith o t.fmt rd false (half true a) (half true b)
  (joinHalves lo.1 hi.1, lo.2 ||| hi.2)

/-- HFMA2 (R207). -/
def fpPairFma (t : PairTy) (a b c : Word) : Word × Exc :=
  let lo := fpFma t.fmt .rn (half false a) (half false b) (half false c)
  let hi := fpFma t.fmt .rn (half true a) (half true b) (half true c)
  (joinHalves lo.1 hi.1, lo.2 ||| hi.2)

/-! ## Conversions (R233 to R237) -/

/-- CVT (R233). -/
def cvtLane (w : ConvWord) (a : Word) : Word × Exc :=
  let x := w.src.ftzSource w.ftz (w.src.decode a)
  w.dst.encode x w.rnd w.sat w.ftz

/-- CVT.MX (R234): `b` holds the E8M0 scale. -/
def cvtMxLane (w : ConvWord) (a b : Word) : Word × Exc :=
  let g := b.toNat % 256
  if w.src.isElem then
    if g == 255 then ((w.dst.encode .canonical .rn false false).1, 0)
    else w.dst.encode ((w.src.decode a).scale ((g : Int) - 127)) w.rnd false w.ftz
  else
    let x := w.src.ftzSource w.ftz (w.src.decode a)
    if g == 255 then w.dst.encode .canonical w.rnd w.sat false
    else w.dst.encode (x.scale (127 - (g : Int))) w.rnd w.sat false

/-- emax of R235. -/
def Fmt.emax : Fmt → Int
  | .e4m3 => 8 | .e5m2 => 15 | .e3m2 => 4 | _ => 2

/-- R235: the scale of the values of a group. -/
def mxScale (xs : List FVal) (f : Fmt) : Nat :=
  if xs.any fun x => x.isNaN || x.isInf then 255
  else if xs.all FVal.isZero then 0
  else
    let top := xs.foldl (fun a x => match x with
      | .fin _ 0 _ => a
      | .fin _ m e => max a (floorLog2 m e)
      | _ => a) (-100000)
    (min 254 (max 0 (top - f.emax + 127))).toNat

end Sys2Proof
end

