-- ==== Sys2Proof/Machine/Operands.lean ====
section
/-! DEFINITION. The operand forms of the computing instructions (R119, R126, R182, R193): reading one or two registers of
either file or a literal, and writing a destination of either file. -/

namespace Sys2Proof

/-- Are d and a uniform (R126)? -/
def IntB.uniform : IntB → Bool
  | .thread _ | .uni _ => false
  | .allUni _ | .lit _ => true

/-- Words of an instruction with this b operand (R120). -/
def IntB.len : IntB → Nat | .lit _ => 2 | _ => 1
def FltB.len : FltB → Nat | .lit _ => 2 | _ => 1

end Sys2Proof

namespace Sys2Proof.Machine

/-- `n` per-thread registers (1 or 2) of lane l as a 64-bit value. -/
def Ctx.vn (c : Ctx) (n : Nat) (r : Reg5) (l : Nat) : Dword :=
  if n == 2 then c.w.v2 c.c.base r.toNat l else (c.w.v c.c.base r.toNat l).setWidth 64

/-- `n` uniform registers of a 5-bit field as a 64-bit value. -/
def Ctx.sn (c : Ctx) (n : Nat) (r : Reg5) : Dword :=
  if n == 2 then c.w.s52 r else (c.w.s5 r).setWidth 64

/-- v(r) of lane l. -/
def Ctx.v1 (c : Ctx) (r : Reg5) (l : Nat) : Word := c.w.v c.c.base r.toNat l

/-- Write `n` per-thread registers in the lanes of `m`. -/
def Ctx.putVn (c : Ctx) (n : Nat) (r : Reg5) (m : Mask) (f : Nat → Dword) : Warp :=
  if n == 2 then c.w.setV2 c.c.base r.toNat m f
  else c.w.setV c.c.base r.toNat m fun l => (f l).setWidth 32

/-- Write one per-thread register in the lanes of `m`. -/
def Ctx.putV (c : Ctx) (r : Reg5) (m : Mask) (f : Nat → Word) : Warp := c.w.setV c.c.base r.toNat m f

/-- Write `n` uniform registers. -/
def Ctx.putSn (c : Ctx) (n : Nat) (r : Reg5) (x : Dword) : Warp :=
  if n == 2 then c.w.setS2 (u5 r) x else c.w.setS5 r (x.setWidth 32)

/-- The b operand of an integer instruction in lane l (R126, R182): a literal of a 64-bit operand is extended by the
type. -/
def Ctx.intB (c : Ctx) (b : IntB) (n : Nat) (t : IntTy) (l : Nat) : Dword :=
  match b with
  | .thread r => c.vn n r l
  | .uni r => c.sn n r
  | .allUni r => c.sn n r
  | .lit w => if n == 2 && t.signed then w.signExtend 64 else w.setWidth 64

/-- The b operand of a float instruction in lane l (R193). -/
def Ctx.fltB (c : Ctx) (b : FltB) (l : Nat) : Word :=
  match b with
  | .thread r => c.v1 r l
  | .uni r => c.w.s5 r
  | .lit w => w

/-- A two-operand integer instruction: `nd`, `na`, `nb` registers of d, a, b; each executing lane, or the warp once,
gets `f` of its operands. -/
def intBin (s : State) (p : Pred) (d a : Reg5) (b : IntB) (t : IntTy) (nd na nb : Nat) (f : Dword → Dword → Dword) :
    Host.Outcome State Fault Refusal :=
  withCtx s fun c =>
    done s c b.len
      (if b.uniform then c.putSn nd d (f (c.sn na a) (c.intB b nb t 0))
       else c.putVn nd d (c.active p) fun l => f (c.vn na a l) (c.intB b nb t l))

/-- A unary integer instruction (R183). -/
def intUn (s : State) (p : Pred) (d a : Reg5) (u : UnFile) (nd na : Nat) (f : Dword → Dword) :
    Host.Outcome State Fault Refusal :=
  withCtx s fun c =>
    done s c 1
      (match u with
       | .uni => c.putSn nd d (f (c.sn na a))
       | .thread => c.putVn nd d (c.active p) fun l => f (c.vn na a l))

/-- An immediate instruction of major 0x0B: .n32 semantics with B := imm8 (R192). -/
def immBin (s : State) (p : Pred) (d a : Reg5) (i : BitVec 8) (f : Dword → Dword → Dword) :
    Host.Outcome State Fault Refusal :=
  withCtx s fun c => done s c 1 (c.putVn 1 d (c.active p) fun l => f (c.vn 1 a l) (i.setWidth 64))

/-- A four-operand or three-operand C-format instruction on single per-thread registers. -/
def laneOp (s : State) (p : Pred) (d : Reg5) (f : Ctx → Nat → Word) : Host.Outcome State Fault Refusal :=
  withCtx s fun c => done s c 1 (c.putV d (c.active p) (f c))

/-! ## Floating-point exceptions (R155, R196) -/

/-- The union of the classes raised in the lanes of `m`. -/
def unionExc (m : Mask) (f : Nat → Exc) : Exc := m.lanes.foldl (fun e l => e ||| f l) 0

/-- The lowest set bit of a set of classes. -/
def lowestClass (e : Exc) : Nat := ((List.range 5).filter e.getLsbD).headD 0

/-- R196: the destinations are written already; set the sticky flags, move on, and take one trap after completion when
an enabled class was raised. `exc l` are the classes lane l raised, `n` the instruction's words. -/
def fpDone (s : State) (c : Ctx) (n : Nat) (m : Mask) (w : Warp) (exc : Nat → Exc) : State :=
  let u := unionExc m exc
  let w := { w with fflags := w.fflags ||| u }
  let en := u &&& w.fctl
  if en == 0 then done s c n w
  else
    let t := (s.modWarp c.ref fun _ => w).retireInstr c
    t.takeTrap c.ref c.c (3 + lowestClass en) (m &&& Mask.ofFn fun l => exc l &&& w.fctl != 0) c.c.pc
      (BitVec.ofNat 32 (u.toNat + 256 * c.c.next))

/-- A floating-point instruction that writes one per-thread register per lane. -/
def fpLane (s : State) (p : Pred) (d : Reg5) (n : Nat) (f : Ctx → Nat → Word × Exc) :
    Host.Outcome State Fault Refusal :=
  withCtx s fun c =>
    let m := c.active p
    fpDone s c n m (c.putV d m fun l => (f c l).1) fun l => (f c l).2

end Sys2Proof.Machine
end

