-- ==== Sys2Proof/Machine/Access.lean ====
section
/-! DEFINITION. Accesses of the SIMT side: effective addresses (R122, R261), the checks of R249, performing a lane, and
the order in which a warp's lanes perform (R250 to R253, R258, R329, R332). -/

namespace Sys2Proof.Machine

/-! ## Effective addresses -/

/-- R261. -/
def swizzle (m : Nat) (ea : Nat) : Nat :=
  if m == 0 then ea else ea - ea / 16 % 16 * 16 + 16 * ((ea / 16 % 16) ^^^ (ea / 2 ^ (7 + m) % 16))

/-- R122: base + index + offset, in 64 bits for g: and 32 for the other spaces. -/
def Ctx.effAddr (c : Ctx) (space : Space) (base : Option Reg6) (a : Reg5) (off : Dword) (l : Nat) : Dword :=
  match space with
  | .g => match base with
    | some r => c.w.s2 r.toNat + (c.v1 a l).setWidth 64 + off
    | none => c.w.v2 c.c.base a.toNat l + off
  | _ =>
    let b : Word := match base with
      | some r => c.w.s r.toNat
      | none => 0
    (b + c.v1 a l + off.setWidth 32).setWidth 64

/-! ## Checks 1 to 6 of R249 -/

/-- Where a checked access leads. -/
inductive Loc where
  | mem (p : Place)
  | x (off : Nat)
  | c (off : Nat)
  deriving DecidableEq, Repr

/-- The result of the checks; `order` is the check's place in R249. -/
inductive Chk where
  | ok (l : Loc)
  | miss (va level : Nat)
  | bad (order cause : Nat)
  deriving DecidableEq, Repr

def Space.index : Space → Nat | .g => 0 | .x => 1 | .w => 2 | .c => 3 | .k => 4

/-- The segment register of a space. A window of w: ends with the die's weight store (R15, R243, log 92). -/
def Master.seg (b : Master) (sp : Space) : Seg :=
  let g := b.segs.getD (Space.index sp) default
  match sp with
  | .w => { g with limit := min g.limit (2 ^ 31 - g.base) }
  | .g | .x | .c | .k => g

/-- The checks of a translated access at a virtual address. -/
def State.checkVa (s : State) (b : Master) (va : Nat) (acc : Access) : State × Chk :=
  match s.translate b.die b.queue b.ctx va acc with
  | (t, .ok p) => (t, .ok (.mem p))
  | (t, .missing l) => (t, .miss va l)
  | (t, .malformed) => (t, .bad 4 0x12)
  | (t, .permission) => (t, .bad 5 0x13)
  | (t, .keyed) => (t, .bad 6 0x14)

/-- Checks 1 to 6 for an access of z bytes. -/
def State.check (s : State) (b : Master) (sp : Space) (ea z : Nat) (acc : Access) : State × Chk :=
  let g := b.seg sp
  if ea % z != 0 then (s, .bad 1 0x10)
  else match sp with
    | .g =>
      if g.base ≤ ea ∧ ea + z ≤ g.base + g.limit ∧ ea < 2 ^ 57 then s.checkVa b ea acc else (s, .bad 2 0x11)
    | .k => if ea + z ≤ g.limit then s.checkVa b (g.base + ea) acc else (s, .bad 2 0x11)
    | .x => if ea + z ≤ g.limit then (s, .ok (.x ea)) else (s, .bad 2 0x11)
    | .c => if ea + z ≤ g.limit then (s, .ok (.c ea)) else (s, .bad 2 0x11)
    | .w => if ea + z ≤ g.limit then (s, .ok (.mem ⟨wsKey b.die (g.base + ea), 0, false⟩)) else (s, .bad 2 0x11)

/-! ## Reading and writing a location -/

/-- The argument block's copy on the die (R42): zero beyond its size, and everywhere in a task. -/
def State.argBytes (s : State) (b : Master) (off n : Nat) : List Byte :=
  match s.gridOf b with
  | some g =>
    let bs := (aget g.args b.die).getD []
    (List.range n).map fun i => bs.getD (off + i) 0
  | none => List.replicate n 0

/-- Read z bytes; none is poison. -/
def State.locRead (s : State) (b : Master) (l : Loc) (z : Nat) (fresh : Bool) : State × Option (List Byte) :=
  match l with
  | .mem p => s.dieRead b.die p.key z fresh p.packed
  | .x o => (s, b.xRead o z)
  | .c o => (s, some (s.argBytes b o z))

def State.locWrite (s : State) (m : Nat) (b : Master) (l : Loc) (bs : List Byte) (fresh : Bool) : State :=
  match l with
  | .mem p => s.dieWrite b.die p.key bs fresh p.packed
  | .x o => s.xWrite m o bs
  | .c _ => s

/-- Does the location belong to another package (R246)? -/
def Loc.remote : Loc → Bool
  | .mem p => p.kind == 2
  | .x _ | .c _ => false

/-- The virtual address of a sync word. -/
def Master.syncVa (b : Master) (sp : Space) (ea : Nat) : Option Nat :=
  match sp with
  | .g => some ea
  | .k => some ((b.seg .k).base + ea)
  | .x | .w | .c => none

/-! ## Atomics (R273) -/

/-- The new value of a location; none writes nothing. -/
def atomNew (o : AtomOp) (old v new : Dword) : Option Dword :=
  let w (x : Dword) : Word := x.setWidth 32
  let u (x : Word) : Dword := x.setWidth 64
  match o with
  | .add32 => some (u (w old + w v))
  | .add64 => some (old + v)
  | .fadd => some (u (fpArith .add .f32 .rn false (w old) (w v)).1)
  | .minI32 => some (u (if (w v).toInt < (w old).toInt then w v else w old))
  | .minN32 => some (u (if (w v).toNat < (w old).toNat then w v else w old))
  | .maxI32 => some (u (if (w old).toInt < (w v).toInt then w v else w old))
  | .maxN32 => some (u (if (w old).toNat < (w v).toNat then w v else w old))
  | .minI64 => some (if v.toInt < old.toInt then v else old)
  | .minN64 => some (if v.toNat < old.toNat then v else old)
  | .maxI64 => some (if old.toInt < v.toInt then v else old)
  | .maxN64 => some (if old.toNat < v.toNat then v else old)
  | .and32 => some (u (w old &&& w v))
  | .or32 => some (u (w old ||| w v))
  | .xor32 => some (u (w old ^^^ w v))
  | .and64 => some (old &&& v)
  | .or64 => some (old ||| v)
  | .xor64 => some (old ^^^ v)
  | .exch32 | .exch64 => some v
  | .cas32 => if w old == w v then some new else none
  | .cas64 => if old == v then some new else none

/-! ## Performing one lane -/

/-- What an access needs of the page (R249). -/
def MemKind.access : MemKind → Access
  | .ld | .lda | .ldw | .fill => .read
  | .st | .spill => .write
  | .atom _ | .red _ => .rmw
  | .xlat wr => if wr then .write else .read

def MemOp.acquires (o : MemOp) : Bool := o.ord == .acq || o.ord == .acqrel
def MemOp.releases (o : MemOp) : Bool := o.ord == .rel || o.ord == .acqrel

/-- Accesses at package scope or wider, and atomics, go to the home (R259, R331). -/
def MemOp.fresh (o : MemOp) : Bool :=
  (match o.kind with | .atom _ | .red _ => true | _ => false) || (o.ord != .plain && Scope.wide o.scope)

def State.freeBytes (s : State) (n : Nat) : State × List Byte :=
  let (t, k) := s.fresh
  (t, (List.range n).map fun i => (Config.freeWord k i).setWidth 8)

/-- Does a weight-store read of this location wait for a refresh window (R263)? -/
def State.refreshing (s : State) (key : Nat) : Bool :=
  let us := s.cycles / 1600 % 64
  us % 4 == 0 && us / 4 == (key - 2 ^ 62) % 2 ^ 31 / 128 % 16

/-- The home slice of a line of kind 0 (R257). -/
def sliceOf (line : Nat) : Nat := line % 32 ^^^ line / 32 % 32 ^^^ line / 1024 % 32

/-- An atomic from `core` on a line at its home moves the line's contention counter (R259); in a full slice it replaces some
entry (log 60). -/
def State.contend (s : State) (loc : Loc) (core : Nat) : State :=
  match loc with
  | .mem p =>
    if hbmBytes ≤ p.key then s
    else
      let d := p.key / 2 ^ 36
      let line := p.key / 128
      let l := (s.die d).contend
      match aget l line with
      | some (n, c) => s.modDie d fun x => { x with contend := aset l line (if c == core then n - 1 else min 3 (n + 1), core) }
      | none =>
        let same := l.filter fun e => sliceOf e.1 == sliceOf line
        let (t, l) := if same.length < 4096 then (s, l)
          else (let (t, k) := s.fresh
                (t, adel l (same.getD ((Config.freeWord k 0).toNat % 4096) default).1))
        t.modDie d fun x => { x with contend := aset l line (0, core) }
  | .x _ | .c _ => s

/-- The effect of a lane at its location: bytes read, and whether they were poisoned. -/
def State.laneEffect (s : State) (r : WRef) (b : Master) (o : MemOp) (l : LaneAcc) (loc : Loc) :
    State × List Byte × Bool :=
  let rel (s : State) : State := if o.releases then
    match b.syncVa o.space l.ea.toNat with
    | some va => s.releaseAt b o.scope va o.bytes
    | none => s
    else s
  let acq (s : State) : State := if o.acquires then
    match b.syncVa o.space l.ea.toNat with
    | some va => s.acquireAt b o.scope va o.bytes
    | none => s
    else s
  let read (s : State) : State × List Byte × Bool :=
    match s.locRead b loc o.bytes o.fresh with
    | (t, some v) => (acq t, v, false)
    | (t, none) => let (u, v) := (acq t).freeBytes o.bytes; (u, v, true)
  match o.kind with
  | .ld | .ldw | .fill => read s
  | .st | .spill => ((rel s).locWrite r.m b loc l.data o.fresh, [], false)
  | .lda =>
    let (t, v, p) := read s
    (t.xWrite r.m l.dst.toNat v, [], p)
  | .atom op | .red op =>
    match ((rel s).contend loc (24 * b.die + (b.coreHold r.w).core)).locRead b loc o.bytes true with
    | (t, none) => let (u, v) := (acq t).freeBytes o.bytes; (u, v, true)
    | (t, some v) =>
      let t := match atomNew op (le64 v) (le64 l.data) (le64 l.cmp) with
        | some x => t.locWrite r.m b loc (leBytes o.bytes x.toNat) true
        | none => t
      (acq t, v, false)
  | .xlat _ => (s, [], false)

/-- Has the lane's request gone to another package? -/
def LaneSt.sent : LaneSt → Bool
  | .remote | .half _ => true
  | _ => false

/-- A violation met by a lane. -/
structure LaneBad where
  order : Nat
  cause : Nat
  lane : Nat
  addr : Dword
  deriving DecidableEq, Repr

/-- The location of the upper or lower half of a 128-bit access. -/
def Loc.shift (l : Loc) (n : Nat) : Loc :=
  match l with
  | .mem p => .mem { p with key := p.key + n }
  | .x o => .x (o + n)
  | .c o => .c (o + n)

/-- Does the access perform as two 64-bit halves (R258)? -/
def MemOp.halves (o : MemOp) : Loc → Bool
  | .mem p => o.bytes == 16 && p.kind != 0
  | .x _ | .c _ => false

/-- The half that has performed of an access that performs as two. -/
def LaneSt.performed : LaneSt → Option Bool
  | .half hi => some !hi
  | _ => none

/-- One 64-bit half of a lane's access; an LDA gathers its halves, and its destination unit is written whole (R258, R269). -/
def State.halfEffect (s : State) (r : WRef) (b : Master) (o : MemOp) (l : LaneAcc) (loc : Loc) (hi : Bool) :
    State × List Byte × Bool :=
  let n := if hi then 8 else 0
  let kind : MemKind := match o.kind with
    | .lda => .ld
    | k => k
  let (t, v, p) := s.laneEffect r b { o with kind := kind, bytes := 8 } { l with
    ea := l.ea + BitVec.ofNat 64 n, dst := l.dst + BitVec.ofNat 64 n, data := (l.data.drop n).take 8 } (loc.shift n)
  (t, if v.isEmpty then l.val else if hi then (l.val ++ List.replicate 8 0).take 8 ++ v else v ++ l.val.drop 8, p)

/-- Walk and perform one lane (R249 to R252); a 128-bit access to kinds 1 and 2 performs one half at a time, in an order that
lanes of the operation at one address share, so that the highest-numbered one's bytes remain (R258, R268). -/
def State.performLane (s : State) (r : WRef) (b : Master) (o : MemOp) (l : LaneAcc) : State × LaneAcc × Option LaneBad :=
  match s.check b o.space l.ea.toNat o.bytes o.kind.access with
  | (t, .bad ord cause) => (t, { l with st := .declined }, some ⟨ord, cause, l.lane, l.ea⟩)
  | (t, .miss va level) =>
    let (u, st) := t.joinMiss b.die b.ctx.asid va level (o.kind.access != .read)
    (u, { l with st := st }, none)
  | (t, .ok loc) =>
    if loc.remote && !l.st.sent then (t, { l with st := .remote }, none)
    else
      let held := match o.kind, loc with
        | .ldw, .mem p => t.refreshing p.key
        | _, _ => false
      if held then (t, { l with st := .ready }, none)
      else
        let bad (poison : Bool) : Option LaneBad := if poison then some ⟨7, 0x15, l.lane, l.ea⟩ else none
        if !o.halves loc then
          let (u, v, poison) := t.laneEffect r b o l loc
          (u, { l with st := .done, val := v }, bad poison)
        else match l.st with
          | .half hi =>
            let (u, v, poison) := t.halfEffect r b o l loc hi
            let u := match o.kind with
              | .lda => u.xWrite r.m l.dst.toNat v
              | _ => u
            (u, { l with st := .done, val := v }, bad poison)
          | _ =>
            let (t, hi) := match o.lanes.findSome? fun x => if x.ea == l.ea then x.st.performed else none with
              | some hi => (t, hi)
              | none => let (t, k) := t.fresh; (t, (Config.freeWord k 0).getLsbD 0)
            let (u, v, poison) := t.halfEffect r b o l loc hi
            (u, { l with st := .half !hi, val := v }, bad poison)

/-! ## Order among the lanes of a warp (R253, R329, R332) -/

def LaneAcc.undone (l : LaneAcc) : Bool := l.st != .done
def MemOp.undone (o : MemOp) : Bool := o.lanes.any LaneAcc.undone

/-- The ranges a lane accesses: space, start, length, and whether it is an LDA's destination. -/
def MemOp.ranges (o : MemOp) (l : LaneAcc) : List (Space × Nat × Nat × Bool) :=
  (o.space, l.ea.toNat, o.bytes, false) ::
    (match o.kind with | .lda => [(.x, l.dst.toNat, o.bytes, true)] | _ => [])

/-- Must the later lane wait for the earlier one? A read of an LDA's destination need not (R269). -/
def lanesConflict (eo : MemOp) (el : LaneAcc) (lo : MemOp) (ll : LaneAcc) : Bool :=
  (eo.ranges el).any fun e => (lo.ranges ll).any fun l =>
    e.1 == l.1 && decide (e.2.1 < l.2.1 + l.2.2.1 ∧ l.2.1 < e.2.1 + e.2.2.1) && !(e.2.2.2 && lo.kind == .ld)

/-- Is lane l of operation o held back by an earlier operation of the warp? -/
def Warp.laneHeld (w : Warp) (o : MemOp) (l : LaneAcc) : Bool :=
  w.outs.any fun e => decide (e.k < o.k) && e.undone &&
    (e.acquires || o.releases || e.lanes.any fun el => el.undone && lanesConflict e el o l)

/-- The record of the earliest failing check among the lanes of an operation (R250). -/
def State.laneViolation (s : State) (r : WRef) (pc : Dword) (bad : List LaneBad) : State :=
  match bad with
  | [] => s
  | x :: _ =>
    let ord := bad.foldl (fun m y => min m y.order) x.order
    let hit := bad.filter fun y => y.order == ord
    let cause := (hit.headD x).cause
    let low := hit.foldl (fun m y => if y.lane < m.lane then y else m) (hit.headD x)
    let inHandler := match s.warp r with
      | some w => w.handler.isSome
      | none => false
    s.freeze r.m { FreezeAt.blank (if inHandler then 0x02 else cause) with
      warp := some r.w, pc := pc, lanes := Mask.ofFn fun l => hit.any fun y => y.lane == l
      address := low.addr, info := if inHandler then BitVec.ofNat 64 cause else 0 }

/-- Operation k of a warp. -/
def Warp.op (w : Warp) (k : Nat) : Option MemOp := w.outs.find? fun o => o.k == k
def Warp.setOp (w : Warp) (o : MemOp) : Warp := { w with outs := w.outs.map fun x => if x.k == o.k then o else x }

/-- A lane held back by an earlier one walks all the same: not present, it joins its granule's miss entry (R251, R253). -/
def State.walkHeld (s : State) (b : Master) (o : MemOp) (l : LaneAcc) : State × LaneAcc :=
  if l.st != .ready then (s, l)
  else match s.check b o.space l.ea.toNat o.bytes o.kind.access with
    | (t, .miss va level) =>
      let (u, st) := t.joinMiss b.die b.ctx.asid va level (o.kind.access != .read)
      (u, { l with st := st })
    | _ => (s, l)

/-- Try the lanes of operation k that `pick` chooses, one after another; violations freeze the master once. -/
def State.runOp (s : State) (r : WRef) (k : Nat) (pick : LaneAcc → Bool) : State :=
  let n := match (s.warp r).bind fun w => w.op k with
    | some o => o.lanes.length
    | none => 0
  let (t, bad) := (List.range n).foldl (fun (p : State × List LaneBad) i =>
    match p.1.master r.m with
    | none => p
    | some b => match b.warps[r.w]? with
      | none => p
      | some w => match w.op k with
        | none => p
        | some o => match o.lanes[i]? with
          | none => p
          | some l =>
            if pick l then
              let (t, l', v) := if w.laneHeld o l then
                  (match p.1.walkHeld b o l with | (t, l') => (t, l', none))
                else p.1.performLane r b o l
              (t.modWarp r fun w => match w.op k with
                | some o => w.setOp { o with lanes := modAt o.lanes i fun _ => l' }
                | none => w, p.2 ++ v.toList)
            else p) (s, [])
  let pc := match (s.warp r).bind fun w => w.op k with
    | some o => o.pc
    | none => 0
  t.laneViolation r pc bad

/-- Operations that end when their lanes have performed: those that return nothing to a register. -/
def MemOp.ended (o : MemOp) : Bool :=
  !o.undone && (match o.kind with
    | .ld | .ldw | .atom _ => o.dests.isEmpty
    | .st | .lda | .red _ => true
    | .spill | .fill | .xlat _ => false)

def State.purge (s : State) (r : WRef) : State :=
  match s.warp r with
  | some w => if w.outs.any MemOp.ended then s.modWarp r fun w => { w with outs := w.outs.filter fun o => !o.ended } else s
  | none => s

/-- Perform whatever lanes of a warp are no longer held back; LDA's lanes have an event of their own. -/
def State.drainOps (s : State) (r : WRef) : State :=
  match s.master r.m with
  | none => s
  | some b =>
    if !b.drains then s
    else match b.warps[r.w]? with
      | none => s
      | some w =>
        (w.outs.foldl (fun t o => match o.kind with
          | .lda | .xlat _ => t
          | _ => t.runOp r o.k fun l => l.st == .ready) s).purge r

/-- Every warp of a master. -/
def State.drainMaster (s : State) (m : Nat) : State :=
  match s.master m with
  | some b => (List.range b.warps.length).foldl (fun t i => t.drainOps ⟨m, i⟩) s
  | none => s

/-! ## Issuing an operation -/

/-- What an instruction asks of memory. -/
structure MemReq where
  kind : MemKind
  space : Space
  bytes : Nat
  dests : List RegName
  sext : Bool
  ord : Ord
  scope : Scope
  sw : Nat
  lanes : List LaneAcc

/-- The checks 1, 2, 4, 5 and 6 of every lane before any performs (R250); an LDA's destination after its source (R269). -/
def State.precheck (s : State) (b : Master) (q : MemReq) : State × List LaneBad × List (Nat × Nat × Nat) :=
  q.lanes.foldl (fun (p : State × List LaneBad × List (Nat × Nat × Nat)) l =>
    let dst (s : State) : List LaneBad :=
      match q.kind with
      | .lda => match (s.check b .x l.dst.toNat q.bytes .write).2 with
        | .bad o c => [⟨o, c, l.lane, l.dst⟩]
        | _ => []
      | _ => []
    match p.1.check b q.space l.ea.toNat q.bytes q.kind.access with
    | (t, .bad o c) => (t, p.2.1 ++ [⟨o, c, l.lane, l.ea⟩], p.2.2)
    | (t, .miss va lv) => (t, p.2.1 ++ dst t, p.2.2 ++ [(l.lane, va, lv)])
    | (t, .ok _) => (t, p.2.1 ++ dst t, p.2.2)) (s, [], [])

/-- A request as the warp's operation number `k`. -/
def Ctx.memOp (c : Ctx) (q : MemReq) (k : Nat) (lanes : List LaneAcc) : MemOp :=
  ⟨k, c.c.pc, q.kind, q.space, q.bytes, q.dests, q.sext, q.ord, q.scope, q.sw, c.w.openBatch, lanes⟩

/-- Add the operation to the warp's outstanding ones and try its lanes. -/
def State.launchOp (s : State) (c : Ctx) (q : MemReq) (misses : List (Nat × Nat × Nat)) : State :=
  let k := c.w.opCount
  let isLda := match q.kind with | .lda => true | _ => false
  let (s, lanes) := q.lanes.foldl (fun (p : State × List LaneAcc) l =>
    match if isLda then misses.find? fun x => x.1 == l.lane else none with
    | some (_, va, lv) =>
      let (t, st) := p.1.joinMiss c.b.die c.b.ctx.asid va lv false
      (t, p.2 ++ [{ l with st := st }])
    | none => (p.1, p.2 ++ [l])) (s, [])
  let t := s.modWarp c.ref fun w => { w with outs := w.outs ++ [c.memOp q k lanes], opCount := k + 1 }
  if isLda then t.purge c.ref else (t.runOp c.ref k fun l => l.st == .ready).purge c.ref

/-- The span that a long-latency instruction of lookahead `la` opens (R124). -/
def Clause.open (c : Clause) (la : Nat) (dests : List RegName) : Clause :=
  if la == 0 || dests.isEmpty then c else { c with spans := c.spans ++ [⟨dests, la⟩] }

/-- Move past a long-latency instruction of `n` words. -/
def State.stepLong (s : State) (c : Ctx) (n la : Nat) (dests : List RegName) : State :=
  match s.master c.ref.m with
  | none => s
  | some b =>
    let t := s.modWarp c.ref fun w =>
      if c.c.next + n > c.c.words.length then s.endClause b w [⟨c.c.fall, c.c.base, c.c.lanes⟩]
      else { w with clause := some { (c.c.tick.open la dests) with next := c.c.next + n } }
    t.retireInstr c

/-- Where a byte of x: lies (R242): the index of the span core, and the location in that core's scratchpad. -/
def Master.xAt (b : Master) (off : Nat) : Nat × Nat :=
  let part := b.variant.scratch / b.cores.length
  (off / part, (b.cores.getD (off / part) default).xBase + off % part)

/-- Cycles beyond the first that an access to scratchpad words of span core j takes: a bank delivers one word a cycle, and
lanes that name bytes of one word share it (R260). -/
def bankConflicts (words : List (Nat × Nat)) (j : Nat) : Nat :=
  let ws := ((words.filter fun p => p.1 == j).map Prod.snd).eraseDups
  ((List.range 64).foldl (fun m k => max m (ws.countP fun y => y % 64 == k)) 0) - 1

/-- The bank conflicts of an access to x: are counted at the cores it reaches (R260, R424). -/
def State.countBanks (s : State) (c : Ctx) (q : MemReq) : State :=
  if q.space != .x then s
  else
    let words := q.lanes.flatMap fun l => (List.range q.bytes).map fun i =>
      let p := c.b.xAt (l.ea.toNat + i)
      (p.1, p.2 / 4)
    c.b.cores.zipIdx.foldl (fun t h => t.perf c.b.die h.1.core 7 (bankConflicts words h.2)) s

/-- An M-format instruction (R250): a failing check freezes the master with no lane performed; otherwise the operation is
issued and the warp moves on. -/
def issueMem (s : State) (c : Ctx) (la : Nat) (q : MemReq) : State :=
  let (t, bad, misses) := s.precheck c.b q
  if !bad.isEmpty then t.laneViolation c.ref c.c.pc bad
  else ((t.launchOp c q misses).countBanks c q).stepLong c 2 la q.dests

/-- Write a completed load's registers (R123, R267, R270, R273). -/
def MemOp.write (o : MemOp) (w : Warp) : Warp :=
  let m : Mask := Mask.ofFn fun l => o.lanes.any fun x => x.lane == l
  let val (l : Nat) : List Byte := match o.lanes.find? fun x => x.lane == l with
    | some x => x.val
    | none => []
  let word (i l : Nat) : Word :=
    let v := val l
    if o.sext && decide (v.length < 4) then
      (if v.length == 1 then (BitVec.ofNat 8 (leNat v)).signExtend 32 else (BitVec.ofNat 16 (leNat v)).signExtend 32)
    else le32 ((v.drop (4 * i)).take 4)
  let n := max 1 (o.bytes / 4)
  ((o.dests.zipIdx).take n).foldl (fun w p => match p.1 with
    | .v key =>
      let old := (aget w.regs key).getD []
      { w with regs := aset w.regs key ((List.range 128).map fun l => if m.has l then word p.2 l else old.getD l 0) }
    | .p q => w.setP q m (Mask.ofFn fun l => leNat (val l) != 0)
    | .s _ => w) w

end Sys2Proof.Machine
end

