-- ==== Sys2Proof/Machine/Sync.lean ====
section
/-! DEFINITION. The synchronisation family (majors 0x30 to 0x36, R339 to R348) and PARK_WAKE. -/

namespace Sys2Proof.Machine

/-- An instruction that executes once when some active lane's predicate is true (R339); its checks hold whatever the
predicate (R135, R340). -/
def syncOp (s : State) (p : Pred) (subs : Ctx → List Nat) (f : Ctx → State) : Host.Outcome State Fault Refusal :=
  withCtx s fun c => checked s c (subs c) (if c.executes p then f c else done s c 1 c.w)

/-- Have the warp's earlier accesses performed? LDA's belong to its batches (R344). -/
def Warp.settled (w : Warp) (loadsOnly : Bool) : Bool :=
  w.outs.all fun o => !o.undone || (match o.kind with
    | .lda | .xlat _ => true
    | .st | .red _ => loadsOnly
    | _ => false)

/-- The object an instruction names (R339). -/
def Ctx.barName (c : Ctx) : BarObj → BarName
  | .slot a i => .slot ((c.w.s5 a).toNat + 16 * i.toNat)
  | .hw n => .hw n.toNat

/-- R340, subcode 0x08: the object is out of range or, when `live`, not live. -/
def Ctx.barSubs (c : Ctx) (o : BarObj) (live : Bool) : List Nat :=
  match c.barName o with
  | .slot x => need (x % 16 == 0 && decide (x + 16 ≤ c.b.variant.scratch) && (!live || (aget c.b.slots x).isSome)) 8
  | .hw n => need (decide (n < c.b.variant.hwbars)) 8

/-- The span core that holds an x: offset (R242). -/
def Variant.spanAt (v : Variant) (off : Nat) : Nat := off / (v.scratch / v.span)

/-- Clear the arrival records that name an object (R324). -/
def Master.forget (b : Master) (n : BarName) : Master :=
  { b with warps := b.warps.map fun w => match w.arrival with
      | some (m, _) => if m == n then { w with arrival := none } else w
      | none => w }

def binitSubs (c : Ctx) (o : BarObj) (d : Reg5) : List Nat :=
  let n := (c.w.s5 d).toNat
  c.barSubs o false ++ (match c.barName o with
    | .slot x =>
      let k := c.b.variant.spanAt x
      need (decide (1 ≤ n ∧ n ≤ 65535) && (aget c.b.slots x).isNone &&
        decide ((c.b.slots.filter fun p => c.b.variant.spanAt p.1 == k).length < c.b.variant.slots)) 8
    | .hw _ => need (decide (n ≤ 65535) && (match c.b.bar (c.barName o) with
        | some x => x.inFlight == 0
        | none => true)) 8)

/-- BINIT (R341). -/
def execBinit (p : Pred) (o : BarObj) (d : Reg5) (s : State) : Host.Outcome State Fault Refusal :=
  syncOp s p (fun c => binitSubs c o d) fun c =>
    let n := c.barName o
    let t := s.modMaster c.ref.m fun b => (b.setBar n (Barrier.idle 0 (c.w.s5 d).toNat)).forget n
    let w := match c.w.arrival with
      | some (m, _) => if m == n then { c.w with arrival := none } else c.w
      | none => c.w
    done t c 1 w

def bretireSubs (c : Ctx) (a : Reg5) (i : BitVec 8) : List Nat :=
  c.barSubs (.slot a i) true ++ (match c.b.bar (c.barName (.slot a i)) with
    | some x => need x.quiet 8
    | none => [])

/-- BRETIRE (R341): the slot's bytes keep their values. -/
def execBretire (p : Pred) (a : Reg5) (i : BitVec 8) (s : State) : Host.Outcome State Fault Refusal :=
  syncOp s p (fun c => bretireSubs c a i) fun c =>
    let n := c.barName (.slot a i)
    let t := s.modMaster c.ref.m fun b => ({ b with slots := match n with
      | .slot x => adel b.slots x
      | .hw _ => b.slots } : Master).forget n
    let w := match c.w.arrival with
      | some (m, _) => if m == n then { c.w with arrival := none } else c.w
      | none => c.w
    done t c 1 w

def postSubs (c : Ctx) (o : BarObj) (d : Reg5) : List Nat :=
  c.barSubs o true ++ need (decide ((c.w.s5 d).toNat < 2 ^ 31)) 8

/-- ARRIVE (R342): the release waits for the warp's earlier accesses (R332); the record is made before the event. -/
def execArrive (p : Pred) (o : BarObj) (d : Reg5) (s : State) : Host.Outcome State Fault Refusal :=
  syncOp s p (fun c => postSubs c o d) fun c =>
    if !c.w.settled false then s
    else
      let n := c.barName o
      let ph := match c.b.bar n with
        | some x => x.phase
        | none => 0
      done (s.barEvent c.ref.m n fun x => x.arrive c.ref.w (c.w.s5 d).toNat) c 1 { c.w with arrival := some (n, ph) }

/-- EXPECT (R342). -/
def execExpect (p : Pred) (o : BarObj) (d : Reg5) (s : State) : Host.Outcome State Fault Refusal :=
  syncOp s p (fun c => postSubs c o d) fun c =>
    done (s.barEvent c.ref.m (c.barName o) fun x => x.post (c.w.s5 d).toNat) c 1 c.w

/-- The comparand of WAITPH and TESTPH (R343): s(D)<15:0>, or the record's phase; none when the record names another object. -/
def Ctx.comparand (c : Ctx) (o : BarObj) (d : Reg5) : Option Nat :=
  if d == 31 then
    match c.w.arrival with
    | some (n, ph) => if n == c.barName o then some ph else none
    | none => none
  else some ((c.w.s5 d).toNat % 65536)

/-- A WAITPH that waits keeps the comparand with which it issued, whatever becomes of the record (R341). -/
def Ctx.waited (c : Ctx) (o : BarObj) (d : Reg5) : Option Nat := c.w.waits.or (c.comparand o d)

def phaseSubs (c : Ctx) (o : BarObj) (k : Option Nat) : List Nat := c.barSubs o true ++ need k.isSome 8

/-- Has the object's phase moved past the comparand? -/
def Ctx.passed (c : Ctx) (o : BarObj) (k : Option Nat) : Bool :=
  match c.b.bar (c.barName o), k with
  | some x, some k => x.phase != k
  | _, _ => true

/-- WAITPH (R343): it waits at the clause boundary. -/
def execWaitph (p : Pred) (o : BarObj) (d : Reg5) (s : State) : Host.Outcome State Fault Refusal :=
  syncOp s p (fun c => phaseSubs c o (c.waited o d)) fun c =>
    if c.passed o (c.waited o d) then done s c 1 { c.w with waits := none }
    else s.modWarp c.ref fun w => { w with waits := c.waited o d }

/-- TESTPH (R343). -/
def execTestph (p : Pred) (o : BarObj) (q : BitVec 3) (s : State) : Host.Outcome State Fault Refusal :=
  syncOp s p (fun c => phaseSubs c o (c.comparand o 31)) fun c =>
    done s c 1 (c.w.setP q.toNat (c.active p) (if c.passed o (c.comparand o 31) then Mask.all else 0))

/-- Sealed batches that have not finished (R344). -/
def Warp.unfinished (w : Warp) : List Nat :=
  (w.outs.filterMap fun o => match o.kind with
    | .lda => if o.batch < w.openBatch then some o.batch else none
    | _ => none).eraseDups

def Warp.sealedOpen (w : Warp) : Nat := w.unfinished.length

/-- The batch for which a SEAL must wait: the one it waits for already, or the oldest of 15 that have not finished. -/
def Warp.sealWait (w : Warp) : Option Nat :=
  let bs := w.unfinished
  match w.sealOn with
  | some n => if bs.contains n then some n else none
  | none => if bs.length < 15 then none else some (bs.foldl min w.openBatch)

/-- SEAL (R344): with 15 sealed batches unfinished it waits until the oldest of them has finished. -/
def execSeal (p : Pred) (s : State) : Host.Outcome State Fault Refusal :=
  syncOp s p (fun _ => []) fun c =>
    match c.w.sealWait with
    | none => done s c 1 { c.w with openBatch := c.w.openBatch + 1, sealOn := none }
    | some n => s.modWarp c.ref fun w => { w with sealOn := some n }

/-- WAITB (R344). -/
def execWaitb (p : Pred) (n : BitVec 8) (s : State) : Host.Outcome State Fault Refusal :=
  syncOp s p (fun _ => need (decide (n.toNat ≤ 15)) 8) fun c =>
    if c.w.sealedOpen ≤ n.toNat then done s c 1 c.w else s

/-- WAITT (R344): deliveries of the named slots are made here (R306, R317). -/
def execWaitt (p : Pred) (m : BitVec 8) (s : State) : Host.Outcome State Fault Refusal :=
  syncOp s p (fun _ => need (m != 0) 8) fun c =>
    match c.b.slotWait c.ref.w (maskSlots m.toNat) with
    | .clear => done s c 1 c.w
    | .wait => s
    | d => s.deliver c.ref c.c c.c.pc c.c.lanes d

/-! ## PARK -/

/-- Would a 4-byte load of the address pass every check of R249? Then where the location is. -/
def State.parkLoc (s : State) (b : Master) (sp : Space) (ea : Nat) : State × Option Loc :=
  match s.check b sp ea 4 .read with
  | (t, .ok (.mem p)) => (t, if t.readable b.die p.key 4 p.packed then some (.mem p) else none)
  | (t, .ok (.x o)) => (t, if (b.xRead o 4).isSome then some (.x o) else none)
  | (t, .ok l) => (t, some l)
  | (t, _) => (t, none)

/-- PARK (R345): it pauses until PARK_WAKE ends the pause; reason 3 returns at once. -/
def park (p : Pred) (sp : Space) (ea : Ctx → Nat) (d : Reg5) (i : BitVec 8) (s : State) :
    Host.Outcome State Fault Refusal :=
  syncOp s p (fun _ => []) fun c =>
    if c.w.park.isSome then s
    else match s.parkLoc c.b sp (ea c) with
      | (t, none) => done t c 1 (c.w.setS5 d 3)
      | (t, some l) => t.modWarp c.ref fun w => { w with park := some (match l with
        | .mem pl => ⟨true, pl.key / 128 * 128, s.cycles + 160 * (i.toNat + 1), false, false, d⟩
        | .x o => ⟨false, o, s.cycles + 160 * (i.toNat + 1), false, false, d⟩
        | .c o => ⟨false, o, s.cycles + 160 * (i.toNat + 1), false, false, d⟩) }

/-- PARK g: (R345). -/
def execParkG (p : Pred) (d a : Reg5) (i : BitVec 8) (s : State) : Host.Outcome State Fault Refusal :=
  park p .g (fun c => (c.w.s52 a).toNat) d i s
/-- PARK x: (R345). -/
def execParkX (p : Pred) (d a : Reg5) (i : BitVec 8) (s : State) : Host.Outcome State Fault Refusal :=
  park p .x (fun c => (c.w.s5 a).toNat) d i s

/-- What ends the pause first (R345): a write to a watched byte (0), the time (1), or any other cause of the part's (2);
of both at once, the time (log 95). -/
def Park.cause (k : Park) (now : Nat) : BitVec 2 :=
  if k.late then 1 else if k.hit then 0 else if k.until' ≤ now then 1 else 2

/-- PARK_WAKE (R345). -/
def execParkWake (r : WRef) (cause : BitVec 2) (s : State) : Host.Outcome State Fault Refusal :=
  match s.master r.m with
  | none => .next s
  | some b => match b.warps[r.w]? with
    | none => .next s
    | some w => match w.park, w.clause with
      | some k, some cl =>
        if cause == k.cause s.cycles && b.phase == .running then
          .next (done s ⟨r, b, w, cl⟩ 1 { (w.setS5 k.d (cause.setWidth 32)) with park := none })
        else .next s
      | _, _ => .next s

/-! ## Fences -/

/-- FENCE (R346). -/
def execFence (p : Pred) (sc : Scope) (s : State) : Host.Outcome State Fault Refusal :=
  syncOp s p (fun _ => []) fun c => if c.w.settled false then done (s.fenceAt c.b.die sc) c 1 c.w else s
/-- ACQ (R346): it waits for the warp's earlier loads. -/
def execAcq (p : Pred) (sc : Scope) (s : State) : Host.Outcome State Fault Refusal :=
  syncOp s p (fun _ => []) fun c =>
    if c.w.settled true then done (if Scope.wide sc then s.acquireAll c.b.die else s) c 1 c.w else s
/-- REL (R346). -/
def execRel (p : Pred) (sc : Scope) (s : State) : Host.Outcome State Fault Refusal :=
  syncOp s p (fun _ => []) fun c =>
    if c.w.settled false then done (if Scope.wide sc then s.releaseAll c.b.die else s) c 1 c.w else s
/-- XFENCE (R347): the die's dirty bytes reach their homes, where engines read; it also acts as FENCE. -/
def execXfence (p : Pred) (sc : Scope) (s : State) : Host.Outcome State Fault Refusal :=
  syncOp s p (fun _ => []) fun c =>
    if c.w.settled false then done ((s.releaseAll c.b.die).fenceAt c.b.die sc) c 1 c.w else s

/-- The current warp issues an entry into its block's order. -/
def State.issueEntry (s : State) (c : Ctx) (e : Entry) : State :=
  s.modMaster c.ref.m fun b => b.enqueue s.cycles (c.b.spanOf c.ref.w) c.ref.w e

/-- QFENCE (R347): one joining entry stands for the entries of every named queue. -/
def execQfence (p : Pred) (m : BitVec 8) (s : State) : Host.Outcome State Fault Refusal :=
  syncOp s p (fun _ => need (m != 0) 8) fun c =>
    done (s.issueEntry c (Entry.issued .qfence [] [] (m.setWidth 32) 0 c.ref.w [])) c 1 c.w

/-! ## Run-time bindings -/

/-- The number of key expressions or keys that a binding may index. -/
def State.exprCount (s : State) (b : Master) : Nat :=
  match s.gridOf b with
  | some g => g.launch.keyExprs.length
  | none => b.keyNames.length

def bindSubs (a : Reg5) : List Nat := need (decide (a.toNat + 7 ≤ 30)) 8

/-- Hardware barriers of each variant that the grid permits, or of the task's own (R49). -/
def State.barCounts (s : State) (b : Master) : List Nat :=
  match s.gridOf b with
  | some g => (g.launch.permitted b.image).map fun k => (b.image.variants.getD k default).hwbars
  | none => [b.variant.hwbars]

/-- BIND (R348). -/
def execBind (p : Pred) (d a : Reg5) (s : State) : Host.Outcome State Fault Refusal :=
  syncOp s p (fun _ => bindSubs a) fun c =>
    let e := (List.range 8).flatMap fun i => leBytes 4 (c.w.s (a.toNat + i)).toNat
    let r := parseRegion e
    if regionReserved e || r.malformed (s.exprCount c.b) (s.barCounts c.b) then done s c 1 (c.w.setS5 d 3)
    else if (s.regions c.b).any fun x => overlapping [(x.base.toNat, x.size), (r.base.toNat, r.size)] then
      done s c 1 (c.w.setS5 d 1)
    else if 64 ≤ c.b.binds.length then done s c 1 (c.w.setS5 d 2)
    else
      let t := s.modMaster c.ref.m fun b => { b with binds := b.binds ++ [r] }
      let t := match r.key c.b with
        | some k => if c.b.keys.contains k then t.dropCopies c.b.die (inRanges (t.regionRanges c.b r)) else t
        | none => t
      done t c 1 (c.w.setS5 d 0)

/-- UNBIND (R348). -/
def execUnbind (p : Pred) (d a : Reg5) (s : State) : Host.Outcome State Fault Refusal :=
  syncOp s p (fun _ => []) fun c =>
    let va := c.w.s52 a
    if c.b.binds.any fun x => x.base == va then
      done (s.modMaster c.ref.m fun b => { b with binds := b.binds.filter fun x => x.base != va }) c 1 (c.w.setS5 d 0)
    else done s c 1 (c.w.setS5 d 1)

end Sys2Proof.Machine
end

