-- ==== Sys2Proof/Machine/Control.lean ====
section
/-! DEFINITION. Entering clauses (R113 to R117), control transfer, traps, specials, switch points, steps, frames and keys
(majors 0x38 to 0x3B, R159 to R180), SUBMIT and LAUNCH apart. -/

namespace Sys2Proof.Machine

/-! ## Entering a clause -/

/-- The clause to suspend when an entry traps at its header. -/
def FEntry.asClause (e : FEntry) : Clause := ⟨e.addr, [], 0, e.lanes, e.base, e.prio, []⟩

/-- The offset of a warp's portion in a frontier spill area (R146): by die, core and slot. -/
def Master.spillOff (b : Master) (w : Nat) : Nat :=
  let h := b.coreHold w
  4096 * (1536 * b.die + 64 * h.core + h.warpSlots.getD (w % (b.variant.warps / b.variant.span)) 0)

/-- Whether a warp's spill portion can be written and read, and its address where it cannot (R146): a launch's area is
virtual, the tasks' one physical (R440). -/
def State.spillFails (s : State) (b : Master) (w : Nat) : State × Option Nat :=
  match s.gridOf b with
  | some g =>
    let va := g.launch.spillArea.toNat + b.spillOff w
    match s.vaPlaces b.die b.queue b.ctx va 4096 .rmw with
    | (t, .ok _) => (t, none)
    | (t, .error _) => (t, some va)
  | none =>
    let pa := (match s.blob with | some l => l.taskSpill | none => 0) + b.spillOff w
    (s, if s.poisoned (physKey pa) 4096 then some pa else none)

/-- A frontier with the priority of every entry that could not be read before read again (R144, log 7). -/
def State.rerank (s : State) (b : Master) (l : List FEntry) : List FEntry :=
  if l.all fun e => e.prio != 256 then l
  else l.foldl (fun acc e => insertEntry acc (if e.prio == 256 then { e with prio := s.headerPrio b e.addr } else e)) []

/-- Freeze at a fetch (R116, R402); in a handler with cause 0x02 (R168). -/
def State.fetchFreeze (s : State) (r : WRef) (w : Warp) (cause : Nat) (pc at' : Dword) (lanes : Mask) : State :=
  s.freeze r.m { FreezeAt.blank (if w.handler.isSome then 0x02 else cause) with
    warp := some r.w, fetch := true, pc := pc, lanes := lanes, address := at'
    info := if w.handler.isSome then BitVec.ofNat 64 cause else 0 }

/-- Fetch the words after a header; the first that cannot be fetched ends it. -/
def fetchWords (b : Master) (hdr : Dword) : Nat → Nat → State → State × Except (Dword × Fetch) (List Word)
  | 0, _, s => (s, .ok [])
  | n + 1, i, s =>
    let a := hdr + BitVec.ofNat 64 (4 * i)
    match s.fetchWord b a with
    | (t, .word x) => match fetchWords b hdr n (i + 1) t with
      | (u, .ok l) => (u, .ok (x :: l))
      | (u, .error e) => (u, .error e)
    | (t, f) => (t, .error (a, f))

/-- Do the header's load and store waits hold (R113)? -/
def Warp.headerReady (w : Warp) (h : Header) : Bool :=
  w.outs.all fun o => match o.kind with
    | .ld | .ldw => !h.ldWait || o.dests.isEmpty
    | .atom _ => (!h.ldWait || o.dests.isEmpty) && (!h.stWait || !o.undone)
    | .st | .red _ => !h.stWait || !o.undone
    | _ => true

/-- A fetch that did not give a word (R116). -/
def State.fetchFails (s : State) (r : WRef) (b : Master) (w : Warp) (e : FEntry) (a : Dword) (f : Fetch) : State :=
  match f with
  | .word _ => s
  | .missing lv =>
    let (t, st) := s.joinMiss b.die b.ctx.asid a.toNat lv false
    t.modWarp r fun w => { w with fetchMiss := some st }
  | .violation c => s.fetchFreeze r w c e.addr a e.lanes

/-- Enter the clause at the head of the frontier. -/
def State.enterClause (s : State) (r : WRef) (b : Master) (w : Warp) (e : FEntry) (rest : List FEntry) : State :=
  let trap (t : State) (sub idx : Nat) : State :=
    (t.modWarp r fun w => { w with frontier := rest }).takeTrap r e.asClause 1 e.lanes e.addr (subInfo sub idx)
  match s.fetchWord b e.addr with
  | (t, .word x) =>
    (match headerOf x with
     | none =>
       if e.vec then
         let v := match w.handler with | some h => h.vector | none => 0
         t.freeze r.m (vectorBad r.w v w.tlanes w.tpc w.tinfo)
       else trap t 7 0
     | some h =>
       if h.n == 0 then trap t 1 0
       else if decide (6 ≤ h.cls.toNat) then trap t 2 0
       else match fetchWords b e.addr h.n.toNat 1 t with
         | (t, .error (a, f)) => t.fetchFails r b w e a f
         | (t, .ok words) =>
           match clauseCheck h words with
           | some (idx, sub) => trap t sub idx
           | none =>
             match b.slotWait r.w (maskSlots h.tokens.toNat) with
             | .wait => t
             | .clear =>
               if w.headerReady h then
                 t.modWarp r fun w => { w with frontier := rest, fetchMiss := none
                                               clause := some ⟨e.addr, words, 1, e.lanes, e.base, h.prio.toNat, []⟩ }
               else t
             | .fault k c i => t.deliver r e.asClause e.addr e.lanes (.fault k c i)
             | .trap k v i => (t.modWarp r fun w => { w with frontier := rest }).deliver r e.asClause e.addr e.lanes (.trap k v i))
  | (t, f) => t.fetchFails r b w e e.addr f

/-- CLAUSE_ENTRY (R113): the highest-ranked entry of the warp whose turn it is. With more than 16 entries the spill portion
must be writable (R146). -/
def execClauseEntry (s : State) : Host.Outcome State Fault Refusal :=
  match s.cur with
  | none => .next s
  | some r => match s.master r.m with
    | none => .next s
    | some b => match b.warps[r.w]? with
      | none => .next s
      | some w =>
        if b.phase != .running || b.preempt || w.clause.isSome || w.retired then .next s
        else match s.rerank b w.frontier with
          | [] => .next s
          | e :: rest =>
            if w.entryCount ≤ 16 then .next (s.enterClause r b w e rest)
            else match s.spillFails b r.w with
              | (t, none) => .next (t.enterClause r b w e rest)
              | (t, some a) => .next (t.freeze r.m { FreezeAt.blank (if w.handler.isSome then 0x02 else 0x18) with
                  warp := some r.w, pc := e.addr, address := BitVec.ofNat 64 a
                  info := if w.handler.isSome then 0x18 else 0 })

/-! ## Branches -/

def jTarget (c : Ctx) (off : Dword) : Dword := c.c.pc + off <<< 2

/-- BRA (R159). -/
def execBra (p : Pred) (o : BitVec 22) (s : State) : Host.Outcome State Fault Refusal :=
  withCtx s fun c =>
    let m := c.active p
    doneTo s c c.w [⟨jTarget c (o.signExtend 64), c.c.base, m⟩, ⟨c.c.fall, c.c.base, c.c.lanes &&& ~~~m⟩]

def brcSubs (r : Reg5) : List Nat := need (r != 31) 8

/-- BRC (R160). -/
def execBrc (r : Reg5) (o : BitVec 17) (s : State) : Host.Outcome State Fault Refusal :=
  withCtx s fun c => checked s c (brcSubs r)
    (let n := c.w.s5 r - 1
     doneTo s c (c.w.setS5 r n)
       [⟨if n != 0 then jTarget c (o.signExtend 64) else c.c.fall, c.c.base, c.c.lanes⟩])

/-- The target a lane's operand names (R162). -/
def Ctx.xval (c : Ctx) (a : XSrc) (l : Nat) : Word :=
  match a with
  | .thread r => c.v1 r l
  | .uni r => c.w.s5 r

def Ctx.xtarget (c : Ctx) (a : XSrc) (l : Nat) : Dword := c.b.image.base + (c.xval a l).setWidth 64

/-- Some executing lane's operand is not a multiple of 4. -/
def Ctx.xbad (c : Ctx) (a : XSrc) (m : Mask) : Bool := m.lanes.any fun l => (c.xval a l).toNat % 4 != 0

def brxSubs (c : Ctx) (p : Pred) (a : XSrc) : List Nat := need (!c.xbad a (c.active p)) 8

/-- One lane, as a mask. -/
def laneBit (l : Nat) : Mask := Mask.ofFn fun k => k == l

/-- BRX (R162). -/
def execBrx (p : Pred) (a : XSrc) (s : State) : Host.Outcome State Fault Refusal :=
  withCtx s fun c => checked s c (brxSubs c p a)
    (let m := c.active p
     doneTo s c c.w ((m.lanes.map fun l => ⟨c.xtarget a l, c.c.base, laneBit l⟩) ++
       [⟨c.c.fall, c.c.base, c.c.lanes &&& ~~~m⟩]))

/-! ## Calls and returns (R147 to R151) -/

/-- What register slot `k` holds in a lane: a slot that is not listed is zero where entry makes it so (v0 to v30 of frames 0 to
3, R142), and elsewhere a free value by its place from `off`, since the spec names no content (R2, log 2). -/
def Warp.slotWord (w : Warp) (tick off k l : Nat) : Word :=
  match aget w.regs k with
  | some x => x.getD l 0
  | none => if k < 31 then 0 else Config.freeWord tick (off + 128 * k + l)

/-- Registers of some frames and slots become undefined in lanes of `m`. -/
def Warp.undefKeys (w : Warp) (keys : List Nat) (m : Mask) (tick : Nat) : Warp :=
  keys.foldl (fun w k => { w with regs := aset w.regs k ((List.range 128).map fun l =>
    if m.has l then Config.freeWord tick (128 * k + l) else w.slotWord tick 0 k l) }) w

/-- R151 and the return offset of R161. -/
def callSubs (c : Ctx) (a : Nat) : List Nat :=
  need (decide (c.c.base + a + 3 ≤ 4095) && decide ((c.c.pc + 4 - c.b.image.base).toNat < 2 ^ 32)) 8

/-- The condition of a CALLX's targets, which are examined once the new window passes its checks (R135, R163). -/
def callxSubs (c : Ctx) (v : BitVec 2) (a : XSrc) : List Nat :=
  callSubs c v.toNat ++ need (decide (c.w.allot < c.c.base + v.toNat + 3 - c.w.resident + 1) || !c.xbad a c.c.lanes) 8

/-- A call with advance `a` (R148, R149, R161, R163): `bad` is a further illegal condition, met after the window checks. -/
def callTo (s : State) (c : Ctx) (a : Nat) (bad : Bool) (target : Nat → Dword) : State :=
  checked s c (callSubs c a)
    (let n := c.c.base + a + 3 - c.w.resident + 1
     if c.w.allot < n then
       s.takeTrap c.ref c.c 10 c.c.lanes c.c.pc (BitVec.ofNat 32 ((n - c.w.allot) % 256 + 256 * c.c.next))
     else if bad then illegal s c 8
     else
       let (t, tick) := s.fresh
       let top := c.c.base + 3
       let keys := (8 * top + 7) :: (List.range (8 * a)).map fun i => 8 * (top + 1) + i
       let link := (c.c.pc + 4 - c.b.image.base).setWidth 32 ||| BitVec.ofNat 32 a
       let w := (c.w.undefKeys keys c.c.lanes tick).setV (c.c.base + a) 30 c.c.lanes fun _ => link
       doneTo t c w (c.c.lanes.lanes.map fun l => ⟨target l, c.c.base + a, laneBit l⟩))

/-- CALL (R161). -/
def execCall (v : BitVec 2) (o : BitVec 20) (s : State) : Host.Outcome State Fault Refusal :=
  withCtx s fun c => callTo s c v.toNat false fun _ => jTarget c (o.signExtend 64)
/-- CALLX (R163). -/
def execCallx (v : BitVec 2) (a : XSrc) (s : State) : Host.Outcome State Fault Refusal :=
  withCtx s fun c => callTo s c v.toNat (c.xbad a c.c.lanes) (c.xtarget a)

/-- The return link of a lane. -/
def Ctx.link (c : Ctx) (l : Nat) : Word := c.w.v c.c.base 30 l

def retSubs (c : Ctx) : List Nat := need (c.c.lanes.lanes.all fun l => (c.link l).toNat % 4 != 0) 8

/-- RET (R164); a base below L takes the fill trap (R150), whose handler counts at that base (R420). -/
def execRet (s : State) : Host.Outcome State Fault Refusal :=
  withCtx s fun c => checked s c (retSubs c)
    (let adv (l : Nat) : Nat := (c.link l).toNat % 4
     let most := c.c.lanes.lanes.foldl (fun m l => max m (adv l)) 0
     if c.c.base < c.w.resident + most then
       let t := s.takeTrap c.ref c.c 11 c.c.lanes c.c.pc
         (BitVec.ofNat 32 ((c.w.resident + most - c.c.base) % 256 + 256 * c.c.next))
       t.modWarp c.ref fun w => { w with handler := w.handler.map fun h =>
         if h.vector == 11 then { h with low := c.c.base - most } else h }
     else doneTo s c c.w (c.c.lanes.lanes.map fun l =>
       ⟨c.b.image.base + ((c.link l) &&& ~~~3).setWidth 64, c.c.base - adv l, laneBit l⟩))

/-! ## Lanes that leave: EXIT, TRAP, TRET -/

/-- Has another warp arrived at a switch point of another id than `id` (R175)? -/
def Master.otherId (b : Master) (id : Nat) : Bool :=
  b.warps.any fun w => w.arrived && (match w.arrivedId with | some k => k != 1024 && k != id | none => false)

/-- The clause whose last word a held group executed. -/
def Held.clause (h : Held) (w : Word) : Clause :=
  ⟨h.next - BitVec.ofNat 64 (4 * h.idx + 4), List.replicate (h.idx - 1) 0 ++ [w], h.idx, h.lanes, h.base, 0, []⟩

/-- A warp whose other lanes have exited has arrived with another id than the block's: the lanes that were held last raise
subcode 0x08 at their SWITCHPT, and do not arrive (R175, log 85). -/
def State.switchClash (s : State) (r : WRef) (w : Warp) (id : Nat) : State :=
  match w.held.getLast? with
  | none => s
  | some h =>
    let rest := w.held.dropLast
    let c := h.clause ((encode (.switchpt (BitVec.ofNat 10 id))).headD 0)
    (s.modWarp r fun w => { w with held := rest, heldId := if rest.isEmpty then none else w.heldId }).takeTrap r c 0 h.lanes c.pc
      (subInfo 8 h.idx)

/-- After lanes of a warp have left or been held: does the warp arrive, or has it ended (R175, R165)? -/
def State.afterLanes (s : State) (r : WRef) : State :=
  match s.master r.m, s.warp r with
  | some b, some w =>
    if w.liveLanes == 0 then s.warpExits r.m
    else if !w.arrived && w.allHeld then
      match if w.held.all Held.step then none else w.heldId.filter b.otherId with
      | some id => s.switchClash r w id
      | none =>
        let t := (s.modWarp r fun w => { w with arrived := true }).checkSwitch r.m
        match (t.master r.m).bind Master.gridUid with
        | some u => t.checkStep u
        | none => t
    else s
  | _, _ => s

/-- EXIT (R165). An outlier trap awaiting delivery is taken at the EXIT that would retire the warp, before it executes. -/
def execExit (p : Pred) (s : State) : Host.Outcome State Fault Refusal :=
  withCtx s fun c =>
    let m := c.active p
    let last := c.w.liveLanes &&& ~~~m == 0
    match if last then (List.range 8).findSome? fun t => (c.w.trapOn t).map fun x => (t, x) else none with
    | some (t, v, x) => s.deliver c.ref c.c c.c.pc m (.trap t v x)
    | none =>
      let w := if last then { c.w with exitAt := some c.c } else c.w
      (doneTo s c w [⟨c.c.fall, c.c.base, c.c.lanes &&& ~~~m⟩]).afterLanes c.ref

/-- TRAP (R167). -/
def execTrap (p : Pred) (i : BitVec 4) (s : State) : Host.Outcome State Fault Refusal :=
  withCtx s fun c =>
    let m := c.active p
    if m == 0 then doneTo s c c.w [⟨c.c.fall, c.c.base, c.c.lanes⟩]
    else (s.retireInstr c).takeTrap c.ref c.c (16 + i.toNat) m c.c.pc 0

def tretSubs (c : Ctx) : List Nat := need c.w.handler.isSome 8

/-- TRET (R169). -/
def execTret (s : State) : Host.Outcome State Fault Refusal :=
  withCtx s fun c => checked s c (tretSubs c)
    (doneTo s c { c.w with handler := c.w.handler.map fun h =>
      { h with tret := h.tret ++ [⟨c.c.fall, c.c.lanes, c.c.base, false, c.c.next⟩] } } [])

/-- NOP (R166). -/
def execNop (_p : Pred) (s : State) : Host.Outcome State Fault Refusal := withCtx s fun c => done s c 1 c.w

/-! ## Specials (R154, R170) -/

def specialPerLane (n : BitVec 6) : Bool := n == 0 || n == 6 || n == 7 || n == 8

/-- The stage of a warp (R35). -/
def Variant.stageOf (v : Variant) (w : Nat) : Nat :=
  ((List.range 4).find? fun i => decide (w < sumBy id (v.stages.take (i + 1)))).getD 0

/-- %wsphase (R263). -/
def State.wsPhase (s : State) : Nat :=
  let pos := 5 * s.cycles / 8 % 64000
  let us := pos / 1000
  let opens := us % 4 == 0
  pos + 2 ^ 16 * (if opens then us / 4 else (us / 4 + 1) % 16) + (if opens then 2 ^ 20 else 0)

/-- The value of a special register in lane l. -/
def Ctx.special (c : Ctx) (s : State) (n : Nat) (l : Nat) : Dword :=
  let x := c.b.coord
  let lin := 128 * c.ref.w + l
  let nat (k : Nat) : Dword := BitVec.ofNat 64 k
  let pos (i : Nat) : Dword := match s.gridOf c.b with
    | some g => nat (if i == 0 then lin % g.launch.bx else if i == 1 then lin / g.launch.bx % g.launch.by'
        else lin / g.launch.bx / g.launch.by')
    | none => nat (if i == 0 then l else 0)
  match n with
  | 0 => nat l
  | 1 => nat c.ref.w
  | 2 => nat (c.b.variant.stageOf c.ref.w)
  | 3 => nat x.1
  | 4 => nat x.2.1
  | 5 => nat x.2.2
  | 6 => pos 0
  | 7 => pos 1
  | 8 => pos 2
  | 9 => c.b.gridId.setWidth 64
  | 10 => nat c.b.die
  | 11 => nat (c.b.coreHold c.ref.w).core
  | 12 => nat c.b.varIdx
  | 13 => nat s.clockVal
  | 14 => nat s.wsPhase
  | 15 => c.w.fflags.setWidth 64
  | 16 => c.w.fctl.setWidth 64
  | 17 => (c.w.tlanes.extractLsb' 0 32).setWidth 64
  | 18 => (c.w.tlanes.extractLsb' 32 32).setWidth 64
  | 19 => (c.w.tlanes.extractLsb' 64 32).setWidth 64
  | 20 => (c.w.tlanes.extractLsb' 96 32).setWidth 64
  | 21 => c.w.tpc
  | 22 => c.w.tcause.setWidth 64
  | 23 => c.w.tinfo.setWidth 64
  | _ => 0

def srdSubs (f : Bool) (n : BitVec 6) : List Nat := need (decide (n.toNat ≤ 23) && !(f && specialPerLane n)) 8

/-- SRD (R170). -/
def execSrd (p : Pred) (d : Reg5) (f : Bool) (n : BitVec 6) (s : State) : Host.Outcome State Fault Refusal :=
  withCtx s fun c => checked s c (srdSubs f n)
    (let k := if special64 n then 2 else 1
     done s c 1 (if f then (if c.executes p then c.putSn k d (c.special s n.toNat 0) else c.w)
       else c.putVn k d (c.active p) (c.special s n.toNat)))

/-! ## Triggers, switch points, steps -/

/-- TRIG (R173): a full-data release, then the block is recorded. In a task it has no effect. -/
def execTrig (s : State) : Host.Outcome State Fault Refusal :=
  withCtx s fun c =>
    if c.b.isTask then done s c 1 c.w
    else if c.w.settled false then done ((s.releaseAll c.b.die).blockTriggers c.ref.m) c 1 c.w
    else s

/-- WAITDEP (R174). -/
def execWaitdep (s : State) : Host.Outcome State Fault Refusal :=
  withCtx s fun c =>
    match s.gridOf c.b with
    | some g =>
      if !g.launch.earlyStart then done s c 1 c.w
      else if g.producers.isEmpty then done (s.acquireAll c.b.die) c 1 c.w
      else s
    | none => done s c 1 c.w

/-- Would the warp have arrived at a switch point once these lanes are held? -/
def Ctx.wouldArrive (c : Ctx) : Bool :=
  (c.w.heldLanes ||| c.c.lanes) == c.w.liveLanes && c.w.held.all fun h => !h.step

/-- R175: the image's id; the id of the warp's first arriving lanes; the id of the first warp that arrived. -/
def switchSubs (c : Ctx) (i : BitVec 10) : List Nat :=
  let id := i.toNat
  let known := (c.b.variant.switches.any fun p => p.id == id)
  let same := match c.w.heldId with
    | some k => k == id
    | none => true
  need (known && (c.b.isTask || (same && !(c.wouldArrive && c.b.otherId id)))) 8

/-- Hold the clause's lanes at the header that follows: at a STEP, or at a switch point of that id. -/
def holdAt (s : State) (c : Ctx) (id : Option Nat) : State :=
  (doneTo s c { c.w with
    held := c.w.held ++ [⟨c.c.fall, c.c.lanes, c.c.base, id.isNone, c.c.next⟩]
    heldId := id.or c.w.heldId } []).afterLanes c.ref

/-- SWITCHPT (R175): a task falls through; a block's lanes are held until every live warp has arrived. -/
def execSwitchpt (i : BitVec 10) (s : State) : Host.Outcome State Fault Refusal :=
  withCtx s fun c => checked s c (switchSubs c i)
    (if c.b.isTask then doneTo s c c.w [⟨c.c.fall, c.c.base, c.c.lanes⟩]
     else if c.w.settled false then holdAt s c (some i.toNat) else s)

/-- STEP cannot stand in a task. -/
def stepSubs (c : Ctx) : List Nat := need (!c.b.isTask) 8

/-- STEP (R176). -/
def execStep (s : State) : Host.Outcome State Fault Refusal :=
  withCtx s fun c => checked s c (stepSubs c) (if c.w.settled false then holdAt s c none else s)

/-- BEAT (R178). -/
def execBeat (s : State) : Host.Outcome State Fault Refusal :=
  withCtx s fun c => done (s.progress c.ref.m true) c 1 c.w

/-! ## Frames and keys -/

def reggiveSubs (c : Ctx) (n : BitVec 6) : List Nat :=
  need (n != 0 && decide (4 + n.toNat ≤ c.w.allot) && decide (c.w.residentFrames + n.toNat ≤ c.w.allot)) 8

/-- Change the frame pool of the warp's core. -/
def State.modPool (s : State) (c : Ctx) (f : Nat → Nat) : State :=
  s.modMaster c.ref.m fun b => { b with cores := modAt b.cores (c.b.spanOf c.ref.w) fun h => { h with pool := f h.pool } }

/-- REGGIVE (R179). -/
def execReggive (n : BitVec 6) (s : State) : Host.Outcome State Fault Refusal :=
  withCtx s fun c => checked s c (reggiveSubs c n)
    (done (s.modPool c (· + n.toNat)) c 1 { c.w with allot := c.w.allot - n.toNat })

def regclaimSubs (c : Ctx) (n : BitVec 6) : List Nat := need (n != 0 && decide (c.w.allot + n.toNat ≤ 64)) 8

/-- REGCLAIM (R179). -/
def execRegclaim (q : BitVec 3) (n : BitVec 6) (s : State) : Host.Outcome State Fault Refusal :=
  withCtx s fun c => checked s c (regclaimSubs c n)
    (if n.toNat ≤ (c.b.coreHold c.ref.w).pool then
       done (s.modPool c (· - n.toNat)) c 1 { (c.w.setP q.toNat c.c.lanes Mask.all) with allot := c.w.allot + n.toNat }
     else done s c 1 (c.w.setP q.toNat c.c.lanes 0))

def keydropSubs (c : Ctx) (a : Reg5) : List Nat := need (decide ((c.w.s5 a).toNat < 2 ^ 20)) 8

/-- KEYDROP (R180): the warp's earlier accesses perform, then the key is released with its bound regions published. -/
def execKeydrop (a : Reg5) (s : State) : Host.Outcome State Fault Refusal :=
  withCtx s fun c => checked s c (keydropSubs c a)
    (let k := (c.w.s5 a).toNat
     if !c.b.keys.contains k then done s c 1 c.w
     else if c.w.settled false then done (s.releaseKeys c.ref.m [k] false) c 1 c.w
     else s)

end Sys2Proof.Machine
end

