-- ==== Sys2Proof/Machine/Tiles.lean ====
section
/-! DEFINITION. Split tiles (R224 to R230): their layout, values, checks and encoding; and accumulator tiles (R299, R301). -/

namespace Sys2Proof

def FVal.abs : FVal → FVal
  | .nan _ s p => .nan false s p
  | .inf _ => .inf false
  | .fin _ m e => .fin false m e

end Sys2Proof

namespace Sys2Proof.Machine

/-! ## Reading a split tile -/

/-- Magnitude bits of a tile format code 16 to 18. -/
def tileN (fmt : Nat) : Nat := if fmt == 16 then 2 else if fmt == 17 then 3 else 7

/-- Bytes of a split tile, by format code (R224). -/
def splitBytes (fmt : Nat) : Nat := 1152 + 1024 * blockBytes (tileN fmt)

/-- Body block j of a row, as a number. -/
def tileBlock (bs : List Byte) (n row j : Nat) : Nat := recNat bs (128 + blockBytes n * (16 * row + j)) (blockBytes n)

/-- An in-use entry of the outlier list (R226). -/
structure OutEnt where
  row : Nat
  col : Nat
  value : FVal
  deriving DecidableEq, Repr

def tileEntries (bs : List Byte) (n : Nat) : List OutEnt :=
  (List.range (recNat bs 6 2)).map fun i =>
    let e := recNat bs (128 + 1024 * blockBytes n + 4 * i) 4
    ⟨e / 2 ^ 10 % 64, e / 4 % 256, bfp16.decode (e / 2 ^ 16)⟩

/-- The body value of an element, with the classes it raises (R220). -/
def tileBody (bs : List Byte) (n row k : Nat) : FVal × Exc := wblockDecode (tileBlock bs n row (k / 16)) (k % 16) n

/-- R227. -/
def tileValue (bs : List Byte) (row k : Nat) : FVal × Exc :=
  let n := tileN (recNat bs 0 1)
  if recNat bs 2 1 ≤ row || recNat bs 4 2 ≤ k then (.zero false, 0)
  else
    let (v, e) := tileBody bs n row k
    match (tileEntries bs n).find? fun o => o.row == row && o.col == k with
    | some o => let (r, f) := v.add .rn o.value; (r, e ||| f)
    | none => (v, e)

/-- Are the entries strictly ascending by row, then column? -/
def ascendingEntries : List OutEnt → Bool
  | [] => true
  | a :: r => (match r with
    | [] => true
    | b :: _ => decide (a.row < b.row) || (a.row == b.row && decide (a.col < b.col))) && ascendingEntries r

/-- R228: the first reason for which a consumer refuses the tile. -/
def tileReason (bs : List Byte) (expected : Nat) : Option Nat :=
  let f := recNat bs 0 1
  let rows := recNat bs 2 1
  let cols := recNat bs 4 2
  let es := tileEntries bs (tileN f)
  if !decide (16 ≤ f ∧ f ≤ 18) then some 1
  else if f != expected then some 0
  else if !(decide (1 ≤ rows ∧ rows ≤ 64) && decide (1 ≤ cols ∧ cols ≤ 256)) then some 2
  else if decide (256 < recNat bs 6 2) || decide (16128 < recNat bs 8 2) then some 3
  else if !ascendingEntries es then some 4
  else if es.any fun o => decide (rows ≤ o.row) || decide (cols ≤ o.col) then some 5
  else if decide (8 ≤ recNat bs 1 1) || (((bs.drop 12).take 116).any fun b => b != 0) then some 6
  else none

/-! ## Encoding a split tile (R229) -/

/-- The power of two that AUTO mode chooses: the smallest of at least 2^-133 that at most 256 inputs reach. -/
def autoThreshold (xs : List FVal) : FVal :=
  let fits (i : Nat) : Bool := decide ((xs.filter fun x => !x.abs.lt (.fin false 1 ((i : Int) - 133))).length ≤ 256)
  match (List.range 261).find? fits with
  | some i => .fin false 1 ((i : Int) - 133)
  | none => .fin false 1 127

/-- The bytes of a tile and its clamped count. `thr` none is auto; sources are flushed by the caller (R450). -/
def splitEncode (x : Nat → Nat → FVal) (rows cols fmt : Nat) (thr : Option FVal) (spill : Nat) (rd : Rnd) :
    List Byte × Nat :=
  let n := tileN fmt
  let pos := (List.range rows).flatMap fun r => (List.range cols).map fun c => (r, c)
  let v := pos.filter fun p => !(x p.1 p.2).isNaN
  let t := thr.getD (autoThreshold (v.map fun p => x p.1 p.2))
  let q := v.filter fun p => !(x p.1 p.2).abs.lt t
  let before (a b : Nat × Nat) : Bool :=
    (x b.1 b.2).abs.lt (x a.1 a.2).abs ||
      (!(x a.1 a.2).abs.lt (x b.1 b.2).abs && (decide (a.1 < b.1) || (a.1 == b.1 && decide (a.2 < b.2))))
  let o := q.filter fun p => decide ((q.filter fun r => before r p).length < 256)
  let k := q.filter fun p => !o.contains p
  let input (r c : Nat) : BlkIn :=
    if decide (rows ≤ r) || decide (cols ≤ c) || o.contains (r, c) then .skip
    else if k.contains (r, c) then .clamped (x r c).sign t
    else .value (x r c)
  let blocks := (List.range 64).flatMap fun r => (List.range 16).map fun j =>
    (wblockEncode ((List.range 16).map fun i => input r (16 * j + i)) n rd).1
  let entry (p : Nat × Nat) : Nat :=
    let (b, e) := bfp16.encode (x p.1 p.2) .rn false false
    b * 2 ^ 16 + p.1 * 2 ^ 10 + p.2 * 4 + (if e.getLsbD 2 then 2 else 0) + (if e.getLsbD 4 then 1 else 0)
  let flags := (if blocks.any fun b => b % 256 == 255 then 1 else 0) + (if k.isEmpty then 0 else 2)
  (leBytes 1 fmt ++ leBytes 1 flags ++ leBytes 1 rows ++ leBytes 1 spill ++ leBytes 2 cols ++ leBytes 2 o.length ++
    leBytes 2 k.length ++ leBytes 2 (bfp16.encode t .rn false false).1 ++ List.replicate 116 0 ++
    blocks.flatMap (leBytes (blockBytes n)) ++ (o.map entry).flatMap (leBytes 4) ++ List.replicate (4 * (256 - o.length)) 0,
   k.length)

/-! ## Accumulator tiles -/

/-- Word i of a tile as ACCZ leaves it (R301): its elements, then its side registers' image. -/
def sideInit (i : Nat) : Word :=
  if decide (16384 ≤ i ∧ i < 16448) then 0xFF800000 else if decide (16512 ≤ i ∧ i < 16576) then 0x3F800000 else 0

/-- Word i of a tile. The exception word holds five bits and the words after it are zero. -/
def AccTile.word (t : AccTile) (i : Nat) : Word :=
  if 16576 < i then 0
  else
    let w := (aget t.words i).getD (match t.base with
      | none => sideInit i
      | some k => Config.freeWord k i)
    if i == 16576 then w &&& 0x1F else w

def AccTile.elem (t : AccTile) (m n : Nat) : Word := t.word (256 * m + n)
def AccTile.set (t : AccTile) (i : Nat) (w : Word) : AccTile := { t with words := aset t.words i w }
def AccTile.setElem (t : AccTile) (m n : Nat) (w : Word) : AccTile := t.set (256 * m + n) w

def AccTile.rowMax (t : AccTile) (m : Nat) : Word := t.word (16384 + m)
def AccTile.rowSum (t : AccTile) (m : Nat) : Word := t.word (16448 + m)
def AccTile.rescale (t : AccTile) (m : Nat) : Word := t.word (16512 + m)
def AccTile.setRescale (t : AccTile) (m : Nat) (w : Word) : AccTile := t.set (16512 + m) w

/-- Exceptions are sticky in the exception word. -/
def AccTile.raise (t : AccTile) (e : Exc) : AccTile := t.set 16576 (t.word 16576 ||| e.setWidth 32)

/-- The 1,024 bytes of the side registers (R301). -/
def AccTile.sideImage (t : AccTile) : List Byte := (List.range 256).flatMap fun i => leBytes 4 (t.word (16384 + i)).toNat

end Sys2Proof.Machine
end

