-- ==== Sys2Proof/Machine/Box.lean ====
section
/-! DEFINITION. What a copy or a prologue fill moves: its descriptor (R276, R277, R283, R293, R295), the byte order in which it
writes (R284 to R287), and its granules with their checks (R285, R288). -/

namespace Sys2Proof.Machine

/-- A number's field of n bits from lo. -/
def bitsAt (w : Word) (lo n : Nat) : Nat := w.toNat / 2 ^ lo % 2 ^ n

def rndOf (n : Nat) : Rnd := if n == 0 then .rn else if n == 1 then .rz else if n == 2 then .rm else .rp

/-- The move of a copy or a fill. Spaces are 0 g:, 1 x:, 2 k:; `dpitch` is in bytes. -/
structure Box where
  src : Nat
  dst : Nat
  srcSp : Nat
  dstSp : Nat
  srcSw : Nat
  dstSw : Nat
  z : Nat
  h : Nat
  w : Nat
  spitch : Nat
  dpitch : Nat
  tr : Nat
  tfmt : Nat
  sfmt : Nat
  rnd : Rnd
  ftz : Bool
  spill : Nat
  thr : Option FVal
  idx : Nat
  deriving DecidableEq, Repr

/-! ## Descriptors -/

/-- Word i of a descriptor. -/
def dword (ws : List Word) (i : Nat) : Word := ws.getD i 0

/-- The move of a CPY descriptor; `tx` says whether it holds transform words. -/
def copyBox (tx : Bool) (ws : List Word) : Box :=
  let c := dword ws 0
  let t := if tx then dword ws 8 else 0
  let pair (i sp : Nat) : Nat := if sp == 0 then (dword ws i).toNat + 2 ^ 32 * (dword ws (i + 1)).toNat else (dword ws i).toNat
  let par := if tx then dword ws 9 else 0
  { src := pair 1 (bitsAt c 11 2), dst := pair 3 (bitsAt c 9 2), srcSp := bitsAt c 11 2, dstSp := bitsAt c 9 2
    srcSw := bitsAt c 0 3, dstSw := bitsAt c 3 3, z := 2 ^ bitsAt c 6 3, h := bitsAt (dword ws 5) 16 16
    w := bitsAt (dword ws 5) 0 16, spitch := (dword ws 6).toNat, dpitch := 16 * bitsAt (dword ws 7) 16 16
    tr := bitsAt t 24 8, tfmt := bitsAt t 19 5, sfmt := bitsAt t 14 5, rnd := rndOf (bitsAt t 12 2), ftz := bitsAt t 11 1 == 1
    spill := bitsAt t 0 8, thr := if bitsAt t 10 1 == 1 then none else some (bfp16.decode (bitsAt par 0 16)), idx := par.toNat }

/-- The shuttle queue of a copy: its copy id (R280). -/
def copyQueue (ws : List Word) : Nat := bitsAt (dword ws 0) 29 3
def copySlices (ws : List Word) : Nat := bitsAt (dword ws 0) 21 8 + 1
def copySlice (ws : List Word) : Nat := bitsAt (dword ws 0) 13 8

/-- The barrier object a copy is bound to (R277). -/
def copyBound (ws : List Word) : Option BarName :=
  let w := dword ws 7
  if bitsAt w 15 1 == 0 then none
  else some (if bitsAt w 14 1 == 1 then .hw (bitsAt w 0 14) else .slot (16 * bitsAt w 0 14))

/-- The move of a transform binding for the block at a coordinate (R295). -/
def fillBox (b : XformBind) (x y : Nat) : Box :=
  let z := if b.transform == 2 then scalarBytes b.format else if b.transform == 0 then 1 else 2
  { src := (b.src.toNat + b.stepX * x + b.stepY * y) % 2 ^ 64, dst := b.dest, srcSp := 0, dstSp := 1, srcSw := 0, dstSw := b.swizzle
    z := z, h := if b.transform == 1 then 64 * b.rows else b.rows
    w := if b.transform == 1 || b.transform == 3 then 256 else b.rowBytes / z, spitch := b.pitch
    dpitch := if b.transform == 0 then b.rowBytes else if b.transform == 1 then 512
      else if b.transform == 2 then 32 * ceilDiv b.rows 32 * z else splitBytes b.format
    tr := b.transform, tfmt := b.format, sfmt := 2, rnd := .rn, ftz := false, spill := 255, thr := none, idx := 0 }

/-! ## Bytes and their order -/

/-- Bytes of one unit of copy order: a destination row, or a split tile. -/
def Box.unit (x : Box) : Nat :=
  if x.tr == 2 then 32 * ceilDiv x.h 32 * x.z else if x.tr == 3 then splitBytes x.tfmt else x.w * x.z

/-- Units of a move. -/
def Box.units (x : Box) : Nat :=
  if x.tr == 2 then 32 * ceilDiv x.w 32 else if x.tr == 3 then ceilDiv x.h 64 * ceilDiv x.w 256 else x.h

/-- The bytes a move writes and counts (R286). -/
def Box.total (x : Box) : Nat := x.units * x.unit

/-- The destination address of unit i, swizzle apart. -/
def Box.unitAt (x : Box) (i : Nat) : Nat :=
  if x.tr == 3 then
    let nb := ceilDiv x.w 256
    x.dst + x.dpitch * (i / nb) + splitBytes x.tfmt * (i % nb)
  else x.dst + x.dpitch * i

/-- Addresses wrap by space (R284). -/
def wrapSpace (sp a : Nat) : Nat := if sp == 0 then a % 2 ^ 64 else a % 2 ^ 32

/-- The granule at a landed run of bytes: unit, offset within it, address, length (R287). -/
def Box.granule (x : Box) (landed : Nat) : Nat × Nat × Nat × Nat :=
  let i := landed / x.unit
  let o := landed % x.unit
  let a := wrapSpace x.dstSp (x.unitAt i + o)
  (i, o, a, min (x.unit - o) (128 - a % 128))

/-! ## Ranges of x: (R280, R308) -/

/-- A range widened to what a swizzle may move it within (R261). -/
def xRange (sw lo n : Nat) : Nat × Nat := if sw == 0 then (lo, n) else (lo / 256 * 256, ceilDiv (lo + n) 256 * 256 - lo / 256 * 256)

/-- The ranges of `n` bytes that start at an address of x: and wrap modulo 2^32 (R284), each widened by its swizzle. -/
def xWrapped (sw lo n : Nat) : List (Nat × Nat) :=
  let a := lo % 2 ^ 32
  if a + n ≤ 2 ^ 32 then [xRange sw a n] else [xRange sw a (2 ^ 32 - a), xRange sw 0 (a + n - 2 ^ 32)]

/-- The x: ranges a move reads; a gather may read any row (log 22). -/
def Box.reads (x : Box) : List (Nat × Nat) :=
  (if x.srcSp != 1 then []
   else if x.tr == 4 then [(0, 2 ^ 32)]
   else if x.tr == 1 then (List.range (ceilDiv x.h 64)).flatMap fun a =>
     xWrapped x.srcSw (x.src + x.spitch * a) (splitBytes x.tfmt * ceilDiv x.w 256)
   else (List.range x.h).flatMap fun i => xWrapped x.srcSw (x.src + x.spitch * i) (x.w * x.z)) ++
  (if x.tr == 4 then xWrapped 0 x.idx (4 * x.h) else [])

/-- The x: ranges a move writes. -/
def Box.writes (x : Box) : List (Nat × Nat) :=
  if x.dstSp != 1 then [] else (List.range x.units).flatMap fun i => xWrapped x.dstSw (x.unitAt i) x.unit

/-! ## Accesses of a granule (R285, R288) -/

/-- What one access of an engine gives. -/
inductive EngRes where
  | ok (bs : List Byte)
  | missing (va level : Nat) (write : Bool)
  | bad (cause addr : Nat)
  deriving DecidableEq, Repr

/-- Do n bytes at a g: or k: address lie outside the segment (R249)? -/
def Master.outside (b : Master) (sp a n : Nat) : Bool :=
  let g := b.seg (if sp == 0 then .g else .k)
  if sp == 0 then decide (a < g.base ∨ g.base + g.limit < a + n ∨ 2 ^ 57 < a + n) else decide (g.limit < a + n)

/-- Check and read n bytes at an address of a space; z is the element size checked for alignment. -/
def State.engRead (s : State) (b : Master) (sp sw addr n z : Nat) : State × EngRes :=
  let a := wrapSpace sp addr
  if a % z != 0 then (s, .bad 0x10 a)
  else if sp == 1 then
    let pos := (List.range n).map fun i => swizzle sw (a + i)
    match pos.find? fun p => decide ((b.seg .x).limit ≤ p) with
    | some p => (s, .bad 0x11 p)
    | none => if pos.any b.xPoison.contains then (s, .bad 0x15 a) else (s, .ok (pos.map b.x.read))
  else
    let g := b.seg (if sp == 0 then .g else .k)
    if b.outside sp a n then (s, .bad 0x11 a)
    else match s.vaRead b.die b.queue b.ctx (if sp == 0 then a else g.base + a) n with
      | (t, .ok bs) => (t, .ok bs)
      | (t, .missing va l) => (t, .missing va l false)
      | (t, .bad c _) => (t, .bad c a)

/-- Check and write bytes at an address of a space. -/
def State.engWrite (s : State) (m : Nat) (b : Master) (sp sw addr z : Nat) (bs : List Byte) : State × EngRes :=
  let a := wrapSpace sp addr
  let n := bs.length
  if a % z != 0 then (s, .bad 0x10 a)
  else if sp == 1 then
    let pos := (List.range n).map fun i => swizzle sw (a + i)
    match pos.find? fun p => decide ((b.seg .x).limit ≤ p) with
    | some p => (s, .bad 0x11 p)
    | none => ((pos.zip bs).foldl (fun t p => t.xWrite m p.1 [p.2]) s, .ok [])
  else
    let g := b.seg (if sp == 0 then .g else .k)
    if b.outside sp a n then (s, .bad 0x11 a)
    else match s.vaWrite b.die b.queue b.ctx (if sp == 0 then a else g.base + a) bs with
      | (t, .ok _) => (t, .ok [])
      | (t, .missing va l) => (t, .missing va l true)
      | (t, .bad c _) => (t, .bad c a)

/-- The virtual address of an address of g: or k:. -/
def Master.virtual (b : Master) (sp a : Nat) : Nat := if sp == 0 then a else (b.seg .k).base + a

/-- Does a virtual address lead to another package (R246)? -/
def State.remoteVa (s : State) (b : Master) (va : Nat) : Bool :=
  match (s.translate b.die b.queue b.ctx va .home).2 with
  | .ok p => p.kind == 2
  | _ => false

/-- Read several pieces, one after another; the first that fails decides. -/
def State.engReads (s : State) (b : Master) (sp sw : Nat) : List (Nat × Nat × Nat) → State × EngRes
  | [] => (s, .ok [])
  | (a, n, z) :: r =>
    match s.engRead b sp sw a n z with
    | (t, .ok bs) => match t.engReads b sp sw r with
      | (u, .ok cs) => (u, .ok (bs ++ cs))
      | x => x
    | x => x

/-- What a granule writes, or why it cannot; `clamped` is a split tile's clamped count. -/
inductive GranuleRes where
  | ok (bs : List Byte) (clamped : Nat)
  | fail (r : EngRes)
  | malformed (reason : Nat)
  deriving DecidableEq, Repr

/-- A tile of a dequantise transform as read and checked. -/
def State.deqTile (s : State) (b : Master) (x : Box) (i j : Nat) : State × GranuleRes :=
  match s.engRead b x.srcSp x.srcSw (x.src + x.spitch * i + splitBytes x.tfmt * j) (splitBytes x.tfmt) 1 with
  | (t, .ok bs) => (t, match tileReason bs x.tfmt with
      | some r => .malformed r
      | none => .ok bs 0)
  | (t, r) => (t, .fail r)

/-- The scalar format of a transform: codes 0 to 2. -/
def scalarFmt (n : Nat) : Fmt := if n == 0 then .f32 else if n == 1 then .f16 else .bf16

/-- Rows of split-encode sources: rows × cols values of tile (a, b). -/
def State.encTile (s : State) (b : Master) (x : Box) (a c : Nat) : State × GranuleRes :=
  let rows := min 64 (x.h - 64 * a)
  let cols := min 256 (x.w - 256 * c)
  match s.engReads b x.srcSp x.srcSw ((List.range rows).map fun r =>
      (x.src + x.spitch * (64 * a + r) + x.z * 256 * c, x.z * cols, x.z)) with
  | (t, .ok bs) =>
    let f := scalarFmt x.sfmt
    let v (r k : Nat) : FVal := f.ftzSource x.ftz (f.decode (BitVec.ofNat 32 (recNat bs (x.z * (cols * r + k)) x.z)))
    let (tile, n) := splitEncode v rows cols x.tfmt x.thr x.spill x.rnd
    (t, .ok tile n)
  | (t, r) => (t, .fail r)

/-- What a copy holds of the unit it is in, by row or tile: bytes, and a split tile's clamped count. -/
abbrev Stage := List (Nat × List Byte × Nat)

/-- What is held under key j, read by `f` when the copy first reaches it. -/
def Stage.get (g : Stage) (j : Nat) (f : State → State × GranuleRes) (s : State) : State × Stage × GranuleRes :=
  match aget g j with
  | some (bs, c) => (s, g, .ok bs c)
  | none => match f s with
    | (t, .ok bs c) => (t, aset g j (bs, c), .ok bs c)
    | (t, r) => (t, g, r)

/-- The source side of a granule: the bytes it will write (R284). A gather index is read when the copy reaches its row, and a
tile is read, checked or encoded whole before any byte of it lands; `g` holds these while the copy is in their unit. -/
def State.granuleSource (s : State) (b : Master) (x : Box) (g : Stage) (i o n : Nat) : State × Stage × GranuleRes :=
  let plain (s : State) (row : Nat) : State × GranuleRes :=
    match s.engRead b x.srcSp x.srcSw (x.src + x.spitch * row + o) n x.z with
    | (t, .ok bs) => (t, .ok bs 0)
    | (t, r) => (t, .fail r)
  match x.tr with
  | 4 =>
    match Stage.get (g.filter fun e => e.1 == i) i (fun s => match s.engRead b 1 0 (x.idx + 4 * i) 4 4 with
        | (t, .ok bs) => (t, .ok bs 0)
        | (t, r) => (t, .fail r)) s with
    | (t, g, .ok bs _) => let (u, r) := plain t (leNat bs); (u, g, r)
    | q => q
  | 2 =>
    let elems := (List.range (n / x.z)).map fun k => o / x.z + k
    let (t, r) := elems.foldl (fun (p : State × GranuleRes) j =>
      match p with
      | (t, .ok bs _) =>
        if decide (j < x.h ∧ i < x.w) then
          (match t.engRead b x.srcSp x.srcSw (x.src + x.spitch * j + x.z * i) x.z x.z with
           | (u, .ok cs) => (u, .ok (bs ++ cs) 0)
           | (u, r) => (u, .fail r))
        else (t, .ok (bs ++ List.replicate x.z 0) 0)
      | p => p) (s, .ok [] 0)
    (t, [], r)
  | 1 =>
    let nb := ceilDiv x.w 256
    let j0 := o / x.z
    let j1 := (o + n - 1) / x.z
    let tiles := (List.range (j1 / 256 + 1 - j0 / 256)).map fun k => j0 / 256 + k
    tiles.foldl (fun (p : State × Stage × GranuleRes) tb =>
      match p with
      | (t, g, .ok bs _) => match Stage.get g (nb * (i / 64) + tb) (fun s => s.deqTile b x (i / 64) tb) t with
        | (u, g, .ok tile _) =>
          let js := ((List.range (n / x.z)).map (j0 + ·)).filter fun j => j / 256 == tb
          (u, g, .ok (bs ++ js.flatMap fun j =>
            leBytes x.z ((scalarFmt x.sfmt).encode (tileValue tile (i % 64) (j % 256)).1 x.rnd false x.ftz).1.toNat) 0)
        | q => q
      | p => p) (s, g.filter fun e => e.1 / nb == i / 64, .ok [] 0)
  | 3 =>
    let nb := ceilDiv x.w 256
    match Stage.get (g.filter fun e => e.1 == i) i (fun s => s.encTile b x (i / nb) (i % nb)) s with
    | (t, g, .ok bs c) => (t, g, .ok ((bs.drop o).take n) c)
    | q => q
  | _ => let (t, r) := plain s i; (t, [], r)

/-- What a granule reads of the source: address and length. A gather's row is known once its index has been read. -/
def Box.sources (x : Box) (g : Stage) (i o n : Nat) : List (Nat × Nat) :=
  let nb := ceilDiv x.w 256
  match x.tr with
  | 4 => (match aget g i with | some (bs, _) => [(x.src + x.spitch * leNat bs + o, n)] | none => [])
  | 2 => (List.range (n / x.z)).map fun k => (x.src + x.spitch * (o / x.z + k) + x.z * i, x.z)
  | 1 => [(x.src + x.spitch * (i / 64) + splitBytes x.tfmt * (o / x.z / 256), splitBytes x.tfmt)]
  | 3 => (List.range (min 64 (x.h - 64 * (i / nb)))).map fun r =>
      (x.src + x.spitch * (64 * (i / nb) + r) + x.z * 256 * (i % nb), x.z * min 256 (x.w - 256 * (i % nb)))
  | _ => [(x.src + x.spitch * i + o, n)]

end Sys2Proof.Machine
end

