-- ==== Sys2Proof/Machine/Transcendental.lean ====
section
/-! DEFINITION. The transcendental functions of R204 and R205. Each finite result is the exact value rounded once to FP32.
It is found by enclosing the exact value between two numbers and rounding both: when they round alike, that is the
rounded value. The enclosures are fixed-point sums whose error is far below the stated margin; the precision is raised
when the two ends differ. -/

namespace Sys2Proof

/-- The margin, in units of the last place of a working precision: every sum below makes fewer than 2^12 steps, each
cutting off less than a few units. -/
def transMargin : Nat := 2 ^ 24

/-- Sum of the series t0, t0*r/(k..) given by repeatedly multiplying the last term by `x / 2^p` and dividing by `d k`. -/
def seriesGo (p x : Nat) (d : Nat → Nat) (alternate : Bool) : Nat → Nat → Nat → Bool → Int → Int
  | 0, _, _, _, acc => acc
  | n + 1, k, term, neg, acc =>
    let acc' := if neg then acc - term else acc + term
    seriesGo p x d alternate n (k + 1) ((term * x / 2 ^ p) / d k) (alternate && !neg) acc'

/-- arctan(1/k) * 2^p. -/
def atanInv (p k : Nat) : Int :=
  ((List.range (p + 1)).foldl (fun (st : Nat × Int) i =>
    let t : Nat := st.1 / (2 * i + 1)
    (st.1 / (k * k), if i % 2 == 0 then st.2 + t else st.2 - t)) (2 ^ p / k, 0)).2

/-- pi/2 * 2^p (Machin's formula). -/
def halfPi (p : Nat) : Nat := (8 * atanInv p 5 - 2 * atanInv p 239).toNat

/-- 2 * atanh(z / 2^p) * 2^p for z below 2^(p-1): the logarithm of (1 + z) / (1 - z). -/
def logSeries (p z : Nat) : Nat :=
  2 * ((List.range (p / 2 + 2)).foldl (fun (st : Nat × Nat) i =>
    (st.1 * z / 2 ^ p * z / 2 ^ p, st.2 + st.1 / (2 * i + 1))) (z, 0)).2

/-- ln 2 * 2^p. -/
def ln2 (p : Nat) : Nat := logSeries p (2 ^ p / 3)

/-- (e^(x / 2^p) - 1) * 2^p for x at most 2^(p+6). -/
def expm1 (p x : Nat) : Nat :=
  (seriesGo p x (fun k => k + 2) false (p + 256) 0 x false 0).toNat

/-- cos and sin of x / 2^p for x at most 2^(p+1), times 2^p. -/
def cosFix (p x : Nat) : Int :=
  seriesGo p (x * x / 2 ^ p) (fun k => (2 * k + 1) * (2 * k + 2)) true (p / 4 + 16) 0 (2 ^ p) false 0
def sinFix (p x : Nat) : Int :=
  seriesGo p (x * x / 2 ^ p) (fun k => (2 * k + 2) * (2 * k + 3)) true (p / 4 + 16) 0 x false 0

/-- A value known to lie within the margin of v * 2^e, rounded to FP32 when both ends round alike. -/
def roundEnclosed (neg : Bool) (v : Nat) (e : Int) : Option (Nat × Exc) :=
  let lo := fp32.encode (.fin neg (v - transMargin) e) .rn false false
  let hi := fp32.encode (.fin neg (v + transMargin) e) .rn false false
  if decide (transMargin < v) && lo.1 == hi.1 then some hi else none

/-- Try the working precisions in turn. -/
def refine (f : Nat → Option (Nat × Exc)) : List Nat → Option (Nat × Exc)
  | [] => none
  | p :: ps => match f p with
    | some r => some r
    | none => refine f ps

def precisions : List Nat := [96, 192, 448]

/-- A value just below m * 2^e in magnitude, by less than every FP32 quantum. -/
def justBelow (neg : Bool) (m : Nat) (e : Int) : FVal := .fin neg (m * 2 ^ 300 - 1) (e - 300)

/-- The result of a finite transcendental: the rounded FP32 bits and the classes of the rounding. `unproved` stands for a
result that the working precisions do not settle; no FP32 argument is known to need it. -/
def settle (r : Option (Nat × Exc)) (unproved : Word) : Word × Exc :=
  match r with
  | some (b, e) => (BitVec.ofNat 32 b, e)
  | none => (unproved, 0)

/-- 2^a for a finite a = (-1)^neg * m * 2^e. -/
def ex2Fin (neg : Bool) (m : Nat) (e : Int) (w : Word) : Word × Exc :=
  if m == 0 then (0x3F800000, 0)
  else
    let lg := floorLog2 m e
    if lg ≥ 7 && !neg then (0x7F800000, excOverflow)
    else if lg ≥ 8 then (0, 0)
    else if e ≥ 0 then
      let k : Int := if neg then -(inUnits m e 0 : Int) else inUnits m e 0
      Fmt.f32.encode (.fin false 1 k) .rn false false
    else
      let s := (-e).toNat
      let ip := m / 2 ^ s          -- |a| = ip + fr / 2^s
      let fr := m % 2 ^ s
      if fr == 0 then Fmt.f32.encode (.fin false 1 (if neg then -(ip : Int) else ip)) .rn false false
      else
        -- 2^a = 2^k * 2^(g / 2^s) with 0 < g < 2^s
        let k : Int := if neg then -(ip : Int) - 1 else ip
        let g := if neg then 2 ^ s - fr else fr
        settle (refine (fun p =>
          let x := g * ln2 p / 2 ^ s
          roundEnclosed false (2 ^ p + expm1 p x) (k - p)) precisions) (Config.transcendental 0 w)

/-- log2 a for a positive finite a = m * 2^e. -/
def lg2Fin (m : Nat) (e : Int) (w : Word) : Word × Exc :=
  let lg := floorLog2 m e
  if m == 2 ^ m.log2 then Fmt.f32.encode (.ofInt lg) .rn false false
  else
    settle (refine (fun p =>
      -- a = 2^lg * (1 + r / 2^n), and ln(1 + y) = 2 atanh(y / (2 + y))
      let n := m.log2
      let r := m - 2 ^ n
      let z := r * 2 ^ p / (2 ^ (n + 1) + r)
      let frac := logSeries p z * 2 ^ p / ln2 p
      let v : Int := lg * (2 ^ p : Nat) + frac
      roundEnclosed (decide (v < 0)) v.natAbs (-(p : Int))) precisions) (Config.transcendental 1 w)

/-- The quadrant of |a| and the distance into it, times 2^p, reduced exactly enough (R204). -/
def reduceArg (p m : Nat) (e : Int) : Nat × Nat :=
  let pp := p + 160
  let x := if e ≥ 0 then m <<< (pp + e.toNat) else (m <<< pp) >>> (-e).toNat
  let h := halfPi pp
  (x / h % 4, (x % h) >>> 160)

/-- sin (`isCos` false) or cos of a finite non-zero a. -/
def trigFin (isCos neg : Bool) (m : Nat) (e : Int) (w : Word) : Word × Exc :=
  let lg := floorLog2 m e
  if lg < -40 then
    if isCos then (0x3F800000, excInexact)
    else Fmt.f32.encode (justBelow neg m e) .rn false false
  else
    settle (refine (fun p =>
      let (q, x) := reduceArg p m e
      -- sin(q * pi/2 + x): sin x, cos x, -sin x, -cos x; cos: cos x, -sin x, -cos x, sin x
      let useCos := (q % 2 == 1) != isCos
      let v := if useCos then cosFix p x else sinFix p x
      let flip := if isCos then (q == 1 || q == 2) else ((q == 2 || q == 3) != neg)
      roundEnclosed (flip != decide (v < 0)) v.natAbs (-(p : Int))) precisions)
      (Config.transcendental (if isCos then 3 else 2) w)

/-- tanh of a finite non-zero a. -/
def tanhFin (neg : Bool) (m : Nat) (e : Int) (w : Word) : Word × Exc :=
  let lg := floorLog2 m e
  if lg < -40 then Fmt.f32.encode (justBelow neg m e) .rn false false
  else if lg ≥ 4 then (if neg then 0xBF800000 else 0x3F800000, excInexact)
  else
    settle (refine (fun p0 =>
      let p := p0 + 64
      -- t = 2 |a|, tanh |a| = (e^t - 1) / ((e^t - 1) + 2)
      let t := if e + 1 ≥ 0 then m <<< (p + (e + 1).toNat) else (m <<< p) >>> (-(e + 1)).toNat
      let u := expm1 p t
      roundEnclosed neg (u * 2 ^ p0 / (u + 2 ^ (p + 1))) (-(p0 : Int))) precisions) (Config.transcendental 4 w)

/-- The eight functions of R204. -/
inductive TransOp where
  | rcp | rsq | sqrt | ex2 | lg2 | sin | cos | tanh
  deriving DecidableEq, Repr

/-- R205, for an argument already flushed under .ftz: the result bits and the classes raised. -/
def transEval (o : TransOp) (a : FVal) (w : Word) : Word × Exc :=
  let nan : Word × Exc := (0x7FC00000, excInvalid)
  let zero (n : Bool) : Word := if n then 0x80000000 else 0
  let inf (n : Bool) : Word := if n then 0xFF800000 else 0x7F800000
  let one (n : Bool) : Word := if n then 0xBF800000 else 0x3F800000
  match a with
  | .nan _ s _ => ((Fmt.f32.encode a.quiet .rn false false).1, excIf s excInvalid)
  | .inf n =>
    match o with
    | .rcp => (zero n, 0)
    | .rsq => if n then nan else (zero false, 0)
    | .sqrt => if n then nan else (inf false, 0)
    | .ex2 => (if n then zero false else inf false, 0)
    | .lg2 => if n then nan else (inf false, 0)
    | .sin | .cos => nan
    | .tanh => (one n, 0)
  | .fin n 0 _ =>
    match o with
    | .rcp | .rsq => (inf n, excDivZero)
    | .sqrt | .sin | .tanh => (zero n, 0)
    | .ex2 | .cos => (one false, 0)
    | .lg2 => (inf true, excDivZero)
  | .fin n m e =>
    match o with
    | .rcp => let (q, k) := divMag 1 0 m e; Fmt.f32.encode (.fin n q k) .rn false false
    | .rsq => if n then nan else let (q, k) := rsqrtMag m e; ((Fmt.f32.encode (.fin false q k) .rn false false).1, 0)
    | .sqrt => if n then nan else let (q, k) := sqrtMag m e; Fmt.f32.encode (.fin false q k) .rn false false
    | .ex2 => let (b, x) := ex2Fin n m e w; (b, x &&& excOverflow)
    | .lg2 => if n then nan else ((lg2Fin m e w).1, 0)
    | .sin => ((trigFin false n m e w).1, 0)
    | .cos => ((trigFin true n m e w).1, 0)
    | .tanh => ((tanhFin n m e w).1, 0)

/-- Flush a subnormal FP32 result to a zero of its sign. -/
def flushResult (r : Word) : Word :=
  if fp32.subnormal (fp32.decode r.toNat) then r &&& 0x80000000 else r

/-- R204, R205 with .ftz: the result of an FP32 argument. -/
def transOp (o : TransOp) (ftz : Bool) (w : Word) : Word × Exc :=
  let a := ftzSource ftz fp32 (fp32.decode w.toNat)
  let (r, e) := transEval o a w
  if !ftz then (r, e)
  else match o with
    | .rcp | .sqrt => if fp32.subnormal (fp32.decode r.toNat) then (flushResult r, e ||| excUnderflow ||| excInexact) else (r, e)
    | _ => (flushResult r, e)

end Sys2Proof
end

