-- ==== Sys2Proof/Machine/Array.lean ====
section
/-! DEFINITION. What the matrix engines' commands do to array state and x: (R299 to R306, R312 to R320). -/

namespace Sys2Proof.Machine

/-- The effect of a command: array state of its core, bytes written to x:, and a clamped count that raises the
outlier-overflow trap. -/
structure CmdOut where
  arr : ArraySt
  writes : List (Nat × List Byte)
  trap : Option Nat
  deriving DecidableEq, Repr

/-- A split tile as a plane or a pass holds it. -/
def PlaneTile.ofBytes (bs : List Byte) : PlaneTile := ⟨recNat bs 0 1, recNat bs 2 1, recNat bs 4 2, bs⟩

/-! ## The pass (R300, R302, R303) -/

/-- The exact sum of products of one body block, from k0 to below kv. -/
def bodyTerm (a t : PlaneTile) (m r j kv : Nat) : FVal × Exc :=
  ((List.range 16).filter fun i => decide (16 * j + i < kv)).foldl (fun (p : FVal × Exc) i =>
    let (x, e1) := tileBody a.bytes (tileN a.fmt) m (16 * j + i)
    let (y, e2) := tileBody t.bytes (tileN t.fmt) r (16 * j + i)
    let (q, e3) := x.mul y
    let (s, e4) := p.1.add .rn q
    (s, p.2 ||| e1 ||| e2 ||| e3 ||| e4)) (.zero false, 0)

/-- The terms of one output element, with the classes their formation raises. -/
def passTerms (a t : PlaneTile) (m r : Nat) : List FVal × Exc :=
  let kv := min a.cols t.cols
  let es := tileEntries a.bytes (tileN a.fmt)
  let body := (List.range 16).map fun j => bodyTerm a t m r j kv
  let wouts := ((tileEntries t.bytes (tileN t.fmt)).filter fun o => o.row == r && decide (o.col < kv)).map fun o =>
    let (ab, e1) := tileBody a.bytes (tileN a.fmt) m o.col
    let ao := match es.find? fun x => x.row == m && x.col == o.col with
      | some x => x.value
      | none => .zero false
    let (f, e2) := ab.add .rn ao
    let (q, e3) := f.mul o.value
    (q, e1 ||| e2 ||| e3)
  let aouts := (es.filter fun o => o.row == m && decide (o.col < kv)).map fun o =>
    let (wb, e1) := tileBody t.bytes (tileN t.fmt) r o.col
    let (q, e2) := o.value.mul wb
    (q, e1 ||| e2)
  let all := body ++ wouts ++ aouts
  (all.map Prod.fst, all.foldl (fun e p => e ||| p.2) 0)

/-- The terms of an element that the pass writes (R300). -/
def ArraySt.terms (arr : ArraySt) (a : PlaneTile) (m n : Nat) : Option (List FVal × Exc) :=
  match arr.p0.getD (n / 64) none with
  | some t => if n % 64 < t.rows then some (passTerms a t m (n % 64)) else none
  | none => none

/-- Columns that a pass writes, ascending. -/
def ArraySt.columns (arr : ArraySt) : List Nat :=
  (List.range 256).filter fun n => match arr.p0.getD (n / 64) none with
    | some t => decide (n % 64 < t.rows)
    | none => false

def f32Val (w : Word) : FVal := fp32.decode w.toNat

def ArraySt.tile (arr : ArraySt) (d : Nat) : AccTile := arr.tiles.getD d ⟨none, []⟩
def ArraySt.setTile (arr : ArraySt) (d : Nat) (t : AccTile) : ArraySt := { arr with tiles := modAt arr.tiles d fun _ => t }

/-- One pass into tile d; `scale` multiplies every term exactly, C included (R315). -/
def ArraySt.pass (arr : ArraySt) (a : PlaneTile) (d : Nat) (acc : Bool) (scale : Option FVal) : ArraySt :=
  let old := arr.tile d
  let new := (List.range a.rows).foldl (fun t m => arr.columns.foldl (fun (t : AccTile) n =>
    match arr.terms a m n with
    | none => t
    | some (ts, e) =>
      let c := if acc then f32Val (old.elem m n) else .zero false
      let scaled := (ts ++ [c]).map fun x => match scale with
        | some k => x.mul k
        | none => (x, 0)
      let (w, e2) := windowSum (scaled.map Prod.fst) false
      (t.setElem m n w).raise (e ||| e2 ||| scaled.foldl (fun e p => e ||| p.2) 0)) t) old
  arr.setTile d new

/-- Pass P times V with the owed rescale (R316). -/
def ArraySt.chain (arr : ArraySt) (a : PlaneTile) (d s : Nat) : ArraySt :=
  let old := arr.tile d
  let side := arr.tile s
  let new := (List.range a.rows).foldl (fun t m => (List.range 256).foldl (fun (t : AccTile) n =>
    let (ts, e) := (arr.terms a m n).getD ([], 0)
    let (c, e1) := (f32Val (side.rescale m)).mul (f32Val (old.elem m n))
    let (w, e2) := windowSum (ts ++ [c]) false
    (t.setElem m n w).raise (e ||| e1 ||| e2)) t) old
  (arr.setTile d new).setTile s ((List.range a.rows).foldl (fun t m => t.setRescale m 0x3F800000) (arr.tile s))

/-- Online softmax over the scores of a row (R315): the tile with its side registers, the row's probabilities. -/
def smxRow (t : AccTile) (m : Nat) (cols : List Nat) : AccTile × List (Nat × Word) :=
  let mo := t.rowMax m
  let mn := cols.foldl (fun x n => (fpMinMax true .f32 false x (t.elem m n)).1) mo
  if mn == 0xFF800000 then
    let (old, e1) := (f32Val (t.rowSum m)).mul (f32Val 0x3F800000)
    let (sum, e) := windowSum (old :: cols.map fun _ => .zero false) false
    let (rs, e2) := fpArith .mul .f32 .rn false (t.rescale m) 0x3F800000
    (((t.set (16448 + m) sum).setRescale m rs).set (16384 + m) mn |>.raise (e ||| e1 ||| e2), cols.map fun n => (n, 0))
  else
    let ex (x : Word) : Word × Exc :=
      let (d, e1) := fpArith .sub .f32 .rn false x mn
      let (r, e2) := transOp .ex2 false d
      (r, e1 ||| e2)
    let (r, e1) := ex mo
    let ps := cols.map fun n => (n, ex (t.elem m n))
    let (old, e2) := (f32Val (t.rowSum m)).mul (f32Val r)
    let (sum, e3) := windowSum (old :: ps.map fun p => f32Val p.2.1) false
    let (rs, e4) := fpArith .mul .f32 .rn false (t.rescale m) r
    (((t.set (16448 + m) sum).setRescale m rs).set (16384 + m) mn |>.raise
      (ps.foldl (fun e p => e ||| p.2.2) (e1 ||| e2 ||| e3 ||| e4)), ps.map fun p => (p.1, p.2.1))

/-- MMA.smx: scores, side registers, and the probability tile. -/
def ArraySt.smx (arr : ArraySt) (a : PlaneTile) (d : Nat) (acc : Bool) (scale : FVal) (pfmt : Nat) : ArraySt × List Byte :=
  let arr := arr.pass a d acc (some scale)
  let cols := arr.columns
  let (t, ps) := (List.range a.rows).foldl (fun (p : AccTile × List (List (Nat × Word))) m =>
    let (t, l) := smxRow p.1 m cols
    (t, p.2 ++ [l])) (arr.tile d, [])
  let x (m n : Nat) : FVal := match aget (ps.getD m []) n with
    | some w => f32Val w
    | none => .zero false
  (arr.setTile d t, (splitEncode x a.rows (1 + cols.foldl max 0) pfmt (some (.fin false 1 1)) 255 .rn).1)

/-- Bytes ACCRD and ACCWR move. -/
def accBytes (ws : List Word) : Nat :=
  let w := dword ws 0
  match bitsAt w 27 2 with
  | 0 => 1024 * (bitsAt w 15 6 + 1)
  | 1 => 512 * (bitsAt w 15 6 + 1)
  | _ => 1024

/-- Bytes of the x: source rows of ENCT. -/
def enctBytes (ws : List Word) : Nat := (bitsAt (dword ws 0) 9 6 + 1) * 256 * (if bitsAt (dword ws 0) 22 5 == 0 then 4 else 2)

/-! ## Checks of R306 -/

/-- The information of a format mismatch. -/
def mismatch (reason operand : Nat) : Nat := reason + 16 * operand

/-- Format mismatches of an MMA form, its activation tile first. -/
def mmaFault (arr : ArraySt) (abytes : List Byte) (fmt : Word) (smx : Bool) : Option Nat :=
  match tileReason abytes (bitsAt fmt 27 5) with
  | some r => some (mismatch r 0)
  | none =>
    match (List.range 4).findSome? fun t => match arr.p0.getD t none with
      | some p => if p.fmt == bitsAt fmt 22 5 then none else some (mismatch 0 (1 + t))
      | none => none with
    | some i => some i
    | none => if smx && (arr.p0.getD 0 none).isNone then some (mismatch 7 1) else none

/-! ## The commands -/

/-- The span core's array state; a block without the array reads as one with nothing in it. -/
def Master.arrayAt (b : Master) (k : Nat) : ArraySt := b.arrays.getD k ⟨[none, none, none, none], [none, none, none, none], []⟩

/-- The bytes of source tile t of an LDWS. -/
def ldwsTile (ws : List Word) (t : Nat) : Nat := (dword ws 0).toNat + t * (dword ws 1).toNat

/-- The information of poison: the command's descriptor, its first two words (R306, log 23). -/
def Entry.descInfo (e : Entry) : Nat := (dword e.words 0).toNat + 2 ^ 32 * (dword e.words 1).toNat

/-- A command that reads `n` bytes of x: at an offset faults when some are poisoned (R306). -/
def Entry.reading (e : Entry) (b : Master) (off n : Nat) (r : Except (Nat × Nat) CmdOut) : Except (Nat × Nat) CmdOut :=
  if (b.xRead off n).isNone then .error (0x15, e.descInfo) else r

/-- LDWS (R312). -/
def runLdws (s : State) (b : Master) (e : Entry) (store : Bool) (arr : ArraySt) : State × Except (Nat × Nat) CmdOut :=
  let fmt := bitsAt (dword e.words 3) 0 5
  let n := splitBytes fmt
  let sel := (List.range 4).filter (dword e.words 2).getLsbD
  let (t, tiles) := sel.foldl (fun (p : State × List (Nat × Option (List Byte))) i =>
    let off := ldwsTile e.words i
    if store then
      let (t, r) := p.1.engineRead (wsKey b.die ((b.seg .w).base + off)) n false
      (t, p.2 ++ [(i, r)])
    else (p.1, p.2 ++ [(i, b.xRead off n)])) (s, [])
  if tiles.any fun p => p.2.isNone then (t, .error (0x15, e.descInfo))
  else
    let got := tiles.map fun p => (p.1, p.2.getD [])
    match got.findSome? fun p => (tileReason p.2 fmt).map fun r => mismatch r (1 + p.1) with
    | some i => (t, .error (0x22, i))
    | none => (t, .ok ⟨{ arr with p1 := (List.range 4).map fun i => (aget got i).map PlaneTile.ofBytes }, [], none⟩)

/-- Element (m, n) of ENCT's source (R317). -/
def enctSource (b : Master) (arr : ArraySt) (ws : List Word) (m n : Nat) : FVal :=
  let w := dword ws 0
  if bitsAt w 18 1 == 1 then f32Val ((arr.tile (bitsAt w 15 3)).elem m n)
  else
    let f := scalarFmt (bitsAt w 22 5)
    let z := if bitsAt w 22 5 == 0 then 4 else 2
    f.decode (le32 (readBytes b.x ((dword ws 1).toNat + 256 * z * m + z * n) z))

/-- ACCRD (R318). -/
def runAccrd (arr : ArraySt) (ws : List Word) : CmdOut :=
  let w := dword ws 0
  let d := bitsAt w 29 3
  let t := arr.tile d
  let row0 := bitsAt w 21 6
  let rows := (List.range (bitsAt w 15 6 + 1)).map (row0 + ·)
  let off := (dword ws 1).toNat
  let line (m : Nat) (f : Word → List Byte) : List Byte := (List.range 256).flatMap fun n => f (t.elem m n)
  match bitsAt w 27 2 with
  | 0 => ⟨arr, [(off, rows.flatMap fun m => line m fun x => leBytes 4 x.toNat)], none⟩
  | 1 =>
    let e := rows.foldl (fun e m => (List.range 256).foldl (fun e n =>
      e ||| (Fmt.bf16.encode (f32Val (t.elem m n)) .rn false false).2) e) 0
    ⟨arr.setTile d (t.raise e), [(off, rows.flatMap fun m => line m fun x =>
      leBytes 2 (Fmt.bf16.encode (f32Val x) .rn false false).1.toNat)], none⟩
  | _ => ⟨arr, [(off, t.sideImage)], none⟩

/-- ACCWR (R318). -/
def runAccwr (b : Master) (arr : ArraySt) (ws : List Word) : CmdOut :=
  let w := dword ws 0
  let d := bitsAt w 29 3
  let row0 := bitsAt w 21 6
  let cnt := bitsAt w 15 6 + 1
  let off := (dword ws 1).toNat
  let put (z : Nat) (t : AccTile) : AccTile := (List.range cnt).foldl (fun t i => (List.range 256).foldl (fun (t : AccTile) n =>
    let x := leNat (readBytes b.x (off + 256 * z * i + z * n) z)
    t.setElem (row0 + i) n (BitVec.ofNat 32 (if z == 2 then x * 2 ^ 16 else x))) t) t
  let t := arr.tile d
  let new := match bitsAt w 27 2 with
    | 0 => put 4 t
    | 1 => put 2 t
    | _ => (List.range 193).foldl (fun (t : AccTile) i =>
        let x := le32 (readBytes b.x (off + 4 * i) 4)
        t.set (16384 + i) (if i == 192 then x &&& 0x1F else x)) t
  ⟨arr.setTile d new, [], none⟩

/-- ACCSC (R320). -/
def runAccsc (arr : ArraySt) (ws : List Word) : CmdOut :=
  let w := dword ws 0
  let d := bitsAt w 29 3
  let sd := bitsAt w 24 3
  let mode := bitsAt w 27 2
  let side := arr.tile sd
  let old := arr.tile d
  let new := (List.range 64).foldl (fun t m => (List.range 256).foldl (fun (t : AccTile) n =>
    let x := old.elem m n
    let (r, e) := if mode == 0 then fpArith .mul .f32 .rn false x (dword ws 1)
      else if mode == 1 then fpArith .mul .f32 .rn false x (side.rescale m)
      else fpArith .div .f32 .rn false x (side.rowSum m)
    (t.setElem m n r).raise e) t) old
  let arr := arr.setTile d new
  ⟨if mode == 1 then arr.setTile sd ((List.range 64).foldl (fun t m => t.setRescale m 0x3F800000) (arr.tile sd)) else arr, [], none⟩

/-- An MMA form (R314 to R316). -/
def runMma (b : Master) (e : Entry) (arr : ArraySt) (f : PlaneTile → CmdOut) : Except (Nat × Nat) CmdOut :=
  let off := (dword e.words 0).toNat
  let n := splitBytes (bitsAt e.fmt 27 5)
  let a := readBytes b.x off n
  e.reading b off n (match mmaFault arr a e.fmt (e.op == .mmaSmx) with
    | some i => .error (0x22, i)
    | none => .ok (f (PlaneTile.ofBytes a)))

/-- Perform an array command: its effect, or its fault (cause and information). -/
def runArray (s : State) (b : Master) (e : Entry) : State × Except (Nat × Nat) CmdOut :=
  let arr := b.arrayAt e.span
  let w1 := dword e.words 1
  let d := bitsAt w1 29 3
  let acc := bitsAt w1 28 1 == 1
  match e.op with
  | .ldws w => runLdws s b e w arr
  | .swapw => (s, .ok ⟨{ arr with p0 := arr.p1, p1 := arr.p0 }, [], none⟩)
  | .mma => (s, runMma b e arr fun a => ⟨arr.pass a d acc none, [], none⟩)
  | .mmaChain => (s, runMma b e arr fun a => ⟨arr.chain a d (bitsAt w1 25 3), [], none⟩)
  | .mmaSmx => (s, runMma b e arr fun a =>
      let (r, p) := arr.smx a d acc (f32Val (dword e.words 3)) (bitsAt e.fmt 17 5)
      ⟨r, [((dword e.words 2).toNat, p)], none⟩)
  | .enct auto =>
    let w := dword e.words 0
    let w2 := dword e.words 2
    let spill := bitsAt w 0 8
    let (bs, n) := splitEncode (enctSource b arr e.words) (bitsAt w 9 6 + 1) (bitsAt w2 24 8 + 1) (bitsAt w 27 5)
      (if auto then none else some (bfp16.decode (bitsAt w2 0 16))) spill (rndOf (bitsAt w 20 2))
    let out : Except (Nat × Nat) CmdOut := .ok ⟨arr, [((dword e.words 3).toNat, bs)], if spill < n then some n else none⟩
    (s, if bitsAt w 18 1 == 1 then out else e.reading b w1.toNat (enctBytes e.words) out)
  | .accrd => (s, .ok (runAccrd arr e.words))
  | .accwr => (s, e.reading b w1.toNat (accBytes e.words) (.ok (runAccwr b arr e.words)))
  | .accz => (s, .ok ⟨{ arr with tiles := arr.tiles.zipIdx.map fun p => if (dword e.words 0).getLsbD p.2 then ⟨none, []⟩ else p.1 }, [],
      none⟩)
  | .accsc => (s, .ok (runAccsc arr e.words))
  | .copy .. | .fill | .kvfork | .kvext | .kvcow | .kvfree | .qfence => (s, .ok ⟨arr, [], none⟩)

end Sys2Proof.Machine
end

