-- ==== Sys2Proof/Machine/Engine.lean ====
section
/-! DEFINITION. Engine commands: the order among a block's commands and copies (R280, R308, R347), issue (R309 to R311), the
array commands of majors 0x29 to 0x2C, and their start and completion (R306, R309, R317). -/

namespace Sys2Proof.Machine

/-! ## Ranges and conflicts (R308) -/

/-- A range that the scoreboard tracks: bytes of x:, a plane, a tile's elements, a tile's side registers, by span core. -/
inductive Rng where
  | x (lo n : Nat)
  | plane (core p : Nat)
  | elems (core t : Nat)
  | side (core t : Nat)
  deriving DecidableEq, Repr

def Rng.meets : Rng → Rng → Bool
  | .x a n, .x b m => decide (a < b + m ∧ b < a + n)
  | p, q => p == q

def rngX (l : List (Nat × Nat)) : List Rng := l.map fun p => .x p.1 p.2

/-- The move of an entry that copies. -/
def State.boxOf (s : State) (b : Master) (e : Entry) : Option Box :=
  match e.op with
  | .copy tx _ => some (copyBox tx e.words)
  | .fill => match (s.gridOf b).bind fun g => g.launch.binds[e.fmt.toNat]? with
    | some x => some (fillBox x b.coord.1 b.coord.2.1)
    | none => none
  | _ => none

/-- What an entry reads and writes. -/
def State.ranges (s : State) (b : Master) (e : Entry) : List Rng × List Rng :=
  let k := e.span
  let w := dword e.words 0
  let w1 := dword e.words 1
  let d := bitsAt w1 29 3
  let act : List Rng := [.x w.toNat (splitBytes (bitsAt e.fmt 27 5)), .plane k 0]
  let acc : List Rng := if bitsAt w1 28 1 == 1 then [.elems k d] else []
  match e.op with
  | .copy .. | .fill => match s.boxOf b e with
    | some x => (rngX x.reads, rngX x.writes)
    | none => ([], [])
  | .ldws store =>
    (if store then [] else ((List.range 4).filter (dword e.words 2).getLsbD).map fun t =>
      .x (ldwsTile e.words t) (splitBytes (bitsAt (dword e.words 3) 0 5)), [.plane k 1])
  | .swapw => ([.plane k 0, .plane k 1], [.plane k 0, .plane k 1])
  | .mma => (act ++ acc, [.elems k d])
  | .mmaSmx => (act ++ acc ++ [.side k d],
      [.elems k d, .side k d, .x (dword e.words 2).toNat (splitBytes (bitsAt e.fmt 17 5))])
  | .mmaChain => (act ++ [.elems k d, .side k (bitsAt w1 25 3)], [.elems k d, .side k (bitsAt w1 25 3)])
  | .enct _ =>
    (if bitsAt w 18 1 == 1 then [.elems k (bitsAt w 15 3)] else [.x w1.toNat (enctBytes e.words)],
     [.x (dword e.words 3).toNat (splitBytes (bitsAt w 27 5))])
  | .accrd => (if bitsAt w 27 2 == 2 then [.side k (bitsAt w 29 3)] else [.elems k (bitsAt w 29 3)],
      [.x w1.toNat (accBytes e.words)])
  | .accwr => ([.x w1.toNat (accBytes e.words)],
      if bitsAt w 27 2 == 2 then [.side k (bitsAt w 29 3)] else [.elems k (bitsAt w 29 3)])
  | .accz => ([], ((List.range 8).filter w.getLsbD).flatMap fun t => [.elems k t, .side k t])
  | .accsc =>
    let sd := bitsAt w 24 3
    (.elems k (bitsAt w 29 3) :: (if bitsAt w 27 2 == 0 then [] else [.side k sd]),
     [.elems k (bitsAt w 29 3), .side k (bitsAt w 29 3)] ++ (if bitsAt w 27 2 == 1 then [.side k sd] else []))
  | .kvfork | .kvext | .kvcow | .kvfree => ([], [.x (16 * bitsAt w 20 12) 16])
  | .qfence => ([], [])

/-- Does one of the two entries write a range that the other reads or writes? -/
def State.conflict (s : State) (b : Master) (e f : Entry) : Bool :=
  let (r1, w1) := s.ranges b e
  let (r2, w2) := s.ranges b f
  w1.any (fun x => (r2 ++ w2).any x.meets) || w2.any fun x => r1.any x.meets

def EOp.isCopy : EOp → Bool
  | .copy .. => true
  | _ => false

/-- An array command: those of R299 to R320. -/
def EOp.isArray : EOp → Bool
  | .ldws _ | .swapw | .mma | .mmaChain | .mmaSmx | .enct _ | .accrd | .accwr | .accz | .accsc => true
  | .copy .. | .fill | .kvfork | .kvext | .kvcow | .kvfree | .qfence => false

/-- Does every earlier entry that conflicts with entry k stand aside? -/
def State.unopposed (s : State) (b : Master) (k : Nat) (e : Entry) : Bool :=
  b.entries.all fun p => decide (k ≤ p.1) || !s.conflict b e p.2

/-- Copies of a queue that closed before position k. -/
def Master.copiesBefore (b : Master) (k : Nat) (queue : Nat → Bool) : Bool :=
  b.entries.any fun p => decide (p.1 < k) && p.2.op.isCopy && queue (copyQueue p.2.words)

/-- Is a copy's queue free of earlier copies, and of joining entries that still wait (R280, R347)? -/
def Master.queueFree (b : Master) (k : Nat) (e : Entry) : Bool :=
  let q := copyQueue e.words
  !b.copiesBefore k (· == q) &&
    b.entries.all fun p => p.2.op != .qfence || decide (k ≤ p.1) || !p.2.fmt.getLsbD q || !b.copiesBefore p.1 p.2.fmt.getLsbD

/-- Joining entries that every named copy before them has passed leave the block order. -/
def Master.tidy (b : Master) : Master :=
  { b with entries := b.entries.filter fun p => p.2.op != .qfence || b.copiesBefore p.1 p.2.fmt.getLsbD }

/-- Is the core's array held by a faulted command before position k (R306)? -/
def Master.arrayHeld (b : Master) (k span : Nat) : Bool :=
  b.entries.any fun p => decide (p.1 < k) && p.2.op.isArray && p.2.span == span && (match p.2.st with
    | .faulted .. | .delivered => true
    | _ => false)

def State.modEntry (s : State) (m k : Nat) (f : Entry → Entry) : State :=
  s.modMaster m fun b => match aget b.entries k with
    | some e => { b with entries := aset b.entries k (f e) }
    | none => b

/-- An entry completes: its token counts are released and it leaves the block order. -/
def State.endEntry (s : State) (m k : Nat) : State :=
  s.modMaster m fun b => match aget b.entries k with
    | some e => ({ b.releaseToks e.toks with entries := adel b.entries k } : Master).tidy
    | none => b

/-! ## Issuing commands -/

/-- Have the warp's stores been performed (R113, R282, R309)? -/
def Warp.stored (w : Warp) : Bool :=
  w.outs.all fun o => match o.kind with
    | .st | .red _ | .atom _ => !o.undone
    | _ => true

/-- The descriptor of n words from uniform register r. -/
def Ctx.desc (c : Ctx) (r : Reg6) (n : Nat) : List Word := (List.range n).map fun i => c.w.s (r.toNat + i)

/-- R129, R311: the descriptor ends by s62. -/
def descSubs (r : Reg6) (n : Nat) : List Nat := need (decide (r.toNat + n ≤ 63)) 8

/-- Checks of a descriptor, made only when it lies within the uniform registers. -/
def Ctx.withDesc (c : Ctx) (r : Reg6) (n : Nat) (f : List Word → List Nat) : List Nat :=
  if r.toNat + n ≤ 63 then f (c.desc r n) else [8]

/-- A command of the issuing warp's core, counted on a token slot. -/
def Ctx.entry (c : Ctx) (op : EOp) (ws : List Word) (fmt : Word) (t : BitVec 3) : Entry :=
  Entry.issued op ws [] fmt (c.b.spanOf c.ref.w) c.ref.w [(c.ref.w, t.toNat)]

/-- Issue an engine command once its warp's stores are done (R309): nothing happens without an active lane. -/
def issueCmd (s : State) (c : Ctx) (p : Pred) (t : BitVec 3) (subs : List Nat) (e : Entry) : State :=
  checked s c subs
    (if !c.executes p then done s c 1 c.w
     else if !c.w.stored then s
     else done (s.issueEntry c e) c 1 (c.w.takeToken t.toNat))

/-! ## Checks of R311 -/

def arrayVariant (c : Ctx) : List Nat := need (c.b.variant.acc != 0) 8

/-- n bytes at an x: offset lie within B; `al` is its alignment. -/
def Master.xOk (b : Master) (off n al : Nat) : List Nat := need (off % al == 0 && decide (off + n ≤ b.variant.scratch)) 8

def Master.tileOk (b : Master) (t : Nat) : List Nat := need (decide (t < b.variant.acc)) 8

def Ctx.xOk (c : Ctx) (off n al : Nat) : List Nat := c.b.xOk off n al

def Ctx.tileOk (c : Ctx) (t : Nat) : List Nat := c.b.tileOk t

def fmtOk (f : Nat) : Bool := decide (16 ≤ f ∧ f ≤ 18)

/-- Is a field of a word zero? -/
def zeroBits (w : Word) (lo n : Nat) : List Nat := need (bitsAt w lo n == 0) 3

def rangesMeet (a n b m : Nat) : Bool := decide (a < b + m ∧ b < a + n)

/-- A descriptor of LDWS or LDWS.w (R312). -/
def ldwsWords (b : Master) (ws : List Word) (store : Bool) : List Nat :=
  let f := bitsAt (dword ws 3) 0 5
  zeroBits (dword ws 2) 4 28 ++ zeroBits (dword ws 3) 5 27 ++ need (fmtOk f) 2 ++
  need ((dword ws 0).toNat % 128 == 0 && (dword ws 1).toNat % 128 == 0) 8 ++
  ((List.range 4).filter (dword ws 2).getLsbD).flatMap fun t =>
    need (decide (ldwsTile ws t + splitBytes f ≤ (if store then (b.seg .w).limit else b.variant.scratch))) 8

/-- LDWS and LDWS.w (R312). -/
def ldwsSubs (c : Ctx) (e : EFields) (store : Bool) : List Nat :=
  arrayVariant c ++ c.withDesc e.s 4 fun ws => ldwsWords c.b ws store

/-- A descriptor of an MMA form (R314 to R316), with its format word. -/
def mmaWords (b : Master) (ws : List Word) (op : EOp) (fmt : Word) : List Nat :=
  let w1 := dword ws 1
  let a := splitBytes (bitsAt fmt 27 5)
  zeroBits w1 0 25 ++ b.tileOk (bitsAt w1 29 3) ++
  (if op == .mmaChain then b.tileOk (bitsAt w1 25 3) ++ need (bitsAt w1 28 1 == 1 && bitsAt w1 25 3 != bitsAt w1 29 3) 8
   else zeroBits w1 25 3) ++
  b.xOk (dword ws 0).toNat a 128 ++
  (if op == .mmaSmx then
     let p := splitBytes (bitsAt fmt 17 5)
     b.xOk (dword ws 2).toNat p 128 ++ need (!rangesMeet (dword ws 0).toNat a (dword ws 2).toNat p) 8 ++
     need (bitsAt (dword ws 3) 23 8 != 255) 8
   else zeroBits (dword ws 2) 0 32 ++ zeroBits (dword ws 3) 0 32)

/-- The MMA forms (R314 to R316), the format word apart. -/
def mmaSubs (c : Ctx) (e : EFields) (op : EOp) (fmt : Word) : List Nat :=
  arrayVariant c ++ c.withDesc e.s 4 fun ws => mmaWords c.b ws op fmt

/-- R305: is a format word's content bad? -/
def fmtWordBad (op : EOp) (f : Word) : Bool :=
  !fmtOk (bitsAt f 27 5) || !fmtOk (bitsAt f 22 5) || bitsAt f 0 17 != 0 ||
    (if op == .mmaSmx then !fmtOk (bitsAt f 17 5) else bitsAt f 17 5 != 0)

/-- The format words of the executing lanes: the lowest lane's, and the lanes that differ from it. -/
def Ctx.fmtVote (c : Ctx) (p : Pred) (v : Reg5) : Word × Mask :=
  match (c.active p).lanes with
  | [] => (0, 0)
  | l :: _ => (c.v1 v l, Mask.ofFn fun k => (c.active p).has k && c.v1 v k != c.v1 v l)

/-- Everything that makes an MMA form illegal: its x: ranges are of the sizes its format word gives, so they are checked
when that word is agreed on and sound. -/
def mmaAll (c : Ctx) (e : EFields) (op : EOp) (v : Reg5) : List Nat :=
  let (f, diff) := c.fmtVote e.p v
  let l := mmaSubs c e op f
  if c.executes e.p && diff == 0 then (if fmtWordBad op f then 8 :: mmaSubs c e op 0x84210000 else l)
  else mmaSubs c e op 0x84210000

/-- An MMA form: illegal conditions, then the lanes' vote (R305), then issue. -/
def issueMma (s : State) (c : Ctx) (e : EFields) (op : EOp) (v : Reg5) : State :=
  checked s c (mmaAll c e op v)
    (let (f, diff) := c.fmtVote e.p v
     if c.executes e.p && diff != 0 then s.takeTrap c.ref c.c 8 diff c.c.pc (BitVec.ofNat 32 (256 * c.c.next))
     else issueCmd s c e.p e.t [] (c.entry op (c.desc e.s 4) f e.t))

/-- ENCT and ENCT.auto (R317). -/
def enctSubs (c : Ctx) (e : EFields) (auto : Bool) : List Nat :=
  c.withDesc e.s 4 fun ws =>
    let w := dword ws 0
    let w2 := dword ws 2
    let tile := bitsAt w 18 1 == 1
    let n := splitBytes (bitsAt w 27 5)
    let thr := bitsAt w2 0 16
    zeroBits w 19 1 ++ zeroBits w 8 1 ++ zeroBits w2 16 8 ++ need (fmtOk (bitsAt w 27 5) && decide (bitsAt w 22 5 ≤ 2)) 2 ++
    (if tile then need (bitsAt w 22 5 == 0) 3 ++ zeroBits (dword ws 1) 0 32 ++ arrayVariant c ++ c.tileOk (bitsAt w 15 3)
     else zeroBits w 15 3 ++ c.xOk (dword ws 1).toNat (enctBytes ws) 128 ++
       need (!rangesMeet (dword ws 1).toNat (enctBytes ws) (dword ws 3).toNat n) 8) ++
    c.xOk (dword ws 3).toNat n 128 ++
    (if auto then need (thr == 0) 8 else need (decide (0 < thr ∧ thr < 0x7F80)) 8)

/-- ACCRD and ACCWR (R318). -/
def accSubs (c : Ctx) (e : EFields) : List Nat :=
  arrayVariant c ++ c.withDesc e.s 2 fun ws =>
    let w := dword ws 0
    let mode := bitsAt w 27 2
    zeroBits w 0 15 ++ need (mode != 3) 2 ++ (if mode == 2 then zeroBits w 15 12 else []) ++ c.tileOk (bitsAt w 29 3) ++
    need (decide (bitsAt w 21 6 + bitsAt w 15 6 + 1 ≤ 64)) 8 ++ c.xOk (dword ws 1).toNat (accBytes ws) 16

/-- ACCZ (R319). -/
def acczSubs (c : Ctx) (e : EFields) : List Nat :=
  arrayVariant c ++ c.withDesc e.s 1 fun ws =>
    zeroBits (dword ws 0) 8 24 ++ need (bitsAt (dword ws 0) 0 8 != 0 && decide (bitsAt (dword ws 0) 0 8 < 2 ^ c.b.variant.acc)) 8

/-- ACCSC (R320). -/
def accscSubs (c : Ctx) (e : EFields) : List Nat :=
  arrayVariant c ++ c.withDesc e.s 2 fun ws =>
    let w := dword ws 0
    let mode := bitsAt w 27 2
    zeroBits w 0 24 ++ need (mode != 3) 2 ++ c.tileOk (bitsAt w 29 3) ++
    (if mode == 0 then zeroBits w 24 3 else zeroBits (dword ws 1) 0 32 ++ c.tileOk (bitsAt w 24 3))

/-! ## The instructions -/

/-- LDWS (R312). -/
def execLdws (e : EFields) (s : State) : Host.Outcome State Fault Refusal :=
  withCtx s fun c => issueCmd s c e.p e.t (ldwsSubs c e false) (c.entry (.ldws false) (c.desc e.s 4) 0 e.t)
/-- LDWS.w (R312). -/
def execLdwsW (e : EFields) (s : State) : Host.Outcome State Fault Refusal :=
  withCtx s fun c => issueCmd s c e.p e.t (ldwsSubs c e true) (c.entry (.ldws true) (c.desc e.s 4) 0 e.t)
/-- SWAPW (R313). -/
def execSwapw (p : Pred) (t : BitVec 3) (_la : BitVec 4) (s : State) : Host.Outcome State Fault Refusal :=
  withCtx s fun c => issueCmd s c p t (arrayVariant c) (c.entry .swapw [] 0 t)
/-- MMA (R314). -/
def execMma (e : EFields) (v : Reg5) (s : State) : Host.Outcome State Fault Refusal :=
  withCtx s fun c => issueMma s c e .mma v
/-- MMA.chain (R316). -/
def execMmaChain (e : EFields) (v : Reg5) (s : State) : Host.Outcome State Fault Refusal :=
  withCtx s fun c => issueMma s c e .mmaChain v
/-- MMA.smx (R315). -/
def execMmaSmx (e : EFields) (v : Reg5) (s : State) : Host.Outcome State Fault Refusal :=
  withCtx s fun c => issueMma s c e .mmaSmx v
/-- ENCT (R317). -/
def execEnct (e : EFields) (s : State) : Host.Outcome State Fault Refusal :=
  withCtx s fun c => issueCmd s c e.p e.t (enctSubs c e false) (c.entry (.enct false) (c.desc e.s 4) 0 e.t)
/-- ENCT.auto (R317). -/
def execEnctAuto (e : EFields) (s : State) : Host.Outcome State Fault Refusal :=
  withCtx s fun c => issueCmd s c e.p e.t (enctSubs c e true) (c.entry (.enct true) (c.desc e.s 4) 0 e.t)
/-- ACCRD (R318). -/
def execAccrd (e : EFields) (s : State) : Host.Outcome State Fault Refusal :=
  withCtx s fun c => issueCmd s c e.p e.t (accSubs c e) (c.entry .accrd (c.desc e.s 2) 0 e.t)
/-- ACCWR (R318). -/
def execAccwr (e : EFields) (s : State) : Host.Outcome State Fault Refusal :=
  withCtx s fun c => issueCmd s c e.p e.t (accSubs c e) (c.entry .accwr (c.desc e.s 2) 0 e.t)
/-- ACCZ (R319). -/
def execAccz (e : EFields) (s : State) : Host.Outcome State Fault Refusal :=
  withCtx s fun c => issueCmd s c e.p e.t (acczSubs c e) (c.entry .accz (c.desc e.s 1) 0 e.t)
/-- ACCSC (R320). -/
def execAccsc (e : EFields) (s : State) : Host.Outcome State Fault Refusal :=
  withCtx s fun c => issueCmd s c e.p e.t (accscSubs c e) (c.entry .accsc (c.desc e.s 2) 0 e.t)

/-! ## Start and completion -/

/-- ENGINE_COMMAND_START (R306 to R308): in a later cycle than its issue, so that what the same cycle issues has its place.
Checks come first, so a command that faults starts nothing. -/
def execEngineCommandStart (m k : Nat) (s : State) : Host.Outcome State Fault Refusal :=
  match s.master m with
  | none => .next s
  | some b => match aget b.entries k with
    | none => .next s
    | some e =>
      if !b.phase.works || !e.op.isArray || e.st != .queued || s.cycles ≤ entryCycle k || b.arrayHeld k e.span || !s.unopposed b k e then .next s
      else match runArray s b e with
        | (t, .error (c, i)) => .next (t.modEntry m k fun e => { e with st := .faulted c i })
        | (t, .ok _) => .next (t.modEntry m k fun e => { e with st := .started })

/-- Does a weight-store read of n bytes meet the open refresh window (R263)? -/
def State.storeHeld (s : State) (b : Master) (e : Entry) : Bool :=
  match e.op with
  | .ldws true =>
    let n := splitBytes (bitsAt (dword e.words 3) 0 5)
    ((List.range 4).filter (dword e.words 2).getLsbD).any fun t =>
      ((List.range (ceilDiv n 128)).map (128 * ·) ++ [n - 1]).any fun i => s.refreshing (wsKey b.die ((b.seg .w).base + ldwsTile e.words t + i))
  | _ => false

/-- ENGINE_COMMAND_COMPLETE (R303, R306, R309, R317): the whole effect at once. A started command completes in a frozen or a
pre-empting block too (R307). -/
def execEngineCommandComplete (m k : Nat) (s : State) : Host.Outcome State Fault Refusal :=
  match s.master m with
  | none => .next s
  | some b => match aget b.entries k with
    | none => .next s
    | some e =>
      if !e.op.isArray || e.st != .started || s.storeHeld b e then .next s
      else match runArray s b e with
        | (t, .error (c, i)) => .next (t.modEntry m k fun e => { e with st := .faulted c i })
        | (t, .ok o) =>
          let t := t.modMaster m fun b => { b with arrays := modAt b.arrays e.span fun _ => o.arr }
          let t := o.writes.foldl (fun t p => t.xWrite m p.1 p.2) t
          let t := if o.writes.isEmpty then t else t.progress m false
          let t := match o.trap with
            | some n => match e.toks with
              | (w, tk) :: _ => t.modWarp ⟨m, w⟩ fun w =>
                { w with deliveries := w.deliveries ++ [(tk, Delivery.trap 9 (BitVec.ofNat 32 (n % 2 ^ 14)) none)] }
              | [] => t
            | none => t
          let pass := e.op == .mma || e.op == .mmaChain || e.op == .mmaSmx
          let t := if pass then t.perf b.die (b.cores.getD e.span default).core 9 1 else t
          .next (t.endEntry m k)

end Sys2Proof.Machine
end

