-- ==== Sys2Proof/Machine/Copy.lean ====
section
/-! DEFINITION. Collective copies: slices and collections (R275 to R283, R293), the granules in which copies and prologue fills
land (R284 to R292, R295, R296), completion, and follow-on commands (R294). -/

namespace Sys2Proof.Machine

/-! ## Checks at issue (R278, R283, R293) -/

/-- The word of a descriptor at which its follow-on words begin. -/
def foAt (tx : Bool) : Nat := if tx then 12 else 8
def copyLen (tx fo : Bool) : Nat := foAt tx + if fo then 4 else 0

/-- The command that a follow-on names. -/
def foOp (w : Word) : EOp :=
  match bitsAt w 29 3 with
  | 0 => .mma
  | 1 => .mmaChain
  | 2 => .mmaSmx
  | _ => .ldws false

/-- The transform words. -/
def transformSubs (ws : List Word) : List Nat :=
  let t := dword ws 8
  let p := dword ws 9
  let tr := bitsAt t 24 8
  let z := 2 ^ bitsAt (dword ws 0) 6 3
  let conv := tr == 1 || tr == 3
  let thr := bitsAt p 0 16
  need (decide (tr ≤ 4)) 2 ++ zeroBits t 8 2 ++ zeroBits (dword ws 10) 0 32 ++ zeroBits (dword ws 11) 0 32 ++
  (if conv then need (fmtOk (bitsAt t 19 5) && decide (bitsAt t 14 5 ≤ 2)) 2 ++ need (z == scalarBytes (bitsAt t 14 5)) 8
   else zeroBits t 11 13) ++
  (if tr == 3 then
     zeroBits p 16 16 ++ (if bitsAt t 10 1 == 1 then zeroBits p 0 16 else need (decide (0 < thr ∧ thr ≤ 0x7F80)) 8)
   else zeroBits t 10 1 ++ zeroBits t 0 8 ++ (if tr == 4 then need (p.toNat % 4 == 0) 8 else zeroBits p 0 32)) ++
  (if tr == 2 then need (decide (z ≤ 4)) 8 else [])

/-- The follow-on words (R278, R293); the named command's own descriptor is checked when the command issues (log 23). -/
def followSubs (c : Ctx) (ws : List Word) (f : Nat) : List Nat :=
  let w := dword ws f
  zeroBits w 0 23 ++ zeroBits (dword ws (f + 2)) 0 32 ++ zeroBits (dword ws (f + 3)) 0 32 ++ need (bitsAt w 29 3 ≤ 3) 2 ++
  (if bitsAt w 29 3 == 3 then zeroBits (dword ws (f + 1)) 0 32 else []) ++ need (decide (bitsAt w 23 6 ≤ 59)) 8 ++ arrayVariant c

/-- One side of the move: its space, address words and swizzle. -/
def sideSubs (sp sw : Nat) (hi : Word) : List Nat :=
  need (sp != 3) 2 ++ need (sp == 1 || sw == 0) 3 ++ need (sp == 0 || hi == 0) 3

/-- R278, the collection's condition apart. -/
def copySubs (c : Ctx) (e : EFields) (tx fo : Bool) : List Nat :=
  c.withDesc e.s (copyLen tx fo) fun ws =>
    let w := dword ws 0
    let x := copyBox tx ws
    need (decide (bitsAt w 6 3 ≤ 4)) 2 ++ sideSubs x.srcSp x.srcSw (dword ws 2) ++ sideSubs x.dstSp x.dstSw (dword ws 4) ++
    need (decide (copySlice ws < copySlices ws) && (x.srcSp == 1 || x.dstSp == 1) && x.h != 0 && x.w != 0) 8 ++
    (match copyBound ws with
     | none => []
     | some (.slot o) => need (decide (o + 16 ≤ c.b.variant.scratch) && decide (x.total < 2 ^ 31)) 8
     | some (.hw n) => need (decide (n < c.b.variant.hwbars) && decide (x.total < 2 ^ 31)) 8) ++
    (if tx then transformSubs ws else []) ++ (if fo then followSubs c ws (foAt tx) else [])

/-! ## Slices and collections (R279, R281, R282) -/

/-- The common words: the descriptor without its slice index. -/
def commonWords (ws : List Word) : List Word := ws.zipIdx.map fun p => if p.2 == 0 then p.1 &&& 0xFFE01FFF else p.1

/-- The registers that the follow-on words name. -/
def Ctx.foRegs (c : Ctx) (ws : List Word) (tx fo : Bool) : List Word :=
  if fo then (List.range 4).map fun i => c.w.s (bitsAt (dword ws (foAt tx)) 23 6 + i) else []

/-- Does the slice not match the open collection of its id (R279)? -/
def collectionSubs (c : Ctx) (op : EOp) (ws fo : List Word) : List Nat :=
  match aget c.b.collections (copyQueue ws) with
  | none => []
  | some k => need (k.op == op && k.words == commonWords ws && k.fo == fo && k.parts.all fun p => p.1 != copySlice ws) 8

/-- The subcodes of a CPY by what its registers hold: its descriptor, and in a warp that executes it a slice that does not match. -/
def sliceSubs (c : Ctx) (e : EFields) (tx fo : Bool) : List Nat :=
  copySubs c e tx fo ++ (if c.executes e.p then
    let ws := c.desc e.s (copyLen tx fo)
    collectionSubs c (.copy tx fo) ws (c.foRegs ws tx fo) else [])

/-- The entry of a collection that has closed: slice 0's warp decides the core (R280), and slice 0's count comes first. -/
def Master.copyEntry (b : Master) (k : Collection) (tx : Bool) : Entry :=
  let toks := ((k.parts.filter fun p => p.1 == 0) ++ k.parts.filter fun p => p.1 != 0).map fun p => p.2
  let w := (toks.headD (0, 0)).1
  Entry.issued k.op k.words k.fo (match k.op with | .copy _ true => dword k.words (foAt tx + 1) | _ => 0) (b.spanOf w) w toks

/-- Supply a slice (R279): the last closes the collection, and a bound copy is in flight at its object from then. -/
def State.supply (s : State) (c : Ctx) (op : EOp) (tx : Bool) (ws fo : List Word) (t : Nat) : State :=
  let q := copyQueue ws
  let k := (aget c.b.collections q).getD ⟨op, commonWords ws, fo, []⟩
  let k := { k with parts := k.parts ++ [(copySlice ws, c.ref.w, t)] }
  if k.parts.length == copySlices ws then
    let u := s.modMaster c.ref.m fun b =>
      ({ b with collections := adel b.collections q } : Master).enqueue s.cycles (c.b.spanOf c.ref.w) c.ref.w (b.copyEntry k tx)
    match copyBound ws with
    | some n => u.barEvent c.ref.m n fun x => { x with inFlight := x.inFlight + 1 }
    | none => u
  else s.modMaster c.ref.m fun b => { b with collections := aset b.collections q k }

/-- A CPY form (R275 to R283). -/
def copySlice' (s : State) (c : Ctx) (e : EFields) (tx fo : Bool) : State :=
  let ws := c.desc e.s (copyLen tx fo)
  let fr := c.foRegs ws tx fo
  checked s c (copySubs c e tx fo)
    (if !c.executes e.p then done s c 1 c.w
     else checked s c (collectionSubs c (.copy tx fo) ws fr)
       (if !c.w.stored then s
        else done (s.supply c (.copy tx fo) tx ws fr e.t.toNat) c 1 (c.w.takeToken e.t.toNat)))

/-- CPY (R275). -/
def execCpy (e : EFields) (s : State) : Host.Outcome State Fault Refusal := withCtx s fun c => copySlice' s c e false false
/-- CPY.tx (R275, R283). -/
def execCpyTx (e : EFields) (s : State) : Host.Outcome State Fault Refusal := withCtx s fun c => copySlice' s c e true false
/-- CPY.fo (R275, R293). -/
def execCpyFo (e : EFields) (s : State) : Host.Outcome State Fault Refusal := withCtx s fun c => copySlice' s c e false true
/-- CPY.tx.fo (R275, R283, R293). -/
def execCpyTxFo (e : EFields) (s : State) : Host.Outcome State Fault Refusal := withCtx s fun c => copySlice' s c e true true

/-! ## Granules -/

def EOp.isFill : EOp → Bool
  | .fill => true
  | _ => false

/-- The barrier object an entry reports to: a fill's is hardware barrier 0 (R295). -/
def Entry.bound (e : Entry) : Option BarName :=
  if e.op.isFill then some (.hw 0) else if e.op.isCopy then copyBound e.words else none

/-- The progress word (R289): a copy that stands in its queue has issued no follow-on and has no trap pending; bit 60 marks one
whose follow-on has been issued, bit 58 one whose trap awaits delivery. -/
def Entry.progressWord (e : Entry) : Nat := 2 ^ 61 * (if e.op.isCopy then copyQueue e.words else 0) + e.landed % 2 ^ 40

/-- Does the block's phase let the entry's granules land (R296, R404)? -/
def Master.shuttles (b : Master) (e : Entry) : Bool :=
  if e.op.isFill then b.phase == .prologue else e.op.isCopy && b.phase.works

/-- COPY_START (R280): in a later cycle than it closed, its queue is free of earlier copies and no earlier entry conflicts; fills start in binding order
(R296). -/
def execCopyStart (m k : Nat) (s : State) : Host.Outcome State Fault Refusal :=
  match s.master m with
  | none => .next s
  | some b => match aget b.entries k with
    | none => .next s
    | some e =>
      let free := if e.op.isFill then b.entries.all fun p => decide (k ≤ p.1) || p.2.st != .queued
        else entryCycle k < s.cycles && b.queueFree k e && s.unopposed b k e
      if b.shuttles e && e.st == .queued && free then .next (s.modEntry m k fun e => { e with st := .started }) else .next s

/-- The prologue is over when no fill is left: hardware barrier 0 is cleared and the block runs (R47, R324, R296). -/
def State.checkPrologue (s : State) (m : Nat) : State :=
  match s.master m with
  | none => s
  | some b =>
    if b.phase == .prologue && b.entries.all fun p => !p.2.op.isFill then
      s.setMaster m { b with phase := .running, timer := s.cycles, hw := modAt b.hw 0 fun _ => Barrier.idle 0 0 }
    else s

/-- A change at an entry's object; the prologue's accounting is not judged as a phase of the block (R47). -/
def State.objectEvent (s : State) (m : Nat) (e : Entry) (f : Barrier → Barrier) : State :=
  match e.bound with
  | none => s
  | some n => if e.op.isFill then s.modMaster m fun b => { b with hw := modAt b.hw 0 f } else s.barEvent m n f

/-- The outlier-overflow information of a tile (R291). -/
def clampInfo (p : Nat × Nat) : Nat := p.2 % 2 ^ 14 + 2 ^ 14 * (p.1 % 2 ^ 18)

/-- The follow-on command of a copy that has landed (R294). -/
def Entry.follow (e : Entry) (tx : Bool) : Entry :=
  { e with op := foOp (dword e.words (foAt tx)), words := e.fo, fo := [], st := .queued, landed := 0, clamp := none, stage := []
           copied := some (e.progressWord + 2 ^ 60) }

/-- Does the named command meet a condition of R305 or R311 as the shuttle issues it? -/
def Master.followBad (b : Master) (e : Entry) : Bool :=
  match e.op with
  | .ldws w => !(ldwsWords b e.words w).isEmpty
  | op => fmtWordBad op e.fmt || !(mmaWords b e.words op e.fmt).isEmpty

/-- Every byte of an entry has landed (R281, R291, R292, R294, R296). -/
def State.copyComplete (s : State) (m k : Nat) (e : Entry) : State :=
  let t := s.objectEvent m e fun x => if e.op.isFill then x else { x with inFlight := x.inFlight - 1 }
  match e.op, e.clamp with
  | .copy tx true, none =>
    match t.master m with
    | some b =>
      if b.followBad (e.follow tx) then t.endEntry m k   -- such a command is not issued (R311, log 23)
      else t.setMaster m (({ b with entries := adel b.entries k } : Master).enqueue s.cycles e.span e.warp (e.follow tx)).tidy
    | none => t
  | .fill, some p =>
    (t.endEntry m k).freeze m { FreezeAt.blank 0x23 with info := BitVec.ofNat 64 (clampInfo p) }
  | .fill, none => (t.endEntry m k).checkPrologue m
  | _, some p =>
    let slot := (e.toks.headD (0, 0)).2   -- slice 0's own
    (t.modWarp ⟨m, e.warp⟩ fun w => { w with deliveries := w.deliveries ++
      [(slot, Delivery.trap 9 (BitVec.ofNat 32 (clampInfo p)) (some (e.span, e.progressWord + 2 ^ 58)))] }).endEntry m k
  | _, none => t.endEntry m k

/-- A granule stops the copy (R284, R289): the block is frozen with the cause, then its object's phase is marked faulted. -/
def State.copyStops (s : State) (m k : Nat) (e : Entry) (st : ESt) (f : FreezeAt) : State :=
  let t := (s.modEntry m k fun e => { e with st := st }).freeze m f
  match e.bound with
  | some n => t.barStopped m n
  | none => t

/-- An access of a granule that did not succeed: a wait in the miss table (R288), or a violation. -/
def State.granuleFails (s : State) (m k : Nat) (b : Master) (e : Entry) (r : EngRes) : State :=
  match r with
  | .ok _ => s
  | .missing va lv write =>
    let (t, st) := s.joinMiss b.die b.ctx.asid va lv write
    t.modEntry m k fun e => { e with wait := st }
  | .bad c a =>
    s.copyStops m k e .stopped { FreezeAt.blank c with address := BitVec.ofNat 64 a, info := BitVec.ofNat 64 e.progressWord }

/-- One granule of a started entry (R287 to R289, R292). -/
def State.landGranule (s : State) (m k : Nat) (b : Master) (e : Entry) (x : Box) : State :=
  let (i, o, a, n) := x.granule e.landed
  match s.granuleSource b x e.stage i o n with
  | (t, g, .fail r) => (t.modEntry m k fun e => { e with stage := g }).granuleFails m k b e r
  | (t, _, .malformed r) => t.copyStops m k e .dropped { FreezeAt.blank 0x22 with info := BitVec.ofNat 64 (mismatch r 0) }
  | (t, g, .ok bs c) =>
    match t.engWrite m b x.dstSp x.dstSw a (if x.tr == 3 then 1 else x.z) bs with
    | (u, .ok _) =>
      let e' := { e with
        landed := e.landed + n
        stage := g
        clamp := match e.clamp with
          | some p => some p
          | none => if x.tr == 3 && decide (x.spill < c) then some (i, c) else none }
      let u := (u.modEntry m k fun _ => e').progress m e.op.isFill
      let u := u.perf b.die (b.cores.getD e.span default).core 8 n
      let u := u.objectEvent m e fun y => y.land n
      if x.total ≤ e'.landed then u.copyComplete m k e' else u
    | (u, r) => (u.modEntry m k fun e => { e with stage := g }).granuleFails m k b e r

/-- GRANULE_LAND (R287). -/
def execGranuleLand (m k : Nat) (s : State) : Host.Outcome State Fault Refusal :=
  match s.master m with
  | none => .next s
  | some b => match aget b.entries k with
    | none => .next s
    | some e => match s.boxOf b e with
      | some x => if b.shuttles e && e.st == .started && e.wait == .ready then .next (s.landGranule m k b e x) else .next s
      | none => .next s

/-- Is a virtual address one that the next granule of a move reads or writes in g: or k:? -/
def Box.uses (x : Box) (b : Master) (e : Entry) (va : Nat) : Bool :=
  let (i, o, a, n) := x.granule e.landed
  let meets (sp a n : Nat) : Bool := sp != 1 && decide (b.virtual sp (wrapSpace sp a) ≤ va ∧ va < b.virtual sp (wrapSpace sp a) + n)
  (x.sources e.stage i o n).any (fun p => meets x.srcSp p.1 p.2) || meets x.dstSp a n

/-- Another package refuses an access of a copy's or a fill's next granule (R378): the copy stops as at a violation (R289, R399). -/
def State.refuseCopy (s : State) (m k va : Nat) : State :=
  match s.master m with
  | none => s
  | some b => match aget b.entries k with
    | none => s
    | some e => match s.boxOf b e with
      | some x =>
        if b.shuttles e && e.st == .started && e.wait == .ready && x.uses b e va && s.remoteVa b va then
          s.granuleFails m k b e (.bad 0x17 va)
        else s
      | none => s

end Sys2Proof.Machine
end

