-- ==== Sys2Proof/Machine/Scoreboard.lean ====
section
/-! DEFINITION. Pending destinations, lookahead spans and the registers an instruction names (R123, R124). Only per-thread
registers and predicates ever pend: LD, LDW and ATOM name per-thread registers or a predicate, XLAT a per-thread pair. -/

namespace Sys2Proof.Machine

/-- `n` per-thread registers from field r of the window at `base`. -/
def vNames (base : Nat) (n : Nat) (r : Reg5) : List RegName :=
  if r == 31 then [] else (List.range n).map fun i => .v (vKey base (r.toNat + i))

/-- A predicate register; pt names none. -/
def pName (n : BitVec 3) : List RegName := if n == 7 then [] else [.p n.toNat]

/-- The predicate an instruction is executed under. -/
def predName (p : Pred) : List RegName := pName p.idx

/-- The b operand of an integer instruction. -/
def intBNames (base n : Nat) : IntB → List RegName
  | .thread b => vNames base n b
  | .uni _ | .allUni _ | .lit _ => []

/-- The b operand of a float instruction. -/
def fltBNames (base : Nat) : FltB → List RegName
  | .thread b => vNames base 1 b
  | .uni _ | .lit _ => []

/-- d, a and b of an integer instruction: nothing per-thread in the uniform file modes. -/
def intNames (base : Nat) (p : Pred) (d a : Reg5) (b : IntB) (nd na nb : Nat) : List RegName :=
  predName p ++ (if b.uniform then [] else vNames base nd d ++ vNames base na a ++ intBNames base nb b)

def unNames (base : Nat) (p : Pred) (d a : Reg5) (f : UnFile) (nd na : Nat) : List RegName :=
  predName p ++ (match f with | .thread => vNames base nd d ++ vNames base na a | .uni => [])

/-- d and a of single registers. -/
def pdaNames (base : Nat) (p : Pred) (d a : Reg5) : List RegName := predName p ++ vNames base 1 d ++ vNames base 1 a

/-- d, a and b of a float instruction. -/
def fltNames (base : Nat) (p : Pred) (d a : Reg5) (b : FltB) : List RegName := pdaNames base p d a ++ fltBNames base b

/-- Address registers of an M-format instruction: the index, a pair when there is no base in g:. -/
def addrNames (base : Nat) (a : Reg5) (space : Space) (b : Option Reg6) : List RegName :=
  vNames base (if space == .g && b.isNone then 2 else 1) a

/-- The data registers of an access size. -/
def sizeNames (base : Nat) (f : MFields) : List RegName :=
  if f.size == .pred then pName (f.d.extractLsb' 0 3) else vNames base f.size.nregs f.d

def memNames (base : Nat) (f : MFields) (w : AddrWord) : List RegName :=
  predName f.p ++ sizeNames base f ++ addrNames base f.a w.space w.base

/-- Every per-thread and predicate register an instruction reads or writes. -/
def Instr.regNames (base : Nat) : Instr → List RegName
  | .iadd p d a b t | .isub p d a b t | .iaddSat p d a b t | .isubSat p d a b t
  | .imul p d a b t | .imulh p d a b t | .imin p d a b t | .imax p d a b t
  | .and p d a b t | .or p d a b t | .xor p d a b t | .andn p d a b t => intNames base p d a b t.nregs t.nregs t.nregs
  | .shl p d a b t | .shr p d a b t | .sar p d a b t | .rot p d a b t
  | .bfx p d a b t => intNames base p d a b t.nregs t.nregs 1
  | .iaddc p d a b | .isubb p d a b => intNames base p d a b 2 1 1
  | .imad p d a b c t =>
      predName p ++ vNames base t.nregs d ++ vNames base t.nregs a ++ vNames base t.nregs b ++ vNames base t.nregs c
  | .not p d a f t | .iabs p d a f t | .ineg p d a f t | .brev p d a f t => unNames base p d a f t.nregs t.nregs
  | .popc p d a f t | .clz p d a f t => unNames base p d a f 1 t.nregs
  | .mov p d b t => intNames base p d 31 b t.nregs t.nregs t.nregs
  | .iset p q a b u _ t => predName p ++ pName q ++ vNames base t.nregs a ++ (if u then [] else vNames base t.nregs b)
  | .bfi p d a b c | .perm p d a b c | .ffma p d a b c _ | .hfma2 p d a b c _ =>
      pdaNames base p d a ++ vNames base 1 b ++ vNames base 1 c
  | .sel p d a b n => pdaNames base p d a ++ vNames base 1 b ++ pName n
  | .lea p d a b _ => pdaNames base p d a ++ vNames base 1 b
  | .movi p d _ | .moviHi p d _ => predName p ++ vNames base 1 d
  | .iaddImm p d a _ | .isubImm p d a _ | .andImm p d a _ | .orImm p d a _ | .xorImm p d a _ | .shlImm p d a _
  | .shrImm p d a _ | .sarImm p d a _ | .rotImm p d a _ | .imulImm p d a _ => pdaNames base p d a
  | .fadd p d a b _ _ _ | .fsub p d a b _ _ _ | .fmul p d a b _ _ _ => fltNames base p d a b
  | .fmin p d a b _ _ | .fmax p d a b _ _ | .fdivs p d a b _ _ => fltNames base p d a b
  | .hadd2 p d a b _ _ | .hmul2 p d a b _ _ => fltNames base p d a b
  | .fset p q a b _ _ => predName p ++ pName q ++ vNames base 1 a ++ fltBNames base b
  | .frnd p d a _ _ _ => pdaNames base p d a
  | .fclass p d a _ _ => pdaNames base p d a
  | .rcp p d a _ | .rsq p d a _ | .sqrt p d a _ | .ex2 p d a _ | .lg2 p d a _ | .sin p d a _ | .cos p d a _
  | .tanh p d a _ => pdaNames base p d a
  | .cvt p d a _ | .qblk p d a _ | .qdec p d a _ | .qscale p d a _ => pdaNames base p d a
  | .cvtMx p d a b _ => pdaNames base p d a ++ vNames base 1 b
  | .shfl p d a b _ _ => fltNames base p d a b
  | .vote p q a _ => predName p ++ pName q ++ pName a
  | .ballot p _ a => predName p ++ pName a
  | .matchLane p d a wide => predName p ++ vNames base 1 d ++ vNames base (if wide then 2 else 1) a
  | .scan p d a _ _ _ => pdaNames base p d a
  | .redux p _ a _ _ => predName p ++ vNames base 1 a
  | .bmand p d a b => predName p ++ vNames base 2 d ++ vNames base 1 a ++ vNames base 1 b
  | .ld f w | .st f w | .ldw f w => memNames base f w
  | .lda f w => predName f.p ++ vNames base 1 f.d ++ addrNames base f.a w.space w.base
  | .pref f w | .cctl f w => predName f.p ++ addrNames base f.a w.space w.base
  | .atom f w | .red f w => predName f.p ++ vNames base w.op.nregs f.d ++ addrNames base f.a w.space w.base
  | .cpy e | .cpyTx e | .cpyFo e | .cpyTxFo e | .ldws e | .ldwsW e | .enct e | .enctAuto e | .accrd e | .accwr e
  | .accz e | .accsc e | .kvfork e | .kvext e | .kvcow e | .kvfree e | .coll e => predName e.p
  | .mma e v | .mmaChain e v | .mmaSmx e v => predName e.p ++ vNames base 1 v
  | .swapw p _ _ => predName p
  | .xlat p _ _ v | .xlatWr p _ _ v => predName p ++ vNames base 2 v
  | .binit p _ _ | .arrive p _ _ | .expect p _ _ | .waitph p _ _ => predName p
  | .bretire p _ _ => predName p
  | .testph p _ q => predName p ++ pName q
  | .seal p | .waitb p _ | .waitt p _ | .nop p | .exit p => predName p
  | .parkG p _ _ _ | .parkX p _ _ _ => predName p
  | .fence p _ | .qfence p _ | .xfence p _ | .acq p _ | .rel p _ => predName p
  | .bind p _ _ | .unbind p _ _ => predName p
  | .bra p _ | .trap p _ => predName p
  | .brx p a => predName p ++ (match a with | .thread r => vNames base 1 r | .uni _ => [])
  | .callx v a => vNames (base + v.toNat) 1 30 ++ (match a with | .thread r => vNames base 1 r | .uni _ => [])
  | .call v _ => vNames (base + v.toNat) 1 30
  | .ret => vNames base 1 30
  | .srd p d f n => predName p ++ (if f then [] else vNames base (if special64 n then 2 else 1) d)
  | .regclaim q _ => pName q
  | .brc .. | .tret | .submit .. | .launch .. | .trig | .waitdep | .switchpt .. | .step | .beat | .reggive ..
  | .keydrop .. | .swr .. | .segset .. | .spillf .. | .fillf .. | .ctxsv .. | .ctxld .. | .tlbinv .. | .freeze ..
  | .thaw .. | .perfsel .. | .movLong .. | .clauseEntry | .loadComplete .. | .ldaLanePerform .. | .registerWrite ..
  | .queueEnable .. | .queueDisable .. | .reserveIndexRead .. | .doorbell .. | .launchCommand .. | .taskCommand ..
  | .signal .. | .cadd .. | .cset .. | .wsload .. | .hold .. | .holdRelease .. | .queueResume ..
  | .counterApertureWrite .. | .heldCancelDelivery | .dispatchStep .. | .keyGrant .. | .warpRelease .. | .entryAged ..
  | .placementWaitLimit .. | .preemptionDelayExpiry .. | .readmissionDelayExpiry .. | .switchComplete ..
  | .preemptionTakeEffect .. | .contextSaveComplete .. | .watchdogFire .. | .invalidateTranslations ..
  | .cleanAndInvalidate .. | .setPacked .. | .setUnpacked .. | .retryMiss .. | .declineMiss .. | .maintenanceComplete
  | .wsRefreshWindow .. | .wsloadCopyStart .. | .wsloadComplete .. | .copyStart .. | .granuleLand ..
  | .engineCommandStart .. | .engineCommandComplete .. | .pageUnitOperation .. | .kvcowCopyComplete .. | .parkWake ..
  | .warpRetire .. | .blockRetire .. | .taskRetire .. | .drainSweepEnd .. | .freezeRequest .. | .thawRequest ..
  | .abortRequest .. | .preemptRequest .. | .heldRequestApply .. | .faultRecordAppend .. | .faultInterrupt
  | .collStepBegin .. | .chunkTransfer .. | .inboundChunk .. | .collComplete .. | .collTimeout .. | .collAbort ..
  | .inboundRequest .. | .cxlMemRequest .. | .cxlSnoop .. | .cxlLinkDown | .linkDown .. | .linkUp .. | .packageReset
  | .loadFirmware .. | .firmwareVerifyDone | .loadBlob .. | .blobVerifyDone | .extendMeasurement .. | .requestQuote ..
  | .quoteDone | .functionReady .. | .throttle | .criticalTemperature | .remoteRefusal .. | .throttleEnd => []

/-- Do the two lists of names overlap? -/
def overlapNames (a b : List RegName) : Bool := a.any fun x => b.contains x

/-- The registers of frames a SPILLF would write or a FILLF would replace. -/
def Warp.frameNames (w : Warp) (i : Instr) : List RegName :=
  let frames (lo n : Nat) : List RegName := (List.range (8 * n)).map fun j => .v (8 * lo + j)
  match i with
  | .spillf _ n => frames w.resident n.toNat
  | .fillf _ n => frames (w.resident - n.toNat) n.toNat
  | _ => []

/-- Every register the instruction touches in this warp. -/
def Warp.touched (w : Warp) (base : Nat) (i : Instr) : List RegName := Instr.regNames base i ++ w.frameNames i

/-- Pending destinations of the warp (R123). -/
def Warp.pending (w : Warp) : List RegName := w.outs.flatMap MemOp.dests

/-- The destinations of the spans in force (R124). -/
def Clause.spanned (c : Clause) : List RegName := c.spans.flatMap Span.dests

/-- Must the instruction wait on the scoreboard: does it touch a pending destination outside every span? -/
def Warp.blocked (w : Warp) (c : Clause) (i : Instr) : Bool :=
  overlapNames (w.touched c.base i) (w.pending.filter fun r => !c.spanned.contains r)

/-- Does the instruction violate a span (R124)? -/
def Warp.violates (w : Warp) (c : Clause) (i : Instr) : Bool := overlapNames (w.touched c.base i) c.spanned

/-- Majors 0x20 to 0x27: M format. -/
def Instr.isMem : Instr → Bool
  | .ld .. | .st .. | .lda .. | .ldw .. | .atom .. | .red .. | .pref .. | .cctl .. => true
  | _ => false

/-- Operations that occupy a replay slot (R251, R363): some lane of them waits, or an XLAT is not finished. -/
def MemOp.replaying (o : MemOp) : Bool :=
  (match o.kind with | .xlat _ => true | _ => false) ||
  o.lanes.any fun l => match l.st with
    | .missing _ | .full | .declined => true
    | _ => false

/-- Are all four replay slots full? -/
def Warp.replayFull (w : Warp) : Bool := decide (4 ≤ (w.outs.filter MemOp.replaying).length)

end Sys2Proof.Machine
end

