-- ==== Sys2Proof/Machine/MemInstr.lean ====
section
/-! DEFINITION. The memory family (majors 0x20 to 0x27, R266 to R274), LOAD_COMPLETE (R123) and LDA_LANE_PERFORM
(R297). -/

namespace Sys2Proof

/-- The sign-extended offset of an address word. -/
def AddrWord.disp (w : AddrWord) : Dword := w.off.signExtend 64
def AtomWord.disp (w : AtomWord) : Dword := w.off.signExtend 64

end Sys2Proof

namespace Sys2Proof.Machine

/-- The words of the registers at field r, as `z` bytes (R268). -/
def Ctx.dataBytes (c : Ctx) (r : Reg5) (z l : Nat) : List Byte :=
  (((List.range (max 1 (z / 4))).flatMap fun i =>
    leBytes 4 (if r == 31 then 0 else (c.w.v c.c.base (r.toNat + i) l).toNat)).take z)

/-- The effective address of lane l, swizzled in x: (R122, R261). -/
def Ctx.memEa (c : Ctx) (space : Space) (base : Option Reg6) (a : Reg5) (off : Dword) (sw l : Nat) : Dword :=
  let e := c.effAddr space base a off l
  match space with
  | .x => BitVec.ofNat 64 (swizzle sw e.toNat)
  | _ => e

/-- The request of a plain access. -/
def Ctx.plainReq (c : Ctx) (kind : MemKind) (f : MFields) (w : AddrWord) (dests : List RegName)
    (data : Nat → List Byte) : MemReq where
  kind := kind
  space := w.space
  bytes := f.size.bytes
  dests := dests
  sext := w.sext
  ord := w.ord
  scope := w.scope
  sw := f.sw.toNat
  lanes := (c.active f.p).lanes.map fun l =>
    ⟨l, c.memEa w.space w.base f.a w.disp f.sw.toNat l, 0, data l, [], [], .ready⟩

/-- LD (R267). -/
def execLd (f : MFields) (w : AddrWord) (s : State) : Host.Outcome State Fault Refusal :=
  withCtx s fun c => issueMem s c f.la.toNat (c.plainReq .ld f w (sizeNames c.c.base f) fun _ => [])

/-- ST (R268). -/
def execSt (f : MFields) (w : AddrWord) (s : State) : Host.Outcome State Fault Refusal :=
  withCtx s fun c => issueMem s c f.la.toNat (c.plainReq .st f w [] fun l => c.dataBytes f.d f.size.bytes l)

/-- The request of an LDA (R269): the destination offset of each lane is in d, swizzled. -/
def Ctx.ldaReq (c : Ctx) (f : MFields) (w : AddrWord) : MemReq :=
  let q := c.plainReq .lda { f with sw := 0 } w [] fun _ => []
  { q with lanes := q.lanes.map fun l => { l with dst := BitVec.ofNat 64 (swizzle f.sw.toNat (c.v1 f.d l.lane).toNat) } }

/-- LDA (R269). -/
def execLda (f : MFields) (w : AddrWord) (s : State) : Host.Outcome State Fault Refusal :=
  withCtx s fun c => issueMem s c f.la.toNat (c.ldaReq f w)

/-- LDW (R270). -/
def execLdw (f : MFields) (w : AddrWord) (s : State) : Host.Outcome State Fault Refusal :=
  withCtx s fun c => issueMem s c f.la.toNat (c.plainReq .ldw f w (sizeNames c.c.base f) fun _ => [])

/-- The request of an atomic: CAS reads the compare value and then the new value from d (R273). -/
def Ctx.atomReq (c : Ctx) (kind : MemKind) (f : MFields) (w : AtomWord) (dests : List RegName) : MemReq where
  kind := kind
  space := w.space
  bytes := w.op.bytes
  dests := dests
  sext := false
  ord := w.ord
  scope := w.scope
  sw := f.sw.toNat
  lanes := (c.active f.p).lanes.map fun l =>
    let z := w.op.bytes
    let both := c.dataBytes f.d (2 * z) l
    ⟨l, c.memEa w.space w.base f.a w.disp f.sw.toNat l, 0, c.dataBytes f.d z l,
      if w.op.isCas then both.drop z else [], [], .ready⟩

/-- ATOM (R273). -/
def execAtom (f : MFields) (w : AtomWord) (s : State) : Host.Outcome State Fault Refusal :=
  withCtx s fun c => issueMem s c f.la.toNat (c.atomReq (.atom w.op) f w (vNames c.c.base w.op.nregs f.d))

/-- RED (R274). -/
def execRed (f : MFields) (w : AtomWord) (s : State) : Host.Outcome State Fault Refusal :=
  withCtx s fun c => issueMem s c f.la.toNat (c.atomReq (.red w.op) f w [])

/-- What a memory instruction asks for every lane of its clause, whatever its predicate: its replay in a saved record names the
lanes (R415). -/
def Ctx.memReq (c : Ctx) : Instr → Option MemReq
  | .ld f w => some (c.plainReq .ld { f with p := .pt } w (sizeNames c.c.base f) fun _ => [])
  | .st f w => some (c.plainReq .st { f with p := .pt } w [] fun l => c.dataBytes f.d f.size.bytes l)
  | .lda f w => some (c.ldaReq { f with p := .pt } w)
  | .ldw f w => some (c.plainReq .ldw { f with p := .pt } w (sizeNames c.c.base f) fun _ => [])
  | .atom f w => some (c.atomReq (.atom w.op) { f with p := .pt } w (vNames c.c.base w.op.nregs f.d))
  | .red f w => some (c.atomReq (.red w.op) { f with p := .pt } w [])
  | _ => none

/-- Lines that the active lanes name, for lanes that pass every check of R249. -/
def Ctx.lines (c : Ctx) (s : State) (f : MFields) (w : AddrWord) : State × List Place :=
  (c.active f.p).lanes.foldl (fun (p : State × List Place) l =>
    match p.1.check c.b w.space (c.effAddr w.space w.base f.a w.disp l).toNat 1 .read with
    | (t, .ok (.mem pl)) =>
      if t.readable c.b.die pl.key 1 pl.packed then (t, p.2 ++ [pl]) else (t, p.2)
    | (t, _) => (t, p.2)) (s, [])

/-- PREF (R271): the sectors of each line that the die may hold and does not hold are fetched. -/
def execPref (f : MFields) (w : AddrWord) (s : State) : Host.Outcome State Fault Refusal :=
  withCtx s fun c =>
    let (t, ls) := c.lines s f w
    let u := ls.foldl (fun t p =>
      (List.range 4).foldl (fun t i =>
        if copyable c.b.die p.key then (t.fillSector c.b.die (p.key / 128 * 4 + i) p.packed).1 else t) t) t
    u.stepLong c 2 f.la.toNat []

/-- The effect of CCTL on a line of a die (R272); 1, the L1's copy, is one the die's copies stand for (log 8). -/
def State.cctl (s : State) (die : Nat) (op : Nat) (key : Nat) : State :=
  let line (i : Nat) : Bool := i / 4 == key / 128
  match op with
  | 0 | 3 => s.publishCopies die line
  | 2 => s.dropCopies die line
  | _ => s

/-- CCTL (R272): it waits for the warp's earlier stores to its lines. -/
def execCctl (f : MFields) (w : AddrWord) (s : State) : Host.Outcome State Fault Refusal :=
  withCtx s fun c =>
    let eas := (c.active f.p).lanes.map fun l => (c.effAddr w.space w.base f.a w.disp l).toNat
    let waits := c.w.outs.any fun o => o.kind.access != .read && o.lanes.any fun l =>
      l.undone && eas.any fun e => e / 128 == l.ea.toNat / 128
    if waits then s
    else
      let (t, ls) := c.lines s f w
      (ls.foldl (fun t p => t.cctl c.b.die f.d.toNat p.key) t).stepLong c 2 f.la.toNat []

/-! ## Events -/

/-- LOAD_COMPLETE (R123): the answers of another package's memory, and halves still to come (R258), are performed first; when every lane of the
operation has performed, it writes its registers and leaves the warp's outstanding operations. -/
def execLoadComplete (r : WRef) (k : Nat) (s : State) : Host.Outcome State Fault Refusal :=
  match s.master r.m with
  | none => .next s
  | some b =>
    if !b.drains then .next s
    else
      let t := (s.runOp r k fun l => l.st.sent).purge r
      match (t.warp r).bind fun w => w.op k with
      | none => .next t
      | some o =>
        let returns := match o.kind with
          | .ld | .ldw | .atom _ | .xlat _ => true
          | .st | .lda | .red _ | .spill | .fill => false
        if returns && !o.undone then
          .next ((t.modWarp r fun w => let w := o.write w
                                       { w with outs := w.outs.filter fun x => x.k != k }).drainOps r)
        else .next t

/-- LDA_LANE_PERFORM (R297): the shuttle performs one lane, in an order R253 allows. -/
def execLdaLanePerform (r : WRef) (k lane : Nat) (s : State) : Host.Outcome State Fault Refusal :=
  match s.master r.m with
  | none => .next s
  | some b =>
    if !b.drains then .next s
    else match (s.warp r).bind fun w => w.op k with
      | none => .next s
      | some o => match o.kind with
        | .lda =>
          let pick (l : LaneAcc) : Bool := l.lane == lane && (l.st == .ready || l.st.sent)
          let t := s.runOp r k pick
          let lands := o.lanes.any pick && (match (t.warp r).bind fun w => w.op k with
            | some x => x.lanes.any fun l => l.lane == lane && l.st == .done
            | none => true)
          .next (((if lands then t.progress r.m false else t).purge r).drainOps r)
        | _ => .next s

end Sys2Proof.Machine
end

