-- ==== Sys2Proof/Machine/Kv.lean ====
section
/-! DEFINITION. The page unit: its order (R359), the structures of R356 to R358, XLAT (R362 to R364), the KV commands (R366 to
R371), and their events (R361, R373). -/

namespace Sys2Proof.Machine

/-! ## Page-unit order (R359) -/

def State.enterPage (s : State) (d : Nat) (o : PageOp) : State :=
  s.modDie d fun x => { x with pageOps := aset x.pageOps x.pageSeq o, pageSeq := x.pageSeq + 1 }

def EOp.isKv : EOp → Bool
  | .kvfork | .kvext | .kvcow | .kvfree => true
  | _ => false

/-- The sequence of word 0, and of word 1 in a KVFORK. -/
def kvSeq (ws : List Word) : Nat := bitsAt (dword ws 0) 0 20
def kvSeqs (e : Entry) : List Nat :=
  kvSeq e.words :: (match e.op with | .kvfork => [bitsAt (dword e.words 1) 0 20] | _ => [])

/-- The sequences that an operation names; an XLAT's lanes hold theirs in `dst`. -/
def State.pageSeqs (s : State) (o : PageOp) : List Nat :=
  match s.master o.m with
  | none => []
  | some b =>
    if o.kv then (match aget b.entries o.k with | some e => kvSeqs e | none => [])
    else match (b.warps[o.w]?).bind fun w => w.op o.k with
      | some x => (x.lanes.filter fun l => o.lanes.has l.lane).map fun l => l.dst.toNat
      | none => []

/-- Do two masters' structures on a die belong together: one address space and KV context (R355, R356)? -/
def Master.sameKv (a b : Master) : Bool := a.ctx.asid == b.ctx.asid && a.kv == b.kv

/-- Do two operations name a sequence in common? -/
def State.sharesSeq (s : State) (p q : PageOp) : Bool :=
  match s.master p.m, s.master q.m with
  | some a, some b => a.sameKv b && (s.pageSeqs p).any (s.pageSeqs q).contains
  | _, _ => false

/-- Has a waiting operation arrived at the page unit: its master's units work, and nothing of the block's order is in a
command's way (R308, R373)? -/
def State.pageReady (s : State) (o : PageOp) : Bool :=
  match s.master o.m with
  | none => false
  | some b =>
    if o.kv then b.phase.works && decide (entryCycle o.k < s.cycles) &&
      (match aget b.entries o.k with | some e => s.unopposed b o.k e | none => false)
    else b.drains

/-- Does the earlier operation p, itself kept waiting or not, keep q waiting (R359, R361)? One that is itself kept waiting has
not taken its place, and keeps back only its own warp. -/
def State.pageBefore (s : State) (p : PageOp) (held : Bool) (q : PageOp) : Bool :=
  let same := p.m == q.m && p.w == q.w
  let shares := s.sharesSeq p q
  match p.st with
  | .waiting => same || (!held && s.pageReady p)
  | .absent _ => same || shares
  | .copying .. => shares

/-- Is q kept waiting by one of these earlier operations? -/
def State.pageStops (s : State) (seen : List (PageOp × Bool)) (q : PageOp) : Bool :=
  seen.any fun p => s.pageBefore p.1 p.2 q

/-- Is the operation at position k kept waiting? -/
def State.pageHeld (s : State) (d k : Nat) (o : PageOp) : Bool :=
  s.pageStops (((s.die d).pageOps.filter fun p => decide (p.1 < k)).foldl
    (fun seen p => seen ++ [(p.2, s.pageStops seen p.2)]) []) o

/-! ## Access to the structures -/

/-- Why an operation stops short: an access, or a status code of R367. -/
inductive KvStop where
  | eng (r : EngRes)
  | code (n : Nat)
  deriving DecidableEq, Repr

/-- What an operation works on: the state, the structure writes it will make, latest first, and the frames that KVCOWs still
copying have taken. Those write the structures only when they complete (R360, R367), so that their frames are still the first of
the free list, and no other operation's (log 86). -/
structure PageMem where
  s : State
  writes : List (Nat × List Byte)
  held : List Nat

/-- The frames that KVCOWs still copying on the die have taken from the master's pool. -/
def State.heldFrames (s : State) (b : Master) : List Nat :=
  (s.die b.die).pageOps.filterMap fun p => match p.2.st, s.master p.2.m with
    | .copying _ new, some x => if x.sameKv b then some new else none
    | _, _ => none

/-- A computation of the page unit. -/
abbrev Page (α : Type) := ExceptT KvStop (StateM PageMem) α

def malformedKv (q : Nat) : KvStop := .eng (.bad 0x19 q)

/-- Read n bytes of a structure at a g: address. -/
def pageRead (b : Master) (a n : Nat) : Page (List Byte) := fun p =>
  match p.writes.find? fun x => x.1 == a with
  | some x => (.ok x.2, p)
  | none => match p.s.engRead b 0 0 a n 1 with
    | (t, .ok bs) => (.ok bs, { p with s := t })
    | (t, r) => (.error (.eng r), { p with s := t })

def pageWrite (a : Nat) (bs : List Byte) : Page Unit := fun p => (.ok (), { p with writes := (a, bs) :: p.writes })

/-- Where the structures of the master's die lie (R356). -/
def seqAt (b : Master) (k : KvCtx) (q : Nat) : Nat := k.seqTable + b.die * k.stride + 32 * q
def poolAt (b : Master) (k : KvCtx) : Nat := k.pool + b.die * k.stride
def frameAt (b : Master) (k : KvCtx) (f : Nat) : Nat := poolAt b k + 64 + 8 * f
def KvCtx.frameBytes (k : KvCtx) : Nat := 16 * (k.kBytes + k.vBytes)
/-- The k: offset of frame f of the die. -/
def frameOff (b : Master) (k : KvCtx) (f : Nat) : Nat := k.frameBase + (b.die * k.frameCount + f) * k.frameBytes

/-- A sequence entry (R357). -/
structure SeqEnt where
  length : Nat
  capacity : Nat
  list : Nat
  live : Bool
  deriving DecidableEq, Repr, Inhabited

def SeqEnt.pages (e : SeqEnt) : Nat := ceilDiv e.length 16

def SeqEnt.bytes (e : SeqEnt) : List Byte :=
  leBytes 4 e.length ++ leBytes 4 e.capacity ++ leBytes 8 e.list ++ leBytes 1 (if e.live then 1 else 0) ++ leBytes 15 0

/-- Read a sequence entry and check it (R358). -/
def readSeq (b : Master) (k : KvCtx) (q : Nat) : Page SeqEnt := do
  let bs ← pageRead b (seqAt b k q) 32
  let e : SeqEnt := ⟨recNat bs 0 4, recNat bs 4 4, recNat bs 8 8, recNat bs 16 1 == 1⟩
  if anyByte bs 17 15 || decide (1 < recNat bs 16 1) || e.list % 64 != 0 || decide (268435456 < e.capacity) then
    throw (malformedKv q)
  return e

def writeSeq (b : Master) (k : KvCtx) (q : Nat) (e : SeqEnt) : Page Unit := pageWrite (seqAt b k q) e.bytes

/-- A frame descriptor: the next frame and the count. -/
def readFrame (b : Master) (k : KvCtx) (q f : Nat) : Page (Nat × Nat) := do
  let bs ← pageRead b (frameAt b k f) 8
  if recNat bs 2 2 != 0 then throw (malformedKv q)
  return (recNat bs 4 4, recNat bs 0 2)

def writeFrame (b : Master) (k : KvCtx) (f next count : Nat) : Page Unit :=
  pageWrite (frameAt b k f) (leBytes 2 count ++ leBytes 2 0 ++ leBytes 4 next)

def noFrame : Nat := 0xFFFFFFFF

/-- A page-list entry below the page count: a frame number below the frame count. -/
def readPage (b : Master) (k : KvCtx) (q : Nat) (e : SeqEnt) (j : Nat) : Page Nat := do
  let bs ← pageRead b (e.list + 4 * j) 4
  let f := leNat bs
  if k.frameCount ≤ f then throw (malformedKv q)
  return f

/-- Its count, which is not 0. -/
def readCount (b : Master) (k : KvCtx) (q f : Nat) : Page Nat := do
  let (_, c) ← readFrame b k q f
  if c == 0 then throw (malformedKv q)
  return c

/-- Read the pool header and check it (R358): the free head and the free count. -/
def readPool (b : Master) (k : KvCtx) (q : Nat) : Page (Nat × Nat) := do
  let bs ← pageRead b (poolAt b k) 64
  if anyByte bs 8 56 then throw (malformedKv q)
  return (recNat bs 0 4, recNat bs 4 4)

def writePool (b : Master) (k : KvCtx) (head count : Nat) : Page Unit :=
  pageWrite (poolAt b k) (leBytes 4 head ++ leBytes 4 count ++ leBytes 56 0)

/-- The free list: its first frame and its count as the pool header has them, the frames at its front that KVCOWs still copying
hold, how many and the last of them, and the frame that follows. -/
structure FreeList where
  first : Nat
  count : Nat
  held : Nat
  last : Option Nat
  head : Nat
  deriving DecidableEq, Repr

/-- How many frames are free. -/
def FreeList.free (l : FreeList) : Nat := l.count - l.held

/-- Pass the frames that KVCOWs hold, but for the frame `own`. -/
def passHeld (b : Master) (k : KvCtx) (q : Nat) (own : Option Nat) : Nat → FreeList → Page FreeList
  | 0, l => return l
  | n + 1, l => fun p =>
    if p.held.contains l.head && own != some l.head then
      (do
        let (next, _) ← readFrame b k q l.head
        passHeld b k q own n { l with held := l.held + 1, last := some l.head, head := next } : Page FreeList) p
    else (.ok l, p)

/-- Read the free list as far as `own`, or as the first frame that no KVCOW holds. -/
def freeList (b : Master) (k : KvCtx) (q : Nat) (own : Option Nat) : Page FreeList := do
  let (first, count) ← readPool b k q
  fun p => passHeld b k q own p.held.length ⟨first, count, 0, none, first⟩ p

/-- The first frame that can be taken (R368). -/
def freeHead (b : Master) (k : KvCtx) (q : Nat) (own : Option Nat) : Page (FreeList × Nat) := do
  let l ← freeList b k q own
  if k.frameCount ≤ l.head || own.any (· != l.head) then throw (malformedKv q)
  let (next, c) ← readFrame b k q l.head
  if c != 0 then throw (malformedKv q)
  return (l, next)

/-- The free list goes on with `head` after the frames that KVCOWs hold, and has `count` frames in all. -/
def writeFree (b : Master) (k : KvCtx) (l : FreeList) (head count : Nat) : Page Unit := do
  match l.last with
  | none => writePool b k head count
  | some f =>
    writeFrame b k f head 0
    writePool b k l.first count

/-- Take the free head, or the frame `own` that a KVCOW holds (R368, R370). -/
def takeFrame (b : Master) (k : KvCtx) (q : Nat) (own : Option Nat) : Page Nat := do
  let (l, next) ← freeHead b k q own
  writeFree b k l next (l.count - 1)
  writeFrame b k l.head noFrame 1
  return l.head

/-- Take one from a frame's count; at zero it returns to the free list (R371). The result is the frames returned. -/
def dropFrame (b : Master) (k : KvCtx) (q f : Nat) : Page Nat := do
  let c ← readCount b k q f
  if c == 1 then
    let l ← freeList b k q none
    writeFrame b k f l.head 0
    writeFree b k l f (l.count + 1)
    return 1
  else
    writeFrame b k f noFrame (c - 1)
    return 0

/-! ## XLAT (R362 to R364) -/

/-- R366 for XLAT's descriptor. -/
def xlatSubs (c : Ctx) (r : Reg6) : List Nat :=
  c.withDesc r 1 fun ws =>
    let w := dword ws 0
    zeroBits w 20 11 ++ (if bitsAt w 31 1 == 1 then zeroBits w 0 20 else []) ++
    (match c.b.kv with
     | none => [8]
     | some k => need (bitsAt w 31 1 == 1 || decide (bitsAt w 0 20 < k.seqCount)) 8)

/-- The operation of an XLAT's lanes (R362 to R364): where a lane's position stands, and its sequence. -/
def Ctx.xlatOp (c : Ctx) (k : Nat) (m : Mask) (r : Reg6) (v : Reg5) (wr : Bool) : MemOp :=
  let w := dword (c.desc r 1) 0
  let lanes : List LaneAcc := m.lanes.map fun l =>
    let q := if bitsAt w 31 1 == 0 then bitsAt w 0 20 else if v == 31 then 0 else (c.w.v c.c.base (v.toNat + 1) l).toNat % 2 ^ 20
    ⟨l, (c.v1 v l).setWidth 64, BitVec.ofNat 64 q, [], [], [], .ready⟩
  ⟨k, c.c.pc, .xlat wr, .k, 8, vNames c.c.base 2 v, false, .plain, .w, 0, 0, lanes⟩

/-- What a memory instruction or an XLAT has outstanding in the lanes of its clause, as operation `k`. -/
def Ctx.replayOp (c : Ctx) (k : Nat) : Instr → Option MemOp
  | .xlat _ r _ v => some (c.xlatOp k c.c.lanes r v false)
  | .xlatWr _ r _ v => some (c.xlatOp k c.c.lanes r v true)
  | i => (c.memReq i).map fun q => c.memOp q k q.lanes

/-- XLAT issues: its lanes are one operation of the die's page unit (R359, R364). -/
def issueXlat (s : State) (c : Ctx) (p : Pred) (r : Reg6) (la : BitVec 4) (v : Reg5) (wr : Bool) : State :=
  checked s c (xlatSubs c r)
    (let m := c.active p
     let dests := vNames c.c.base 2 v
     if m == 0 then s.stepLong c 1 la.toNat dests
     else
       let k := c.w.opCount
       let t := s.modWarp c.ref fun w => { w with outs := w.outs ++ [c.xlatOp k m r v wr], opCount := k + 1 }
       (t.enterPage c.b.die ⟨c.ref.m, c.ref.w, k, false, m, .waiting⟩).stepLong c 1 la.toNat dests)

/-- XLAT (R363). -/
def execXlat (p : Pred) (r : Reg6) (la : BitVec 4) (v : Reg5) (s : State) : Host.Outcome State Fault Refusal :=
  withCtx s fun c => issueXlat s c p r la v false
/-- XLAT.wr (R363). -/
def execXlatWr (p : Pred) (r : Reg6) (la : BitVec 4) (v : Reg5) (s : State) : Host.Outcome State Fault Refusal :=
  withCtx s fun c => issueXlat s c p r la v true

/-- The translation of one lane: the two words it writes (R363). -/
def xlatLane (b : Master) (k : KvCtx) (wr : Bool) (q p : Nat) : Page (Nat × Nat) := do
  if k.seqCount ≤ q then return (noFrame, 4)
  let e ← readSeq b k q
  if !e.live then return (noFrame, 4)
  if e.length ≤ p then return (noFrame, 2)
  let f ← readPage b k q e (p / 16)
  let shared ← (if wr then do
    let c ← readCount b k q f
    return decide (1 < c)
    else return false)
  if shared then return (noFrame, 3)
  let o := frameOff b k f
  let t := p % 16
  return ((o + k.kBytes * t) % 2 ^ 32, (o + 16 * k.kBytes + k.vBytes * t) % 2 ^ 32)

/-- The place in R249 of a cause; a malformed structure comes after every check. -/
def causeOrder (c : Nat) : Nat :=
  match c with
  | 0x10 => 1 | 0x11 => 2 | 0x12 => 4 | 0x13 => 5 | 0x14 => 6 | 0x15 => 7 | _ => 8

/-- The violations that lanes of an XLAT have met. -/
def xlatBad (rs : List (LaneAcc × Except KvStop (Nat × Nat))) : List LaneBad :=
  rs.filterMap fun p => match p.2 with
    | .error (.eng (.bad c a)) => some ⟨causeOrder c, c, p.1.lane, BitVec.ofNat 64 a⟩
    | _ => none

/-- One lane of an XLAT with what the structures gave it: its result, a wait in replay, or, where it read poison, a free
value (R250, R361). -/
def State.settleXlat (s : State) (b : Master) (l : LaneAcc) (r : Except KvStop (Nat × Nat)) : State × LaneAcc :=
  match r with
  | .ok v => (s, { l with val := leBytes 4 v.1 ++ leBytes 4 v.2, st := .done })
  | .error (.eng (.missing va lv _)) =>
    let (t, st) := s.joinMiss b.die b.ctx.asid va lv false
    (t, { l with st := st })
  | .error _ =>
    let (t, v) := s.freeBytes 8
    (t, { l with val := v, st := .done })

/-- An XLAT, or the lanes of one, that writes nothing: the lanes walk again on thaw (R361, R399). -/
def State.xlatStops (s : State) (d k : Nat) (o : PageOp) (x : MemOp) (bad : List LaneBad) : State :=
  let lanes := x.lanes.map fun l => if o.lanes.has l.lane then { l with st := .declined } else l
  ((s.modWarp ⟨o.m, o.w⟩ fun w => w.setOp { x with lanes := lanes }).modDie d fun y =>
    { y with pageOps := adel y.pageOps k }).laneViolation ⟨o.m, o.w⟩ x.pc bad

/-- An XLAT at its place in the order: every lane's result, or the record of the earliest failing check with nothing written
(R250, R361): it is performed again on thaw. Lanes that meet a page not present wait in replay; poison stops only the lanes
that read it. -/
def State.runXlat (s : State) (d k : Nat) (o : PageOp) (b : Master) (x : MemOp) (kc : KvCtx) : State :=
  let wr := match x.kind with | .xlat w => w | _ => false
  let (t, rs) := (x.lanes.filter fun l => o.lanes.has l.lane).foldl
    (fun (p : State × List (LaneAcc × Except KvStop (Nat × Nat))) l =>
      match (xlatLane b kc wr l.dst.toNat l.ea.toNat).run ⟨p.1, [], []⟩ with
      | (r, pm) => (pm.s, p.2 ++ [(l, r)])) (s, [])
  let bad := xlatBad rs
  if bad.any fun y => y.cause != 0x15 then t.xlatStops d k o x bad
  else
    let (t, ls) := rs.foldl (fun (p : State × List LaneAcc) r =>
      match p.1.settleXlat b r.1 r.2 with
      | (u, l) => (u, p.2 ++ [l])) (t, [])
    let lanes := x.lanes.map fun l => (ls.find? fun y => y.lane == l.lane).getD l
    ((t.modWarp ⟨o.m, o.w⟩ fun w => w.setOp { x with lanes := lanes }).modDie d fun y =>
      { y with pageOps := adel y.pageOps k }).laneViolation ⟨o.m, o.w⟩ x.pc bad

/-! ## The KV commands (R366 to R371) -/

/-- R366. -/
def kvSubs (c : Ctx) (e : EFields) (op : EOp) : List Nat :=
  c.withDesc e.s (if op == .kvfree then 1 else 2) fun ws =>
    let w1 := dword ws 1
    let seq (q : Nat) : List Nat := match c.b.kv with
      | none => [8]
      | some k => need (decide (q < k.seqCount)) 8
    need (decide (16 * bitsAt (dword ws 0) 20 12 + 16 ≤ c.b.variant.scratch)) 8 ++ seq (kvSeq ws) ++
    (match op with
     | .kvfork => zeroBits w1 20 12 ++ seq (bitsAt w1 0 20)
     | .kvext => zeroBits w1 16 16 ++ need (bitsAt w1 0 16 != 0) 8
     | .kvcow => zeroBits w1 28 4
     | _ => [])

/-- Issue a KV command: it enters the block's order and the page unit's. -/
def issueKv (s : State) (c : Ctx) (e : EFields) (op : EOp) : State :=
  let k := c.b.entryKey s.cycles (c.b.spanOf c.ref.w) c.ref.w
  let t := if c.executes e.p && c.w.stored then s.enterPage c.b.die ⟨c.ref.m, c.ref.w, k, true, 0, .waiting⟩ else s
  checked s c (kvSubs c e op) (issueCmd t c e.p e.t [] (c.entry op (c.desc e.s (if op == .kvfree then 1 else 2)) 0 e.t))

/-- KVFORK (R369). -/
def execKvfork (e : EFields) (s : State) : Host.Outcome State Fault Refusal := withCtx s fun c => issueKv s c e .kvfork
/-- KVEXT (R368). -/
def execKvext (e : EFields) (s : State) : Host.Outcome State Fault Refusal := withCtx s fun c => issueKv s c e .kvext
/-- KVCOW (R370). -/
def execKvcow (e : EFields) (s : State) : Host.Outcome State Fault Refusal := withCtx s fun c => issueKv s c e .kvcow
/-- KVFREE (R371). -/
def execKvfree (e : EFields) (s : State) : Host.Outcome State Fault Refusal := withCtx s fun c => issueKv s c e .kvfree

/-- A status record (R367). -/
structure KvStatus where
  code : Nat
  flags : Nat
  length : Nat
  taken : Nat
  returned : Nat
  deriving DecidableEq, Repr, Inhabited

def KvStatus.bytes (r : KvStatus) : List Byte :=
  leBytes 1 r.code ++ leBytes 1 r.flags ++ leBytes 2 0 ++ leBytes 4 r.length ++ leBytes 4 r.taken ++ leBytes 4 r.returned

/-- How a command ends: with its status, or with a copy still to land from one frame to another. -/
inductive KvEnd where
  | ended (r : KvStatus)
  | copy (old new : Nat)
  deriving DecidableEq, Repr

/-- Append n tokens (R368). -/
def runKvext (b : Master) (k : KvCtx) (q n : Nat) : Page KvEnd := do
  let e ← readSeq b k q
  let len := if e.live then e.length else 0
  let old := ceilDiv len 16
  let m := ceilDiv (len + n) 16 - old
  if 2 ^ 32 ≤ len + n || decide (e.capacity < ceilDiv (len + n) 16) then return .ended ⟨2, 0, e.length, 0, 0⟩
  let l ← freeList b k q none
  if l.free < m then return .ended ⟨1, 0, e.length, 0, 0⟩
  for i in List.range m do
    let f ← takeFrame b k q none
    pageWrite (e.list + 4 * (old + i)) (leBytes 4 f)
  writeSeq b k q { e with length := len + n, live := true }
  return .ended ⟨0, 0, len + n, m, 0⟩

/-- Give r the pages of q (R369). -/
def runKvfork (b : Master) (k : KvCtx) (q r : Nat) : Page KvEnd := do
  let e ← readSeq b k q
  let d ← readSeq b k r
  if !e.live || d.live then return .ended ⟨3, 0, d.length, 0, 0⟩
  if d.capacity < e.pages then return .ended ⟨2, 0, d.length, 0, 0⟩
  let frames ← (List.range e.pages).mapM fun j => do
    let f ← readPage b k q e j
    let c ← readCount b k q f
    return (f, c)
  if frames.any fun p => p.2 == 65535 then return .ended ⟨4, 0, d.length, 0, 0⟩
  for p in frames.zipIdx do
    let c ← readCount b k q p.1.1
    writeFrame b k p.1.1 noFrame (c + 1)
    pageWrite (d.list + 4 * p.2) (leBytes 4 p.1.1)
  writeSeq b k r { d with length := e.length, live := true }
  return .ended ⟨0, 0, e.length, 0, 0⟩

/-- Make page j of q private, up to its copy (R370): the frame it takes is held for it, and written with its other structure
writes when the copy has landed. -/
def runKvcow (b : Master) (k : KvCtx) (q j : Nat) : Page KvEnd := do
  let e ← readSeq b k q
  if !e.live then return .ended ⟨3, 0, e.length, 0, 0⟩
  if e.pages ≤ j then return .ended ⟨5, 0, e.length, 0, 0⟩
  let g ← readPage b k q e j
  let c ← readCount b k q g
  if c == 1 then return .ended ⟨0, 1, e.length, 0, 0⟩
  let l ← freeList b k q none
  if l.free == 0 then return .ended ⟨1, 0, e.length, 0, 0⟩
  let (l, _) ← freeHead b k q none
  return .copy g l.head

/-- What a KVCOW does once its copy has landed (R370). -/
def endKvcow (b : Master) (k : KvCtx) (q j g f : Nat) : Page KvStatus := do
  let e ← readSeq b k q
  let _ ← takeFrame b k q (some f)
  pageWrite (e.list + 4 * j) (leBytes 4 f)
  let n ← dropFrame b k q g
  return ⟨0, 0, e.length, 1, n⟩

/-- End sequence q (R371). -/
def runKvfree (b : Master) (k : KvCtx) (q : Nat) : Page KvEnd := do
  let e ← readSeq b k q
  if !e.live then return .ended ⟨3, 0, e.length, 0, 0⟩
  let mut n := 0
  for j in List.range e.pages do
    let g ← readPage b k q e j
    let r ← dropFrame b k q g
    pageWrite (e.list + 4 * j) (leBytes 4 noFrame)
    n := n + r
  writeSeq b k q { e with length := 0, live := false }
  return .ended ⟨0, 0, 0, 0, n⟩

def runKv (b : Master) (k : KvCtx) (e : Entry) : Page KvEnd :=
  let q := kvSeq e.words
  let w1 := dword e.words 1
  match e.op with
  | .kvext => runKvext b k q (bitsAt w1 0 16)
  | .kvfork => runKvfork b k q (bitsAt w1 0 20)
  | .kvcow => runKvcow b k q (bitsAt w1 0 28)
  | _ => runKvfree b k q

/-- Make the writes, all or none: the first that cannot be made decides (R361, R367). -/
def State.commit (s : State) (b : Master) (ws : List (Nat × List Byte)) : State × Option EngRes :=
  let ws := (ws.eraseDupsBy fun x y => x.1 == y.1).reverse
  let (t, stop) := ws.foldl (fun (p : State × Option EngRes) w =>
    match p with
    | (t, some r) => (t, some r)
    | (t, none) =>
      if b.outside 0 w.1 w.2.length then (t, some (.bad 0x11 w.1))
      else match t.vaPlaces b.die b.queue b.ctx w.1 w.2.length .write with
      | (u, .ok _) => (u, none)
      | (u, .error (.missing va lv)) => (u, some (.missing va lv true))
      | (u, .error (.bad c a)) => (u, some (.bad c a))
      | (u, .error (.ok _)) => (u, none)) (s, none)
  match stop with
  | some r => (t, some r)
  | none => (ws.foldl (fun t w => (t.vaWrite b.die b.queue b.ctx w.1 w.2).1) t, none)

/-- Run a computation and commit its writes. -/
def State.runPage {α : Type} (s : State) (b : Master) (c : Page α) : State × Except EngRes α :=
  match c.run ⟨s, [], s.heldFrames b⟩ with
  | (.ok a, pm) => match pm.s.commit b pm.writes with
    | (t, none) => (t, .ok a)
    | (t, some r) => (t, .error r)
  | (.error (.eng r), pm) => (pm.s, .error r)
  | (.error (.code _), pm) => (pm.s, .error (.bad 0x19 0))

/-- A command's structure access that did not succeed: it waits whole, or its master is frozen and it is performed again on
thaw (R361, R399); one that read poison is dropped then (R306, R399). -/
def State.kvFails (s : State) (d k : Nat) (o : PageOp) (b : Master) (r : EngRes) : State :=
  match r with
  | .ok _ => s
  | .missing va lv write =>
    let (t, st) := s.joinMiss b.die b.ctx.asid va lv write
    t.modDie d fun x => { x with pageOps := aset x.pageOps k { o with st := .absent st } }
  | .bad c a =>
    let f : FreezeAt := { FreezeAt.blank c with address := BitVec.ofNat 64 a }
    if c == 0x15 then
      ((s.modEntry o.m o.k fun e => { e with st := .dropped }).modDie d fun x => { x with pageOps := adel x.pageOps k }).freeze o.m f
    else ((s.modEntry o.m o.k fun e => { e with st := .queued, landed := 0, wait := .ready }).modDie d fun x =>
      { x with pageOps := aset x.pageOps k { o with st := .waiting } }).freeze o.m f

/-- A command is over: its status record, its token, its place (R367). -/
def State.kvOver (s : State) (d k : Nat) (o : PageOp) (e : Entry) (r : KvStatus) : State :=
  (((s.xWrite o.m (16 * bitsAt (dword e.words 0) 20 12) r.bytes).endEntry o.m o.k).progress o.m false).modDie d fun x =>
    { x with pageOps := adel x.pageOps k }

/-- PAGE_UNIT_OPERATION (R359): the operation at position k of the die's order, when nothing keeps it waiting. -/
def execPageUnitOperation (die k : Nat) (s : State) : Host.Outcome State Fault Refusal :=
  match aget (s.die die).pageOps k with
  | none => .next s
  | some o =>
    let due := match o.st with
      | .waiting => true
      | .absent l => l == .ready
      | .copying .. => false
    if !due || !s.pageReady o || s.pageHeld die k o then .next s
    else match s.master o.m with
      | none => .next s
      | some b => match b.kv with
        | none => .next s
        | some kc =>
          if o.kv then
            match aget b.entries o.k with
            | none => .next s
            | some e => match s.runPage b (runKv b kc e) with
              | (t, .error r) => .next (t.kvFails die k o b r)
              | (t, .ok (.ended r)) => .next (t.kvOver die k o e r)
              | (t, .ok (.copy g f)) =>
                .next ((t.modEntry o.m o.k fun e => { e with st := .started }).modDie die fun x =>
                  { x with pageOps := aset x.pageOps k { o with st := .copying g f } })
          else match (b.warps[o.w]?).bind fun w => w.op o.k with
            | some x => .next (s.runXlat die k o b x kc)
            | none => .next s

/-- The granules of the copy of a KVCOW, in copy order: the K rows of c slots and then their V rows, each cut where a line of the
destination ends (R287, R370). Each gives its place in the frame and its size. -/
def cowGranules (b : Master) (k : KvCtx) (c f : Nat) : List (Nat × Nat) :=
  let row (off n : Nat) : List (Nat × Nat) :=
    let a := frameOff b k f + off
    (List.range ((a % 128 + n + 127) / 128)).filterMap fun i =>
      let lo := max a (128 * (a / 128 + i))
      let hi := min (a + n) (128 * (a / 128 + i + 1))
      if lo < hi then some (lo - frameOff b k f, hi - lo) else none
  ((List.range c).flatMap fun t => row (k.kBytes * t) k.kBytes) ++
  (List.range c).flatMap fun t => row (16 * k.kBytes + k.vBytes * t) k.vBytes

/-- Land the granules that lie at or beyond byte `landed` of copy order, from frame g in frame f; the first that cannot land
stops the copy before it (R288, R289). The result is how many bytes have landed in all. -/
def kvCopyGo (m : Nat) (b : Master) (k : KvCtx) (g f landed : Nat) : List (Nat × Nat) → Nat → State → State × Nat × EngRes
  | [], n, s => (s, n, .ok [])
  | (off, z) :: r, n, s =>
    if n < landed then kvCopyGo m b k g f landed r (n + z) s
    else match s.engRead b 2 0 (frameOff b k g + off) z 1 with
      | (t, .ok bs) => (match t.engWrite m b 2 0 (frameOff b k f + off) 1 bs with
        | (u, .ok _) => kvCopyGo m b k g f landed r (n + z) u
        | (u, x) => (u, n, x))
      | (t, x) => (t, n, x)

/-- The copy of a KVCOW, as far as it comes: c slots from frame g to frame f, of which `landed` bytes have landed before. -/
def State.kvCopy (s : State) (m : Nat) (b : Master) (k : KvCtx) (landed c g f : Nat) : State × Nat × EngRes :=
  kvCopyGo m b k g f landed (cowGranules b k c f) 0 s

/-- Bytes of an entry have landed: they are its progress, its master's, and counted for its core (R109, R289, R424). -/
def State.entryLands (s : State) (m k : Nat) (b : Master) (e : Entry) (n : Nat) : State :=
  if n ≤ e.landed then s
  else ((s.modEntry m k fun e => { e with landed := n }).progress m false).perf b.die (b.cores.getD e.span default).core 8
    (n - e.landed)

/-- How the copy of a KVCOW fared: it has landed, or what stopped it, in its structures or in its own accesses. -/
inductive CowRes where
  | ok (r : KvStatus)
  | structs (r : EngRes)
  | rows (landed : Nat) (r : EngRes)
  deriving DecidableEq, Repr

/-- The copy lands, and then the page changes frame (R370). -/
def State.landKvcow (s : State) (m j : Nat) (b : Master) (kc : KvCtx) (e : Entry) (g f : Nat) : State × CowRes :=
  let q := kvSeq e.words
  let page := bitsAt (dword e.words 1) 0 28
  match s.runPage b (readSeq b kc q) with
  | (t, .error r) => (t, .structs r)
  | (t, .ok se) =>
    match t.kvCopy m b kc e.landed (min 16 (se.length - 16 * page)) g f with
    | (u, n, .ok _) => (match (u.entryLands m j b e n).runPage b (endKvcow b kc q page g f) with
      | (v, .ok r) => (v, .ok r)
      | (v, .error r) => (v, .structs r))
    | (u, n, r) => (u.entryLands m j b e n, .rows n r)

/-- The copy of a KVCOW stops at a granule with `n` bytes landed: the record gives its progress word (R289, R403). -/
def State.cowStops (s : State) (m k n cause va : Nat) : State :=
  (s.modEntry m k fun e => { e with st := .stopped }).freeze m
    { FreezeAt.blank cause with address := BitVec.ofNat 64 va, info := BitVec.ofNat 64 (n % 2 ^ 40) }

/-- KVCOW_COPY_COMPLETE (R370): the copy lands, and the page changes frame. A started command completes in a frozen
block too, unless its own access froze it (R373). -/
def execKvcowCopyComplete (m k : Nat) (s : State) : Host.Outcome State Fault Refusal :=
  match s.master m with
  | none => .next s
  | some b => match aget b.entries k, b.kv, (s.die b.die).pageOps.find? fun p => p.2.m == m && p.2.kv && p.2.k == k with
    | some e, some kc, some (pk, o) => match o.st with
      | .copying g f =>
        if e.st != .started || e.wait != .ready then .next s
        else
          let waits (t : State) (va lv : Nat) (write : Bool) : State :=
            let (u, st) := t.joinMiss b.die b.ctx.asid va lv write
            u.modEntry m k fun e => { e with wait := st }
          match s.landKvcow m k b kc e g f with
          | (t, .ok r) => .next (t.kvOver b.die pk o e r)
          | (t, .structs (.missing va lv w)) => .next (waits t va lv w)
          | (t, .structs r) => .next (t.kvFails b.die pk o b r)
          | (t, .rows _ (.missing va lv w)) => .next (waits t va lv w)
          | (t, .rows n (.bad c a)) => .next (t.cowStops m k n c a)
          | (t, .rows _ (.ok _)) => .next t
      | _ => .next s
    | _, _, _ => .next s

/-- A started KVCOW of a master that is aborted completes first (R404, R406); one that cannot has written no structure. -/
def State.finishKvcow (s : State) (m k : Nat) : State :=
  match s.master m with
  | none => s
  | some b => match aget b.entries k, b.kv, (s.die b.die).pageOps.find? fun p => p.2.m == m && p.2.kv && p.2.k == k with
    | some e, some kc, some (pk, o) => match o.st with
      | .copying g f =>
        if e.st == .stopped then s
        else match s.landKvcow m k b kc e g f with
          | (t, .ok r) => t.kvOver b.die pk o e r
          | (t, _) => t
      | _ => s
    | _, _, _ => s

/-- Another package refuses an access of an operation of the page unit that is due (R378): it is performed again on thaw (R399). -/
def State.refusePage (s : State) (die k va : Nat) : State :=
  match aget (s.die die).pageOps k with
  | none => s
  | some o => match s.master o.m with
    | none => s
    | some b =>
      if !s.remoteVa b va then s
      else if o.kv then
        match o.st, aget b.entries o.k with
        | .copying .., some e =>
          if e.st == .started && e.wait == .ready then
            s.cowStops o.m o.k e.landed 0x17 va
          else s
        | .waiting, _ => if s.pageReady o && !s.pageHeld die k o then s.kvFails die k o b (.bad 0x17 va) else s
        | _, _ => s
      else match (b.warps[o.w]?).bind fun w => w.op o.k with
        | some x =>
          if s.pageReady o && !s.pageHeld die k o then
            s.xlatStops die k o x ((x.lanes.filter fun l => o.lanes.has l.lane).map fun l => ⟨8, 0x17, l.lane, BitVec.ofNat 64 va⟩)
          else s
        | none => s

end Sys2Proof.Machine
end

