-- ==== Sys2Proof/Machine/Context.lean ====
section
/-! DEFINITION. Saved context: the record of a block or task (R413 to R415), its slot (R411), writing and reading it (R404,
R412, R421). -/

namespace Sys2Proof.Machine

/-! ## Building blocks -/

/-- Pad bytes to n with bytes that are not architectural: free values by their offset in the record (log 2). -/
def padFree (n tick off : Nat) (bs : List Byte) : List Byte :=
  bs ++ (List.range (n - bs.length)).map fun i => (Config.freeWord tick (off + bs.length + i)).setWidth 8

/-- Pad bytes to n with zeros. -/
def padZero (n : Nat) (bs : List Byte) : List Byte := bs ++ List.replicate (n - bs.length) 0

/-- The watchdog timer in µs: boundaries of the timestamp since its last reset (R109), up to where it stopped (R110). -/
def State.timerUs (s : State) (b : Master) : Nat :=
  let now := match b.phase with
    | .frozen | .preempted => b.stoppedAt
    | _ => s.cycles
  s.stampAt now / 1000 - s.stampAt b.timer / 1000

/-- The key field (R52): 20 bits for each position. -/
def keyField (ks : List Nat) : Nat := ((ks.take 4).zipIdx).foldl (fun n p => n + p.1 * 2 ^ (20 * p.2)) 0

/-- A block's linear index; 0 for a task. -/
def Master.linear (b : Master) : Nat := match b.kind with | .block _ lin => lin | .task _ => 0

/-! ## The record (R413 to R415) -/

/-- The first 48 bytes of the header; the state and timer apart, CTXLD compares them (R421). -/
def Master.headBytes (b : Master) (st timer : Nat) : List Byte :=
  let v := b.variant
  leBytes 4 v.recordSize ++ leBytes 1 b.varIdx ++ leBytes 1 v.span ++ leBytes 2 v.warps ++ leBytes 8 b.image.id.toNat ++
  leBytes 4 b.gridId.toNat ++ leBytes 4 b.linear ++ leBytes 1 st ++ leBytes 3 0 ++ leBytes 4 timer ++
  leBytes 10 (keyField b.keys) ++ leBytes 1 b.keys.length ++ leBytes 5 0

/-- An entry of R48's layout for a run-time binding. -/
def RegionBind.bytes (r : RegionBind) : List Byte :=
  leBytes 8 r.base.toNat ++ leBytes 8 r.size ++ leBytes 1 r.kind ++ leBytes 1 (if r.isExpr then 1 else 0) ++ leBytes 2 0 ++
  leBytes 4 r.number ++ leBytes 8 r.sync.toNat

/-- The header (R414); hardware barriers beyond the block's have no state, and their images are not architectural. -/
def Master.header (b : Master) (st timer tick : Nat) : List Byte :=
  b.headBytes st timer ++ padZero 16 (b.cores.flatMap fun h => leBytes 2 h.pool) ++
  (b.segs.flatMap fun g => leBytes 8 g.base ++ leBytes 8 g.limit) ++ List.replicate 880 0 ++
  padFree 1024 tick 1024 (b.hw.flatMap Barrier.bytes) ++
  padFree 2048 tick 2048 (b.hw.flatMap fun x => leBytes 32 (x.autoSet.foldl (fun n j => n + 2 ^ j) 0)) ++
  padZero 2048 (b.binds.flatMap RegionBind.bytes) ++ List.replicate 2048 0

/-- A frontier entry as the record lays it out. -/
def entryBytes (e : FEntry) (flags : Nat) : List Byte :=
  leBytes 8 e.addr.toNat ++ leBytes 16 e.lanes.toNat ++ leBytes 1 (min e.prio 255) ++ leBytes 1 0 ++ leBytes 2 e.base ++ leBytes 4 flags

/-- A clause in progress as an entry: it stands at its next instruction (log 25). -/
def Clause.asEntry (c : Clause) : FEntry := ⟨c.prio, c.pc, c.lanes, c.base, false⟩
/-- Lanes held aside as an entry: `prio` gives the priority of the header where they continue. -/
def Held.asEntry (prio : Dword → Nat) (h : Held) : FEntry := ⟨prio h.next, h.next, h.lanes, h.base, false⟩

/-- Insert an entry with its flags at its rank (R143). -/
def insertFlagged (l : List (FEntry × Nat)) (e : FEntry × Nat) : List (FEntry × Nat) :=
  match l with
  | [] => [e]
  | x :: r => if e.1.above x.1 then e :: x :: r else x :: insertFlagged r e

/-- The entries of a warp with their flags, highest-ranked first: those that issue, set aside, suspended, held. -/
def Warp.recordEntries (w : Warp) (prio : Dword → Nat) : List (FEntry × Nat) :=
  ((w.clause.toList.map fun c => (Clause.asEntry c, 0)) ++ (w.frontier.map fun e => (e, 0)) ++
   (match w.handler with
    | some h => (h.setAside.map fun e => (e, 2)) ++ [(h.susp.asEntry, 1)] ++ (h.tret.map fun e => (Held.asEntry prio e, 4))
    | none => []) ++
   w.held.map fun e => (Held.asEntry prio e, 4)).foldl insertFlagged []

/-- The arrival record's field. -/
def arrivalWord : Option (BarName × Nat) → Nat
  | none => 0
  | some (.slot o, ph) => o + 2 ^ 32 * ph + 2 ^ 48
  | some (.hw n, ph) => n + 2 ^ 31 + 2 ^ 32 * ph + 2 ^ 48

/-- A warp record (R415), at `off` in the whole; `prio` gives the priority of the header at an address. -/
def Warp.record (w : Warp) (prio : Dword → Nat) (tick off : Nat) : List Byte :=
  let es := w.recordEntries prio
  let waits (step : Bool) : Bool := w.held.any fun h => h.step == step
  let st := (if w.handler.isSome then 1 else 0) + (if waits false then 2 else 0) + (if waits true then 4 else 0) +
    (if w.liveLanes == 0 then 8 else 0)
  let replay := ((w.outs.filter MemOp.replaying).take 4).flatMap fun o =>
    leBytes 8 o.pc.toNat ++ leBytes 16 (Mask.ofFn fun l => o.lanes.any fun x => x.lane == l && x.undone).toNat ++ leBytes 16 0
  let a := ((List.range 63).flatMap fun i => leBytes 4 (w.s i).toNat) ++ leBytes 4 0 ++ leBytes 4 w.allot ++ leBytes 4 w.resident ++
    leBytes 4 es.length ++ leBytes 4 w.fflags.toNat ++ leBytes 4 w.fctl.toNat ++ leBytes 4 w.tcause.toNat ++
    leBytes 4 w.tinfo.toNat ++ leBytes 4 st ++ leBytes 8 w.tpc.toNat ++ leBytes 16 w.tlanes.toNat ++
    leBytes 8 (arrivalWord w.arrival) ++ ((w.tokens.zipWith (· + ·) w.stray).flatMap fun n => leBytes 2 n)
  let b := padFree 352 tick off a ++ padZero 160 replay ++ padFree 512 tick (off + 512) ((es.take 16).flatMap fun e => entryBytes e.1 e.2)
  padFree 2048 tick off (b ++ w.preds.flatMap fun p => leBytes 16 p.toNat)

/-- Frame images of a warp (R413): f_w frames from L upwards (log 25); slots that nothing has defined are free values (log 2). -/
def Warp.frameBytes (w : Warp) (tick off lo n : Nat) : List Byte :=
  (List.range (8 * n)).flatMap fun j => (List.range 128).flatMap fun l => leBytes 4 (w.slotWord tick off (8 * lo + j) l).toNat

/-- Chunks that an execution of a data step sends or requests in all. -/
def Coll.total (c : Coll) (e : StepExec) : Nat :=
  if ((c.steps.getD e.step []).getD 0 0).toNat / 2 ^ 60 == 7 then c.n * e.count else e.count

/-- Does a step end with chunks that land in this instance, as PULL, GET and COPY do? Its chunk has moved when it has landed,
one of another step when it has been sent (R393, log 87). -/
def Coll.fetches (c : Coll) (e : StepExec) : Bool :=
  [1, 3, 4].contains (((c.steps.getD e.step []).getD 0 0).toNat / 2 ^ 60)

/-- Where an execution stands: its step, and the offset of the chunk that it would move next. -/
def Coll.place (c : Coll) (e : StepExec) : Nat × Nat :=
  (e.step, (if c.fetches e then e.landed else e.next) * e.count / max 1 (c.total e))

/-- The step executing, and its next chunk offset (R393, R395): of steps that overlap, the earliest that has not completed. -/
def Coll.current (c : Coll) : Nat × Nat :=
  match c.execs.find? fun e => decide (e.landed < c.total e) with
  | some e => c.place e
  | none => (c.pc, 0)

/-- A progress word (R393) for a step and chunk offset. -/
def Coll.wordAt (c : Coll) (p : Nat × Nat) : Nat := 2 ^ 56 * (p.1 % 256) + 2 ^ 32 * (p.2 % 2 ^ 24) + c.landed % 2 ^ 32

/-- The progress word of a collective (R393). -/
def Coll.progressWord (c : Coll) : Nat := c.wordAt c.current

/-- What a progress entry is of: an entry of the block's order, a collective, or a trap that awaits delivery. -/
inductive ProgRef where
  | entry (k : Nat)
  | coll (k : Nat)
  | trap
  deriving DecidableEq, Repr

/-- A progress entry: the word, its kind, and what it is of (R413). -/
structure Prog where
  word : Nat
  kind : Nat
  ref : ProgRef
  deriving DecidableEq, Repr

/-- The progress entries of a span core (log 25): its copies, fills and commands in the block's order, the copies whose
follow-on stands in it and those whose trap awaits delivery (R289), then its collectives. -/
def State.progressOf (s : State) (m : Nat) (b : Master) (k : Nat) : List Prog :=
  (b.entries.flatMap fun p =>
    if p.2.span != k then []
    else (match p.2.copied with | some w => [(⟨w, 1, .trap⟩ : Prog)] | none => []) ++ (match p.2.op with
      | .copy .. => [⟨p.2.progressWord, 1, .entry p.1⟩]
      | .fill => [⟨p.2.progressWord, 2, .entry p.1⟩]
      | .kvfork | .kvext | .kvcow | .kvfree => [⟨p.2.progressWord, 5, .entry p.1⟩]
      | .qfence => []
      | _ => [⟨0, 4, .entry p.1⟩])) ++
  (b.warps.flatMap fun w => w.deliveries.filterMap fun d => match d.2 with
    | .trap _ _ (some (span, word)) => if span == k then some ⟨word, 1, .trap⟩ else none
    | _ => none) ++
  s.colls.filterMap fun c => if c.2.m == m && b.spanOf c.2.w == k then some ⟨c.2.progressWord, 3, .coll c.1⟩ else none

/-- Bytes 0 to 8 of a progress entry; none is an entry of kind 0. -/
def progressEntry (p : Option Prog) : List Byte := match p with
  | some p => leBytes 8 p.word ++ leBytes 1 p.kind
  | none => leBytes 9 0

/-- Bytes of an engine section (R413). -/
def Variant.engineBytes (v : Variant) : Nat := if v.acc == 0 then 16384 else 16384 + v.acc * 66560 + 156672

/-- The image of a plane tile; an empty one's bytes are not architectural, and the model marks it with a format of zero (log
25). -/
def planeImage (p : Option PlaneTile) : List Byte := match p with | some t => t.bytes | none => leBytes 1 0

/-- The image of an accumulator tile: its elements, then R301. -/
def AccTile.image (t : AccTile) : List Byte := ((List.range 16384).flatMap fun i => leBytes 4 (t.word i).toNat) ++ t.sideImage

/-- The engine section of span core k (R413). -/
def State.engineSection (s : State) (m : Nat) (b : Master) (k tick off : Nat) : List Byte :=
  let ps := (s.progressOf m b k).take 128
  let a := b.arrayAt k
  let prog := (List.range 128).flatMap fun i => padFree 128 tick (off + 128 * i) (progressEntry ps[i]?)
  let planes := ((a.p0 ++ a.p1).zipIdx).flatMap fun p => padFree 19584 tick (off + 16384 + 19584 * p.2) (planeImage p.1)
  if b.variant.acc == 0 then prog else prog ++ planes ++ a.tiles.flatMap AccTile.image

/-- The whole record of a master (R413). -/
def State.recordOf (s : State) (m : Nat) (b : Master) (st tick : Nat) : List Byte :=
  let v := b.variant
  let head := b.header st (s.timerUs b) tick
  let ws := (b.warps.zipIdx).flatMap fun p => p.1.record (s.headerPrio b) tick (8192 + 2048 * p.2)
  let fo := 8192 + 2048 * v.warps
  let fs := b.warps.zipIdx.flatMap fun p => p.1.frameBytes tick (2 ^ 40 + 2 ^ 24 * p.2) p.1.resident p.1.allot
  let xo := fo + 4096 * v.warps * v.frames
  let eo := xo + v.scratch
  let es := (List.range v.span).flatMap fun k => s.engineSection m b k tick (eo + v.engineBytes * k)
  padFree v.recordSize tick 0 (padFree xo tick 0 (padFree fo tick 0 (head ++ ws) ++ fs) ++
    (List.range v.scratch).map b.x.read ++ es)

/-! ## Slots (R411) -/

/-- Where a master's slot lies: a virtual address of a block's area, or a physical one of the task area. -/
inductive SlotAt where
  | virt (va : Nat)
  | phys (pa : Nat)
  deriving DecidableEq, Repr

def State.slotAt (s : State) (b : Master) : Option SlotAt :=
  match b.ctxSlot, s.gridOf b with
  | some i, some g =>
    let z := ((g.launch.permitted b.image).map fun k => (b.image.variants.getD k default).recordSize).foldl max 0
    some (.virt (g.launch.ctxArea.toNat + z * i))
  | some i, none => s.blob.map fun l => .phys (l.taskCtx + l.taskSlotSize * (1536 * b.die + i))
  | none, _ => none

/-- Write bytes at a virtual address piece by piece; `none` when all were moved, else how many were. -/
def State.pieceWrite (s : State) (b : Master) (va : Nat) (bs : List Byte) : State × Option Nat :=
  let (t, moved, ok) := (vaPieces va bs.length).foldl (fun (p : State × Nat × Bool) q =>
    if !p.2.2 then p
    else match p.1.vaWrite b.die b.queue b.ctx q.1 ((bs.drop p.2.1).take q.2) with
      | (t, .ok _) => (t, p.2.1 + q.2, true)
      | (t, _) => (t, p.2.1, false)) (s, 0, true)
  (t, if ok then none else some moved)

/-- Write bytes into a slot at an offset. -/
def State.slotWrite (s : State) (b : Master) (off : Nat) (bs : List Byte) : State × Option Nat :=
  match s.slotAt b with
  | some (.virt va) => s.pieceWrite b (va + off) bs
  | some (.phys pa) =>
    if s.unreachable (physKey (pa + off)) bs.length then (s, some 0) else (s.engineWrite b.die (physKey (pa + off)) bs false, none)
  | none => (s, some 0)

/-- The record in a slot, or how many bytes of it were moved before one could not be read. -/
def State.slotRead (s : State) (b : Master) : State × Except Nat (List Byte) :=
  let n := b.variant.recordSize
  match s.slotAt b with
  | some (.virt va) => (vaPieces va n).foldl (fun (p : State × Except Nat (List Byte)) q =>
      match p with
      | (t, .error k) => (t, .error k)
      | (t, .ok bs) => match t.vaRead b.die b.queue b.ctx q.1 q.2 with
        | (u, .ok cs) => (u, .ok (bs ++ cs))
        | (u, _) => (u, .error bs.length)) (s, .ok [])
  | some (.phys pa) => (s, match s.homeRead (physKey pa) n with | some bs => .ok bs | none => .error 0)
  | none => (s, .error 0)

/-- A slot that cannot be accessed freezes the master with cause 0x1A (R412). -/
def State.slotFails (s : State) (m moved : Nat) : State :=
  s.freeze m { FreezeAt.blank 0x1A with info := BitVec.ofNat 64 moved }

/-- Does a stopped unit write the progress entry on a freeze: a copy, a fill, a collective, or the copy of a KVCOW (R370)? -/
def Master.tells (b : Master) (p : Prog) : Bool :=
  decide (1 ≤ p.kind ∧ p.kind ≤ 3) || (p.kind == 5 && (match p.ref with
    | .entry j => (aget b.entries j).any fun e => e.st == .stopped
    | .coll _ | .trap => false))

/-- R404: each stopped copy, fill and collective of a frozen master writes its progress word into its slot. -/
def State.writeProgress (s : State) (m : Nat) : State :=
  match s.master m with
  | none => s
  | some b =>
    let v := b.variant
    let eo := 8192 + 2048 * v.warps + 4096 * v.warps * v.frames + v.scratch
    if b.ctxSlot.isNone then s
    else (List.range v.span).foldl (fun t k =>
      ((t.progressOf m b k).take 128).zipIdx.foldl (fun t p =>
        if b.tells p.1 then
          (t.slotWrite b (eo + v.engineBytes * k + 128 * p.2) (progressEntry (some p.1))).1
        else t) t) s

/-! ## Reading a record back (R421) -/

/-- The fields of R323 from their image; the in-flight count above 15 is not recorded. -/
def Barrier.ofBytes (x : Barrier) (bs : List Byte) (auto : List Nat) : Barrier :=
  let fl := recNat bs 14 2
  { x with
    phase := recNat bs 0 2, expArr := recNat bs 2 2, arrived := recNat bs 4 2, expBytes := recNat bs 6 4 % 2 ^ 31
    landed := recNat bs 10 4 % 2 ^ 31, posted := fl.testBit 0, faulted := fl.testBit 1, delivered := fl.testBit 2
    under := fl.testBit 3
    inFlight := if fl / 16 % 16 == 15 && decide (15 ≤ x.inFlight) then x.inFlight else fl / 16 % 16, autoSet := auto }

/-- Which instruction holds lanes that continue at an address, the one before it: a SWITCHPT with its id, or a STEP. -/
def State.pointBefore (s : State) (b : Master) (a : Dword) : Option (Option Nat) :=
  match (s.fetchWord b (a - 4)).2 with
  | .word w => (match decode w 0 with
    | .instr (.switchpt i) => some (some i.toNat)
    | .instr .step => some none
    | _ => none)
  | _ => none

/-- An entry of the frontier and its flags. -/
def parseEntry (e : List Byte) : FEntry × Nat :=
  (⟨recNat e 24 1, le64 (e.take 8), BitVec.ofNat 128 (recNat e 8 16), recNat e 26 2, false⟩, recNat e 28 4)

/-- The clause that a recorded entry stands in, where its address is no header: that of the nearest header before it whose
words take it in (log 25). -/
def State.clauseAt (s : State) (b : Master) (e : FEntry) : Option Clause :=
  let word (a : Dword) : Option Word := match (s.fetchWord b a).2 with
    | .word x => some x
    | _ => none
  if ((word e.addr).bind headerOf).isSome then none
  else (List.range 15).findSome? fun i =>
    let hdr := e.addr - BitVec.ofNat 64 (4 * (i + 1))
    ((word hdr).bind headerOf).bind fun h =>
      if h.n.toNat ≤ i then none
      else match (fetchWords b hdr h.n.toNat 1 s).2 with
        | .ok ws => if (clauseCheck h ws).isNone then some ⟨hdr, ws, i + 1, e.lanes, e.base, e.prio, []⟩ else none
        | .error _ => none

/-- The replay slots of a warp record: an instruction's address and lanes; a slot without lanes is empty. -/
def parseReplay (r : List Byte) : List (Dword × Mask) :=
  ((cut 40 4 (r.drop 352)).map fun e => (le64 (e.take 8), BitVec.ofNat 128 (recNat e 8 16))).filter fun p => p.2 != 0

/-- An operation in replay as its slot records it: of its lanes, those named replay. -/
def MemOp.atReplay (o : MemOp) (m : Mask) : MemOp :=
  { o with lanes := (o.lanes.filter fun l => m.has l.lane || !l.undone).map fun l =>
      if m.has l.lane && !l.undone then { l with st := .ready, val := [] } else l }

/-- A warp's outstanding operations from the replay slots of its record: one in replay that no slot names is over, and a slot
that none matches is built afresh from its instruction and the registers, in the window of the entry of its lanes; what does
not wait in replay is no part of the record (log 25). -/
def Warp.withReplay (w : Warp) (build : Warp → Dword → Mask → Option MemOp) (slots : List (Dword × Mask)) : Warp :=
  let beyond (o : MemOp) : Bool := ((w.outs.filter MemOp.replaying).drop 4).any fun x => x.k == o.k
  let (left, outs) := w.outs.foldl (fun (p : List (Dword × Mask) × List MemOp) o =>
    if !o.replaying || beyond o then (p.1, p.2 ++ [o])
    else match p.1.findIdx? fun x => x.1 == o.pc with
      | some i => (p.1.eraseIdx i, p.2 ++ [o.atReplay (p.1.getD i default).2])
      | none => p) (slots, [])
  left.foldl (fun w x => match build w x.1 x.2 with
    | some o => { w with outs := w.outs ++ [o], opCount := w.opCount + 1 }
    | none => w) { w with outs := outs }

/-- What the memory instruction at an address has outstanding in lanes `m` of a warp. -/
def State.replayAt (s : State) (b : Master) (w : Warp) (pc : Dword) (m : Mask) : Option MemOp :=
  let base := ((w.frontier.map fun e => (e.lanes, e.base)) ++ (w.clause.toList.map fun c => (c.lanes, c.base)) ++
    w.held.map fun h => (h.lanes, h.base)).findSome? fun p => if p.1 &&& m != 0 then some p.2 else none
  match (s.fetchWord b pc).2, (s.fetchWord b (pc + 4)).2 with
  | .word x, .word y => match decode x y with
    | .instr i => (⟨⟨0, 0⟩, b, w, ⟨pc - 4, [x, y], 1, m, base.getD 0, 0, []⟩⟩ : Ctx).replayOp w.opCount i
    | .illegal .. => none
  | _, _ => none

/-- A warp from its record and its frames (log 25 for what a record does not hold); `prio` gives the priority of the header
at an address, `point` what holds lanes that continue there, `inside` the clause that an entry stands in. -/
def Warp.ofRecord (w : Warp) (prio : Dword → Nat) (point : Dword → Option (Option Nat)) (inside : FEntry → Option Clause)
    (r frames : List Byte) : Warp :=
  let n := recNat r 264 4
  let kept := w.recordEntries prio
  -- a priority that could not be read is not recorded as such (log 7)
  let unread (e : FEntry) : FEntry :=
    if kept.any fun x => x.1.prio == 256 && x.1.addr == e.addr && x.1.lanes == e.lanes then { e with prio := 256 } else e
  let es := ((cut 32 16 (r.drop 512)).take n).map (fun e => ((unread (parseEntry e).1), (parseEntry e).2)) ++
    ((kept.drop 16).take (n - 16))
  let st := recNat r 284 4
  let sel (f : Nat) : List FEntry := (es.filter fun e => e.2 % 8 == f).map Prod.fst
  -- the clause in progress: the present one, or the one that an entry not known as waiting stands in
  let here (c : Clause) : Option Clause := ((sel 0).find? fun e => e.addr == c.pc).map fun e => { c with lanes := e.lanes, base := e.base }
  let waiting (e : FEntry) : Bool := w.frontier.any fun x => x.addr == e.addr && x.lanes == e.lanes
  let kept' := w.clause.bind here
  let clause := kept'.or ((sel 0).findSome? fun e => if waiting e then none else inside e)
  let inH := st.testBit 0
  let parked := st.testBit 1 || st.testBit 2
  let same (e : FEntry) (x : Held) : Bool := x.next == e.addr && x.lanes == e.lanes
  let trets := match w.handler with | some h => h.tret | none => []
  let atPoint (e : FEntry) : Bool :=
    parked && (!inH || w.held.any (same e) || (!trets.any (same e) && (point e.addr).isSome))
  let held (e : FEntry) : Held := (w.held.find? (same e)).getD ⟨e.addr, e.lanes, e.base, match point e.addr with
    | some i => i.isNone
    | none => st.testBit 2 && !st.testBit 1, 1⟩
  let hs := ((sel 4).filter atPoint).map held
  let a := recNat r 312 8
  let allot := recNat r 256 4
  let lo := recNat r 260 4
  let slot (i : Nat) : Nat := recNat r (320 + 2 * i) 2
  let same' (i : Nat) : Bool := slot i == (w.token i + w.stray.getD i 0) % 2 ^ 16
  let x : Warp := { w with
    unif := (List.range 63).map fun i => le32 ((r.drop (4 * i)).take 4)
    allot := allot, resident := lo
    clause := clause
    waits := if kept'.isSome then w.waits else none
    frontier := ((sel 0).filter fun e => clause.all fun c => e.addr != c.pc || e.lanes != c.lanes).foldl insertEntry []
    handler := if inH then
        let susp := match (sel 1).head?, w.handler with
          | some e, some h => if e.addr == h.susp.pc then { h.susp with lanes := e.lanes, base := e.base }
              else (inside e).getD e.asClause
          | some e, none => (inside e).getD e.asClause
          | none, some h => h.susp
          | none, none => default
        some { susp := susp, setAside := (sel 2).foldl insertEntry [], vector := recNat r 276 1 % 32
               tpcWritten := match w.handler with | some h => h.tpcWritten | none => false
               tret := ((sel 4).filter fun e => !atPoint e).map fun e => ⟨e.addr, e.lanes, e.base, false, 0⟩
               low := match w.handler with | some h => h.low | none => susp.base }
      else none
    held := hs
    heldId := if hs.all Held.step then none else (hs.findSome? fun h => (point h.next).join).or w.heldId
    arrived := false
    fflags := BitVec.ofNat 5 (recNat r 268 4), fctl := BitVec.ofNat 5 (recNat r 272 4), tcause := le32 ((r.drop 276).take 4)
    tinfo := le32 ((r.drop 280).take 4), tpc := le64 ((r.drop 288).take 8), tlanes := BitVec.ofNat 128 (recNat r 296 16)
    arrival := if a.testBit 48 then
        some (if a.testBit 31 then .hw (a % 2 ^ 31) else .slot (a % 2 ^ 31), a / 2 ^ 32 % 2 ^ 16) else none
    tokens := (List.range 8).map fun i => if same' i then w.token i else slot i
    stray := (List.range 8).map fun i => if same' i then w.stray.getD i 0 else 0
    preds := (List.range 7).map fun i => BitVec.ofNat 128 (recNat r (1024 + 16 * i) 16)
    regs := (List.range (8 * allot)).foldl (fun l j =>
      aset l (8 * lo + j) ((List.range 128).map fun k => le32 ((frames.drop (512 * j + 4 * k)).take 4))) w.regs }
  { x with arrived := parked && x.allHeld }

/-- A plane tile from its image; an image whose first byte is no split format is of an empty one (log 25). -/
def planeOf (bs : List Byte) : Option PlaneTile :=
  let f := recNat bs 0 1
  if fmtOk f then some (PlaneTile.ofBytes (bs.take (splitBytes f))) else none

/-- The entry a progress entry names, with the bytes landed that a record gives it. -/
def Entry.atProgress (e : Entry) (word kind : Nat) : Entry :=
  if (e.op.isCopy && kind == 1) || (e.op.isFill && kind == 2) || (e.op == .kvcow && kind == 5) then { e with landed := word % 2 ^ 40, stage := [] } else e

/-- A master with a record's sections (R421); the state byte, the timer, the keys and the slot stay, and so does the progress
of collectives, which are no part of it. -/
def State.ofRecord (s : State) (m : Nat) (b : Master) (r : List Byte) : Master :=
  let v := b.variant
  let fo := 8192 + 2048 * v.warps
  let xo := fo + 4096 * v.warps * v.frames
  let eo := xo + v.scratch
  let allots := (List.range v.warps).map fun j => recNat r (8192 + 2048 * j + 256) 4
  let x := writeBytes [] 0 ((r.drop xo).take v.scratch)
  { b with
    cores := b.cores.zipIdx.map fun p => { p.1 with pool := recNat r (48 + 2 * p.2) 2 }
    segs := b.segs.zipIdx.map fun p => { p.1 with
      base := if p.2 == 1 then p.1.base else recNat r (64 + 16 * p.2) 8, limit := recNat r (72 + 16 * p.2) 8 }
    hw := b.hw.zipIdx.map fun p => p.1.ofBytes ((r.drop (1024 + 16 * p.2)).take 16)
      ((List.range 256).filter (recNat r (2048 + 32 * p.2) 32).testBit)
    binds := ((List.range 64).map fun i => parseRegion ((r.drop (4096 + 32 * i)).take 32)).filter fun g => g.size != 0
    warps := b.warps.zipIdx.map fun p =>
      let record := (r.drop (8192 + 2048 * p.2)).take 2048
      (p.1.ofRecord (s.headerPrio b) (s.pointBefore b) (s.clauseAt b) record
        (r.drop (fo + 4096 * sumBy id (allots.take p.2)))).withReplay (s.replayAt b) (parseReplay record)
    x := x
    slots := b.slots.map fun p => (p.1, p.2.ofBytes (readBytes x p.1 16) [])
    arrays := b.arrays.zipIdx.map fun p =>
      let o := eo + v.engineBytes * p.2 + 16384
      let plane (i : Nat) : Option PlaneTile := planeOf ((r.drop (o + 19584 * i)).take 19584)
      ⟨p.1.p0.zipIdx.map fun q => plane q.2, p.1.p1.zipIdx.map fun q => plane (4 + q.2),
       p.1.tiles.zipIdx.map fun q => ⟨none, (List.range 16640).map fun i =>
         (i, le32 ((r.drop (o + 156672 + 66560 * q.2 + 4 * i)).take 4))⟩⟩
    entries := (List.range v.span).foldl (fun es k =>
      (((s.progressOf m b k).take 128).zipIdx).foldl (fun es q =>
        let o := eo + v.engineBytes * k + 128 * q.2
        match q.1.ref with
        | .entry j => (match aget es j with
          | some e => aset es j (e.atProgress (recNat r o 8) (recNat r (o + 8) 1))
          | none => es)
        | _ => es) es)
      b.entries }

/-- What a record says of the collectives of a master (R421): kind 3 entries in their places. -/
def State.collWords (s : State) (m : Nat) (b : Master) (r : List Byte) : List (Nat × Nat) :=
  let v := b.variant
  let eo := 8192 + 2048 * v.warps + 4096 * v.warps * v.frames + v.scratch
  (List.range v.span).flatMap fun k => (((s.progressOf m b k).take 128).zipIdx).filterMap fun q =>
    let o := eo + v.engineBytes * k + 128 * q.2
    match q.1.ref with
    | .coll j => if recNat r (o + 8) 1 == 3 then some (j, recNat r o 8) else none
    | _ => none

/-- A collective at a progress word: its step goes on at that chunk. -/
def Coll.atProgress (c : Coll) (word : Nat) : Coll :=
  let n := word / 2 ^ 32 % 2 ^ 24
  let step := word / 2 ^ 56
  let move (e : StepExec) : StepExec :=
    let k := n * c.total e / max 1 e.count
    let own := !e.out.isEmpty
    if c.fetches e then { e with landed := k, next := if own then k else max k e.next, out := [] }
    else { e with next := k, landed := min k e.landed, out := e.out.take (k - min k e.landed) }
  { c with landed := c.landed / 2 ^ 32 * 2 ^ 32 + word % 2 ^ 32
           execs := match c.execs.findIdx? fun e => e.step == step && decide (e.landed < c.total e) with
             | some i => modAt c.execs i move
             | none => c.execs }

/-- XLATs that a record has changed leave the page unit, and take a place in it as the record has them (R359). -/
def State.replacePages (s : State) (m : Nat) (old new : Master) : State :=
  let op (b : Master) (w k : Nat) : Option MemOp := (b.warps[w]?).bind fun x => x.op k
  let stays (p : PageOp) : Bool := p.m != m || p.kv || op old p.w p.k == op new p.w p.k
  let t := s.modDie new.die fun d => { d with pageOps := d.pageOps.filter fun p => stays p.2 }
  (new.warps.zipIdx.flatMap fun w => w.1.outs.map fun o => (w.2, o)).foldl (fun t p => match p.2.kind with
    | .xlat _ =>
      if op old p.1 p.2.k == some p.2 then t
      else t.enterPage new.die ⟨m, p.1, p.2.k, false, Mask.ofFn fun l => p.2.lanes.any fun x => x.lane == l && x.undone, .waiting⟩
    | _ => t) t

/-- A record becomes a master's state, its collectives' progress included (R421). -/
def State.loadRecord (s : State) (m : Nat) (b : Master) (r : List Byte) : State :=
  let t := (s.setMaster m (s.ofRecord m b r)).replacePages m b (s.ofRecord m b r)
  { t with colls := (s.collWords m b r).foldl (fun l p => match aget l p.1 with
      | some c => aset l p.1 (c.atProgress p.2)
      | none => l) t.colls }

/-- The record comes back at readmission (R412). Collectives have gone on meanwhile, and with them the token counts that they
hold (R394), and so have the answers to what waits in replay (R253); a slot that cannot be read freezes the master. -/
def State.restoreSlot (s : State) (m : Nat) : State :=
  match s.master m with
  | none => s
  | some b => match s.slotRead b with
    | (t, .ok r) =>
      let x := t.ofRecord m b r
      let x := { x with
        restoring := false
        warps := x.warps.zipIdx.map fun p => match b.warps[p.2]? with
          | some w => { p.1 with tokens := w.tokens, stray := w.stray, outs := w.outs, opCount := w.opCount }
          | none => p.1 }
      -- a step that has completed meanwhile has released the block, which the record holds at its STEP (R108, R176)
      let x := if x.atStep && !b.atStep then
        { x with warps := x.warps.map fun w => if w.arrived then t.resumeHeld x w else w } else x
      t.setMaster m x
    | (t, .error n) => (t.modMaster m fun b => { b with restoring := true }).slotFails m n

end Sys2Proof.Machine
end

