-- ==== Sys2Proof/Machine/Coll.lean ====
section
/-! DEFINITION. The fabric: COLL and its acceptance (R382 to R385), steps (R386 to R391), the aperture and its arithmetic (R380,
R381), endings (R392, R395), requests from and to other packages (R378). -/

namespace Sys2Proof.Machine

/-! ## Instances -/

def State.coll (s : State) (k : Nat) : Option Coll := aget s.colls k
def State.modColl (s : State) (k : Nat) (f : Coll → Coll) : State :=
  match s.coll k with
  | some c => { s with colls := aset s.colls k (f c) }
  | none => s

/-- A chunk has been sent, accepted or landed (R395). -/
def State.collMoves (s : State) (k : Nat) (f : Coll → Coll) : State := s.modColl k fun c => { f c with progressAt := s.cycles }

/-- Remove an instance and release its token. -/
def State.dropColl (s : State) (k : Nat) : State :=
  match s.coll k with
  | none => s
  | some c => ({ s with colls := adel s.colls k } : State).modMaster c.m fun b => b.releaseToks [(c.w, c.tok)]

/-- The status record (R385). -/
def Coll.status (c : Coll) (state code step stamp : Nat) : List Byte :=
  leBytes 1 state ++ leBytes 1 code ++ leBytes 2 step ++ leBytes 4 c.exc.toNat ++ c.ctrs.flatMap (leBytes 4) ++ leBytes 8 c.landed ++
  leBytes 8 c.efDone ++ leBytes 8 c.inbound ++ leBytes 8 stamp ++ leBytes 8 0

/-- Change execution i of an instance. -/
def Coll.modExec (c : Coll) (i : Nat) (f : StepExec → StepExec) : Coll := { c with execs := modAt c.execs i f }

/-- The progress word of execution i, or of the instance. -/
def Coll.execWord (c : Coll) (i : Option Nat) : Nat :=
  match i.bind fun j => c.execs[j]? with
  | some e => c.wordAt (c.place e)
  | none => c.progressWord

/-- A violation on an access of an instance freezes its master (R393). -/
def State.collBad (s : State) (k : Nat) (c : Coll) (i : Option Nat) (cause addr : Nat) : State :=
  match s.coll k with
  | some d => s.freeze c.m { FreezeAt.blank cause with address := BitVec.ofNat 64 addr, info := BitVec.ofNat 64 (d.execWord i) }
  | none => s

/-- An access that is not present: the execution, or the instance itself, waits in the miss table of its die (R393). -/
def State.collMiss (s : State) (k : Nat) (c : Coll) (i : Option Nat) (va lv : Nat) (write : Bool) : State :=
  let (t, st) := s.joinMiss c.die c.ctx.asid va lv write
  t.modColl k fun c => match i with
    | some j => c.modExec j fun e => { e with wait := st }
    | none => { c with wait := st }

/-- An access of execution i, or of the instance itself, that did not succeed. -/
def State.collFails (s : State) (k : Nat) (c : Coll) (i : Option Nat) (r : EngRes) : State :=
  match r with
  | .ok _ => s
  | .missing va lv w => s.collMiss k c i va lv w
  | .bad cause a => s.collBad k c i cause a

/-- Write the status record of an instance that is ending, and let it go (R392, R395). -/
def State.endColl (s : State) (k : Nat) : State :=
  match s.coll k with
  | none => s
  | some c => match s.master c.m, c.ending with
    | some b, some (st, code, step) =>
      (match s.engWrite c.m b 0 0 c.statusVa.toNat 1 (c.status st code step s.stamp) with
       | (t, .ok _) => t.dropColl k
       | (t, r) => t.collFails k c none r)
    | _, _ => s

/-- End an instance with a state, a code and a step. -/
def State.finishColl (s : State) (k state code step : Nat) : State :=
  (s.modColl k fun c => { c with ending := some (state, code, step) }).endColl k

/-- Abort an instance (R395). -/
def State.abortColl (s : State) (k code : Nat) : State :=
  match s.coll k with
  | some c => s.finishColl k 2 code c.current.1
  | none => s

/-- The collectives of a master that is aborted (R395, code 0x33); a status record that cannot be written is lost, and one
whose block has not been read is not known (log 77). -/
def State.abortColls (s : State) (m : Nat) : State :=
  s.colls.foldl (fun t p => if p.2.m == m then
      (match t.coll p.1, t.master m with
       | some c, some b =>
         let u := if c.bufs.isEmpty then t
           else (t.engWrite m b 0 0 c.statusVa.toNat 1 (c.status 2 0x33 c.current.1 t.stamp)).1
         u.dropColl p.1
       | _, _ => t)
    else t) s

/-! ## Steps as words (R386) -/

/-- Bits hi..lo of word i of a step. -/
def stepBits (w : List Dword) (i hi lo : Nat) : Nat := (w.getD i 0).toNat / 2 ^ lo % 2 ^ (hi + 1 - lo)
def stepOp (w : List Dword) : Nat := stepBits w 0 63 60
def stepFmt (w : List Dword) : Nat := stepBits w 0 55 53
/-- Bytes of a chunk (R384). -/
def chunkBytes (f : Nat) : Nat := if f == 1 then 2048 else 4096

/-- A malformed step (R391). -/
def stepMalformed (bufs : List (Dword × Nat)) (ef : Bool) (idx : Nat) (w : List Dword) : Bool :=
  let op := stepOp w
  let z (i hi lo : Nat) : Bool := stepBits w i hi lo == 0
  let size (b : Nat) : Nat := (bufs.getD b (0, 0)).2
  let src := stepBits w 0 52 50
  let dst := stepBits w 0 49 47
  let noPeer := z 0 46 34
  let noSel := z 0 31 30
  let data := !(z 0 28 0) || decide (3 < stepFmt w) || !(z 1 63 24) || z 1 23 0 || !(op == 0 || (z 0 59 56 && z 0 29 29))
  let rop := stepBits w 0 58 56
  let q4 := stepBits w 0 59 59 == 1
  if 7 < op then true
  else if op == 5 then
    let kind := stepBits w 0 59 58
    decide (1 < kind) || !z 0 57 0 || !z 1 63 32 || !z 2 31 0 || !z 3 63 0 || (kind == 0 && !(z 1 31 0 && z 2 63 32))
  else if op == 6 then
    !z 0 59 34 || !z 0 31 0 || !z 1 63 8 || !z 2 63 0 || !z 3 63 0 || decide (idx ≤ stepBits w 1 7 0)
  else if data then true
  else match op with
    | 0 => !z 0 49 47 || !noPeer || !noSel || decide (5 < rop) || size src == 0 || (q4 && !(stepFmt w == 0 && rop == 0 && ef)) ||
        (decide (3 ≤ rop) && decide (stepFmt w ≤ 1))
    | 1 => !z 0 52 50 || !noPeer || !noSel || size dst == 0
    | 2 => size src == 0
    | 3 => size dst == 0
    | 4 => !noPeer || !noSel || size src == 0 || size dst == 0
    | _ => !noPeer || !noSel || size src == 0 || !z 2 15 0 || !z 3 15 0 || !z 0 49 47

/-! ## Acceptance (R383 to R385) -/

/-- What the collective block spells, and whether it breaks R383 or R384. -/
def parseColl (c : Coll) (bs : List Byte) (n rank : Nat) : Coll × Bool :=
  let bufs := (List.range 8).map fun i => (le64 ((bs.drop (64 + 16 * i)).take 8), recNat bs (72 + 16 * i) 4)
  let limits := (List.range 4).map fun j => recNat bs (192 + 8 * j) 4 + recNat bs (196 + 8 * j) 2 * n
  let limit := recNat bs 16 4
  let addr (o : Nat) : Nat := recNat bs o 8
  let c' := { c with
    group := recNat bs 10 2, seq := recNat bs 12 2, n := n, rank := rank, timeout := if limit == 0 then 1000000 else limit
    mapBuf := recNat bs 20 1, statusVa := le64 ((bs.drop 24).take 8), mapVa := le64 ((bs.drop 32).take 8)
    efMapVa := le64 ((bs.drop 40).take 8), efVa := le64 ((bs.drop 48).take 8), bufs := bufs, limits := limits }
  let bad := addr 0 % 32 != 0 || !decide (1 ≤ recNat bs 8 2 ∧ recNat bs 8 2 ≤ 256) || decide (4095 < recNat bs 10 2) ||
    anyByte bs 14 2 || decide (10000000 < limit) || decide (7 < recNat bs 20 1) || anyByte bs 21 3 || addr 24 % 64 != 0 ||
    addr 32 % 8 != 0 || addr 40 % 8 != 0 || addr 48 % 4096 != 0 || anyByte bs 56 8 ||
    ((List.range 8).any fun i => addr (64 + 16 * i) % 4096 != 0 || recNat bs (72 + 16 * i) 4 % 2048 != 0 || anyByte bs (76 + 16 * i) 4) ||
    ((List.range 4).any fun j => anyByte bs (198 + 8 * j) 2) || (limits.any fun l => decide (2 ^ 32 ≤ l)) || anyByte bs 224 32
  (c', bad)

/-- The group table entry (R379): size and rank; an entry that cannot be read is not configured. -/
def State.groupEntry (s : State) (g : Nat) : Nat × Nat :=
  match s.blob with
  | none => (0, 0)
  | some b => match s.homeRead (physKey (b.groupTable + 16 * g)) 16 with
    | some e => (recNat e 0 2, recNat e 2 2)
    | none => (0, 0)

/-- The engine takes a COLL: it reads and checks the block, the group and the program, and starts or rejects (R385). What the
block says is known from when it has been read, whatever becomes of the program. -/
def State.acceptColl (s : State) (k : Nat) : State :=
  match s.coll k with
  | none => s
  | some c => match s.master c.m with
    | none => s
    | some b => match s.engRead b 0 0 c.blockVa.toNat 256 1 with
      | (t, .ok bs) =>
        let (n, rank) := t.groupEntry (recNat bs 10 2)
        let (d, bad) := parseColl c bs n rank
        let cnt := recNat bs 8 2
        (match t.engRead b 0 0 (recNat bs 0 8) (32 * cnt) 1 with
         | (u, .ok ps) =>
           let u := u.modColl k fun _ => d
           let steps := (List.range cnt).map fun i => (List.range 4).map fun j => le64 ((ps.drop (32 * i + 8 * j)).take 8)
           if bad then u.finishColl k 3 0x21 0
           else if steps.zipIdx.any fun p => stepMalformed d.bufs (d.efVa != 0) p.2 p.1 then u.finishColl k 3 0x22 0
           else if n == 0 then u.finishColl k 3 0x23 0
           else if u.colls.any fun p => p.1 != k && p.2.accepted && p.2.group == d.group && p.2.seq == d.seq then
             u.finishColl k 3 0x24 0
           else u.collMoves k fun c => { c with steps := steps, accepted := true }
         | (u, r) => (u.modColl k fun _ => d).collFails k d none r)
      | (t, r) => t.collFails k c none r

/-- R382. -/
def collSubs (c : Ctx) (e : EFields) : List Nat :=
  descSubs e.s 2 ++ (if e.s.toNat + 2 ≤ 63 then need ((c.w.s2 e.s.toNat).toNat % 64 == 0) 8 else [])

/-- COLL (R382, R385): the instance waits until its die's fabric engine takes it. -/
def execColl (e : EFields) (s : State) : Host.Outcome State Fault Refusal :=
  withCtx s fun c => checked s c (collSubs c e)
    (if !c.executes e.p then done s c 1 c.w
     else
       let k := freshKey s.colls
       let x : Coll := { (default : Coll) with
         m := c.ref.m, w := c.ref.w, tok := e.t.toNat, die := c.b.die, ctrs := [0, 0, 0, 0], progressAt := s.cycles
         wait := .ready, ctx := c.b.ctx, queue := c.b.queue, blockVa := c.w.s2 e.s.toNat }
       done { s with colls := aset s.colls k x } c 1 (c.w.takeToken e.t.toNat))

/-! ## Beginning a step (R387 to R389) -/

/-- Does every execution have all its chunks completed? -/
def Coll.settled (c : Coll) : Bool := c.execs.all fun e => decide (c.total e ≤ e.landed)

/-- The index of a side (R387, log 78). -/
def Coll.index (c : Coll) (w : List Dword) (word peer : Nat) (sel : Bool) : Nat :=
  let cs := stepBits w word 31 16
  let ctr := c.ctrs.getD (stepBits w 0 33 32) 0
  let signed : Int := if 2 ^ 15 ≤ cs then (cs : Int) - 2 ^ 16 else cs
  let v : Int := stepBits w word 63 32 + signed * ctr + stepBits w word 15 0 * (if sel then peer else 0)
  (v % 2 ^ 32).toNat

/-- The peer of a step. -/
def Coll.peer (c : Coll) (w : List Dword) : Nat :=
  let k := stepBits w 0 44 35 + (if stepBits w 0 34 34 == 1 then c.ctrs.getD (stepBits w 0 33 32) 0 else 0)
  match stepBits w 0 46 45 with
  | 0 => k
  | 1 => (c.rank + k) % c.n
  | 2 => (((c.rank : Int) - k) % c.n).toNat
  | _ => c.rank ^^^ k

/-- Do chunks idx .. idx + cnt − 1 lie within a buffer? -/
def Coll.inBuf (c : Coll) (buf fmt idx cnt : Nat) : Bool := decide ((idx + cnt) * chunkBytes fmt ≤ (c.bufs.getD buf (0, 0)).2)

/-- Begin a data step: its peer and indices, or none when one is out of range of this package's buffers or the aperture; what
the buffers of a peer refuse comes as COLL_ABORT. -/
def Coll.begin (c : Coll) (w : List Dword) : Option StepExec :=
  let op := stepOp w
  let f := stepFmt w
  let p := if op == 2 || op == 3 then c.peer w else c.rank
  let cnt := stepBits w 1 23 0
  let s := c.index w 2 p (stepBits w 0 31 31 == 1)
  let d := c.index w 3 p (stepBits w 0 30 30 == 1)
  let srcOk := match op with
    | 1 => decide (s + cnt ≤ 2 ^ 20)
    | 3 => p != c.rank || c.inBuf (stepBits w 0 52 50) f s cnt
    | 7 => c.inBuf (stepBits w 0 52 50) f s (c.n * cnt)
    | _ => c.inBuf (stepBits w 0 52 50) f s cnt
  let dstOk := match op with
    | 0 => decide (d + cnt ≤ 2 ^ 20)
    | 2 => p != c.rank || c.inBuf (stepBits w 0 49 47) f d cnt
    | 7 => c.inBuf 0 f (d + c.rank * cnt) cnt
    | _ => c.inBuf (stepBits w 0 49 47) f d cnt
  if decide (p < c.n) && srcOk && dstOk then some ⟨c.pc, p, s, d, cnt, 0, 0, .ready, [], []⟩ else none

/-- Does a master's collective go on (R393, R394)? -/
def State.collGoes (s : State) (c : Coll) : Bool :=
  c.wait == .ready && (match s.master c.m with
    | some b => b.phase != .frozen
    | none => false)

/-- COLL_STEP_BEGIN (R388, R389): the engine takes an instance that it has not accepted; of one that it has, the next step begins
when the one before has sent or requested all its chunks, and a WAIT is passed when what it waits for holds. -/
def execCollStepBegin (k : Nat) (s : State) : Host.Outcome State Fault Refusal :=
  match s.coll k with
  | none => .next s
  | some c =>
    if !s.collGoes c || c.ending.isSome then .next s
    else if !c.accepted then .next (s.acceptColl k)
    else match c.steps[c.pc]? with
      | none => .next s
      | some w =>
        let sent := match c.execs.getLast? with
          | some e => decide (c.total e ≤ e.next)
          | none => true
        if !sent then .next s
        else
          let op := stepOp w
          .next (if op == 5 then
              (if stepBits w 0 59 58 == 0 then
                 (if c.settled then s.modColl k fun c => { c with pc := c.pc + 1, execs := [] } else s)
               else if stepBits w 1 31 0 + stepBits w 2 63 32 * (c.n - 1) ≤ c.inbound then s.modColl k fun c => { c with pc := c.pc + 1 }
               else s)
            else if op == 6 then
              let ci := stepBits w 0 33 32
              let v := c.ctrs.getD ci 0 + 1
              if v < c.limits.getD ci 0 then
                s.modColl k fun c => { c with ctrs := modAt c.ctrs ci fun _ => v, pc := stepBits w 1 7 0 }
              else s.modColl k fun c => { c with ctrs := modAt c.ctrs ci fun _ => 0, pc := c.pc + 1 }
            else match c.begin w with
              | none => s.abortColl k 0x31
              | some e => s.modColl k fun c => { c with execs := c.execs ++ [e], pc := c.pc + 1 })

/-! ## The aperture (R380, R381) -/

def Aperture.named (a : Aperture) (g q c : Nat) : Bool := a.group == g && a.seq == q && a.chunk == c

def State.apertureAt (s : State) (g q c : Nat) : Option Aperture := s.aperture.find? fun a => a.named g q c

/-- Are the contributions in error: a member twice, or a disagreement? -/
def Aperture.error (a : Aperture) : Bool :=
  match a.contribs with
  | [] => false
  | x :: r => r.any (fun y => y.op != x.op || (y.fmt ≤ 1) != (x.fmt ≤ 1)) ||
      (a.contribs.map Contrib.rank).eraseDups.length != a.contribs.length

/-- May a push enter: at most two sequences are live for one chunk (R380)? -/
def State.pushFits (s : State) (g q c : Nat) : Bool :=
  (s.apertureAt g q c).isSome || decide ((s.aperture.filter fun a => a.group == g && a.chunk == c).length < 2)

/-- Every member has pulled, or will not: the chunk is released (R380). -/
def Aperture.spent (a : Aperture) (n : Nat) : Bool :=
  decide (n ≤ a.contribs.length) && (List.range n).all fun r => a.pulled.contains r || a.contribs.any fun x => x.rank == r && x.noPull

def State.sweepAperture (s : State) (g : Nat) (n : Nat) : State :=
  { s with aperture := s.aperture.filter fun a => !(a.group == g && a.spent n) }

/-- A contribution reaches the switch. -/
def State.contribute (s : State) (g q c n : Nat) (x : Contrib) : State :=
  let t : State := match s.apertureAt g q c with
    | some _ => { s with aperture := s.aperture.map fun a => if a.named g q c then { a with contribs := a.contribs ++ [x] } else a }
    | none => { s with aperture := s.aperture ++ [⟨g, q, c, [x], []⟩] }
  t.sweepAperture g n

/-- A member takes a final result. -/
def State.pullBy (s : State) (g q c n r : Nat) : State :=
  ({ s with aperture := s.aperture.map fun a => if a.named g q c then { a with pulled := a.pulled ++ [r] } else a } : State).sweepAperture g n

/-- Contributions in ascending rank. -/
def byRank (l : List Contrib) : List Contrib :=
  l.foldl (fun acc x => insert acc x) []
where
  insert (l : List Contrib) (x : Contrib) : List Contrib := match l with
    | [] => [x]
    | y :: r => if x.rank < y.rank then x :: y :: r else y :: insert r x

/-- Element i of a contribution in the float class, with what its block raises. -/
def Contrib.value (x : Contrib) (i : Nat) : FVal × Exc :=
  if x.q4 then wblockDecode (recNat x.bytes (10 * (i / 16)) 10) (i % 16) 3
  else if x.fmt == 1 then (bfp16.decode (recNat x.bytes (2 * i) 2), 0)
  else (fp32.decode (recNat x.bytes (4 * i) 4), 0)

/-- The result of one element (R381): 32 bits, with the classes raised. -/
def reduceElem (cs : List Contrib) (i : Nat) : Word × Exc :=
  match cs with
  | [] => (0, 0)
  | x :: _ =>
    if x.fmt ≤ 1 then
      let vs := cs.map fun c => c.value i
      let e0 := vs.foldl (fun e v => e ||| v.2) 0
      if x.op == 0 then
        let (w, e) := windowSum (vs.map Prod.fst) (e0 &&& excInvalid != 0)
        (w, e ||| e0)
      else
        let ws := vs.map fun v => (Fmt.f32.encode v.1 .rn false false).1
        let snan := vs.any fun v => v.1.isSNaN
        (ws.tail.foldl (fun (p : Word × Exc) w =>
            let (r, e) := fpMinMax (x.op == 2) .f32 false p.1 w
            (r, p.2 ||| e)) (ws.headD 0, e0 ||| excIf snan excInvalid))
    else
      let ws := cs.map fun c => le32 ((c.bytes.drop (4 * i)).take 4)
      let f (a b : Word) : Word := match x.op with
        | 0 => a + b
        | 1 => if x.fmt == 2 then (if b.toInt < a.toInt then b else a) else (if b.toNat < a.toNat then b else a)
        | 2 => if x.fmt == 2 then (if a.toInt < b.toInt then b else a) else (if a.toNat < b.toNat then b else a)
        | 3 => a &&& b
        | 4 => a ||| b
        | _ => a ^^^ b
      (ws.tail.foldl f (ws.headD 0), 0)

/-- The chunk that a PULL lands, in its format (R218, R387), with the classes of R381 (log 55). -/
def Aperture.result (a : Aperture) (fmt : Nat) : List Byte × Exc :=
  let cs := byRank a.contribs
  let isFloat := match cs with | x :: _ => decide (x.fmt ≤ 1) | [] => true
  let rs := (List.range 1024).map (reduceElem cs)
  let out (w : Word) : List Byte :=
    let x := fp32.decode w.toNat
    if !isFloat then leBytes (if fmt == 1 then 2 else 4) w.toNat
    else match fmt with
      | 0 => leBytes 4 w.toNat
      | 1 => leBytes 2 (Fmt.bf16.encode x .rn false false).1.toNat
      | _ => leBytes 4 (BitVec.ofInt 32 (encodeInt 32 (fmt == 2) x .rn).1).toNat
  (rs.flatMap fun r => out r.1, rs.foldl (fun e r => e ||| r.2) 0)

/-! ## Moving chunks (R387, R390) -/

/-- Check that a range can be written, without writing. -/
def State.writable (s : State) (b : Master) (va n : Nat) : State × EngRes :=
  if b.outside 0 va n then (s, .bad 0x11 va)
  else match s.vaPlaces b.die b.queue b.ctx va n .write with
  | (t, .ok _) => (t, .ok [])
  | (t, .error (.missing a lv)) => (t, .missing a lv true)
  | (t, .error (.bad c a)) => (t, .bad c a)
  | (t, .error (.ok _)) => (t, .ok [])

/-- Set bit i of a map (R384); address 0 names none. -/
def State.setMapBit (s : State) (m : Nat) (b : Master) (va i : Nat) : State × EngRes :=
  if va == 0 then (s, .ok [])
  else match s.engRead b 0 0 (va + i / 8) 1 1 with
    | (t, .ok bs) => t.engWrite m b 0 0 (va + i / 8) 1 [(bs.getD 0 0) ||| BitVec.ofNat 8 (2 ^ (i % 8))]
    | r => r

/-- Can bit i of a map be set: is its byte readable and writable? -/
def State.mapOk (s : State) (b : Master) (va i : Nat) : State × EngRes :=
  if va == 0 then (s, .ok [])
  else match s.engRead b 0 0 (va + i / 8) 1 1 with
    | (t, .ok _) => t.writable b (va + i / 8) 1
    | r => r

/-- Put a chunk in a buffer of the instance (R384, R387): written whole with its map bit, or not at all (R396). -/
def State.putChunk (s : State) (k : Nat) (c : Coll) (b : Master) (buf idx : Nat) (bs : List Byte) : State × EngRes :=
  let va := (c.bufs.getD buf (0, 0)).1.toNat + idx * bs.length
  let map := if buf == c.mapBuf then c.mapVa.toNat else 0
  match s.mapOk b map idx with
  | (t, .ok _) => match t.engWrite c.m b 0 0 va 1 bs with
    | (u, .ok _) => ((((u.setMapBit c.m b map idx).1.collMoves k id).progress c.m false), .ok [])
    | r => r
  | r => r

/-- Land a chunk that this instance moves: its status record counts it (R385). -/
def State.landChunk (s : State) (k : Nat) (c : Coll) (b : Master) (buf idx : Nat) (bs : List Byte) : State × EngRes :=
  match s.putChunk k c b buf idx bs with
  | (t, .ok _) => (t.modColl k fun c => { c with landed := c.landed + 1 }, .ok [])
  | r => r

/-- Read a chunk of a buffer. -/
def State.readChunk (s : State) (c : Coll) (b : Master) (buf fmt idx : Nat) : State × EngRes :=
  s.engRead b 0 0 ((c.bufs.getD buf (0, 0)).1.toNat + idx * chunkBytes fmt) (chunkBytes fmt) 1

/-- A q4 contribution (R390): the blocks sent, the new residual, and the classes raised. -/
def q4Chunk (x f : List Byte) : List Byte × List Byte × Exc :=
  let word (bs : List Byte) (i : Nat) : Word := le32 ((bs.drop (4 * i)).take 4)
  let ys := (List.range 1024).map fun i => fpArith .add .f32 .rn false (word x i) (word f i)
  let val (i : Nat) : FVal := fp32.decode (ys.getD i (0, 0)).1.toNat
  let blocks := (List.range 64).map fun j => wblockEncode ((List.range 16).map fun e => .value (val (16 * j + e))) 3 .rn
  let res := (List.range 1024).map fun i =>
    let blk := (blocks.getD (i / 16) (0, [])).1
    if blk % 256 == 255 then ((0 : Word), (0 : Exc))
    else
      let (d, e1) := wblockDecode blk (i % 16) 3
      let (v, e2) := (val i).add .rn (match d with
        | .fin n m e => .fin (!n) m e
        | y => y)
      let (w, e3) := Fmt.f32.encode v .rn false false
      (w, e1 ||| e2 ||| e3)
  (blocks.flatMap fun p => leBytes 10 p.1, res.flatMap fun p => leBytes 4 p.1.toNat,
   ((ys.map Prod.snd ++ res.map Prod.snd) ++ blocks.flatMap Prod.snd).foldl (· ||| ·) 0)

/-- A chunk that an execution has read goes out. -/
def State.send (s : State) (k i : Nat) (x : SentChunk) : State :=
  s.collMoves k fun c => c.modExec i fun e => { e with next := e.next + 1, out := e.out ++ [x] }

/-- PUSH of one chunk (R387, R390). -/
def State.pushChunk (s : State) (k i : Nat) (c : Coll) (b : Master) (e : StepExec) (w : List Dword) : State :=
  let idx := e.src + e.next
  let send (t : State) (bs : List Byte) : State := t.send k i ⟨c.rank, 0, e.dst + e.next, bs⟩
  match s.readChunk c b (stepBits w 0 52 50) (stepFmt w) idx with
  | (t, .ok bs) =>
    if stepBits w 0 59 59 == 0 then send t bs
    else
      let va := c.efVa.toNat + 4096 * idx
      (match t.engRead b 0 0 va 4096 1 with
       | (u, .ok fs) => (match u.mapOk b c.efMapVa.toNat idx with
         | (u, .ok _) => (match u.writable b va 4096 with
           | (u, .ok _) =>
             let (blk, res, exc) := q4Chunk bs fs
             let u := ((send u blk).engWrite c.m b 0 0 va 1 res).1
             let u := (u.setMapBit c.m b c.efMapVa.toNat idx).1
             u.modColl k fun c => { c with efDone := c.efDone + 1, exc := c.exc ||| exc }
           | (u, r) => u.collFails k c (some i) r)
         | (u, r) => u.collFails k c (some i) r)
       | (u, r) => u.collFails k c (some i) r)
  | (t, r) => t.collFails k c (some i) r

/-- The switch accepts the oldest contribution of an execution for which there is room (R380, R388). -/
def State.acceptPush (s : State) (k i : Nat) (c : Coll) (e : StepExec) (w : List Dword) : State :=
  match e.out.findIdx? fun x => s.pushFits c.group c.seq x.idx with
  | none => s
  | some j =>
    let x := e.out.getD j default
    (s.contribute c.group c.seq x.idx c.n
      ⟨c.rank, stepBits w 0 58 56, stepFmt w, stepBits w 0 59 59 == 1, stepBits w 0 29 29 == 1, x.bytes⟩).collMoves k
      fun c => c.modExec i fun e => { e with landed := e.landed + 1, out := e.out.eraseIdx j }

/-- PULL: a chunk is requested; one that is final lands, in ascending order; an error aborts (R387). -/
def State.pullChunk (s : State) (k i : Nat) (c : Coll) (b : Master) (e : StepExec) (w : List Dword) : State :=
  match s.apertureAt c.group c.seq (e.src + e.landed) with
  | none => s
  | some a =>
    if a.error then s.abortColl k 0x35
    else if a.contribs.length < c.n then s
    else
      let (bs, exc) := a.result (stepFmt w)
      match s.landChunk k c b (stepBits w 0 49 47) (e.dst + e.landed) bs with
      | (t, .ok _) => (t.pullBy c.group c.seq (e.src + e.landed) c.n c.rank).modColl k fun c =>
          { (c.modExec i fun e => { e with landed := e.landed + 1 }) with exc := c.exc ||| exc }
      | (t, r) => t.collFails k c (some i) r

/-- A chunk is read and sent to a buffer of a peer, or of this instance itself. -/
def State.sendChunk (s : State) (k i : Nat) (c : Coll) (b : Master) (w : List Dword) (src peer dbuf dst : Nat) : State :=
  match s.readChunk c b (stepBits w 0 52 50) (stepFmt w) src with
  | (t, .ok bs) => t.send k i ⟨peer, dbuf, dst, bs⟩
  | (t, r) => t.collFails k c (some i) r

/-- The oldest answer of a GET's peer lands. -/
def State.landAnswer (s : State) (k i : Nat) (c : Coll) (b : Master) (e : StepExec) (w : List Dword) : State :=
  match e.answers with
  | [] => s
  | bs :: r => match s.landChunk k c b (stepBits w 0 49 47) (e.dst + e.landed) bs with
    | (u, .ok _) => u.modColl k fun c => c.modExec i fun e => { e with landed := e.landed + 1, answers := r }
    | (u, r) => u.collFails k c (some i) r

/-- The oldest chunk that an execution has sent lands: at its peer, or in this instance, where a PUT or TPOSE chunk also counts as
inbound (R387). A chunk that lands restarts the watchdog (R393). -/
def State.landSent (s : State) (k i : Nat) (c : Coll) (b : Master) (e : StepExec) (inb : Bool) : State :=
  let moved (c : Coll) : Coll := c.modExec i fun e => { e with landed := e.landed + 1, out := e.out.drop 1 }
  match e.out with
  | [] => s
  | x :: _ =>
    if x.peer != c.rank then (s.collMoves k moved).progress c.m false
    else match s.landChunk k c b x.buf x.idx x.bytes with
      | (t, .ok _) => t.modColl k fun c => { moved c with inbound := c.inbound + if inb then 1 else 0 }
      | (t, r) => t.collFails k c (some i) r

/-- Sending or requesting the next chunk of execution i. -/
def State.sendNext (s : State) (k i : Nat) (c : Coll) (b : Master) (e : StepExec) (w : List Dword) : State :=
  let ask : State := s.modColl k fun c => c.modExec i fun e => { e with next := e.next + 1 }
  let put : State := s.sendChunk k i c b w (e.src + e.next) e.peer (stepBits w 0 49 47) (e.dst + e.next)
  match stepOp w with
  | 0 => s.pushChunk k i c b e w
  | 1 => ask
  | 3 => if e.peer == c.rank then put else ask
  | 7 =>
    let o := e.next / c.n
    let q := (c.rank + e.next % c.n) % c.n
    s.sendChunk k i c b w (e.src + q * e.count + o) q 0 (e.dst + c.rank * e.count + o)
  | _ => put

/-- Landing the next chunk of execution i that has been requested or sent, or its acceptance by the switch. -/
def State.landNext (s : State) (k i : Nat) (c : Coll) (b : Master) (e : StepExec) (w : List Dword) : State :=
  match stepOp w with
  | 0 => s.acceptPush k i c e w
  | 1 => s.pullChunk k i c b e w
  | 3 => if e.peer == c.rank then s.landSent k i c b e false else s.landAnswer k i c b e w
  | 4 => s.landSent k i c b e false
  | _ => s.landSent k i c b e true

/-- Can the next chunk of an execution land: the switch has room, the result is final or in error, the peer has answered, or
something is on its way (R380, R387)? -/
def State.canLand (s : State) (c : Coll) (e : StepExec) (w : List Dword) : Bool :=
  e.wait == .ready && decide (e.landed < e.next) && (match stepOp w with
    | 0 => e.out.any fun x => s.pushFits c.group c.seq x.idx
    | 1 => (match s.apertureAt c.group c.seq (e.src + e.landed) with
      | some a => a.error || decide (c.n ≤ a.contribs.length)
      | none => false)
    | 3 => if e.peer == c.rank then !e.out.isEmpty else !e.answers.isEmpty
    | _ => !e.out.isEmpty)

/-- CHUNK_TRANSFER (R387, R389): the step's execution that still has chunks to send or request moves by one; when each has
sent all of them, one whose next chunk can land does. Executions of the same step are unordered among themselves: a free
value chooses among several that can land. -/
def execChunkTransfer (k step : Nat) (s : State) : Host.Outcome State Fault Refusal :=
  match s.coll k with
  | none => .next s
  | some c => match s.master c.m with
    | none => .next s
    | some b =>
      if !s.collGoes c || c.ending.isSome then .next s
      else
        let w := c.steps.getD step []
        let mine := c.execs.zipIdx.filter fun p => p.1.step == step
        match mine.find? fun p => p.1.wait == .ready && decide (p.1.next < c.total p.1) with
        | some (e, i) => .next (s.sendNext k i c b e w)
        | none => match mine.filter fun p => s.canLand c p.1 w with
          | [] => .next s
          | [(e, i)] => .next (s.landNext k i c b e w)
          | l =>
            let (t, f) := s.fresh
            let (e, i) := l.getD ((Config.freeWord f 0).toNat % l.length) default
            .next (t.landNext k i c b e w)

/-- A peer's access that did not succeed: one that is not present waits, and its peer asks again once the entry is answered; a
violation freezes this instance's master (R393). -/
def State.peerFails (s : State) (k : Nat) (c : Coll) (r : EngRes) : State :=
  match r with
  | .missing va lv w =>
    let (t, st) := s.joinMiss c.die c.ctx.asid va lv w
    t.modColl k fun c => { c with peers := c.peers ++ [st] }
  | r => s.collFails k c none r

/-- INBOUND_CHUNK (R387, R393): a peer's PUT or TPOSE chunk lands in a running instance; one outside the buffer is refused,
and the aborted requester is elsewhere; a violation freezes this instance's master. -/
def execInboundChunk (k buf idx : Nat) (bytes : List Byte) (s : State) : Host.Outcome State Fault Refusal :=
  match s.coll k with
  | none => .next s
  | some c => match s.master c.m with
    | none => .next s
    | some b =>
      let size := (c.bufs.getD buf (0, 0)).2
      if !c.accepted || c.ending.isSome || b.phase == .frozen || !(bytes.length == 2048 || bytes.length == 4096) ||
          decide (size < (idx + 1) * bytes.length) then .next s
      else match s.putChunk k c b buf idx bytes with
        | (t, .ok _) => .next (t.modColl k fun c => { c with inbound := c.inbound + 1 })
        | (t, r) => .next (t.peerFails k c r)

/-- A peer's GET of chunk idx, of n bytes, of a buffer of a running instance: the bytes go back, a range outside the buffer is
refused, and a violation freezes this instance's master (R387, R393). -/
def State.serveGet (s : State) (k buf idx n : Nat) : State :=
  let no : State := { s with reply := none }
  match s.coll k with
  | none => no
  | some c => match s.master c.m with
    | none => no
    | some b =>
      let (va, size) := c.bufs.getD buf (0, 0)
      if !c.accepted || c.ending.isSome || b.phase == .frozen || !(n == 2048 || n == 4096) || decide (size < (idx + 1) * n) then no
      else match no.engRead b 0 0 (va.toNat + idx * n) n 1 with
        | (t, .ok bs) => { t with reply := some bs }
        | (t, r) => t.peerFails k c r

/-- A peer's answer to a GET reaches the oldest execution of the step that has asked for more than it has been given. -/
def State.answerGet (s : State) (k step : Nat) (bytes : List Byte) : State :=
  match s.coll k with
  | none => s
  | some c =>
    let w := c.steps.getD step []
    match c.execs.zipIdx.find? fun p => p.1.step == step && decide (p.1.landed + p.1.answers.length < p.1.next) with
    | some (e, i) =>
      if stepOp w == 3 && e.peer != c.rank && bytes.length == chunkBytes (stepFmt w) && c.ending.isNone then
        s.modColl k fun c => c.modExec i fun e => { e with answers := e.answers ++ [bytes] }
      else s
    | none => s

/-- Another member's contribution, once the chunk has room for its sequence (R380). -/
def State.contributeFrom (s : State) (g q c : Nat) (x : Contrib) : State :=
  let (n, r) := s.groupEntry g
  if decide (x.rank < n) && x.rank != r && s.pushFits g q c then s.contribute g q c n x else s

/-- Another member takes a final result, once (R380). -/
def State.pulledFrom (s : State) (g q c rank : Nat) : State :=
  let (n, r) := s.groupEntry g
  match s.apertureAt g q c with
  | some a =>
    if !a.error && decide (n ≤ a.contribs.length) && decide (rank < n) && rank != r && !a.pulled.contains rank then
      s.pullBy g q c n rank
    else s
  | none => s

/-- The control complex resets a group in the switch: its aperture holds nothing (R396). -/
def State.resetGroup (s : State) (g : Nat) : State := { s with aperture := s.aperture.filter fun a => a.group != g }

/-! ## Endings -/

/-- COLL_COMPLETE (R388, R392): past its last step with every step completed; or a status record that had to wait is
written now. -/
def execCollComplete (k : Nat) (s : State) : Host.Outcome State Fault Refusal :=
  match s.coll k with
  | none => .next s
  | some c =>
    if !s.collGoes c then .next s
    else if c.ending.isSome then .next (s.endColl k)
    else if c.accepted && decide (c.steps.length ≤ c.pc) && c.settled then .next (s.finishColl k 1 0 0)
    else .next s

/-- COLL_TIMEOUT (R395). -/
def execCollTimeout (k : Nat) (s : State) : Host.Outcome State Fault Refusal :=
  match s.coll k with
  | none => .next s
  | some c =>
    let live := match s.master c.m with | some b => b.phase != .frozen | none => false
    if live && c.accepted && c.ending.isNone && decide (c.progressAt + 1600 * c.timeout ≤ s.cycles) then .next (s.abortColl k 0x30)
    else .next s

/-- COLL_ABORT (R395): causes that arise outside the instance: a range that the peer's buffers refuse (0x31), the control
complex (0x32), a violation at the peer (0x34). -/
def execCollAbort (k : Nat) (code : BitVec 8) (s : State) : Host.Outcome State Fault Refusal :=
  match s.coll k with
  | none => .next s
  | some c =>
    let live := match s.master c.m with | some b => b.phase != .frozen | none => false
    if live && c.accepted && c.ending.isNone && [0x31, 0x32, 0x34].contains code.toNat then .next (s.abortColl k code.toNat)
    else .next s

/-! ## Requests between packages (R378) -/

/-- The inbound window's verdict on a range of HBM. -/
def State.inboundOk (s : State) (pa n : Nat) (read write : Bool) : Bool :=
  match s.blob with
  | none => false
  | some b => decide (pa + n ≤ hbmBytes) && !b.inCarve pa n && b.windows.any fun w =>
      decide (w.base ≤ pa ∧ pa + n ≤ w.base + 4096 * w.pages) && (!read || w.read) && (!write || w.write)

/-- The bytes that a request touches, and whether it reads and writes. -/
def reqSpan : ReqOp → Nat × Bool × Bool
  | .read n => (n, true, false)
  | .write bs => (bs.length, false, true)
  | .atomic o _ _ => (o.bytes, true, true)

/-- Perform a request at the home; the reply is none for poison. -/
def State.perform (s : State) (key : Nat) (op : ReqOp) : State :=
  match op with
  | .read n => { s with reply := s.homeRead key n }
  | .write bs => { (s.touch key bs.length).homeWrite key bs with reply := some [] }
  | .atomic o v new =>
    match s.homeRead key o.bytes with
    | none => { s with reply := none }
    | some old =>
      let t := match atomNew o (le64 old) v new with
        | some x => (s.touch key o.bytes).homeWrite key (leBytes o.bytes x.toNat)
        | none => s
      { t with reply := some old }

/-- INBOUND_REQUEST (R378): what the window permits is performed at the home; what it refuses performs nothing and appends a
record that names the peer. -/
def execInboundRequest (peer pa : Nat) (op : ReqOp) (s : State) : Host.Outcome State Fault Refusal :=
  let (n, r, w) := reqSpan op
  if s.inboundOk pa n r w then .next (s.perform pa op)
  else
    let d := if pa < hbmBytes then pa / 2 ^ 36 else 0
    .next ({ s with reply := none }.record d
      { FRecord.blank with kind := 5, die := d, index := BitVec.ofNat 32 peer, address := BitVec.ofNat 64 pa })

/-- REMOTE_REFUSAL (R378): lanes of an operation that went to another package come back refused; the master is frozen. -/
def execRemoteRefusal (r : WRef) (k : Nat) (lanes : Mask) (s : State) : Host.Outcome State Fault Refusal :=
  match (s.warp r).bind fun w => w.op k with
  | none => .next s
  | some o =>
    let hit := o.lanes.filter fun l => l.st == .remote && lanes.has l.lane
    match hit with
    | [] => .next s
    | x :: _ =>
      let t := s.modWarp r fun w => w.setOp { o with lanes := o.lanes.map (fun l =>
        if l.st == .remote && lanes.has l.lane then { l with st := .refused } else l) }
      let low := hit.foldl (fun m l => if l.lane < m.lane then l else m) x
      let inHandler := match s.warp r with
        | some w => w.handler.isSome
        | none => false
      .next (t.freeze r.m { FreezeAt.blank (if inHandler then 0x02 else 0x17) with
        warp := some r.w, pc := o.pc, lanes := Mask.ofFn fun l => hit.any fun y => y.lane == l
        address := low.ea, info := if inHandler then 0x17 else 0 })

/-- Is a virtual address one of the instance's status record, maps or buffers? -/
def Coll.uses (c : Coll) (va : Nat) : Bool :=
  let at' (a : Dword) (n : Nat) : Bool := decide (a.toNat ≤ va ∧ va < a.toNat + n)
  at' c.statusVa 64 || (c.mapVa != 0 && at' c.mapVa (2 ^ 20)) || (c.efMapVa != 0 && at' c.efMapVa (2 ^ 20)) ||
    (c.efVa != 0 && at' c.efVa (2 ^ 32)) || c.bufs.any fun b => at' b.1 b.2

/-- Another package refuses an access of a collective (R378): it stops as at a violation, and goes on at its chunk on thaw
(R393, R399). While the engine has yet to accept the instance, the access is of its block or, that read, of its program. -/
def State.refuseColl (s : State) (k va : Nat) : State :=
  match s.coll k with
  | none => s
  | some c => match s.master c.m with
    | none => s
    | some b =>
      let within (a n : Nat) : Bool := decide (a ≤ va ∧ va < a + n)
      if !s.collGoes c || !s.remoteVa b va then s
      else if c.accepted || c.ending.isSome then (if c.uses va then s.collBad k c none 0x17 va else s)
      else if within c.blockVa.toNat 256 then s.collBad k c none 0x17 va
      else match s.engRead b 0 0 c.blockVa.toNat 256 1 with
        | (t, .ok bs) =>
          let (n, rank) := t.groupEntry (recNat bs 10 2)
          if within (recNat bs 0 8) (32 * recNat bs 8 2) then
            (t.modColl k fun _ => (parseColl c bs n rank).1).collBad k c none 0x17 va
          else s
        | _ => s

/-- Another package refuses the read of entry n of a retiring task's successor list (R378): the signals before it have been sent,
and the task is frozen there (R399, R409). -/
def State.refuseSignal (s : State) (m n : Nat) : State :=
  match s.master m with
  | none => s
  | some b =>
    let va := b.succList.toNat + 8 * n
    if !s.taskEnds m b || n < b.signalled || b.succCount ≤ n || !s.remoteVa b va then s
    else
      let t := signalGo (n - b.signalled) m (s.beginRetire m b)
      match t.master m with
      | some b' => if b'.phase == .frozen || b'.sigWait != .ready then t
          else t.freeze m { FreezeAt.blank 0x17 with address := BitVec.ofNat 64 va }
      | none => t

end Sys2Proof.Machine
end

