-- ==== Sys2Proof/Machine/Shake.lean ====
section
/-! DEFINITION. SHAKE256, which the measurements and key digests name (R438, R445, R446): the Keccak permutation of 24 rounds
on 25 lanes of 64 bits, rate 136 bytes (log 33). -/

namespace Sys2Proof.Machine

/-- Round constants: bit 2^j − 1 of round i is output 7i + j of an 8-bit shift register. -/
def keccakLfsr : Nat → Nat → List Bool
  | 0, _ => []
  | n + 1, r =>
    let r' := if r % 256 / 128 == 1 then (2 * r % 256) ^^^ 0x71 else 2 * r % 256
    (r % 2 == 1) :: keccakLfsr n r'

def keccakConst (bits : List Bool) (i : Nat) : Dword :=
  (List.range 7).foldl (fun (x : Dword) j => if bits.getD (7 * i + j) false then x ^^^ BitVec.ofNat 64 (2 ^ (2 ^ j - 1)) else x) 0

def keccakConsts : List Dword :=
  let bits := keccakLfsr 168 1
  (List.range 24).map (keccakConst bits)

/-- Rotation of lane (x, y), by x + 5y. -/
def keccakRot : List Nat := [0, 1, 62, 28, 27, 36, 44, 6, 55, 20, 3, 10, 43, 25, 39, 41, 45, 15, 21, 8, 18, 2, 61, 56, 14]

/-- One round. -/
def keccakRound (a : List Dword) (rc : Dword) : List Dword :=
  let at' (l : List Dword) (i : Nat) : Dword := l.getD i 0
  let c := (List.range 5).map fun x => at' a x ^^^ at' a (x + 5) ^^^ at' a (x + 10) ^^^ at' a (x + 15) ^^^ at' a (x + 20)
  let d := (List.range 5).map fun x => at' c ((x + 4) % 5) ^^^ (at' c ((x + 1) % 5)).rotateLeft 1
  let t := (List.range 25).map fun i => (at' a i ^^^ at' d (i % 5)).rotateLeft (keccakRot.getD i 0)
  -- lane (x, y) takes the rotated lane (x + 3y, x)
  let b := (List.range 25).map fun i => at' t ((i % 5 + 3 * (i / 5)) % 5 + 5 * (i % 5))
  (List.range 25).map fun i =>
    let y := i / 5 * 5
    let v := at' b i ^^^ (~~~(at' b (y + (i + 1) % 5)) &&& at' b (y + (i + 2) % 5))
    if i == 0 then v ^^^ rc else v

def keccak (a : List Dword) : List Dword := keccakConsts.foldl keccakRound a

/-- Absorb blocks of 136 bytes. -/
def absorb : Nat → List Byte → List Dword → List Dword
  | 0, _, a => a
  | n + 1, m, a =>
    absorb n (m.drop 136) (keccak (a.zipIdx.map fun p => if p.2 < 17 then p.1 ^^^ le64 ((m.drop (8 * p.2)).take 8) else p.1))

/-- The first 64 bytes, or fewer, of SHAKE256 of a message. -/
def shake256 (m : List Byte) (n : Nat) : List Byte :=
  let q := 136 - m.length % 136
  let pad := if q == 1 then [0x9F] else [0x1F] ++ List.replicate (q - 2) 0 ++ [0x80]
  let p := m ++ pad
  ((absorb (p.length / 136) p (List.replicate 25 0)).flatMap fun w => leBytes 8 w.toNat).take n

end Sys2Proof.Machine
end

