-- ==== Sys2Proof/Machine/Ed448.lean ====
section
/-! DEFINITION. Ed448 signatures as RFC 8032 defines them, which the part names for objects it loads and for quotes (R9, R438,
R446, R447; log 33): the untwisted Edwards curve x² + y² = 1 + d·x²·y² over the field of p elements, with SHAKE256. -/

namespace Sys2Proof.Machine

/-- The field's prime. -/
def edP : Nat := 2 ^ 448 - 2 ^ 224 - 1
/-- The order of the base point. -/
def edL : Nat := 2 ^ 446 - 13818066809895115352007386748515426880336692474882178609894547503885
/-- The curve's constant, −39081. -/
def edD : Nat := edP - 39081

/-- A power modulo p, by the `n` low bits of the exponent. -/
def edPow (b : Nat) : Nat → Nat → Nat
  | 0, _ => 1
  | n + 1, e =>
    let r := edPow b n (e / 2)
    let q := r * r % edP
    if e % 2 == 1 then q * b % edP else q

/-- A point in projective coordinates. -/
structure EdPoint where
  x : Nat
  y : Nat
  z : Nat
  deriving DecidableEq, Repr

def edSub (a b : Nat) : Nat := (a + (edP - b % edP)) % edP

/-- The sum of two points. -/
def EdPoint.add (s t : EdPoint) : EdPoint :=
  let a := s.z * t.z % edP
  let b := a * a % edP
  let c := s.x * t.x % edP
  let d := s.y * t.y % edP
  let e := edD * c * d % edP
  let f := edSub b e
  let g := (b + e) % edP
  let h := (s.x + s.y) * (t.x + t.y) % edP
  ⟨a * f * edSub (edSub h c) d % edP, a * g * edSub d c % edP, f * g % edP⟩

/-- The multiple of a point by the `n` low bits of a scalar. -/
def EdPoint.mul (s : EdPoint) : Nat → Nat → EdPoint
  | 0, _ => ⟨0, 1, 1⟩
  | n + 1, k =>
    let r := s.mul n (k / 2)
    let q := r.add r
    if k % 2 == 1 then q.add s else q

/-- Do two points have the same coordinates? -/
def EdPoint.same (s t : EdPoint) : Bool :=
  s.x * t.z % edP == t.x * s.z % edP && s.y * t.z % edP == t.y * s.z % edP

/-- The base point. -/
def edBase : EdPoint where
  x := 224580040295924300187604334099896036246789641632564134246125461686950415467406032909029192869357953282578032075146446173674602635247710
  y := 298819210078481492676017930443930673437544040154080242095928241372331506189835876003536878655418784733982303233503462500531545062832660
  z := 1

/-- A point as 57 bytes: y, and the lowest bit of x on top. -/
def EdPoint.bytes (s : EdPoint) : List Byte :=
  let i := edPow s.z 448 (edP - 2)
  leBytes 57 (s.y * i % edP + 2 ^ 455 * (s.x * i % edP % 2))

/-- The point that 57 bytes spell, when they spell one. -/
def edPoint (bs : List Byte) : Option EdPoint :=
  let n := leNat bs
  let y := n % 2 ^ 455
  let u := edSub (y * y % edP) 1
  let v := edSub (edD * (y * y % edP) % edP) 1
  let w := u * u % edP * u % edP * v % edP
  let x := w * edPow (w * (u * u % edP) % edP * (v * v % edP) % edP) 448 ((edP - 3) / 4) % edP
  if bs.length != 57 || edP ≤ y || v * (x * x % edP) % edP != u then none
  else if x == 0 && n / 2 ^ 455 == 1 then none
  else some ⟨if x % 2 == n / 2 ^ 455 then x else edP - x, y, 1⟩

/-- The hash of RFC 8032 for Ed448 with a context string: 114 bytes. -/
def edHash (context m : List Byte) : List Byte :=
  shake256 ([0x53, 0x69, 0x67, 0x45, 0x64, 0x34, 0x34, 0x38, 0, BitVec.ofNat 8 context.length] ++ context ++ m) 114

/-- The secret scalar and the prefix of a private key. -/
def edSecret (key : List Byte) : Nat × List Byte :=
  let h := shake256 key 114
  (leNat (h.take 57) / 4 * 4 % 2 ^ 447 + 2 ^ 447, h.drop 57)

/-- The public key of a private key. -/
def ed448Public (key : List Byte) : List Byte := (edBase.mul 448 (edSecret key).1).bytes

/-- The signature of a message under a private key with a context string: 114 bytes. -/
def ed448Sign (key context m : List Byte) : List Byte :=
  let (a, pre) := edSecret key
  let r := leNat (edHash context (pre ++ m)) % edL
  let rb := (edBase.mul 446 r).bytes
  let k := leNat (edHash context (rb ++ ed448Public key ++ m)) % edL
  rb ++ leBytes 57 ((r + k * a) % edL)

/-- Is the signature of a message valid under a public key? -/
def ed448Verify (key context m sig : List Byte) : Bool :=
  let s := leNat (sig.drop 57)
  match edPoint key, edPoint (sig.take 57) with
  | some a, some r =>
    let k := leNat (edHash context (sig.take 57 ++ key ++ m)) % edL
    sig.length == 114 && decide (s < edL) && (edBase.mul 448 (4 * s)).same ((r.mul 3 4).add (a.mul 448 (4 * k)))
  | _, _ => false

end Sys2Proof.Machine
end

