-- ==== Sys2Proof/Machine/BringUp.lean ====
section
/-! DEFINITION. Bring-up: package reset, firmware and blob loads (R436 to R440), readiness and links (R441 to R443), the CXL
host (R338, R444), measurements and quotes (R445 to R447), temperature (R448). -/

namespace Sys2Proof.Machine

/-! ## Package reset (R437, R445, R451) -/

/-- PACKAGE_RESET (R437): every piece of state is as after reset but for memory, which nothing clears (R451; what it holds
then is what it held, log 34), and the fuses (R439, R440). -/
def execPackageReset (s : State) : Host.Outcome State Fault Refusal :=
  .next { State.reset with
    mem := s.mem, poison := s.poison, freeTick := s.freeTick, schedule := s.schedule
    bring := { State.reset.bring with fwMin := s.bring.fwMin, cfgMin := s.bring.cfgMin, owner := s.bring.owner } }

/-! ## Loads (R438 to R440) -/

/-- Read an object for a load: no stack has reported yet, and the load reads it all the same (log 35); none when a byte is
poisoned, the host is not reached, or some of it is no memory: past the end of HBM or of host memory, or the bring-up block. -/
def State.loadRead (s : State) (pa n : Nat) : Option (List Byte) :=
  let key := physKey pa
  let absent := if pa < hbmBytes then decide (hbmBytes < pa + n)
    else decide (pa < bringUpBase + 1024 ∧ bringUpBase < pa + n) || s.unreachable key n
  if absent || overlapsList s.poison key n then none else some (readBytes s.mem key n)

/-- Sizes that a load of the firmware, or of the blob, accepts: the header and the signature must stand in the image. -/
def sizeOk (blob : Bool) (n : Nat) : Bool := if blob then n == 1024 else decide (242 ≤ n ∧ n ≤ 2 ^ 26)

/-- Begin a load: the object is read once (R439). -/
def State.beginLoad (s : State) (ag : Agent) (blob : Bool) : State :=
  let x := s.bring
  let from' := if blob then 3 else 1
  if ag != .cc || x.state != from' then s
  else
    let ok := x.objAddr.toNat % 4096 == 0 && sizeOk blob x.objSize
    { s with bring := { x with
      state := from' + 1, objOk := ok, obj := if ok then s.loadRead x.objAddr.toNat x.objSize else none } }

/-- LOAD_FIRMWARE (R437, R439): start 1. -/
def execLoadFirmware (ag : Agent) (s : State) : Host.Outcome State Fault Refusal := .next (s.beginLoad ag false)
/-- LOAD_BLOB (R437, R440): start 2. -/
def execLoadBlob (ag : Agent) (s : State) : Host.Outcome State Fault Refusal := .next (s.beginLoad ag true)

def romDigest (f : Nat → Byte) : List Byte := (List.range 64).map f

/-- The checks of R439 in their order, up to the fields of R438 or R440; the signature's context string is empty. -/
def BringUp.verdict (x : BringUp) (keyOff : Nat) (trusted : List Byte) (version minimum : List Byte → Nat)
    (fieldsOk : List Byte → Bool) : Except Nat (List Byte) :=
  if !x.objOk then .error 0x01
  else match x.obj with
    | none => .error 0x02
    | some o =>
      let key := (o.drop keyOff).take 57
      let body := o.take (o.length - 114)
      if shake256 key 64 != trusted then .error 0x06
      else if !ed448Verify key [] body (o.drop (o.length - 114)) then .error 0x03
      else if version o < minimum o then .error 0x04
      else if !fieldsOk o then .error 0x05
      else .ok o

/-- Extend measurement i with data (R445). -/
def BringUp.extend (x : BringUp) (i : Nat) (data : List Byte) : BringUp :=
  { x with meas := modAt x.meas i fun m => shake256 (m ++ shake256 data 64) 64 }

/-- The fields of the firmware header (R438). -/
def firmwareFields (o : List Byte) : Bool := recNat o 0 4 == 0x00464743 && !anyByte o 4 4 && !anyByte o 73 55

/-- FIRMWARE_VERIFY_DONE (R437 to R439, R445). -/
def execFirmwareVerifyDone (s : State) : Host.Outcome State Fault Refusal :=
  let x := s.bring
  if x.state != 2 then .next s
  else match x.verdict 16 (romDigest Config.romFirmwareDigest) (fun o => recNat o 8 8) (fun _ => x.fwMin) firmwareFields with
    | .error c => .next { s with bring := { x with state := 1, error := c, obj := none } }
    | .ok o => .next { s with bring := ({ x with state := 3, fwMin := recNat o 8 8, obj := none } : BringUp).extend 0 o }

/-! ## The blob's fields (R440) -/

def parseWindow (e : List Byte) : InWindow :=
  ⟨recNat e 0 8, recNat e 8 4, (recNat e 12 1).testBit 0, (recNat e 12 1).testBit 1⟩

def parseBlob (o : List Byte) : Blob where
  package := recNat o 12 2
  carveStacks := BitVec.ofNat 8 (recNat o 14 1)
  carveMiB := recNat o 16 4
  fqExp := recNat o 15 1
  privFirst := recNat o 20 2
  privCount := recNat o 22 2
  taskSlotSize := recNat o 24 4
  queueAperture := recNat o 32 8
  counterAperture := recNat o 40 8
  transTable := recNat o 48 8
  kvTable := recNat o 56 8
  mmBlock := recNat o 64 8
  mcBlock := recNat o 72 8
  faultQueue := recNat o 80 8
  groupTable := recNat o 88 8
  perfBlock := recNat o 96 8
  taskSpill := recNat o 104 8
  taskCtx := recNat o 112 8
  cxlBase := recNat o 120 8
  cxlSize := recNat o 128 8
  windows := ((List.range 16).map fun i => parseWindow ((o.drop (136 + 16 * i)).take 16)).filter fun w => w.pages != 0

/-- The tables and areas that the blob places in HBM, the fault queue among them (log 36). -/
def Blob.areas (b : Blob) : List (Nat × Nat) :=
  [(b.faultQueue, 64 * 2 ^ b.fqExp), (b.transTable, 4194304), (b.kvTable, 4194304), (b.groupTable, 65536), (b.taskSpill, 8 * 50331648),
   (b.taskCtx, 8 * 1536 * b.taskSlotSize)]

/-- No two ranges of the list overlap. -/
def disjoint : List (Nat × Nat) → Bool
  | [] => true
  | (a, n) :: r => (r.all fun p => decide (a + n ≤ p.1 ∨ p.1 + p.2 ≤ a) || n == 0 || p.2 == 0) && disjoint r

/-- Does the blob break none of R440's conditions? -/
def blobFields (o : List Byte) : Bool :=
  let b := parseBlob o
  let win (i : Nat) : Bool :=
    let e := (o.drop (136 + 16 * i)).take 16
    let n := 4096 * recNat e 8 4
    recNat e 0 8 % 4096 == 0 && decide (recNat e 12 1 ≤ 3) && !anyByte e 13 3 &&
      (n == 0 || (decide (recNat e 0 8 + n ≤ hbmBytes) && !b.inCarve (recNat e 0 8) n))
  recNat o 0 4 == 0x00424743 && recNat o 4 2 == 1 && !anyByte o 6 2 && !anyByte o 28 4 && !anyByte o 449 461 &&
  decide (b.package ≤ 1023) && b.carveStacks != 0 && decide (8 ≤ b.fqExp ∧ b.fqExp ≤ 20) &&
  decide (2 ≤ b.carveMiB ∧ b.carveMiB ≤ 16384) && b.carveMiB % 2 == 0 && decide (b.privFirst + b.privCount ≤ 65536) &&
  b.taskSlotSize % 4096 == 0 && b.cxlBase % 2097152 == 0 && b.cxlSize % 2097152 == 0 &&
  (b.cxlSize == 0 || (decide (b.cxlBase + b.cxlSize ≤ hbmBytes) && !b.inCarve b.cxlBase b.cxlSize)) &&
  (b.areas.all fun p => decide (p.1 + p.2 ≤ hbmBytes) && !b.inCarve p.1 p.2) &&
  disjoint b.areas &&
  (List.range 16).all win

/-- BLOB_VERIFY_DONE (R437, R439, R440, R445): the owner's key signs, or Gicel's while the owner fuses are blank. -/
def execBlobVerifyDone (s : State) : Host.Outcome State Fault Refusal :=
  let x := s.bring
  if x.state != 4 then .next s
  else match x.verdict 392 (x.owner.getD (romDigest Config.romConfigDigest)) (fun o => recNat o 8 4) (fun _ => x.cfgMin) blobFields with
    | .error c => .next { s with bring := { x with state := 3, error := c, obj := none } }
    | .ok o => .next { s with
        bring := ({ x with state := 5, cfgMin := recNat o 8 4, obj := none } : BringUp).extend 1 o
        blob := some (parseBlob o) }

/-! ## Measurements and quotes (R445 to R447) -/

/-- EXTEND_MEASUREMENT (R445): start 3; bytes that cannot be read are undefined (log 2). -/
def execExtendMeasurement (ag : Agent) (s : State) : Host.Outcome State Fault Refusal :=
  let x := s.bring
  if ag != .cc || x.state != 5 || !decide (1 ≤ x.objSize ∧ x.objSize ≤ 65536) then .next s
  else match s.homeRead (physKey x.objAddr.toNat) x.objSize with
    | some o => .next { s with bring := x.extend 2 o }
    | none =>
      let tick := s.freeTick
      .next { s with freeTick := tick + 1
                     bring := x.extend 2 ((List.range x.objSize).map fun i => (Config.freeWord tick i).setWidth 8) }

/-- The private identity key (R446): the 7 bytes spell clh9-id. -/
def identityKey : List Byte := shake256 (Config.pufResponse ++ [0x63, 0x6C, 0x68, 0x39, 0x2D, 0x69, 0x64]) 57

/-- The identity key field: the public key of the pair (R436, R446). -/
def identityPublic : List Byte := ed448Public identityKey

/-- REQUEST_QUOTE (R447): start 4; the message is fixed as the quote begins. -/
def execRequestQuote (ag : Agent) (s : State) : Host.Outcome State Fault Refusal :=
  let x := s.bring
  if ag != .cc || x.state != 5 || x.quoteStatus == 1 then .next s
  else
    let pkg := match s.blob with | some b => b.package | none => 0
    .next { s with bring := { x with quoteStatus := 1, quoting := x.nonce ++ x.meas.flatten ++ leBytes 2 pkg } }

/-- QUOTE_DONE (R447): the signature stands in the quote field; the context string spells clh9-quote. -/
def execQuoteDone (s : State) : Host.Outcome State Fault Refusal :=
  let x := s.bring
  if x.quoteStatus != 1 then .next s
  else .next { s with bring := { x with
    quoteStatus := 2
    quote := ed448Sign identityKey [0x63, 0x6C, 0x68, 0x39, 0x2D, 0x71, 0x75, 0x6F, 0x74, 0x65] x.quoting } }

/-! ## Readiness, links, temperature -/

def State.setReady (s : State) (bit : Nat) (v : Bool) : State :=
  { s with ready := if v then s.ready ||| BitVec.ofNat 1024 (2 ^ bit) else s.ready &&& ~~~BitVec.ofNat 1024 (2 ^ bit) }

/-- Bits of network links and UALink ports. -/
def isLink (bit : Nat) : Bool := decide (520 ≤ bit ∧ bit ≤ 545)

/-- The bit of a link or port takes a value; a change is reported to the management controller (R443, R376). -/
def State.setLink (s : State) (bit : Nat) (v : Bool) : State :=
  if s.ready.getLsbD bit == v then s else { s.setReady bit v with links := s.links ++ [(bit, v)] }

/-- FUNCTION_READY (R441, R442): bits above 546 are reserved. -/
def execFunctionReady (bit : Nat) (s : State) : Host.Outcome State Fault Refusal :=
  .next (if s.bring.state == 5 && !s.halted && decide (bit ≤ 546) then (if isLink bit then s.setLink bit true else s.setReady bit true) else s)

/-- LINK_DOWN (R376, R443). -/
def execLinkDown (bit : Nat) (s : State) : Host.Outcome State Fault Refusal :=
  .next (if s.bring.state == 5 && isLink bit then s.setLink bit false else s)
/-- LINK_UP (R376, R443). -/
def execLinkUp (bit : Nat) (s : State) : Host.Outcome State Fault Refusal :=
  .next (if s.bring.state == 5 && !s.halted && isLink bit then s.setLink bit true else s)

/-- THROTTLE (R448): issue cycles are withheld, which changes no result. -/
def execThrottle (s : State) : Host.Outcome State Fault Refusal := .next { s with throttled := true }
/-- THROTTLE_END (R448). -/
def execThrottleEnd (s : State) : Host.Outcome State Fault Refusal := .next { s with throttled := false }

/-- CRITICAL_TEMPERATURE (R448): the part stops with every readiness bit cleared, until a package reset. -/
def execCriticalTemperature (s : State) : Host.Outcome State Fault Refusal := .next { s with halted := true, ready := 0 }

/-! ## The management controller (R449) -/

/-- What the management controller reads: the fields of the bring-up block; temperature and power as free values, and the
link events in the model's own layout, bit number and value (log 88). -/
def State.mgmtRead (s : State) : MgmtItem → State
  | .readiness => { s with reply := some (leBytes 128 s.ready.toNat) }
  | .measurements => { s with reply := some s.bring.meas.flatten }
  | .identityKey => { s with reply := some identityPublic }
  | .quote => { s with reply := some s.bring.quote }
  | .linkEvents => { s with reply := some (s.links.flatMap fun p => leBytes 2 p.1 ++ leBytes 1 (if p.2 then 1 else 0)) }
  | .temperature | .power =>
    let (t, bs) := s.freeBytes 4
    { t with reply := some bs }

/-- The owner key digest is written once, into one-time fuses (R440). -/
def State.fuseOwner (s : State) (digest : List Byte) : State :=
  if s.bring.owner.isSome || digest.length != 64 then s else { s with bring := { s.bring with owner := some digest } }

/-! ## The CXL host (R338, R444) -/

/-- Drop every die's copies of the lines of a range, dirty bytes written back first. -/
def State.dropLines (s : State) (key n : Nat) : State :=
  (List.range 8).foldl (fun t d => t.dropCopies d fun i => decide (key / 128 ≤ i / 4 ∧ i / 4 ≤ (key + n - 1) / 128)) s

/-- CXL_MEM_REQUEST (R338, R444): served within the window, back-invalidating the lines it writes; elsewhere it completes
with poison and changes nothing. -/
def execCxlMemRequest (pa : Nat) (op : ReqOp) (s : State) : Host.Outcome State Fault Refusal :=
  let (n, _, w) := reqSpan op
  match s.blob with
  | none => .next { s with reply := none }
  | some b =>
    if s.cxlUp && decide (b.cxlBase ≤ pa ∧ pa + n ≤ b.cxlBase + b.cxlSize) then
      .next ((if w then s.dropLines pa n else s).perform pa op)
    else .next { s with reply := none }

/-- CXL_SNOOP (R338): the copies of a line of host memory are written back and dropped. -/
def execCxlSnoop (pa : Nat) (s : State) : Host.Outcome State Fault Refusal := .next (s.dropLines (hostKey (pa / 128 * 128)) 128)

/-- CXL_LINK_DOWN (R444): every kind-1 access returns poison until the next package reset; copies of host lines are lost. -/
def execCxlLinkDown (s : State) : Host.Outcome State Fault Refusal :=
  let t := { s with cxlUp := false }
  .next ((List.range 8).foldl (fun t d => t.dropCopies d fun i => decide (2 ^ 60 ≤ 32 * i ∧ 32 * i < 2 ^ 61)) t)

end Sys2Proof.Machine
end

