-- ==== Sys2Proof/Machine/DispatchEvents.lean ====
section
/-! DEFINITION. The dispatcher's events: choosing and placing entries (R89 to R91, R98, R103), ageing and delays (R89, R95,
R106), variant switches (R102), pre-emption and its save (R107, R412), and the watchdog (R109 to R111). -/

namespace Sys2Proof.Machine

/-! ## Choosing an entry (R89, R90) -/

/-- Record that an entry is passed over for lack of room, from now on unless it already was. -/
def Die.pass (d : Die) (e : PoolRef) (now : Nat) : Die :=
  if d.passed.any fun p => p.1 == e then d else { d with passed := d.passed ++ [(e, now)] }

def Die.unpass (d : Die) (e : PoolRef) : Die := { d with passed := d.passed.filter fun p => p.1 != e }

/-- Walk the pool in the order of R79: the first key-eligible entry with a variant that fits is granted; a key-eligible
blocking entry ends the walk. A grid that fits but whose first dies are too few to join together is not passed over for lack
of room. -/
def walkPool (d : Nat) : List (PoolRef × Rank) → State → State
  | [], s => s
  | (e, _) :: r, s =>
    match s.candidate d e with
    | none =>
      let t := s.modDie d fun x => x.unpass e
      if (s.die d).blocking == some e && s.keyEligible e then t else walkPool d r t
    | some (who, keys, img, vs) =>
      match s.firstFit d img vs none with
      | some (k, cs) =>
        if s.inSet d e then s.modDie d fun x => { x with grant := some ⟨who, k, cs, keys⟩ }
        else
          let t := s.modDie d fun x => x.unpass e
          if (s.die d).blocking == some e then t else walkPool d r t
      | none =>
        let t := s.modDie d fun x => x.pass e s.cycles
        if (s.die d).blocking == some e then t else walkPool d r t

/-- What no longer waits in the die's pool is passed over no longer, and blocks nothing. -/
def State.prunePassed (s : State) (d : Nat) : State :=
  s.modDie d fun x => { x with
    passed := x.passed.filter fun p => s.waitsOn d p.1
    blocking := x.blocking.filter (s.waitsOn d) }

/-- Is the block running, waiting at STEP, and not already chosen for pre-emption? -/
def Master.waitsAtStep (b : Master) : Bool := b.phase == .running && !b.preempt && b.atStep

/-- Blocks by linear index, highest first. -/
def byIndex (l : List (Nat × Master)) : List (Nat × Master) :=
  l.foldl (fun acc p => insert acc p) []
where
  insert (l : List (Nat × Master)) (p : Nat × Master) : List (Nat × Master) := match l with
    | [] => [p]
    | q :: r => if q.2.linear < p.2.linear then p :: q :: r else q :: insert r p

def Master.leaving (b : Master) : Bool := b.preempt || b.phase == .preempting

/-- R103: a grid with an undispatched block that no die of its set can place loses a block that waits at STEP. -/
def State.stepPreempt (s : State) (u : Nat) : State :=
  match s.grid u with
  | none => s
  | some g =>
    let bs := s.blocksOf u
    let stuck := g.inPool && !g.aborted && (s.nextBlock u g).isSome && g.dieSet != 0 &&
      decide ((s.gridSlots u).length < g.launch.slotCount g.image) &&
      (List.range 8).all (fun d => !g.dieSet.getLsbD d || !s.canPlace d u g) && !bs.any fun p => p.2.leaving
    if !stuck then s
    else match byIndex (bs.filter fun p => p.2.waitsAtStep) with
      | p :: _ => s.modMaster p.1 fun b => { b with preempt := true }
      | [] => s

/-- DISPATCH_STEP (R86, R89, R90, R103). An entry passed over for lack of room can make a switch pending (R100, log 38). -/
def execDispatchStep (die : Nat) (s : State) : Host.Outcome State Fault Refusal :=
  let x := s.die die
  let rested := match x.lastPlace with
    | some c => decide (c + 32 ≤ s.cycles)
    | none => true
  if 8 ≤ die || x.grant.isSome || !rested || !s.dieOpen die then .next s
  else
    let t := (s.grids.foldl (fun t p => t.settleMoves p.1) s).joinAll.prunePassed die
    let t := walkPool die (t.poolOrder die) t
    .next ((if (t.die die).grant.isSome then t
      else (t.grids.filter fun p => p.2.dieSet.getLsbD die).foldl (fun t p => t.stepPreempt p.1) t).reexamine die)

/-! ## Key grants (R91, R98) -/

def Waiter.entry : Waiter → PoolRef
  | .block u _ => .grid u
  | .master m => .master m

/-- The cores of a grant with what they have free now: none when some demand no longer fits. -/
def State.refit (s : State) (d : Nat) (v : Variant) : List CoreHold → Option (List CoreHold)
  | [] => some []
  | h :: r =>
    match (if s.coreReady d h.core then fitCore h.core (s.holdsOn d h.core none) v else none), s.refit d v r with
    | some x, some l => some (x :: l)
    | _, _ => none

/-- Does the grant still stand: its entry waits with the same keys, and its cores have room? -/
def State.grantCores (s : State) (d : Nat) (g : Grant) : Option (List CoreHold) :=
  let e := g.who.entry
  if !s.dieOpen d || !s.inSet d e || !s.waitsOn d e then none
  else match s.candidate d e with
    | some (who, keys, img, vs) =>
      if who == g.who && keys == g.keys && vs.contains g.varIdx then s.refit d (img.variants.getD g.varIdx default) g.cores else none
    | none => none

/-- What follows when a pre-empted or migrating block has been placed: its context comes back, and waits that a change may
have ended are looked at again (R175, R176, R412). -/
def State.readmitted (s : State) (m : Nat) (restore : Bool) : State :=
  let t := ((if restore then s.restoreSlot m else s).drainMaster m).checkSwitch m
  match (t.master m).bind Master.gridUid with
  | some u => t.checkStep u
  | none => t

/-- KEY_GRANT (R89, R91, R98): the heddle table grants the whole set with the placement, or refuses it whole. -/
def execKeyGrant (die : Nat) (s : State) : Host.Outcome State Fault Refusal :=
  match (s.die die).grant with
  | none => .next s
  | some g =>
    let t := s.modDie die fun x => { x with grant := none }
    match t.grantCores die g with
    | none => .next t
    | some cs =>
      let e := g.who.entry
      let before := match g.who with
        | .master m => (s.master m).map Master.phase
        | .block .. => none
      let u := (t.place die { g with cores := cs }).modDie die fun x =>
        { (x.unpass e) with lastPlace := some s.cycles, blocking := if x.blocking == some e then none else x.blocking }
      let u := match g.who with
        | .master m => (if before == some Phase.waiting then u else u.readmitted m (before == some Phase.preempted)).forget e
        | .block .. => u
      .next (u.joinAll.reexamine die)

/-- WARP_RELEASE (R91, R142): the warps of a placed master start; what precedes the placement is visible to them (R336). -/
def execWarpRelease (m : Nat) (s : State) : Host.Outcome State Fault Refusal :=
  match s.master m with
  | none => .next s
  | some b =>
    if b.phase == .running && b.warps.isEmpty && !b.cores.isEmpty then
      .next ((s.setMaster m { b with warps := s.entryWarps b }).acquireAll b.die)
    else .next s

/-! ## Ages and delays -/

/-- ENTRY_AGED (R95): an entry's age exceeds its threshold. -/
def execEntryAged (_die : Nat) (e : PoolRef) (s : State) : Host.Outcome State Fault Refusal :=
  let old (at' thr : Nat) : Bool := decide (at' + 1600 * thr < s.cycles)
  .next (match e with
    | .grid u => s.modGrid u fun g => if g.inPool && old g.poolAt g.threshold then { g with aged := true } else g
    | .master m => s.modMaster m fun b => if b.inPool && b.phase == .waiting && old b.poolAt b.threshold then { b with aged := true } else b)

/-- Has an entry been passed over on the die, and eligible, for so many cycles? -/
def State.passedFor (s : State) (d n : Nat) (e : PoolRef) : Bool :=
  (s.die d).passed.any (fun p => p.1 == e && decide (p.2 + n ≤ s.cycles)) && s.stillWaits d e

/-- The age of a pool entry: of a grid, that of its next block (R95). -/
def State.entryAge (s : State) : PoolRef → Option Aged
  | .grid u => (s.grid u).map fun g => g.age u ((s.nextBlock u g).getD g.nextLin)
  | .master m => (s.master m).map fun b => b.age m

/-- Is entry e older than f (R95)? -/
def State.olderEntry (s : State) (e f : PoolRef) : Bool :=
  match s.entryAge e, s.entryAge f with
  | some a, some b => a.older b
  | _, _ => false

/-- PLACEMENT_WAIT_LIMIT (R89): the oldest entry at the limit becomes blocking, one for each die. -/
def execPlacementWaitLimit (die : Nat) (e : PoolRef) (s : State) : Host.Outcome State Fault Refusal :=
  let x := s.die die
  let free := match x.blocking with
    | some f => !s.stillWaits die f
    | none => true
  let due := (x.passed.map Prod.fst).filter (s.passedFor die 1600000)
  if free && due.contains e && due.all fun f => f == e || s.olderEntry e f then
    .next (s.modDie die fun x => { x with blocking := some e })
  else .next s

/-- The state with some masters' cores free. -/
def State.without (s : State) (ms : List Nat) : State :=
  ms.foldl (fun t m => t.modMaster m fun b => { b with cores := [], switchTo := none }) s

/-- The shortest initial part of `victims` whose cores, with those already being freed, leave room. -/
def State.enough (s : State) (d : Nat) (img : Image) (vs : List Nat) (victims : List Nat) : Option (List Nat) :=
  let going := (s.masters.filter fun p => p.2.die == d && p.2.leaving).map Prod.fst
  ((List.range (victims.length + 1)).find? fun n => ((s.without (going ++ victims.take n)).firstFit d img vs none).isSome).map
    victims.take

/-- Choose masters for pre-emption (R107). -/
def State.choose (s : State) (ms : List Nat) : State := ms.foldl (fun t m => t.modMaster m fun b => { b with preempt := true }) s

/-- Victims of lower priority on a die: lowest priority first, then latest placed (R106). -/
def State.lowerVictims (s : State) (d prio : Nat) : List Nat :=
  let vs := s.masters.filter fun p => p.2.die == d && p.2.phase == .running && !p.2.preempt && decide (p.2.priority < prio)
  (vs.foldl insert []).map Prod.fst
where
  insert (l : List (Nat × Master)) (p : Nat × Master) : List (Nat × Master) := match l with
    | [] => [p]
    | q :: r =>
      if p.2.priority < q.2.priority || (p.2.priority == q.2.priority && decide (q.2.placedAt < p.2.placedAt)) then p :: q :: r
      else q :: insert r p

/-- R434: blocks of a counted task's grid that wait at STEP on the die, while drain waits at the step. -/
def State.stepVictims (s : State) (d : Nat) (e : PoolRef) : List Nat :=
  match e with
  | .grid _ => []
  | .master m => match (s.master m).bind fun b => b.counted with
    | none => []
    | some u => match s.grid u with
      | none => []
      | some g => if g.drain == .idle then []
        else (byIndex ((s.blocksOf u).filter fun p => p.2.die == d && p.2.waitsAtStep)).map Prod.fst

/-- PREEMPTION_DELAY_EXPIRY (R106, R434): victims of lower priority, blocks of a counted task's grid that wait at STEP when
those do not make room, or both when only both do (log 82). -/
def execPreemptionDelayExpiry (die : Nat) (e : PoolRef) (s : State) : Host.Outcome State Fault Refusal :=
  if !s.passedFor die 160000 e then .next s
  else match s.candidate die e with
    | none => .next s
    | some (_, _, img, vs) =>
      let low := s.lowerVictims die (s.prioOf e)
      let step := s.stepVictims die e
      match [low, step, low ++ step.filter fun m => !low.contains m].findSome? (s.enough die img vs) with
      | some l => .next (s.choose l)
      | none => .next s

/-- The dies whose pool holds the block for readmission: its own, or the dies of the set for one that migrates and so waits
as a pre-empted block (R105). -/
def State.readmitDies (s : State) (b : Master) : List Nat :=
  if b.phase == .preempted then [b.die]
  else if b.phase == .migrating then
    (List.range 8).filter fun d => match s.gridOf b with | some g => g.dieSet.getLsbD d | none => false
  else []

/-- The blocks chosen on die d to readmit block m of grid u: later blocks of the grid, highest index first, as many as needed. -/
def State.readmitVictims (s : State) (d m u : Nat) (b : Master) : Option (List Nat) :=
  if s.passedFor d 16000 (.master m) then
    s.enough d b.image [b.varIdx] ((byIndex ((s.blocksOf u).filter fun p => p.2.die == d && p.2.phase == .running && !p.2.preempt &&
      decide (b.linear < p.2.linear))).map Prod.fst)
  else none

/-- READMISSION_DELAY_EXPIRY (R105, R106, R108). -/
def execReadmissionDelayExpiry (m : Nat) (s : State) : Host.Outcome State Fault Refusal :=
  match s.master m with
  | none => .next s
  | some b => match b.gridUid with
    | none => .next s
    | some u => match (s.readmitDies b).findSome? fun d => s.readmitVictims d m u b with
      | some l => .next (s.choose l)
      | none => .next s

/-! ## Switches (R102) -/

/-- SWITCH_COMPLETE (R102). -/
def execSwitchComplete (m : Nat) (s : State) : Host.Outcome State Fault Refusal :=
  match s.master m with
  | none => .next s
  | some b => match b.switchTo with
    | none => .next s
    | some (k, cs, id) =>
      if b.phase != .switching || !s.quiet m b then .next s
      else
        let v := b.image.variants.getD k default
        let p := (v.switches.find? fun p => p.id == id).getD default
        let (t, c) := s.carry b k p.carried fun _ _ => b.image.base + BitVec.ofNat 64 p.resume
        .next (((t.setMaster m { c with
          cores := cs, segs := segsFor b.ctx cs v, switchTo := none, switchPend := none, phase := .running
          timer := s.cycles }).reexamine b.die).joinAll)

/-! ## Pre-emption (R107, R412) -/

/-- Does the warp stand at a clause boundary (R115)? A suspending instruction that waits stands at its clause's header. -/
def Warp.atBoundary (w : Warp) : Bool :=
  match w.clause with
  | none => true
  | some c => c.next == 1 && (match c.words with | x :: _ => suspends x | [] => false)

/-- The warp back at that boundary; a PARK executes afresh (R345). -/
def State.toBoundary (s : State) (b : Master) (w : Warp) : Warp :=
  match w.clause with
  | none => w
  | some c => { w with clause := none, park := none, waits := none, frontier := addEntry w.frontier (s.entryAt b ⟨c.hdr, c.base, c.lanes⟩) }

/-- PREEMPTION_TAKE_EFFECT (R107, R412). -/
def execPreemptionTakeEffect (m : Nat) (s : State) : Host.Outcome State Fault Refusal :=
  match s.master m with
  | none => .next s
  | some b =>
    if b.preempt && b.phase == .running && !b.liveWarps.isEmpty && b.warps.all Warp.atBoundary then
      let t := s.setMaster m { b with phase := .preempting, preempt := false, switchPend := none
                                      warps := b.warps.map (s.toBoundary b) }
      .next (b.cores.foldl (fun t h => t.perf b.die h.core 10 1) t)
    else .next s

/-- Does an XLAT of the warp wait behind an operation that is not present (R359)? -/
def State.xlatWaits (s : State) (m w : Nat) (b : Master) (o : MemOp) : Bool :=
  (s.die b.die).pageOps.any fun p => p.2.m == m && p.2.w == w && !p.2.kv && p.2.k == o.k && s.pageHeld b.die p.1 p.2

/-- Has what was issued come to rest (R412): loads written, accesses performed or in replay, started commands complete? -/
def State.atRest (s : State) (m : Nat) (b : Master) : Bool :=
  (b.warps.zipIdx.all fun w => w.1.outs.all fun o => o.undone && o.lanes.all fun l => match l.st with
    | .ready => (match o.kind with | .xlat _ => s.xlatWaits m w.2 b o | _ => w.1.laneHeld o l)
    | .remote | .half _ => false
    | _ => true) &&
  b.entries.all fun e => e.2.st != .started || e.2.op.isCopy || e.2.op.isFill

/-- CONTEXT_SAVE_COMPLETE (R412): the record stands in the slot and the cores are free, or the save's failure freezes the
master, which a thaw returns to Running. -/
def execContextSaveComplete (m : Nat) (s : State) : Host.Outcome State Fault Refusal :=
  match s.master m with
  | none => .next s
  | some b =>
    if b.phase != .preempting || !s.atRest m b then .next s
    else
      let (t, tick) := s.fresh
      match t.slotWrite b 0 (t.recordOf m b 1 tick) with
      | (t, some moved) => .next (t.slotFails m moved)
      | (t, none) =>
        let u := t.modMaster m fun b => { b with
          phase := .preempted, inPool := true, poolAt := s.cycles, stoppedAt := s.cycles
          cores := b.cores.map fun h => { (default : CoreHold) with core := h.core, pool := h.pool } }
        .next ((u.joinAll).reexamine b.die)

/-! ## The watchdog (R109 to R111) -/

/-- Does the timer run in the phase (R110)? -/
def Phase.timed : Phase → Bool
  | .prologue | .running | .preempting => true
  | .waiting | .switching | .preempted | .migrating | .frozen | .retired => false

/-- The limit in µs, and whether the launch is persistent (R109). -/
def State.wdLimit (s : State) (b : Master) : Nat × Bool :=
  match s.gridOf b with
  | some g => if g.launch.persistent then (g.launch.heartbeat, true) else (2 ^ (if g.launch.wdExp == 0 then 20 else g.launch.wdExp), false)
  | none => (2 ^ 20, false)

/-- WATCHDOG_FIRE (R109 to R111). -/
def execWatchdogFire (m : Nat) (s : State) : Host.Outcome State Fault Refusal :=
  match s.master m with
  | none => .next s
  | some b =>
    let (lim, pers) := s.wdLimit b
    if b.phase.timed && decide (lim ≤ s.stamp / 1000 - s.stampAt b.timer / 1000) then
      .next (s.freeze m { FreezeAt.blank 0x21 with info := BitVec.ofNat 64 (lim + if pers then 2 ^ 32 else 0) })
    else .next s

end Sys2Proof.Machine
end

