-- ==== Sys2Proof/Machine/Float.lean ====
section
/-! DEFINITION. The floating-point and conversion families (majors 0x10 to 0x1B): R193 to R207, R231 to R237. -/

namespace Sys2Proof.Machine

/-- FADD (R198). -/
def execFadd (p : Pred) (d a : Reg5) (b : FltB) (r : Rnd) (f : Bool) (t : FltTy) (s : State) :
    Host.Outcome State Fault Refusal :=
  fpLane s p d b.len fun c l => fpArith .add t.fmt r f (c.v1 a l) (c.fltB b l)
/-- FSUB (R198). -/
def execFsub (p : Pred) (d a : Reg5) (b : FltB) (r : Rnd) (f : Bool) (t : FltTy) (s : State) :
    Host.Outcome State Fault Refusal :=
  fpLane s p d b.len fun c l => fpArith .sub t.fmt r f (c.v1 a l) (c.fltB b l)
/-- FMUL (R198). -/
def execFmul (p : Pred) (d a : Reg5) (b : FltB) (r : Rnd) (f : Bool) (t : FltTy) (s : State) :
    Host.Outcome State Fault Refusal :=
  fpLane s p d b.len fun c l => fpArith .mul t.fmt r f (c.v1 a l) (c.fltB b l)
/-- FFMA (R199). -/
def execFfma (p : Pred) (d a b cc : Reg5) (r : Rnd) (s : State) : Host.Outcome State Fault Refusal :=
  fpLane s p d 1 fun c l => fpFma .f32 r (c.v1 a l) (c.v1 b l) (c.v1 cc l)
/-- FMIN (R200). -/
def execFmin (p : Pred) (d a : Reg5) (b : FltB) (f : Bool) (t : FltTy) (s : State) : Host.Outcome State Fault Refusal :=
  fpLane s p d b.len fun c l => fpMinMax false t f (c.v1 a l) (c.fltB b l)
/-- FMAX (R200). -/
def execFmax (p : Pred) (d a : Reg5) (b : FltB) (f : Bool) (t : FltTy) (s : State) : Host.Outcome State Fault Refusal :=
  fpLane s p d b.len fun c l => fpMinMax true t f (c.v1 a l) (c.fltB b l)
/-- FSET (R201): a predicate destination. -/
def execFset (p : Pred) (q : BitVec 3) (a : Reg5) (b : FltB) (cc : FCond) (t : FltTy) (s : State) :
    Host.Outcome State Fault Refusal :=
  withCtx s fun c =>
    let m := c.active p
    let r (l : Nat) : Bool × Exc := fpSet cc t (c.v1 a l) (c.fltB b l)
    fpDone s c b.len m (c.w.setP q.toNat m (Mask.ofFn fun l => m.has l && (r l).1)) fun l => (r l).2
/-- FRND (R202). -/
def execFrnd (p : Pred) (d a : Reg5) (r : Rnd) (f : Bool) (t : FltTy) (s : State) : Host.Outcome State Fault Refusal :=
  fpLane s p d 1 fun c l => fpRound t r f (c.v1 a l)
/-- FCLASS (R203). -/
def execFclass (p : Pred) (d a : Reg5) (f : Bool) (t : FltTy) (s : State) : Host.Outcome State Fault Refusal :=
  fpLane s p d 1 fun c l => (fpClass t f (c.v1 a l), 0)
/-- RCP (R204). -/
def execRcp (p : Pred) (d a : Reg5) (f : Bool) (s : State) : Host.Outcome State Fault Refusal :=
  fpLane s p d 1 fun c l => transOp .rcp f (c.v1 a l)
/-- RSQ (R204). -/
def execRsq (p : Pred) (d a : Reg5) (f : Bool) (s : State) : Host.Outcome State Fault Refusal :=
  fpLane s p d 1 fun c l => transOp .rsq f (c.v1 a l)
/-- SQRT (R204). -/
def execSqrt (p : Pred) (d a : Reg5) (f : Bool) (s : State) : Host.Outcome State Fault Refusal :=
  fpLane s p d 1 fun c l => transOp .sqrt f (c.v1 a l)
/-- EX2 (R204). -/
def execEx2 (p : Pred) (d a : Reg5) (f : Bool) (s : State) : Host.Outcome State Fault Refusal :=
  fpLane s p d 1 fun c l => transOp .ex2 f (c.v1 a l)
/-- LG2 (R204). -/
def execLg2 (p : Pred) (d a : Reg5) (f : Bool) (s : State) : Host.Outcome State Fault Refusal :=
  fpLane s p d 1 fun c l => transOp .lg2 f (c.v1 a l)
/-- SIN (R204). -/
def execSin (p : Pred) (d a : Reg5) (f : Bool) (s : State) : Host.Outcome State Fault Refusal :=
  fpLane s p d 1 fun c l => transOp .sin f (c.v1 a l)
/-- COS (R204). -/
def execCos (p : Pred) (d a : Reg5) (f : Bool) (s : State) : Host.Outcome State Fault Refusal :=
  fpLane s p d 1 fun c l => transOp .cos f (c.v1 a l)
/-- TANH (R204). -/
def execTanh (p : Pred) (d a : Reg5) (f : Bool) (s : State) : Host.Outcome State Fault Refusal :=
  fpLane s p d 1 fun c l => transOp .tanh f (c.v1 a l)
/-- FDIVS (R198). -/
def execFdivs (p : Pred) (d a : Reg5) (b : FltB) (r : Rnd) (f : Bool) (s : State) : Host.Outcome State Fault Refusal :=
  fpLane s p d b.len fun c l => fpArith .div .f32 r f (c.v1 a l) (c.fltB b l)
/-- HADD2 (R206). -/
def execHadd2 (p : Pred) (d a : Reg5) (b : FltB) (r : Rnd) (t : PairTy) (s : State) : Host.Outcome State Fault Refusal :=
  fpLane s p d b.len fun c l => fpPair .add t r (c.v1 a l) (c.fltB b l)
/-- HMUL2 (R206). -/
def execHmul2 (p : Pred) (d a : Reg5) (b : FltB) (r : Rnd) (t : PairTy) (s : State) : Host.Outcome State Fault Refusal :=
  fpLane s p d b.len fun c l => fpPair .mul t r (c.v1 a l) (c.fltB b l)
/-- HFMA2 (R207). -/
def execHfma2 (p : Pred) (d a b cc : Reg5) (t : PairTy) (s : State) : Host.Outcome State Fault Refusal :=
  fpLane s p d 1 fun c l => fpPairFma t (c.v1 a l) (c.v1 b l) (c.v1 cc l)

/-- CVT (R233). -/
def execCvt (p : Pred) (d a : Reg5) (w : ConvWord) (s : State) : Host.Outcome State Fault Refusal :=
  fpLane s p d 2 fun c l => cvtLane w (c.v1 a l)
/-- CVT.MX (R234). -/
def execCvtMx (p : Pred) (d a b : Reg5) (w : ConvWord) (s : State) : Host.Outcome State Fault Refusal :=
  fpLane s p d 2 fun c l => cvtMxLane w (c.v1 a l) (c.v1 b l)

/-- R236: the block of the group of lane l, and the classes of its elements. -/
def qblkGroup (c : Ctx) (m : Mask) (a : Reg5) (w : ConvWord) (g : Nat) : Nat × List Exc :=
  wblockEncode ((List.range 16).map fun k =>
    if m.has (16 * g + k) then .value (w.src.ftzSource w.ftz (w.src.decode (c.v1 a (16 * g + k)))) else .skip)
    w.dst.blockN w.rnd

/-- Words of a block image that QBLK and QDEC use (R236). -/
def blockWords (n : Nat) : Nat := (blockBytes n + 3) / 4

/-- QBLK (R236): each group of 16 lanes is encoded once. -/
def execQblk (p : Pred) (d a : Reg5) (w : ConvWord) (s : State) : Host.Outcome State Fault Refusal :=
  withCtx s fun c =>
    let m := c.active p
    let q := blockWords w.dst.blockN
    let gs := (List.range 8).map (qblkGroup c m a w)
    fpDone s c 2 m (c.putV d m fun l =>
        let (b, _) := gs.getD (l / 16) (0, [])
        if l % 16 < q then BitVec.ofNat 32 (b / 2 ^ (32 * (l % 16))) else 0)
      fun l => (gs.getD (l / 16) (0, [])).2.getD (l % 16) 0

/-- QDEC (R237): a word of an inactive lane reads as zero. -/
def execQdec (p : Pred) (d a : Reg5) (w : ConvWord) (s : State) : Host.Outcome State Fault Refusal :=
  withCtx s fun c =>
    let m := c.active p
    let n := w.src.blockN
    let q := blockWords n
    let image (g : Nat) : Nat := (List.range q).foldl (fun acc k =>
      acc + (if m.has (16 * g + k) then (c.v1 a (16 * g + k)).toNat else 0) * 2 ^ (32 * k)) 0
    let imgs := (List.range 8).map image
    let r (l : Nat) : Word × Exc :=
      let (v, e1) := wblockDecode (imgs.getD (l / 16) 0) (l % 16) n
      let (x, e2) := w.dst.encode v w.rnd false w.ftz
      (x, e1 ||| e2)
    fpDone s c 2 m (c.putV d m fun l => (r l).1) fun l => (r l).2

/-- QSCALE (R235): one scale for each group of 32 lanes. -/
def execQscale (p : Pred) (d a : Reg5) (w : ConvWord) (s : State) : Host.Outcome State Fault Refusal :=
  withCtx s fun c =>
    let m := c.active p
    let x (l : Nat) : FVal := w.src.ftzSource w.ftz (w.src.decode (c.v1 a l))
    let scale (g : Nat) : Word :=
      BitVec.ofNat 32 (mxScale (((List.range 32).filter fun k => m.has (32 * g + k)).map fun k => x (32 * g + k)) w.dst)
    let gs := (List.range 4).map scale
    fpDone s c 2 m (c.putV d m fun l => gs.getD (l / 32) 0) fun l => excIf ((x l).isInf || (x l).isSNaN) excInvalid

end Sys2Proof.Machine
end

