-- ==== Sys2Proof/Machine/Integer.lean ====
section
/-! DEFINITION. The integer family (majors 0x00 to 0x0B and MOV's long form): R182 to R192, R134. -/

namespace Sys2Proof.Machine

/-- IADD (R184). -/
def execIadd (p : Pred) (d a : Reg5) (b : IntB) (t : IntTy) (s : State) : Host.Outcome State Fault Refusal :=
  intBin s p d a b t t.nregs t.nregs t.nregs (aluAdd t)
/-- ISUB (R184). -/
def execIsub (p : Pred) (d a : Reg5) (b : IntB) (t : IntTy) (s : State) : Host.Outcome State Fault Refusal :=
  intBin s p d a b t t.nregs t.nregs t.nregs (aluSub t)
/-- IADD.sat (R184). -/
def execIaddSat (p : Pred) (d a : Reg5) (b : IntB) (t : IntTy) (s : State) : Host.Outcome State Fault Refusal :=
  intBin s p d a b t t.nregs t.nregs t.nregs (aluAddSat t)
/-- ISUB.sat (R184). -/
def execIsubSat (p : Pred) (d a : Reg5) (b : IntB) (t : IntTy) (s : State) : Host.Outcome State Fault Refusal :=
  intBin s p d a b t t.nregs t.nregs t.nregs (aluSubSat t)
/-- IMUL (R184). -/
def execImul (p : Pred) (d a : Reg5) (b : IntB) (t : IntTy) (s : State) : Host.Outcome State Fault Refusal :=
  intBin s p d a b t t.nregs t.nregs t.nregs (aluMul t)
/-- IMULH (R184). -/
def execImulh (p : Pred) (d a : Reg5) (b : IntB) (t : IntTy) (s : State) : Host.Outcome State Fault Refusal :=
  intBin s p d a b t t.nregs t.nregs t.nregs (aluMulh t)
/-- IMIN (R184). -/
def execImin (p : Pred) (d a : Reg5) (b : IntB) (t : IntTy) (s : State) : Host.Outcome State Fault Refusal :=
  intBin s p d a b t t.nregs t.nregs t.nregs (aluMin t)
/-- IMAX (R184). -/
def execImax (p : Pred) (d a : Reg5) (b : IntB) (t : IntTy) (s : State) : Host.Outcome State Fault Refusal :=
  intBin s p d a b t t.nregs t.nregs t.nregs (aluMax t)
/-- IMAD (R185). -/
def execImad (p : Pred) (d a b cc : Reg5) (t : WideTy) (s : State) : Host.Outcome State Fault Refusal :=
  withCtx s fun c =>
    done s c 1 (c.putVn t.nregs d (c.active p) fun l => aluMad t (c.vn t.nregs a l) (c.vn t.nregs b l) (c.vn t.nregs cc l))
/-- AND (R184). -/
def execAnd (p : Pred) (d a : Reg5) (b : IntB) (t : IntTy) (s : State) : Host.Outcome State Fault Refusal :=
  intBin s p d a b t t.nregs t.nregs t.nregs (aluAnd t)
/-- OR (R184). -/
def execOr (p : Pred) (d a : Reg5) (b : IntB) (t : IntTy) (s : State) : Host.Outcome State Fault Refusal :=
  intBin s p d a b t t.nregs t.nregs t.nregs (aluOr t)
/-- XOR (R184). -/
def execXor (p : Pred) (d a : Reg5) (b : IntB) (t : IntTy) (s : State) : Host.Outcome State Fault Refusal :=
  intBin s p d a b t t.nregs t.nregs t.nregs (aluXor t)
/-- ANDN (R184). -/
def execAndn (p : Pred) (d a : Reg5) (b : IntB) (t : IntTy) (s : State) : Host.Outcome State Fault Refusal :=
  intBin s p d a b t t.nregs t.nregs t.nregs (aluAndn t)
/-- NOT (R184). -/
def execNot (p : Pred) (d a : Reg5) (f : UnFile) (t : IntTy) (s : State) : Host.Outcome State Fault Refusal :=
  intUn s p d a f t.nregs t.nregs (aluNot t)
/-- IABS (R184); an unsigned type raises subcode 0x02 (R183). -/
def execIabs (p : Pred) (d a : Reg5) (f : UnFile) (t : IntTy) (s : State) : Host.Outcome State Fault Refusal :=
  if t.signed then intUn s p d a f t.nregs t.nregs (aluAbs t) else withCtx s fun c => illegal s c 2
/-- INEG (R184). -/
def execIneg (p : Pred) (d a : Reg5) (f : UnFile) (t : IntTy) (s : State) : Host.Outcome State Fault Refusal :=
  intUn s p d a f t.nregs t.nregs (aluNeg t)
/-- POPC (R184): the destination is a single register. -/
def execPopc (p : Pred) (d a : Reg5) (f : UnFile) (t : IntTy) (s : State) : Host.Outcome State Fault Refusal :=
  intUn s p d a f 1 t.nregs (aluPopc t)
/-- CLZ (R184): the destination is a single register. -/
def execClz (p : Pred) (d a : Reg5) (f : UnFile) (t : IntTy) (s : State) : Host.Outcome State Fault Refusal :=
  intUn s p d a f 1 t.nregs (aluClz t)
/-- BREV (R184). -/
def execBrev (p : Pred) (d a : Reg5) (f : UnFile) (t : IntTy) (s : State) : Host.Outcome State Fault Refusal :=
  intUn s p d a f t.nregs t.nregs (aluBrev t)
/-- MOV (R184): the result is B; a is not read. -/
def execMov (p : Pred) (d : Reg5) (b : IntB) (t : IntTy) (s : State) : Host.Outcome State Fault Refusal :=
  intBin s p d 31 b t t.nregs t.nregs t.nregs fun _ y => aluMov t y
/-- SHL (R187): b is a single register. -/
def execShl (p : Pred) (d a : Reg5) (b : IntB) (t : IntTy) (s : State) : Host.Outcome State Fault Refusal :=
  intBin s p d a b t t.nregs t.nregs 1 (aluShl t)
/-- SHR (R187). -/
def execShr (p : Pred) (d a : Reg5) (b : IntB) (t : IntTy) (s : State) : Host.Outcome State Fault Refusal :=
  intBin s p d a b t t.nregs t.nregs 1 (aluShr t)
/-- SAR (R187). -/
def execSar (p : Pred) (d a : Reg5) (b : IntB) (t : IntTy) (s : State) : Host.Outcome State Fault Refusal :=
  intBin s p d a b t t.nregs t.nregs 1 (aluSar t)
/-- ROT (R187). -/
def execRot (p : Pred) (d a : Reg5) (b : IntB) (t : IntTy) (s : State) : Host.Outcome State Fault Refusal :=
  intBin s p d a b t t.nregs t.nregs 1 (aluRot t)
/-- ISET (R190): a predicate destination. -/
def execIset (p : Pred) (q : BitVec 3) (a b : Reg5) (u : Bool) (cc : ICond) (t : WideTy) (s : State) :
    Host.Outcome State Fault Refusal :=
  withCtx s fun c =>
    let n := t.nregs
    let m := c.active p
    let bv (l : Nat) : Dword := if u then c.sn n b else c.vn n b l
    done s c 1 (c.w.setP q.toNat m (Mask.ofFn fun l => cc.holds (t.ty.val (c.vn n a l)) (t.ty.val (bv l))))
/-- BFX (R188): 8-bit and 16-bit types raise subcode 0x02 (R183). -/
def execBfx (p : Pred) (d a : Reg5) (b : IntB) (t : IntTy) (s : State) : Host.Outcome State Fault Refusal :=
  if t.bits < 32 then withCtx s fun c => illegal s c 2
  else intBin s p d a b t t.nregs t.nregs 1 (aluBfx t)

/-- IADDC and ISUBB (R186): the pair d:d+1 gets the sum and the carry word. -/
def carryOp (s : State) (p : Pred) (d a : Reg5) (b : IntB) (f : Word → Word → Word → Word × Word) :
    Host.Outcome State Fault Refusal :=
  withCtx s fun c =>
    let join (r : Word × Word) : Dword := r.2 ++ r.1
    done s c b.len
      (if b.uniform then
        c.putSn 2 d (join (f (c.w.s5 a) ((c.intB b 1 .n32 0).setWidth 32) ((c.sn 2 d).extractLsb' 32 32)))
       else
        c.putVn 2 d (c.active p) fun l =>
          join (f (c.v1 a l) ((c.intB b 1 .n32 l).setWidth 32) ((c.vn 2 d l).extractLsb' 32 32)))
/-- IADDC (R186). -/
def execIaddc (p : Pred) (d a : Reg5) (b : IntB) (s : State) : Host.Outcome State Fault Refusal := carryOp s p d a b aluAddc
/-- ISUBB (R186). -/
def execIsubb (p : Pred) (d a : Reg5) (b : IntB) (s : State) : Host.Outcome State Fault Refusal := carryOp s p d a b aluSubb
/-- BFI (R189). -/
def execBfi (p : Pred) (d a b cc : Reg5) (s : State) : Host.Outcome State Fault Refusal :=
  laneOp s p d fun c l => aluBfi (c.v1 a l) (c.v1 b l) (c.v1 cc l)
/-- PERM (R189). -/
def execPerm (p : Pred) (d a b cc : Reg5) (s : State) : Host.Outcome State Fault Refusal :=
  laneOp s p d fun c l => aluPerm (c.v1 a l) (c.v1 b l) (c.v1 cc l)
/-- SEL (R189). -/
def execSel (p : Pred) (d a b : Reg5) (n : BitVec 3) (s : State) : Host.Outcome State Fault Refusal :=
  laneOp s p d fun c l => if (c.w.p n.toNat).has l then c.v1 a l else c.v1 b l
/-- LEA (R189). -/
def execLea (p : Pred) (d a b : Reg5) (n : BitVec 5) (s : State) : Host.Outcome State Fault Refusal :=
  laneOp s p d fun c l => aluLea (c.v1 a l) (c.v1 b l) n.toNat
/-- MOVI (R191). -/
def execMovi (p : Pred) (d : Reg5) (i : BitVec 16) (s : State) : Host.Outcome State Fault Refusal :=
  laneOp s p d fun _ _ => i.setWidth 32
/-- MOVI.hi (R191): the low half is unchanged. -/
def execMoviHi (p : Pred) (d : Reg5) (i : BitVec 16) (s : State) : Host.Outcome State Fault Refusal :=
  laneOp s p d fun c l => i ++ (c.v1 d l).extractLsb' 0 16
/-- IADD with an immediate (R192). -/
def execIaddImm (p : Pred) (d a : Reg5) (i : BitVec 8) (s : State) : Host.Outcome State Fault Refusal :=
  immBin s p d a i (aluAdd .n32)
/-- ISUB with an immediate (R192). -/
def execIsubImm (p : Pred) (d a : Reg5) (i : BitVec 8) (s : State) : Host.Outcome State Fault Refusal :=
  immBin s p d a i (aluSub .n32)
/-- AND with an immediate (R192). -/
def execAndImm (p : Pred) (d a : Reg5) (i : BitVec 8) (s : State) : Host.Outcome State Fault Refusal :=
  immBin s p d a i (aluAnd .n32)
/-- OR with an immediate (R192). -/
def execOrImm (p : Pred) (d a : Reg5) (i : BitVec 8) (s : State) : Host.Outcome State Fault Refusal :=
  immBin s p d a i (aluOr .n32)
/-- XOR with an immediate (R192). -/
def execXorImm (p : Pred) (d a : Reg5) (i : BitVec 8) (s : State) : Host.Outcome State Fault Refusal :=
  immBin s p d a i (aluXor .n32)
/-- SHL with an immediate (R192). -/
def execShlImm (p : Pred) (d a : Reg5) (i : BitVec 8) (s : State) : Host.Outcome State Fault Refusal :=
  immBin s p d a i (aluShl .n32)
/-- SHR with an immediate (R192). -/
def execShrImm (p : Pred) (d a : Reg5) (i : BitVec 8) (s : State) : Host.Outcome State Fault Refusal :=
  immBin s p d a i (aluShr .n32)
/-- SAR with an immediate (R192). -/
def execSarImm (p : Pred) (d a : Reg5) (i : BitVec 8) (s : State) : Host.Outcome State Fault Refusal :=
  immBin s p d a i (aluSar .n32)
/-- ROT with an immediate (R192). -/
def execRotImm (p : Pred) (d a : Reg5) (i : BitVec 8) (s : State) : Host.Outcome State Fault Refusal :=
  immBin s p d a i (aluRot .n32)
/-- IMUL with an immediate (R192). -/
def execImulImm (p : Pred) (d a : Reg5) (i : BitVec 8) (s : State) : Host.Outcome State Fault Refusal :=
  immBin s p d a i (aluMul .n32)
/-- The long form of MOV (R134): s(d) := s(b) with 6-bit fields. -/
def execMovLong (d b : Reg6) (s : State) : Host.Outcome State Fault Refusal :=
  withCtx s fun c => done s c 2 (c.w.setS d.toNat (c.w.s b.toNat))

end Sys2Proof.Machine
end

