-- ==== Sys2Proof/Machine/Lane.lean ====
section
/-! DEFINITION. The lane family (majors 0x1C to 0x1F): R209 to R214. -/

namespace Sys2Proof

def SegW.lanes : SegW → Nat
  | .s4 => 4 | .s8 => 8 | .s16 => 16 | .s32 => 32 | .s64 => 64 | .s128 => 128

end Sys2Proof

namespace Sys2Proof.Machine

/-- The lane SHFL reads for lane l (R210). -/
def shflSource (m : ShflMode) (seg : Nat) (l n : Nat) : Nat :=
  let base := l - l % seg
  match m with
  | .idx => base + n % seg
  | .up => if n < seg && decide (base + n ≤ l) then l - n else l
  | .down => if n < seg && decide (l + n < base + seg) then l + n else l
  | .xor => base + ((l - base) ^^^ (n % seg))

/-- SHFL (R210). -/
def execShfl (p : Pred) (d a : Reg5) (b : FltB) (m : ShflMode) (w : SegW) (s : State) :
    Host.Outcome State Fault Refusal :=
  withCtx s fun c =>
    let act := c.active p
    done s c b.len (c.putV d act fun l =>
      let j := shflSource m w.lanes l (c.fltB b l).toNat
      if act.has j then c.v1 a j else c.v1 a l)

/-- The result of a vote over the active lanes (R211). -/
def voteResult (m : VoteMode) (act pa : Mask) : Bool :=
  let t := act &&& pa
  match m with
  | .every => t == act
  | .some => t != 0
  | .same => t == act || t == 0
  | .odd => popcount 128 t.toNat % 2 == 1

/-- VOTE (R211). -/
def execVote (p : Pred) (q a : BitVec 3) (m : VoteMode) (s : State) : Host.Outcome State Fault Refusal :=
  withCtx s fun c =>
    let act := c.active p
    done s c 1 (c.w.setP q.toNat act (if voteResult m act (c.w.p a.toNat) then Mask.all else 0))

/-- BALLOT (R211): a uniform quad, written once when some lane is active; sz in the quad position discards. -/
def execBallot (p : Pred) (d : Reg5) (a : BitVec 3) (s : State) : Host.Outcome State Fault Refusal :=
  withCtx s fun c =>
    let act := c.active p
    let t := act &&& c.w.p a.toNat
    let w := if act == 0 || d == 31 then c.w
      else (List.range 4).foldl (fun w i => w.setS (d.toNat + i) (t.extractLsb' (32 * i) 32)) c.w
    done s c 1 w

/-- MATCH (R211). -/
def execMatch (p : Pred) (d a : Reg5) (wide : Bool) (s : State) : Host.Outcome State Fault Refusal :=
  withCtx s fun c =>
    let act := c.active p
    let n := if wide then 2 else 1
    done s c 1 (c.putV d act fun l =>
      BitVec.ofNat 32 ((act.lanes.filter fun j => c.vn n a j == c.vn n a l).headD l))

/-- The identity of an exclusive scan (R212). -/
def laneIdentity (o : LaneOp) (t : LaneTy) : Word :=
  match o with
  | .add | .or | .xor => 0
  | .and => 0xFFFFFFFF
  | .min => if t == .i32 then 0x7FFFFFFF else 0xFFFFFFFF
  | .max => if t == .i32 then 0x80000000 else 0
  | .fadd => 0x80000000

/-- One combination of SCAN and REDUX (R212, R213). -/
def laneCombine (o : LaneOp) (t : LaneTy) (x y : Word) : Word × Exc :=
  match o with
  | .add => (x + y, 0)
  | .and => (x &&& y, 0)
  | .or => (x ||| y, 0)
  | .xor => (x ^^^ y, 0)
  | .min => (if t == .i32 then (if x.toInt ≤ y.toInt then x else y) else if x.toNat ≤ y.toNat then x else y, 0)
  | .max => (if t == .i32 then (if x.toInt ≤ y.toInt then y else x) else if x.toNat ≤ y.toNat then y else x, 0)
  | .fadd => fpArith .add .f32 .rn false x y

/-- The chain over the active lanes in ascending order (R212, R213): for each lane, the value before it, the value with
it, and the classes its own addition raised. -/
def scanChain (o : LaneOp) (t : LaneTy) (f : Nat → Word) : List Nat → Word → List (Nat × Word × Word × Exc)
  | [], _ => []
  | l :: ls, acc =>
    let (r, e) := laneCombine o t acc (f l)
    (l, acc, r, e) :: scanChain o t f ls r

/-- SCAN (R212): inclusive, or exclusive with the identity for the first lane. -/
def execScan (p : Pred) (d a : Reg5) (excl : Bool) (o : LaneOp) (t : LaneTy) (s : State) :
    Host.Outcome State Fault Refusal :=
  withCtx s fun c =>
    let act := c.active p
    let ch := scanChain o t (c.v1 a) act.lanes (laneIdentity o t)
    fpDone s c 1 act (c.putV d act fun l =>
        match aget ch l with
        | some (x, y, _) => if excl then x else y
        | none => 0)
      fun l => match aget ch l with
        | some (_, _, e) => e
        | none => 0

/-- REDUX (R212): a uniform destination, not written when no lane is active. -/
def execRedux (p : Pred) (d a : Reg5) (o : LaneOp) (t : LaneTy) (s : State) : Host.Outcome State Fault Refusal :=
  withCtx s fun c =>
    let act := c.active p
    let ch := scanChain o t (c.v1 a) act.lanes (laneIdentity o t)
    let w := match ch.getLast? with
      | some (_, _, y, _) => c.w.setS5 d y
      | none => c.w
    fpDone s c 1 act w fun l => match aget ch l with
      | some (_, _, e) => e
      | none => 0

/-- BMAND (R214): d and the population count of the active lanes below. -/
def execBmand (p : Pred) (d a b : Reg5) (s : State) : Host.Outcome State Fault Refusal :=
  withCtx s fun c =>
    let act := c.active p
    let x (l : Nat) : Word := c.v1 a l &&& c.v1 b l
    done s c 1 (c.putVn 2 d act fun l =>
      BitVec.ofNat 32 ((act.lanes.filter fun k => decide (k < l)).foldl (fun n k => n + popcount 32 (x k).toNat) 0) ++ x l)

end Sys2Proof.Machine
end

