-- ==== Sys2Proof/Machine/Maint.lean ====
section
/-! DEFINITION. Memory maintenance: the register block of R248, invalidating translations (R247), cleaning copies, page forms
(R254), and the answers to the miss table (R251, R252). -/

namespace Sys2Proof.Machine

/-! ## Operations 1 to 4 -/

/-- Operation 1: every die drops its cached entries of the ASID that reach into the range. -/
def State.invalidate (s : State) (asid va size : Nat) : State :=
  let hit (t : TlbEnt) : Bool :=
    let z := 2 ^ levelShift t.level
    t.asid == asid && decide (t.vpre * z < va + size ∧ va < (t.vpre + 1) * z)
  { s with dies := s.dies.map fun d => { d with tlb := d.tlb.filter fun t => !hit t } }

/-- The keys of a physical range: HBM, or host memory above it. -/
def State.cleanRange (s : State) (pa size : Nat) : State :=
  (List.range 8).foldl (fun t d => t.dropCopies d fun i => decide (physKey pa < 32 * i + 32 ∧ 32 * i < physKey pa + size)) s

/-- Rewrite the 4 KiB pages from page `p` in one form (R254); what a mismatched page held is undefined (R255). -/
def setForms (packed : Bool) : Nat → Nat → State → State
  | 0, _, s => s
  | n + 1, p, s =>
    let t := if s.formOf (4096 * p) == some .mismatched then
        (let (t, bs) := s.freeBytes 4096
         { t with mem := writeBytes t.mem (4096 * p) bs })
      else s
    setForms packed n (p + 1) { t with tags := if packed then aset t.tags p .packed else adel t.tags p }

/-- The effect of operations 1 to 4, made when the operation starts and again when it completes: what entered a cache
meanwhile goes too (log 29). -/
def State.maintEffect (s : State) (x : MaintOp) : State :=
  match x.op with
  | 1 => s.invalidate x.asid x.addr.toNat x.size.toNat
  | 2 => s.cleanRange x.addr.toNat x.size.toNat
  | 3 => setForms true (x.size.toNat / 4096) (x.addr.toNat / 4096) (s.cleanRange x.addr.toNat x.size.toNat)
  | 4 => setForms false (x.size.toNat / 4096) (x.addr.toNat / 4096) (s.cleanRange x.addr.toNat x.size.toNat)
  | _ => s

/-! ## Waits on the miss table -/

/-- Change the wait of every lane, fetch and engine of the chosen masters. -/
def State.mapWaits (s : State) (sel : Nat → Bool) (f : LaneSt → LaneSt) : State :=
  let warp (w : Warp) : Warp := { w with
    outs := w.outs.map fun o => { o with lanes := o.lanes.map fun l => { l with st := f l.st } }
    fetchMiss := (w.fetchMiss.map f).filter fun l => l != .ready }
  let page : PageSt → PageSt
    | .absent l => .absent (f l)
    | .waiting => .waiting
    | .copying x y => .copying x y
  let master (b : Master) : Master := { b with
    warps := b.warps.map warp
    entries := b.entries.map (fun e => (e.1, { e.2 with wait := f e.2.wait }))
    sigWait := f b.sigWait }
  { s with
    masters := s.masters.map (fun p => if sel p.1 then (p.1, master p.2) else p)
    colls := s.colls.map (fun c => if sel c.2.m then (c.1, { c.2 with
      wait := f c.2.wait, peers := (c.2.peers.map f).filter fun l => l != .ready && l != .declined
      execs := c.2.execs.map fun e => { e with wait := f e.wait } }) else c)
    dies := s.dies.map (fun d => { d with pageOps := d.pageOps.map (fun p =>
      if sel p.2.m then (p.1, { p.2 with st := page p.2.st }) else p) }) }

/-- Lanes of XLATs that wait so: each is an operation of its own when it replays (R359); those that a violation stopped are
performed again as one (R361). -/
def State.xlatWaiting (s : State) (sel : Nat → Bool) (g : LaneSt → Bool) : List (Nat × PageOp) :=
  s.masters.flatMap fun p => if sel p.1 then
      p.2.warps.zipIdx.flatMap fun w => w.1.outs.flatMap fun o => match o.kind with
        | .xlat _ =>
          let op (f : Nat → Bool) : Nat × PageOp := (p.2.die, ⟨p.1, w.2, o.k, false, Mask.ofFn f, .waiting⟩)
          let (again, alone) := (o.lanes.filter fun l => g l.st).partition fun l => l.st == .declined
          (if again.isEmpty then [] else [op fun i => again.any fun l => l.lane == i]) ++ alone.map fun l => op fun i => i == l.lane
        | _ => []
    else []

/-- LDA lanes of frozen masters stay in their slots (R404): answered, they walk again on thaw. -/
def State.keepLda (s : State) (sel : Nat → Bool) (g : LaneSt → Bool) : State :=
  let warp (w : Warp) : Warp := { w with outs := w.outs.map fun o => match o.kind with
    | .lda => { o with lanes := o.lanes.map fun l => if g l.st then { l with st := .declined } else l }
    | _ => o }
  { s with masters := s.masters.map fun p =>
      if sel p.1 && p.2.phase == .frozen then (p.1, { p.2 with warps := p.2.warps.map warp }) else p }

/-- Waits that `g` picks are over: lanes walk again and perform, XLAT lanes take their place in page-unit order, and fetches,
engines and collectives go on at their next step. -/
def State.wake (s : State) (sel : Nat → Bool) (g : LaneSt → Bool) : State :=
  let s := s.keepLda sel g
  let ops := s.xlatWaiting sel g
  let t := s.mapWaits sel fun l => if g l then .ready else l
  let t := ops.foldl (fun t p => t.enterPage p.1 p.2) t
  t.masters.foldl (fun t p => if sel p.1 then t.drainMaster p.1 else t) t

/-- Masters of a die. -/
def State.onDie (s : State) (d m : Nat) : Bool := match s.master m with | some b => b.die == d | none => false

/-- An entry of the table has been answered and is free: lanes that wait for a free one try again (R251). -/
def State.freeMiss (s : State) (d idx : Nat) : State := s.modDie d fun x => { x with miss := adel x.miss idx }

/-- RETRY_MISS on an entry (R252). -/
def State.retryMiss (s : State) (d idx : Nat) : State :=
  (s.freeMiss d idx).wake (s.onDie d) fun l => l == .missing idx || l == .full

/-! ## Decline (R252) -/

/-- Freeze a master for waits that have been declined: one record for each instruction, fetch or engine. -/
def State.declined (s : State) (m idx : Nat) (granule : Dword) (b : Master) : State :=
  let hit (l : LaneSt) : Bool := l == .missing idx
  let warps := b.warps.zipIdx.foldl (fun (t : State) p =>
    let w := p.1
    let at' : FreezeAt := { FreezeAt.blank (if w.handler.isSome then 0x02 else 0x16) with
      warp := some p.2, address := granule, info := if w.handler.isSome then 0x16 else 0 }
    let t := w.outs.foldl (fun (t : State) o =>
      if o.lanes.any fun l => hit l.st then
        t.freeze m { at' with pc := o.pc, lanes := Mask.ofFn fun i => o.lanes.any fun l => l.lane == i && hit l.st }
      else t) t
    match w.fetchMiss with
    | none => t
    | some l =>
      if !hit l then t
      else match w.clause, w.frontier with
        | some c, _ => t.freeze m { at' with pc := c.pc, lanes := c.lanes }
        | none, e :: _ => t.freeze m { at' with fetch := true, pc := e.addr, lanes := e.lanes }
        | none, [] => t) s
  let plain : FreezeAt := { FreezeAt.blank 0x16 with address := granule }
  let engines := b.entries.foldl (fun (t : State) p =>
    if !hit p.2.wait then t
    else t.copyStops m p.1 p.2 .stopped { plain with info := BitVec.ofNat 64 p.2.progressWord }) warps
  let pages := (s.die b.die).pageOps.foldl (fun (t : State) p => match p.2.st with
    | .absent l => if p.2.m == m && hit l then t.freeze m plain else t
    | _ => t) engines
  let colls := s.colls.foldl (fun (t : State) c =>
    if c.2.m != m then t
    else c.2.execs.zipIdx.foldl (fun (t : State) e =>
        if hit e.1.wait then t.freeze m { plain with info := BitVec.ofNat 64 (c.2.execWord (some e.2)) } else t)
      (if hit c.2.wait || c.2.peers.any hit then t.freeze m { plain with info := BitVec.ofNat 64 c.2.progressWord } else t)) pages
  if hit b.sigWait then colls.freeze m plain else colls

/-- DECLINE_MISS on an entry (R252): every attached lane fails as not mapped, and each master with one is frozen; lanes that
had performed stay performed. -/
def State.declineMiss (s : State) (d idx : Nat) : State :=
  match aget (s.die d).miss idx with
  | none => s
  | some e =>
    let granule : Dword := BitVec.ofNat 64 (4096 * e.vpn)
    let t := s.masters.foldl (fun t p => if p.2.die == d then t.declined p.1 idx granule p.2 else t) s
    let t := (t.freeMiss d idx).mapWaits (s.onDie d) fun l => if l == .missing idx then .declined else l
    t.wake (s.onDie d) fun l => l == .full

/-! ## The register block (R248) -/

def State.mmAddr (s : State) (off : Nat) : Nat := (match s.blob with | some b => b.mmBlock | none => 0) + off

/-- Is an operand malformed? An answer must name an entry of the table (log 30). -/
def State.maintMalformed (s : State) (x : MaintOp) : Bool :=
  !(decide (1 ≤ x.op ∧ x.op ≤ 6)) ||
  (if x.op ≤ 4 then
     x.size == 0 || x.size.toNat % 4096 != 0 || x.die != 0 || (if x.op == 1 then x.asid == 0 else x.asid != 0) ||
     (decide (3 ≤ x.op) && (x.addr.toNat % 4096 != 0 || decide (hbmBytes < x.addr.toNat + x.size.toNat)))
   else x.size != 0 || x.asid != 0 || decide (8 ≤ x.die) || (aget (s.die x.die).miss x.addr.toNat).isNone)

/-- A write to start: the operation begins, with its operands as they stand (R248). -/
def State.startMaint (s : State) (ag : Agent) : State :=
  if s.blob.isNone then s
  else if ag != .cc then s.regError 0 0x12 (s.mmAddr 20)
  else if s.maint.status == 1 then s
  else
    let x := s.maint.regs
    if !s.maint.reserved.isEmpty || s.maintMalformed x then { s with maint := { s.maint with status := 3 } }
    else
      let t := { s with maint := { s.maint with status := 1, run := x } }
      match x.op with
      | 5 => t.retryMiss x.die x.addr.toNat
      | 6 => t.declineMiss x.die x.addr.toNat
      | _ => t.maintEffect x

/-- The start events of the table are writes to start while the operation field names them. -/
def State.startMaintOp (s : State) (ag : Agent) (op : Nat) : State := if s.maint.regs.op == op then s.startMaint ag else s

/-- INVALIDATE_TRANSLATIONS (R247, R248). -/
def execInvalidateTranslations (ag : Agent) (s : State) : Host.Outcome State Fault Refusal := .next (s.startMaintOp ag 1)
/-- CLEAN_AND_INVALIDATE (R248). -/
def execCleanAndInvalidate (ag : Agent) (s : State) : Host.Outcome State Fault Refusal := .next (s.startMaintOp ag 2)
/-- SET_PACKED (R248, R254). -/
def execSetPacked (ag : Agent) (s : State) : Host.Outcome State Fault Refusal := .next (s.startMaintOp ag 3)
/-- SET_UNPACKED (R248, R254). -/
def execSetUnpacked (ag : Agent) (s : State) : Host.Outcome State Fault Refusal := .next (s.startMaintOp ag 4)
/-- RETRY_MISS (R252). -/
def execRetryMiss (ag : Agent) (s : State) : Host.Outcome State Fault Refusal := .next (s.startMaintOp ag 5)
/-- DECLINE_MISS (R252). -/
def execDeclineMiss (ag : Agent) (s : State) : Host.Outcome State Fault Refusal := .next (s.startMaintOp ag 6)

/-- MAINTENANCE_COMPLETE (R248). -/
def execMaintenanceComplete (s : State) : Host.Outcome State Fault Refusal :=
  .next (if s.maint.status == 1 then
      (let t := s.maintEffect s.maint.run
       { t with maint := { t.maint with status := 2 } })
    else s)

end Sys2Proof.Machine
end

