-- ==== Sys2Proof/Machine/MasterCtl.lean ====
section
/-! DEFINITION. The control complex's commands to masters (R407, R408): freeze, thaw (R399, R405, R327), abort (R406, R409,
R431) and pre-empt (R412); held requests; the fault queue's events (R401). -/

namespace Sys2Proof.Machine

/-! ## Thaw (R399, R405) -/

/-- A warp on thaw: one whose trap became a fault goes on as TRET would. -/
def State.thawWarp (s : State) (b : Master) (w : Warp) : Warp :=
  match w.stall, w.clause with
  | some x, some c => s.goOn b { w with stall := none, clause := none } c c.lanes x.completed x.tpc
  | _, _ => { w with stall := none }

/-- An entry that is not resumed: a faulted command that has been delivered, or a copy that met a malformed tile. -/
def Entry.gone (e : Entry) : Bool := e.st == .delivered || e.st == .dropped

/-- Does a bound copy that is dropped on this thaw name the object (R327)? -/
def Master.dropsOn (b : Master) (n : BarName) : Bool := b.entries.any fun p => p.2.st == .dropped && p.2.bound == some n

/-- Entries on thaw: those that are gone leave the block order with their tokens released and their objects' counts taken
back; stopped ones go on (R289, R292, R306). -/
def Master.thawEntries (b : Master) : Master :=
  let out := (b.entries.filter fun p => p.2.gone).foldl (fun (b : Master) p =>
    let b := b.releaseToks p.2.toks
    match (if p.2.st == .dropped then p.2.bound else none) with
    | some n => match b.bar n with
      | some x => b.setBar n { x with inFlight := x.inFlight - 1 }
      | none => b
    | none => b) b
  ({ out with entries := (out.entries.filter fun p => !p.2.gone).map fun p =>
      (p.1, if p.2.st == .stopped then { p.2 with st := .started } else p.2) } : Master).tidy

/-- Does some phase of an object complete on thaw? -/
def Master.thawCompletes (b c : Master) : Bool :=
  b.slots.any (fun p => (aget c.slots p.1).any fun x => x.phase != p.2.phase) ||
  b.hw.zipIdx.any fun p => (c.hw.getD p.2 default).phase != p.1.phase

/-- Thaw a master: it returns to the state it was frozen from, its timer reset, and every stopped unit goes on. -/
def State.thaw (s : State) (m : Nat) : State :=
  match s.master m with
  | none => s
  | some b =>
    if b.phase != .frozen then s
    else
      let drops := b.dropsOn
      let b1 := { b.thawEntries with phase := b.frozenFrom, timer := s.cycles }
      let b2 := b1.thawBars drops
      let b3 := { b2 with warps := b2.warps.map (s.thawWarp b2) }
      let t := s.setMaster m b3
      let t := if b1.thawCompletes b3 then t.progress m true else t
      let t := t.wake (· == m) fun l => l == .declined || l == .refused
      let t := if b.restoring then t.restoreSlot m else t
      t.checkPrologue m

/-! ## Abort (R406) -/

/-- What has been issued completes before a master goes (R404, R406): the accesses of its warps that do not wait in replay,
those sent to another package and both halves of a 128-bit one among them, and a KVCOW that has started. What the other units
have begun shows nowhere once the master is gone. -/
def State.finishIssued (s : State) (m : Nat) : State :=
  match s.master m with
  | none => s
  | some b =>
    let accesses (t : State) : State := (b.warps.zipIdx).foldl (fun t w => w.1.outs.foldl (fun t o => match o.kind with
      | .lda | .xlat _ => t
      | _ => t.runOp ⟨m, w.2⟩ o.k fun l => l.st == .ready || l.st.sent) t) t
    b.entries.foldl (fun t e => t.finishKvcow m e.1) (accesses (accesses (accesses s)))

/-- One block of an aborted grid: what it has issued completes, its collectives abort, its keys are freed stale, everything
else it holds is discarded. -/
def State.abortBlock (s : State) (m : Nat) : State :=
  match s.master m with
  | none => s
  | some b => (((s.finishIssued m).abortColls m).releaseKeys m b.keys true).dropMaster m

/-- Abort a grid (R70, R71, R406, R431): it counts as triggered, its record takes state 4 once the writes of its blocks on
every die are published (R82), and a fresh drain reserves its id. -/
def State.abortGrid (s : State) (u : Nat) : State :=
  match s.grid u with
  | none => s
  | some g =>
    let t := (s.blocksOf u).foldl (fun t p => t.abortBlock p.1) s
    let code := ((t.grid u).bind Grid.firstCause).getD 0x3F
    let t := (List.range 8).foldl (fun t d => if g.diesUsed.getLsbD d then t.fenceAt d .y else t) t
    let t := if g.triggered then t else t.recWrite g.complPacked g.complKey 32 (leBytes 8 s.stamp)
    let t := t.modGrid u fun g => { g with
      aborted := true, triggered := true, recState := 4, dieSet := 0, args := [], inPool := false
      triggerNs := if g.triggered then g.triggerNs else s.stamp }
    let t := t.endGrid u 4 code
    let t := if g.submitted then t.startDrain u else t.dropGrid u
    (List.range 8).foldl (fun t d => (t.modDie d fun x => x.unpass (.grid u)).reexamine d) t.joinAll

/-- Abort a task (R406, R409): it runs no further instruction, and cancels each successor that it has not signalled. One
that was aborted before, and stopped at an entry it cannot read, leaves the rest (log 31). -/
def State.abortTask (s : State) (m : Nat) : State :=
  match s.master m with
  | none => s
  | some b =>
    let again := b.retiring && b.cancelled
    let t := ((s.finishIssued m).abortColls m).releaseKeys m b.keys true
    let other : SigEnt → Bool
      | .pending _ _ k => k != m
      | .early .. => true
    let t : State := { t with
      signals := t.signals.filter (fun p => other p.2)
      dies := t.dies.map fun d => { d with pageOps := d.pageOps.filter fun p => p.2.m != m } }
    let t := t.modMaster m fun b => { b with
      phase := .waiting, frozenFrom := .waiting, inPool := false, retiring := true, cancelled := true, cores := [], warps := []
      entries := [], collections := [], binds := [], ctxSlot := none, preempt := false, sigWait := .ready
      succCount := if again then b.signalled else b.succCount }
    t.retireTask m

/-! ## Targets (R407) -/

/-- The live grid with an id: until its state 3 or 4 is written, so while its completion waits for drain as well (R430, R431). -/
def State.gridById (s : State) (id : Word) : Option (Nat × Grid) := s.grids.find? fun p => p.2.id == id && !p.2.aborted

/-- Is some block of a grid still to be dispatched? -/
def State.undispatched (s : State) (u : Nat) : Bool :=
  match s.grid u with
  | some g => decide (g.blocksRetired + (s.blocksOf u).length < g.launch.blocks)
  | none => false

/-- The status of an operation on several blocks (R408): done when one accepts it, and not found when none is there to be in a
wrong state (log 46). -/
def joinStatus (a b : Nat) : Nat := if a == 2 || b == 2 then 2 else if a == 4 || b == 4 then 4 else 3

/-- What a request names: a master, a block that has not been dispatched, a grid, or nothing live. -/
inductive Target where
  | master (m : Nat)
  | undispatched (u : Nat)
  | grid (u : Nat)
  | absent
  deriving DecidableEq, Repr

def State.target (s : State) (kind : Nat) (id : Word) (x : Dword) : Target :=
  match kind with
  | 0 => match s.gridById id with
    | none => .absent
    | some (u, g) => match s.masters.find? fun p => decide (p.2.kind = .block u x.toNat) with
      | some p => .master p.1
      | none => if g.nextLin ≤ x.toNat && decide (x.toNat < g.launch.blocks) || g.skipped.contains x.toNat then .undispatched u else .absent
  | 1 => match s.gridById id with
    | some (u, _) => .grid u
    | none => .absent
  | _ => match s.masters.find? fun p => decide (p.2.kind = .task x) with
    | some p => .master p.1
    | none => .absent

/-! ## Applying an operation (R408) -/

/-- Has the master's last warp exited, so that it retires normally? -/
def Master.warpsGone (b : Master) : Bool := !b.warps.isEmpty && b.liveWarps.isEmpty

/-- Freeze, or pre-empt, one master: the new state and the status: 1 held, 2 done, 3 not found, 4 wrong state. `info` is the
issuer's queue (R399). -/
def State.applyTo (s : State) (op : Nat) (info : Nat) (m : Nat) : State × Nat :=
  match s.master m with
  | none => (s, 3)
  | some b =>
    match op, b.phase with
    | _, .retired => (s, 3)
    | 3, _ => match b.gridUid with
      | some u => (s.abortGrid u, 2)
      | none => (s.abortTask m, 2)
    | 2, .frozen => (s.thaw m, 2)
    | 2, _ => (s, 4)
    | _, .frozen => (s, 4)
    | _, .waiting => (s, 4)
    | _, .preempted => (s, 4)
    | 1, .running => if b.warpsGone then (s, 3) else (s.freeze m { FreezeAt.blank 0x25 with info := BitVec.ofNat 64 info }, 2)
    | 1, .prologue => (s.freeze m { FreezeAt.blank 0x25 with info := BitVec.ofNat 64 info }, 2)
    | 4, .running => if b.warpsGone then (s, 3) else (s.modMaster m fun b => { b with preempt := true }, 1)
    | 4, .prologue => (s.modMaster m fun b => { b with preempt := true }, 1)
    | _, _ => (s, 1)

/-- The operation on every block of a grid: the status that those give which do not hold it, and the blocks that do. A block that
has not been dispatched waits. -/
def State.applyAll (s : State) (op info u : Nat) : State × Nat × List Nat :=
  if op == 3 then (s.abortGrid u, 2, [])
  else (s.blocksOf u).foldl (fun (p : State × Nat × List Nat) x =>
    let (t, st) := p.1.applyTo op info x.1
    if st == 1 then (t, p.2.1, p.2.2 ++ [x.1]) else (t, joinStatus p.2.1 st, p.2.2)) (s, if s.undispatched u then 4 else 3, [])

/-! ## The master control block (R407) -/

def State.mcAddr (s : State) (off : Nat) : Nat := (match s.blob with | some b => b.mcBlock | none => 0) + off

/-- Is a value reserved, or a field that must be zero non-zero? -/
def MasterCtl.rejected (x : MasterCtl) : Bool :=
  !x.reserved.isEmpty || !(decide (1 ≤ x.op ∧ x.op ≤ 4)) || decide (2 < x.kind) || (x.kind == 1 && x.target != 0)

def State.setStatus (s : State) (st : Nat) : State := { s with mctl := { s.mctl with status := st } }

/-- The request kept at a master until its state ends, or until the pre-emption that it has chosen takes effect. -/
def State.hold (s : State) (op m : Nat) : State :=
  s.modMaster m fun b => { b with heldReq := some (if op == 1 then .freeze
    else if b.phase == .running || b.phase == .prologue then .chosen else .preempt) }

/-- A write to start (R407, R408). -/
def State.startMaster (s : State) (ag : Agent) : State :=
  if s.blob.isNone then s
  else if ag != .cc then s.regError 0 0x12 (s.mcAddr 16)
  else if s.mctl.status == 1 then s
  else
    let x := s.mctl
    let s : State := { s with mctl := { x with run := x.kind } }
    if x.rejected then s.setStatus 5
    else match s.target x.kind x.gridId x.target with
      | .absent => s.setStatus 3
      | .undispatched u => if x.op == 3 then (s.abortGrid u).setStatus 2 else s.setStatus 4
      | .master m =>
        let (t, st) := s.applyTo x.op 0 m
        if st == 1 then (t.hold x.op m).setStatus 1 else t.setStatus st
      | .grid u =>
        let (t, st, held) := s.applyAll x.op 0 u
        if held.isEmpty then t.setStatus st
        else
          let t := (held.foldl (fun t m => t.hold x.op m) t).setStatus 1
          { t with mctl := { t.mctl with outcome := st } }

def State.startMasterOp (s : State) (ag : Agent) (op : Nat) : State := if s.mctl.op == op then s.startMaster ag else s

/-- FREEZE_REQUEST (R408). -/
def execFreezeRequest (ag : Agent) (s : State) : Host.Outcome State Fault Refusal := .next (s.startMasterOp ag 1)
/-- THAW_REQUEST (R405, R408). -/
def execThawRequest (ag : Agent) (s : State) : Host.Outcome State Fault Refusal := .next (s.startMasterOp ag 2)
/-- ABORT_REQUEST (R406, R408). -/
def execAbortRequest (ag : Agent) (s : State) : Host.Outcome State Fault Refusal := .next (s.startMasterOp ag 3)
/-- PREEMPT_REQUEST (R408, R412). -/
def execPreemptRequest (ag : Agent) (s : State) : Host.Outcome State Fault Refusal := .next (s.startMasterOp ag 4)

/-- How a held request ends at a master: none while it is still held. -/
def State.heldOutcome (s : State) (m : Nat) (b : Master) (r : HeldReq) : Option (State × Nat) :=
  let drop (b : Master) : Master := { b with heldReq := none }
  let stop (st : Nat) : Option (State × Nat) := some (s.modMaster m fun b => { drop b with preempt := false }, st)
  match r, b.phase with
  | _, .switching => none
  | _, .migrating => none
  | .freeze, .preempting => none
  | .freeze, .running =>
    let (t, st) := (s.modMaster m drop).applyTo 1 0 m
    some (t, st)
  | .freeze, _ => some (s.modMaster m drop, 4)
  | .preempt, .preempting => none
  | .chosen, .preempting => some (s.modMaster m drop, 2)
  | _, .preempted => some (s.modMaster m drop, 2)
  | _, .running => if b.warpsGone then stop 3 else none
  | _, .prologue => none
  | _, _ => stop 4

/-- An outcome is known: the block's status once no master holds the request any more, that of a grid joined with the rest. -/
def State.settleHeld (s : State) (st : Nat) : State :=
  let st := if s.mctl.run == 1 then joinStatus s.mctl.outcome st else st
  if s.masters.any fun p => p.2.heldReq.isSome then { s with mctl := { s.mctl with outcome := st } }
  else { s with mctl := { s.mctl with status := st, outcome := 0 } }

/-- HELD_REQUEST_APPLY (R408): the state that held the request back has ended, or the pre-emption has taken effect; a master
that has retired meanwhile is not found. -/
def execHeldRequestApply (m : Nat) (s : State) : Host.Outcome State Fault Refusal :=
  match s.master m with
  | none => .next (if s.mctl.status == 1 then s.settleHeld 3 else s)
  | some b => match b.heldReq with
    | none => .next s
    | some r =>
      match s.heldOutcome m b r with
      | some (t, st) => .next (t.settleHeld st)
      | none =>
        -- a pre-emption whose state has ended in Running is chosen now
        .next (if r == .preempt && (b.phase == .running || b.phase == .prologue) then
            s.modMaster m fun b => { b with preempt := true, heldReq := some .chosen }
          else s)

/-! ## The fault queue (R401) -/

/-- FAULT_RECORD_APPEND (R401): the oldest record that waits at a die, when the ring has room. -/
def execFaultRecordAppend (die : Nat) (s : State) : Host.Outcome State Fault Refusal :=
  match (s.die die).records with
  | [] => .next s
  | r :: rest => match s.fqAppend r with
    | some t => .next (t.modDie die fun d => { d with records := rest })
    | none => .next s

/-- FAULT_INTERRUPT (R401): the window closes, and every append within it shares one interrupt. -/
def execFaultInterrupt (s : State) : Host.Outcome State Fault Refusal :=
  match s.fqWindow with
  | some t => .next (if t ≤ s.cycles then { s with fqWindow := none, interrupts := s.interrupts + 1 } else s)
  | none => .next s

end Sys2Proof.Machine
end

