-- ==== Sys2Proof/Machine/QueueEvents.lean ====
section
/-! DEFINITION. Work queues at work: enabling, posting and consuming commands (R58 to R62, R452), the commands (R63 to R69,
R74 to R76, R265), SUBMIT and LAUNCH (R171, R172), and the weight store's copies and refresh windows (R263 to R265). -/

namespace Sys2Proof.Machine

/-! ## Registers -/

def State.qAddr (s : State) (q off : Nat) : Nat := (match s.blob with | some b => b.queueAperture | none => 0) + 64 * q + off

/-- The posting right of an agent (R58). -/
def agentBit : Agent → Nat | .cc => 0 | .host => 1 | .program => 2 | .peer => 3
def Queue.permits (x : Queue) (a : Agent) : Bool := x.rights.getLsbD (agentBit a)

/-- A write to kind (R59). -/
def State.setKind (s : State) (ag : Agent) (q k : Nat) : State :=
  let x := s.queue q
  let bad (c : Nat) : State := s.regError q c (s.qAddr q 9)
  if s.blob.isNone then s
  else if ag != .cc then bad 0x12
  else if 3 ≤ k then bad 0x16
  else if k == x.kind then s
  else if k == 0 then s.setQueue q { x with kind := 0, state := 0, consuming := false, hold := none, owners := [] }
  else if x.kind != 0 then bad 0x16
  else s.setQueue q { x with kind := k, state := 1, reserve := 0, consume := 0, consuming := false, hold := none, owners := [] }

/-- QUEUE_ENABLE (R59). -/
def execQueueEnable (ag : Agent) (q : BitVec 16) (kind : BitVec 8) (s : State) : Host.Outcome State Fault Refusal :=
  .next (s.setKind ag q.toNat kind.toNat)
/-- QUEUE_DISABLE (R59). -/
def execQueueDisable (ag : Agent) (q : BitVec 16) (s : State) : Host.Outcome State Fault Refusal :=
  .next (s.setKind ag q.toNat 0)

/-- RESERVE_INDEX_READ (R58 to R61): the right is examined first (log 90). -/
def execReserveIndexRead (ag : Agent) (q : BitVec 16) (s : State) : Host.Outcome State Fault Refusal :=
  let x := s.queue q.toNat
  let zero : State := { s with reply := some (leBytes 8 0) }
  .next (if s.blob.isNone then s
    else if !x.permits ag then zero.regError q.toNat 0x12 (s.qAddr q.toNat 24)
    else if x.kind == 0 then zero.regError q.toNat 0x16 (s.qAddr q.toNat 24)
    else { s with reply := some (leBytes 8 x.reserve.toNat) }.setQueue q.toNat
      { x with reserve := x.reserve + 1, owners := x.owners ++ [(x.reserve.toNat, ag)] })

/-! ## Reading slots -/

/-- Where slot i lies. -/
def Queue.slotKey (x : Queue) (i : Nat) : Nat := physKey (x.ringBase.toNat + 64 * (i % 2 ^ x.sizeExp))

/-- The command at the consume index, as its bytes stand; `ticket` names it. -/
def State.headAt (s : State) (q : Nat) (x : Queue) : Option QCmd :=
  (s.homeRead (x.slotKey x.consume.toNat) 64).map fun bs =>
    let f := recNat bs 1 1
    { ref := ⟨s.tickets, q, x.consume.toNat % 2 ^ x.sizeExp, le32 ((bs.drop 4).take 4),
        if f / 2 % 2 == 1 then some (recNat bs 24 2, recNat bs 28 4) else none⟩, bytes := bs
      priority := x.priority, taskDie := x.taskDie, usec := x.usec }

/-- R62: does the slot's lap bit show a command? -/
def Queue.lapOk (x : Queue) (c : QCmd) : Bool := c.byte 1 / 128 == (x.consume.toNat / 2 ^ x.sizeExp + 1) % 2

/-- The agent that reserved the slot at the consume index (R61). -/
def Queue.poster (x : Queue) : Option Agent := (x.owners.find? fun p => p.1 == x.consume.toNat).map Prod.snd

/-- The queue error that consumes the command with no other effect: malformed, or a CSET not posted by the control complex
(log 12). -/
def Queue.rejects (x : Queue) (c : QCmd) : Option Nat :=
  if c.malformed x.kind then some 0x11
  else if c.opcode == 5 && x.poster != some .cc then some 0x12
  else none

def Queue.advance (x : Queue) : Queue :=
  { x with consume := x.consume + 1, owners := x.owners.filter fun p => p.1 != x.consume.toNat }

def Queue.active (x : Queue) : Bool := x.kind != 0 && x.state == 1 && x.consuming && x.hold.isNone

/-- Consume what is rejected at the head, up to a command, an empty slot or a slot that cannot be read (R62, R64, R452;
log 93 for the record of a slot that cannot be read). -/
def drainQueue : Nat → Nat → State → State
  | 0, _, s => s
  | n + 1, q, s =>
    let x := s.queue q
    if !x.active then s
    else match s.headAt q x with
      | none => (s.queueError q (x.consume.toNat % 2 ^ x.sizeExp) 0 0x18 0).setQueue q { x with consuming := false }
      | some c =>
        if !x.lapOk c then s.setQueue q { x with consuming := false }
        else match x.rejects c with
          | some code => drainQueue n q ((c.ref.error s code).setQueue q x.advance)
          | none => s

/-- Start consumption (R62). -/
def State.ring (s : State) (q : Nat) : State :=
  let x := s.queue q
  drainQueue (2 ^ x.sizeExp + 1) q (s.setQueue q { x with consuming := true })

/-- DOORBELL (R58 to R62): the right is examined first (log 90). -/
def execDoorbell (ag : Agent) (q : BitVec 16) (s : State) : Host.Outcome State Fault Refusal :=
  let x := s.queue q.toNat
  .next (if s.blob.isNone then s
    else if !x.permits ag then s.regError q.toNat 0x12 (s.qAddr q.toNat 40)
    else if x.kind == 0 then s.regError q.toNat 0x16 (s.qAddr q.toNat 40)
    else s.ring q.toNat)

/-! ## Consuming commands -/

def State.sigFull (s : State) : Bool := decide (1048576 ≤ s.signals.length)

/-- Would a SIGNAL to this address find the table full (R76)? -/
def State.sigStuck (s : State) (addr : Nat) : Bool := s.sigFull && (aget s.signals (sigAddr addr)).isNone

/-- Consume the command at the head of queue q when it is an `op` command (R64, R65, R68, R69, R76). -/
def State.consumeOp (s : State) (q op : Nat) : State :=
  let x := s.queue q
  if !x.active then s
  else match s.headAt q x with
    | none => drainQueue 1 q s
    | some c =>
      if !x.lapOk c || (x.rejects c).isSome || c.opcode != op then s
      else
        let ready := !c.triggered || decide (c.num 8 8 ≤ (aget s.counters (c.num 2 2)).getD 0)
        if !ready && decide (65536 ≤ s.trigs.length) then s.setQueue q { x with state := 2 }
        else if ready && op == 3 && s.sigStuck c.addr then s.setQueue q { x with state := 3 }
        else
          let t := { s with tickets := s.tickets + 1
                            pendingCmds := if op == 1 || op == 2 || op == 6 then s.pendingCmds ++ [(q, s.tickets)] else s.pendingCmds }
          let t := t.setQueue q x.advance
          let t := if ready then t.doWork [.cmd c] else { t with trigs := t.trigs ++ [⟨c.num 2 2, c.num 8 8, c⟩] }
          drainQueue (2 ^ x.sizeExp + 1) q t

/-- LAUNCH_COMMAND (R55, R56, R64). -/
def execLaunchCommand (q : BitVec 16) (s : State) : Host.Outcome State Fault Refusal := .next (s.consumeOp q.toNat 1)
/-- TASK_COMMAND (R64, R74). -/
def execTaskCommand (q : BitVec 16) (s : State) : Host.Outcome State Fault Refusal := .next (s.consumeOp q.toNat 2)
/-- SIGNAL (R64, R74). -/
def execSignal (q : BitVec 16) (s : State) : Host.Outcome State Fault Refusal := .next (s.consumeOp q.toNat 3)
/-- CADD (R64, R67). -/
def execCadd (q : BitVec 16) (s : State) : Host.Outcome State Fault Refusal := .next (s.consumeOp q.toNat 4)
/-- CSET (R64, R65). -/
def execCset (q : BitVec 16) (s : State) : Host.Outcome State Fault Refusal := .next (s.consumeOp q.toNat 5)
/-- WSLOAD (R64, R265). -/
def execWsload (q : BitVec 16) (s : State) : Host.Outcome State Fault Refusal := .next (s.consumeOp q.toNat 6)
/-- HOLD (R64). -/
def execHold (q : BitVec 16) (s : State) : Host.Outcome State Fault Refusal := .next (s.consumeOp q.toNat 7)

/-- HOLD_RELEASE (R64). -/
def execHoldRelease (q : BitVec 16) (s : State) : Host.Outcome State Fault Refusal :=
  let x := s.queue q.toNat
  .next (match x.hold with
    | some l =>
      if s.pendingCmds.any fun p => p.1 == q.toNat && l.contains p.2 then s
      else drainQueue (2 ^ x.sizeExp + 1) q.toNat (s.setQueue q.toNat { x with hold := none })
    | none => s)

/-- QUEUE_RESUME (R69, R76): an entry is free for the command that paused the queue. -/
def execQueueResume (q : BitVec 16) (s : State) : Host.Outcome State Fault Refusal :=
  let x := s.queue q.toNat
  let go : State := drainQueue (2 ^ x.sizeExp + 1) q.toNat (s.setQueue q.toNat { x with state := 1 })
  .next (if x.state == 2 && decide (s.trigs.length < 65536) then go
    else if x.state == 3 && (match s.headAt q.toNat x with
      | some c => !s.sigStuck c.addr
      | none => true) then go
    else s)

/-- COUNTER_APERTURE_WRITE (R67). -/
def execCounterApertureWrite (_ag : Agent) (off size : Nat) (v : Dword) (s : State) : Host.Outcome State Fault Refusal :=
  .next (if s.blob.isNone then s
    else if off % 8 == 0 && size == 8 && decide (off < 524288) then s.doWork [.add (off / 8) v.toNat]
    else s.regError 0 0x12 ((match s.blob with | some b => b.counterAperture | none => 0) + off))

/-- HELD_CANCEL_DELIVERY (R76): the oldest held signal, when it no longer needs a free entry or one is free. -/
def execHeldCancelDelivery (s : State) : Host.Outcome State Fault Refusal :=
  .next (match s.cancels with
    | [] => s
    | (a, c) :: r => match ({ s with cancels := r } : State).sendSignal a c with
      | some t => t
      | none => s)

/-! ## SUBMIT and LAUNCH (R171, R172) -/

/-- The 64 bytes that SUBMIT and LAUNCH write, lap bit included. -/
def postBytes (opcode flags : Nat) (tag : Word) (rec : Dword) : List Byte :=
  leBytes 1 opcode ++ leBytes 1 flags ++ leBytes 2 0 ++ leBytes 4 tag.toNat ++ leBytes 8 0 ++ leBytes 8 rec.toNat ++
  leBytes 8 0 ++ leBytes 32 0

/-- Take a slot when one is free and write the command (R171, R172). -/
def State.post (s : State) (q opcode flag : Nat) (tag : Word) (rec : Dword) : Option State :=
  let x := s.queue q
  let i := x.reserve.toNat
  if x.consume.toNat + 2 ^ x.sizeExp ≤ i then none
  else
    let lap := (i / 2 ^ x.sizeExp + 1) % 2
    let t := (s.touch (x.slotKey i) 64).homeWrite (x.slotKey i) (postBytes opcode (flag + 128 * lap) tag rec)
    some (t.setQueue q { x with reserve := x.reserve + 1, owners := x.owners ++ [(i, .program)] })

def submitSubs (c : Ctx) (b : Reg5) : List Nat := need (decide ((c.w.s5 b).toNat < 2 ^ 16)) 8

/-- The grid a submitted task is counted for (R432). -/
def Master.countsFor (b : Master) : Option Nat :=
  match b.kind with
  | .block u _ => some u
  | .task _ => b.counted

/-- The common steps: fence, queue checks, slot; then `f` from the posted state. -/
def posting (s : State) (c : Ctx) (d a b : Reg5) (kind opcode flag : Nat) (f : State → Nat → Dword → State × Nat) : State :=
  checked s c (submitSubs c b)
    (if !c.w.settled false then s
     else
       let q := (c.w.s5 b).toNat
       let rec' := c.w.s52 a
       let t := s.fenceAt c.b.die .p
       let x := t.queue q
       let (u, st) :=
         if x.kind != kind then (t, 0x11)
         else if !x.permits .program then (t, 0x12)
         else match t.post q opcode flag c.b.gridId rec' with
           | none => (t, 0x20)
           | some u => f u q rec'
       done u c 1 (c.w.setS5 d (BitVec.ofNat 32 st)))

/-- SUBMIT (R171, R172). -/
def execSubmit (d a b : Reg5) (s : State) : Host.Outcome State Fault Refusal :=
  withCtx s fun c => posting s c d a b 2 2 4 fun u q r =>
    let counted := c.b.countsFor
    let (v, st) := u.pushTask { queue := q, addr := r.toNat, priority := c.b.priority, gridId := c.b.gridId, tag := c.b.gridId
                                counted := counted, submitDie := some c.b.die, poolDie := none, usec := (u.queue q).usec, cmd := none }
    let v := if st == 0 then
        (match counted with
         | some g => v.modGrid g fun x => { x with submitted := true, sent := modAt x.sent c.b.die (· + 1) }
         | none => v)
      else v
    (v.ring q, st)

/-- LAUNCH (R171, R172). -/
def execLaunch (d a b : Reg5) (s : State) : Host.Outcome State Fault Refusal :=
  withCtx s fun c => posting s c d a b 1 1 0 fun u q _ => (u.ring q, 0)

/-! ## The weight store (R263 to R265) -/

/-- Does any grid or task map bytes of the range on the die (R264)? -/
def State.mapped (s : State) (w : WsLoad) : Bool :=
  let meets (c : TransCtx) : Bool := decide (0 < c.wsLimit ∧ c.wsBase < w.dest + w.size ∧ w.dest < c.wsBase + c.wsLimit)
  (s.grids.any fun p => p.2.dieSet.getLsbD w.die && meets p.2.ctx) ||
  s.masters.any fun p => p.2.isTask && p.2.die == w.die && p.2.phase != .waiting && p.2.phase != .retired && meets p.2.ctx

/-- WSLOAD_COPY_START (R265). -/
def execWsloadCopyStart (k : Nat) (s : State) : Host.Outcome State Fault Refusal :=
  .next (match aget s.wsloads k with
    | some w => if w.started || s.mapped w then s else { s with wsloads := aset s.wsloads k { w with started := true } }
    | none => s)

/-- WSLOAD_COMPLETE (R265): every byte is written, or a source fault leaves the range undefined. -/
def execWsloadComplete (k : Nat) (s : State) : Host.Outcome State Fault Refusal :=
  .next (match aget s.wsloads k with
    | none => s
    | some w =>
      if !w.started then s
      else
        let t := { s with wsloads := adel s.wsloads k }
        let (t, r) := t.vaRead w.die w.ref.queue w.ctx w.src.toNat w.size
        match r with
        | .ok bs => (t.homeWrite (wsKey w.die w.dest) bs).finishCmd w.ref
        | _ =>
          let (t, bs) := t.freeBytes w.size
          w.ref.error ((t.homeWrite (wsKey w.die w.dest) bs).completeCmd w.ref) 0x14)

/-- WS_REFRESH_WINDOW (R263): reads that a window held back perform. -/
def execWsRefreshWindow (_g : Nat) (s : State) : Host.Outcome State Fault Refusal :=
  .next (s.masters.foldl (fun t p => t.drainMaster p.1) s)

end Sys2Proof.Machine
end

