-- ==== Sys2Proof/Machine/System.lean ====
section
/-! DEFINITION. The system instructions of major 0x3C (R416 to R424). -/

namespace Sys2Proof.Machine

/-- Quad operands: s(A), s(A + 1) and the pair s(A + 2):s(A + 3). -/
def Ctx.q0 (c : Ctx) (a : Reg5) : Word := c.w.s (u5 a)
def Ctx.q1 (c : Ctx) (a : Reg5) : Word := c.w.s (u5 a + 1)
def Ctx.qLow (c : Ctx) (a : Reg5) : Dword := c.w.s2 (u5 a)
def Ctx.qHigh (c : Ctx) (a : Reg5) : Dword := c.w.s2 (u5 a + 2)

/-- Privilege (R398, R417). -/
def privSubs (c : Ctx) : List Nat := need c.b.privileged 7

/-- The warp's handler was entered through one of these vectors. -/
def Ctx.handles (c : Ctx) (f : Nat → Bool) : Bool := match c.w.handler with | some h => f h.vector | none => false

/-! ## SWR (R132, R418) -/

def swrSubs (s : State) (c : Ctx) (a : Reg5) (n : BitVec 6) : List Nat :=
  let k := n.toNat
  if 23 < k then [8]
  else if k == 13 then need c.b.privileged 7 ++ need (decide (s.clockVal ≤ (c.w.s52 a).toNat)) 8
  else if k == 15 || k == 16 then []
  else if decide (17 ≤ k) && decide (k ≤ 20) then need c.w.handler.isSome 7
  else if k == 21 then need c.w.handler.isSome 7 ++ need ((c.w.s52 a).toNat % 4 == 0) 8
  else [7]

/-- %tlanes with its k-th word replaced. -/
def putTlanes (m : Mask) (k : Nat) (x : Word) : Mask :=
  (m &&& ~~~((0xFFFFFFFF : Mask) <<< (32 * k))) ||| (x.setWidth 128 <<< (32 * k))

/-- The warp after SWR. -/
def Ctx.swr (c : Ctx) (a : Reg5) (n : Nat) : Warp :=
  match n with
  | 15 => { c.w with fflags := (c.w.s5 a).setWidth 5 }
  | 16 => { c.w with fctl := (c.w.s5 a).setWidth 5 }
  | 17 => { c.w with tlanes := putTlanes c.w.tlanes 0 (c.w.s5 a) }
  | 18 => { c.w with tlanes := putTlanes c.w.tlanes 1 (c.w.s5 a) }
  | 19 => { c.w with tlanes := putTlanes c.w.tlanes 2 (c.w.s5 a) }
  | 20 => { c.w with tlanes := putTlanes c.w.tlanes 3 (c.w.s5 a) }
  | 21 => { c.w with tpc := c.w.s52 a, handler := c.w.handler.map fun h => { h with tpcWritten := true } }
  | _ => c.w

/-- SWR (R418). -/
def execSwr (a : Reg5) (n : BitVec 6) (s : State) : Host.Outcome State Fault Refusal :=
  withCtx s fun c => checked s c (swrSubs s c a n)
    (let t := if n == 13 then { s with clockOff := (c.w.s52 a).toNat - s.cycles } else s
     done t c 1 (c.swr a n.toNat))

/-! ## SEGSET (R419) -/

def segsetSubs (c : Ctx) (a : Reg5) (g : BitVec 3) : List Nat :=
  let base := (c.qLow a).toNat
  let limit := (c.qHigh a).toNat
  let old := c.b.segs.getD g.toNat default
  let ok := match g.toNat with
    | 1 => base == (c.b.coreHold c.ref.w).xBase && decide (limit ≤ old.loaded)
    | 3 => base == old.base && decide (limit ≤ old.loaded)
    | 2 => decide (c.b.ctx.wsBase ≤ base ∧ base + limit ≤ c.b.ctx.wsBase + c.b.ctx.wsLimit)
    | _ => decide (base + limit ≤ 2 ^ 57)
  privSubs c ++ need ok 8

/-- SEGSET (R419): the register changes for every warp of the block; the base of x: is each core's own (R240). -/
def execSegset (a : Reg5) (g : BitVec 3) (s : State) : Host.Outcome State Fault Refusal :=
  withCtx s fun c => checked s c (segsetSubs c a g)
    (done (s.modMaster c.ref.m fun b => { b with segs := fileAt 5 b.segs g.toNat fun x =>
      { x with base := if g == 1 then x.base else (c.qLow a).toNat, limit := (c.qHigh a).toNat } }) c 1 c.w)

/-! ## SPILLF and FILLF (R420) -/

/-- Privileged, or in a handler of vector 10 or 11 (R398). -/
def spillPriv (c : Ctx) : List Nat := need (c.b.privileged || c.handles fun v => v == 10 || v == 11) 7

def spillfSubs (c : Ctx) (n : BitVec 6) : List Nat :=
  spillPriv c ++ need (n != 0 && decide (c.w.resident + n.toNat ≤ c.w.bases.foldl min 4096)) 8

/-- The highest frame that any entry's window reaches, as FILLF counts it. -/
def Ctx.fillTop (c : Ctx) : Nat :=
  match c.w.handler with
  | some h => if h.vector == 11 then
      ((h.setAside.map FEntry.base) ++ (c.w.held.filter fun x => !h.owns x).map Held.base).foldl max h.low + 3
    else c.w.topFrame
  | none => c.w.topFrame

def fillfSubs (c : Ctx) (n : BitVec 6) : List Nat :=
  spillPriv c ++ need (n != 0 && decide (n.toNat ≤ c.w.resident) &&
    decide (c.fillTop + 1 - (c.w.resident - n.toNat) ≤ c.w.allot)) 8

/-- The accesses of n frames from frame `lo`: register r of lane l lies at 512r + 4l of its frame's image (R413). -/
def Ctx.frameReq (c : Ctx) (kind : MemKind) (addr : Dword) (lo n : Nat) : MemReq where
  kind := kind
  space := .g
  bytes := 4
  dests := []
  sext := false
  ord := .plain
  scope := .w
  sw := 0
  lanes := (List.range (8 * n)).flatMap fun j => (List.range 128).map fun l =>
    ⟨l, addr + BitVec.ofNat 64 (512 * j + 4 * l), BitVec.ofNat 64 (8 * lo + j),
     leBytes 4 (((aget c.w.regs (8 * lo + j)).getD []).getD l 0).toNat, [], [], .ready⟩

/-- The operation that a SPILLF or FILLF at this instruction has begun. -/
def Ctx.frameOp (c : Ctx) : Option MemOp := c.w.outs.find? fun o => o.pc == c.c.pc && (o.kind == .spill || o.kind == .fill)

/-- SPILLF and FILLF hold the warp's issue until every access has performed (R417); `f` is the warp then. -/
def frameMove (s : State) (c : Ctx) (q : MemReq) (f : MemOp → State × Warp) : State :=
  match c.frameOp with
  | none =>
    let (t, bad, misses) := s.precheck c.b q
    if bad.isEmpty then t.launchOp c q misses else t.laneViolation c.ref c.c.pc bad
  | some o =>
    if o.undone then s
    else
      let (t, w) := f o
      done t c 1 { w with outs := w.outs.filter fun x => x.k != o.k }

/-- SPILLF (R420). -/
def execSpillf (a : Reg5) (n : BitVec 6) (s : State) : Host.Outcome State Fault Refusal :=
  withCtx s fun c => checked s c (spillfSubs c n)
    (frameMove s c (c.frameReq .spill (c.w.s52 a) c.w.resident n.toNat) fun _ =>
      (s, { c.w with resident := c.w.resident + n.toNat }))

/-- The registers that a FILLF has read. -/
def MemOp.frames (o : MemOp) (w : Warp) : Warp :=
  let keys := (o.lanes.map fun l => l.dst.toNat).eraseDups
  keys.foldl (fun w k =>
    let row := o.lanes.filter fun l => l.dst.toNat == k
    { w with regs := aset w.regs k (row.map fun l => le32 l.val) }) w

/-- FILLF (R420): frames above `top` in the handler's window become undefined. -/
def execFillf (a : Reg5) (n : BitVec 6) (s : State) : Host.Outcome State Fault Refusal :=
  withCtx s fun c => checked s c (fillfSubs c n)
    (let lo := c.w.resident - n.toNat
     frameMove s c (c.frameReq .fill (c.w.s52 a) lo n.toNat) fun o =>
       let (t, tick) := s.fresh
       let above := (List.range (8 * (c.c.base + 3 - c.fillTop))).map fun j => 8 * (c.fillTop + 1) + j
       (t, { (o.frames c.w).undefKeys above Mask.all tick with resident := lo }))

/-! ## CTXSV and CTXLD (R421) -/

def ctxSubs (c : Ctx) (a : Reg5) : List Nat := privSubs c ++ need ((c.qHigh a).toNat % 4096 == 0) 8

/-- An access of the issuing warp that did not succeed: it waits in replay, or the instruction ends with status 4. -/
def accessFails (s : State) (c : Ctx) (d : Reg5) (r : EngRes) : State :=
  match r with
  | .missing va lv write =>
    let (t, st) := s.joinMiss c.b.die c.b.ctx.asid va lv write
    t.modWarp c.ref fun w => { w with fetchMiss := some st }
  | _ => done s c 1 (c.w.setS5 d 4)

/-- The named block, when it is frozen or pre-empted; else the status. -/
def State.ctxTarget (s : State) (id lin : Word) : Except Word (Nat × Master) :=
  match s.target 0 id (lin.setWidth 64) with
  | .master m => match s.master m with
    | some b => if b.phase == .frozen || b.phase == .preempted then .ok (m, b) else .error 2
    | none => .error 1
  | .undispatched _ => .error 2
  | _ => .error 1

/-- CTXSV (R421): the whole record, or nothing. -/
def execCtxsv (d a : Reg5) (s : State) : Host.Outcome State Fault Refusal :=
  withCtx s fun c => checked s c (ctxSubs c a)
    (match s.ctxTarget (c.q0 a) (c.q1 a) with
     | .error st => done s c 1 (c.w.setS5 d st)
     | .ok (m, b) =>
       let (t, tick) := s.fresh
       match t.engWrite c.ref.m c.b 0 0 (c.qHigh a).toNat 1 (t.recordOf m b (if b.phase == .frozen then 3 else 2) tick) with
       | (u, .ok _) => done u c 1 (c.w.setS5 d 0)
       | (u, r) => accessFails u c d r)

/-- Does a record agree with the block (R421)? -/
def Master.agrees (b : Master) (r : List Byte) : Bool :=
  let h := b.headBytes 1 0
  r.take 24 == h.take 24 && decide (1 ≤ recNat r 24 1 ∧ recNat r 24 1 ≤ 3) && (r.drop 32).take 16 == (h.drop 32).take 16

/-- CTXLD (R421): the block's state is in its registers, and in its slot while it holds no resources. -/
def execCtxld (d a : Reg5) (s : State) : Host.Outcome State Fault Refusal :=
  withCtx s fun c => checked s c (ctxSubs c a)
    (match s.ctxTarget (c.q0 a) (c.q1 a) with
     | .error st => done s c 1 (c.w.setS5 d st)
     | .ok (m, b) =>
       match s.engRead c.b 0 0 (c.qHigh a).toNat b.variant.recordSize 1 with
       | (t, .ok r) =>
         if !b.agrees r then done t c 1 (c.w.setS5 d 3)
         else
           let loaded (t : State) : State := done (t.loadRecord m b r) c 1 (c.w.setS5 d 0)
           if b.phase == .preempted || b.frozenFrom == .preempted then
             let (t, tick) := t.fresh
             match t.slotWrite b 0 ((t.loadRecord m b r).recordOf m (t.ofRecord m b r) 1 tick) with
             | (u, none) => loaded u
             | (u, some _) => done u c 1 (c.w.setS5 d 4)
           else loaded t
       | (t, r) => accessFails t c d r)

/-! ## TLBINV (R422) -/

def tlbinvSubs (c : Ctx) (a : Reg5) : List Nat :=
  let n := (c.w.s (u5 a + 2)).toNat
  let asid := (c.w.s (u5 a + 3)).toNat
  privSubs c ++ need ((c.qLow a).toNat % 4096 == 0 && decide (1 ≤ n ∧ n ≤ 2 ^ 31) && decide (1 ≤ asid ∧ asid ≤ 65535)) 8

/-- TLBINV (R422). -/
def execTlbinv (a : Reg5) (s : State) : Host.Outcome State Fault Refusal :=
  withCtx s fun c => checked s c (tlbinvSubs c a)
    (done (s.invalidate (c.w.s (u5 a + 3)).toNat (c.qLow a).toNat (4096 * (c.w.s (u5 a + 2)).toNat)) c 1 c.w)

/-! ## FREEZE and THAW (R423) -/

def targetSubs (c : Ctx) (a : Reg5) : List Nat := privSubs c ++ need (decide ((c.q0 a).toNat ≤ 2)) 8

/-- The issuer's own block, grid or task. -/
def Ctx.own (c : Ctx) : Target → Bool
  | .master m => m == c.ref.m
  | .grid u => c.b.gridUid == some u
  | .undispatched _ | .absent => false

/-- A status is written and the instruction is over; an effect on other masters leaves the issuing warp as it was. -/
def statusDone (s : State) (c : Ctx) (d : Reg5) (st : Nat) : State :=
  done s c 1 { c.w.setS5 d (BitVec.ofNat 32 st) with request := none }

/-- FREEZE (R423): held by a transient state of its target, it waits, and is applied again at the warp's next turn
(log 32). -/
def execFreeze (d a : Reg5) (s : State) : Host.Outcome State Fault Refusal :=
  withCtx s fun c => checked s c (targetSubs c a)
    (let kind := (c.q0 a).toNat
     let x := s.target kind (c.q1 a) (c.qHigh a)
     let before := c.w.request.getD false
     let wait (t : State) (ok : Bool) : State := t.modWarp c.ref fun w => { w with request := some ok }
     if kind == 1 && c.qHigh a != 0 then statusDone s c d 5
     else if c.own x then statusDone s c d 4
     else match x with
       | .absent => statusDone s c d (if before then 2 else 3)
       | .undispatched _ => statusDone s c d 4
       | .master m =>
         let (t, st) := s.applyTo 1 c.b.queue m
         if st == 1 then wait t false else statusDone t c d st
       | .grid u =>
         let (t, st, held) := s.applyAll 1 c.b.queue u
         let ok := before || st == 2
         if held.isEmpty then statusDone t c d (if ok then 2 else st) else wait t ok)

/-- THAW (R423). -/
def execThaw (d a : Reg5) (s : State) : Host.Outcome State Fault Refusal :=
  withCtx s fun c => checked s c (targetSubs c a)
    (let kind := (c.q0 a).toNat
     if kind == 1 && c.qHigh a != 0 then statusDone s c d 5
     else match s.target kind (c.q1 a) (c.qHigh a) with
       | .absent => statusDone s c d 3
       | .undispatched _ => statusDone s c d 4
       | .master m =>
         let (t, st) := s.applyTo 2 c.b.queue m
         statusDone t c d st
       | .grid u =>
         let (t, st, _) := s.applyAll 2 c.b.queue u
         statusDone t c d st)

/-! ## PERFSEL (R424) -/

def perfselSubs (c : Ctx) (a : Reg5) (n : BitVec 6) : List Nat :=
  privSubs c ++ need (decide (n.toNat ≤ 7) && decide ((c.w.s5 a).toNat < 256)) 8

/-- What a counter reads now. -/
def PerfCtr.value (p : PerfCtr) (now : Nat) : Dword := if p.event == 1 then BitVec.ofNat 64 (now - p.since) else p.count

/-- PERFSEL (R424). -/
def execPerfsel (d a : Reg5) (n : BitVec 6) (s : State) : Host.Outcome State Fault Refusal :=
  withCtx s fun c => checked s c (perfselSubs c a n)
    (let i := 8 * (c.b.coreHold c.ref.w).core + n.toNat
     let old := ((s.die c.b.die).perf.getD i default).value s.cycles
     let t := s.modDie c.b.die fun x => { x with perf := fileAt 192 x.perf i fun _ => ⟨0, (c.w.s5 a).setWidth 8, s.cycles⟩ }
     done t c 1 (c.w.setS2 (u5 d) old))

end Sys2Proof.Machine
end

