-- ==== Sys2Proof/Machine/Registers.lean ====
section
/-! DEFINITION. Writes to register fields (R58, R59, R248, R407, R436), and what caches, media and other agents do in the
background (log 9). -/

namespace Sys2Proof.Machine

/-! ## Queue registers (R58, R59) -/

/-- A write of the control complex to a control field of queue q; `off` is the field's offset. -/
def State.controlWrite (s : State) (ag : Agent) (q off : Nat) (bad : Queue → Bool) (f : Queue → Queue) : State :=
  let x := s.queue q
  if ag != .cc then s.regError q 0x12 (s.qAddr q off)
  else if bad x then s.regError q 0x16 (s.qAddr q off)
  else s.setQueue q (f x)

/-- A write to a maintenance or master-control field; `addr` is the register's. -/
def State.blockWrite (s : State) (ag : Agent) (addr : Nat) (t : State) : State := if ag != .cc then s.regError 0 0x12 addr else t

/-- The reserved fields of a block that hold what is not zero, after a write of n at an offset. -/
def markReserved (l : List Nat) (off n : Nat) : List Nat := if n == 0 then l.filter (· != off) else if l.contains off then l else l ++ [off]

/-- A write to a bring-up field: other agents' writes are discarded (R436). -/
def State.bringWrite (s : State) (ag : Agent) (f : BringUp → BringUp) : State :=
  if ag != .cc then s else { s with bring := f s.bring }

/-- A write to start of the bring-up block (R436): values other than 1 to 4 are discarded. -/
def State.startBringUp (s : State) (ag : Agent) (v : Dword) : Host.Outcome State Fault Refusal :=
  match v.toNat with
  | 1 => execLoadFirmware ag s
  | 2 => execLoadBlob ag s
  | 3 => execExtendMeasurement ag s
  | 4 => execRequestQuote ag s
  | _ => .next s

/-- A write to a field of a queue, of the maintenance block or of the master control block, once the blob has placed them; values
out of range are stored as written (log 51). -/
def State.regWrite (s : State) (ag : Agent) (r : RegField) (v : Dword) : State :=
  let n := v.toNat
  let mm (off : Nat) (f : MaintOp → MaintOp) : State :=
    s.blockWrite ag (s.mmAddr off) { s with maint := { s.maint with regs := f s.maint.regs } }
  let mc (off : Nat) (f : MasterCtl → MasterCtl) : State := s.blockWrite ag (s.mcAddr off) { s with mctl := f s.mctl }
  match r with
  | .qRingBase q => s.controlWrite ag q.toNat 0 (fun x => x.kind != 0) fun x => { x with ringBase := v }
  | .qSizeExp q => s.controlWrite ag q.toNat 8 (fun x => x.kind != 0 || !decide (4 ≤ n % 256 ∧ n % 256 ≤ 20)) fun x =>
      { x with sizeExp := n % 256 }
  | .qKind q => s.setKind ag q.toNat (n % 256)
  | .qPriority q => s.controlWrite ag q.toNat 10 (fun _ => false) fun x => { x with priority := n % 256 }
  | .qRights q => s.controlWrite ag q.toNat 11 (fun _ => decide (16 ≤ n % 256)) fun x => { x with rights := v.setWidth 8 }
  | .qTaskDie q => s.controlWrite ag q.toNat 12 (fun _ => decide (8 ≤ n % 256 ∧ n % 256 ≤ 0xFE)) fun x => { x with taskDie := n % 256 }
  | .qThreshold q => s.controlWrite ag q.toNat 16 (fun _ => false) fun x => { x with threshold := n % 2 ^ 32 }
  | .qReadOnly q off =>
    -- the reserve index may be touched only with the right (R60)
    if decide (24 ≤ off.toNat ∧ off.toNat < 32) && !(s.queue q.toNat).permits ag then s.regError q.toNat 0x12 (s.qAddr q.toNat 24) else s
  | .mmAddress => mm 0 fun x => { x with addr := v }
  | .mmSize => mm 8 fun x => { x with size := v }
  | .mmAsid => mm 16 fun x => { x with asid := n % 65536 }
  | .mmDie => mm 18 fun x => { x with die := n % 256 }
  | .mmOperation => mm 19 fun x => { x with op := n % 256 }
  | .mmStart => s.startMaint ag
  | .mmOther off => s.blockWrite ag (s.mmAddr off.toNat) { s with maint := { s.maint with
      reserved := if 28 ≤ off.toNat then markReserved s.maint.reserved off.toNat n else s.maint.reserved } }
  | .mcOperation => mc 0 fun x => { x with op := n % 256 }
  | .mcTargetKind => mc 1 fun x => { x with kind := n % 256 }
  | .mcOther off => mc off.toNat fun x => { x with
      reserved := if off == 2 || 40 ≤ off.toNat then markReserved x.reserved off.toNat n else x.reserved }
  | .mcGridId => mc 4 fun x => { x with gridId := v.setWidth 32 }
  | .mcTarget => mc 8 fun x => { x with target := v }
  | .mcStart => s.startMaster ag
  | .mcReadIndex => s.blockWrite ag (s.mcAddr 24) { s with fqRead := n }
  | .buObjectAddress | .buObjectSize | .buStart | .buNonce _ => s

/-- REGISTER_WRITE (R58, R59, R66, R248, R407, R436). -/
def execRegisterWrite (ag : Agent) (r : RegField) (v : Dword) (s : State) : Host.Outcome State Fault Refusal :=
  match r with
  | .buObjectAddress => .next (s.bringWrite ag fun x => { x with objAddr := v })
  | .buObjectSize => .next (s.bringWrite ag fun x => { x with objSize := v.toNat % 2 ^ 32 })
  | .buStart => s.startBringUp ag v
  | .buNonce k => .next (s.bringWrite ag fun x =>
      { x with nonce := x.nonce.take (8 * k.toNat) ++ leBytes 8 v.toNat ++ x.nonce.drop (8 * k.toNat + 8) })
  | _ => .next (if s.blob.isNone then s else s.regWrite ag r v)

/-! ## Reading registers (R3, R58, R60, R67, R248, R407, R424, R436)

A reserved field and a field that is only written read back as zero. -/

/-- The 64 bytes of a queue's register block. -/
def Queue.image (x : Queue) : List Byte :=
  leBytes 8 x.ringBase.toNat ++ leBytes 1 x.sizeExp ++ leBytes 1 x.kind ++ leBytes 1 x.priority ++ leBytes 1 x.rights.toNat ++
  leBytes 1 x.taskDie ++ leBytes 3 0 ++ leBytes 4 x.usec ++ leBytes 4 0 ++ leBytes 8 x.reserve.toNat ++ leBytes 8 x.consume.toNat ++
  leBytes 4 0 ++ leBytes 4 x.state ++ leBytes 16 0

/-- The 64 bytes of the maintenance block. -/
def Maint.image (x : Maint) : List Byte :=
  leBytes 8 x.regs.addr.toNat ++ leBytes 8 x.regs.size.toNat ++ leBytes 2 x.regs.asid ++ leBytes 1 x.regs.die ++ leBytes 1 x.regs.op ++
  leBytes 4 0 ++ leBytes 4 x.status ++ leBytes 36 0

/-- The 64 bytes of the master control block. -/
def State.masterImage (s : State) : List Byte :=
  let x := s.mctl
  leBytes 1 x.op ++ leBytes 1 x.kind ++ leBytes 2 0 ++ leBytes 4 x.gridId.toNat ++ leBytes 8 x.target.toNat ++ leBytes 4 0 ++
  leBytes 4 x.status ++ leBytes 8 s.fqRead ++ leBytes 8 s.fqWrite ++ leBytes 24 0

/-- The 1,024 bytes of the bring-up block. -/
def State.bringImage (s : State) : List Byte :=
  let x := s.bring
  leBytes 8 x.objAddr.toNat ++ leBytes 4 x.objSize ++ leBytes 4 0 ++ leBytes 4 x.state ++ leBytes 4 x.error ++ leBytes 4 x.quoteStatus ++
  leBytes 36 0 ++ leBytes 128 s.ready.toNat ++ x.nonce ++ x.meas.flatten ++ identityPublic ++ leBytes 7 0 ++ x.quote ++ leBytes 398 0

/-- Bytes of an image at an offset. -/
def slice (l : List Byte) (off n : Nat) : List Byte := (l.drop off).take n

/-- An agent reads n bytes of a register block. The reserve index and the doorbell of a queue need the posting right; the
reserve index is read by its own event, and the doorbell reads zero (R60). -/
def State.readReg (s : State) (ag : Agent) (r : RegBlock) (off n : Nat) : Host.Outcome State Fault Refusal :=
  let gives (bs : List Byte) : Host.Outcome State Fault Refusal := .next { s with reply := some bs }
  match r with
  | .bringUp => gives (slice s.bringImage off n)
  | _ =>
    if s.blob.isNone then .next s
    else match r with
      | .queue q =>
        let x := s.queue q.toNat
        if decide (24 ≤ off ∧ off < 32) then execReserveIndexRead ag q s
        else if decide (40 ≤ off ∧ off < 44) && !x.permits ag then
          .next (({ s with reply := some (leBytes n 0) } : State).regError q.toNat 0x12 (s.qAddr q.toNat 40))
        else gives (slice x.image off n)
      | .maint => gives (slice s.maint.image off n)
      | .master => gives (slice s.masterImage off n)
      | .counters => gives (slice (leBytes 8 ((aget s.counters (off / 8)).getD 0)) (off % 8) n)
      | .perf d core c => gives (leBytes 8 ((((s.die d).perf.getD (8 * core + c) default).value s.cycles).toNat))
      | .bringUp => .next s

/-! ## In the background (log 9) -/

/-- Write bytes at a home for an agent outside the C-dies, each at the place its own address names; what waits on a line is
woken (R345). -/
def State.outsideWrite (s : State) (key : Nat → Nat) (pa : Nat) (bs : List Byte) : State :=
  bs.zipIdx.foldl (fun t p => (t.touch (key (pa + p.2)) 1).homeWrite (key (pa + p.2)) [p.1]) s

/-- What happens without a row of the opcode table. -/
def runBackground (b : Background) (s : State) : Host.Outcome State Fault Refusal :=
  match b with
  | .readReg ag r off n => s.readReg ag r off n
  | .ccWrite pa bs => .next (s.outsideWrite physKey pa bs)
  | .hostWrite pa bs => .next (if s.cxlUp then s.outsideWrite hostKey pa bs else s)
  | .remoteWrite pa bs => .next (s.outsideWrite remoteKey pa bs)
  | .contribute g q c x => .next (s.contributeFrom g q c x)
  | .pulled g q c r => .next (s.pulledFrom g q c r)
  | .answerGet k st bs => .next (s.answerGet k st bs)
  | .serveGet k buf i n => .next (s.serveGet k buf i n)
  | .resetGroup g => .next (s.resetGroup g)
  | .refuseCopy m k va => .next (s.refuseCopy m k va)
  | .refusePage d k va => .next (s.refusePage d k va)
  | .refuseColl k va => .next (s.refuseColl k va)
  | .refuseSignal m n => .next (s.refuseSignal m n)
  | .mgmtRead x => .next (s.mgmtRead x)
  | .fuseOwner d => .next (s.fuseOwner d)
  | .withdraw u d => .next (s.modGrid u fun g => { g with withdraw := g.withdraw ||| bit8 d })
  | .softError key => .next { s with poison := if s.poison.contains key then s.poison else s.poison ++ [key] }
  | .softErrorX m off => .next (s.modMaster m fun b => { b with
      xPoison := if decide (off < b.variant.scratch) && !b.xPoison.contains off then b.xPoison ++ [off] else b.xPoison })
  | .dropTranslation d i => .next (s.modDie d fun x => { x with tlb := x.tlb.eraseIdx i })
  | .evictCopy d i => .next (s.dropCopies d fun j => j == i)
  | .replaceCount d i => .next (s.modDie d fun x => { x with contend := adel x.contend i })

end Sys2Proof.Machine
end

