-- ==== Sys2Proof/Machine/Dispatch.lean ====
section
/-! DEFINITION. One arm for each constructor of `Instr`: the instruction's meaning. -/

namespace Sys2Proof.Machine

/-- What an instruction or an event does to the machine. -/
def exec (i : Instr) (s : State) : Host.Outcome State Fault Refusal :=
  match i with
  | .iadd p d a b t => Sys2Proof.Machine.execIadd p d a b t s
  | .isub p d a b t => Sys2Proof.Machine.execIsub p d a b t s
  | .iaddSat p d a b t => Sys2Proof.Machine.execIaddSat p d a b t s
  | .isubSat p d a b t => Sys2Proof.Machine.execIsubSat p d a b t s
  | .imul p d a b t => Sys2Proof.Machine.execImul p d a b t s
  | .imulh p d a b t => Sys2Proof.Machine.execImulh p d a b t s
  | .imin p d a b t => Sys2Proof.Machine.execImin p d a b t s
  | .imax p d a b t => Sys2Proof.Machine.execImax p d a b t s
  | .imad p d a b c t => Sys2Proof.Machine.execImad p d a b c t s
  | .and p d a b t => Sys2Proof.Machine.execAnd p d a b t s
  | .or p d a b t => Sys2Proof.Machine.execOr p d a b t s
  | .xor p d a b t => Sys2Proof.Machine.execXor p d a b t s
  | .andn p d a b t => Sys2Proof.Machine.execAndn p d a b t s
  | .not p d a f t => Sys2Proof.Machine.execNot p d a f t s
  | .iabs p d a f t => Sys2Proof.Machine.execIabs p d a f t s
  | .ineg p d a f t => Sys2Proof.Machine.execIneg p d a f t s
  | .popc p d a f t => Sys2Proof.Machine.execPopc p d a f t s
  | .clz p d a f t => Sys2Proof.Machine.execClz p d a f t s
  | .brev p d a f t => Sys2Proof.Machine.execBrev p d a f t s
  | .mov p d b t => Sys2Proof.Machine.execMov p d b t s
  | .shl p d a b t => Sys2Proof.Machine.execShl p d a b t s
  | .shr p d a b t => Sys2Proof.Machine.execShr p d a b t s
  | .sar p d a b t => Sys2Proof.Machine.execSar p d a b t s
  | .rot p d a b t => Sys2Proof.Machine.execRot p d a b t s
  | .iset p q a b u c t => Sys2Proof.Machine.execIset p q a b u c t s
  | .bfx p d a b t => Sys2Proof.Machine.execBfx p d a b t s
  | .iaddc p d a b => Sys2Proof.Machine.execIaddc p d a b s
  | .isubb p d a b => Sys2Proof.Machine.execIsubb p d a b s
  | .bfi p d a b c => Sys2Proof.Machine.execBfi p d a b c s
  | .perm p d a b c => Sys2Proof.Machine.execPerm p d a b c s
  | .sel p d a b n => Sys2Proof.Machine.execSel p d a b n s
  | .lea p d a b n => Sys2Proof.Machine.execLea p d a b n s
  | .movi p d imm => Sys2Proof.Machine.execMovi p d imm s
  | .moviHi p d imm => Sys2Proof.Machine.execMoviHi p d imm s
  | .iaddImm p d a imm => Sys2Proof.Machine.execIaddImm p d a imm s
  | .isubImm p d a imm => Sys2Proof.Machine.execIsubImm p d a imm s
  | .andImm p d a imm => Sys2Proof.Machine.execAndImm p d a imm s
  | .orImm p d a imm => Sys2Proof.Machine.execOrImm p d a imm s
  | .xorImm p d a imm => Sys2Proof.Machine.execXorImm p d a imm s
  | .shlImm p d a imm => Sys2Proof.Machine.execShlImm p d a imm s
  | .shrImm p d a imm => Sys2Proof.Machine.execShrImm p d a imm s
  | .sarImm p d a imm => Sys2Proof.Machine.execSarImm p d a imm s
  | .rotImm p d a imm => Sys2Proof.Machine.execRotImm p d a imm s
  | .imulImm p d a imm => Sys2Proof.Machine.execImulImm p d a imm s
  | .fadd p d a b r f t => Sys2Proof.Machine.execFadd p d a b r f t s
  | .fsub p d a b r f t => Sys2Proof.Machine.execFsub p d a b r f t s
  | .fmul p d a b r f t => Sys2Proof.Machine.execFmul p d a b r f t s
  | .ffma p d a b c r => Sys2Proof.Machine.execFfma p d a b c r s
  | .fmin p d a b f t => Sys2Proof.Machine.execFmin p d a b f t s
  | .fmax p d a b f t => Sys2Proof.Machine.execFmax p d a b f t s
  | .fset p q a b c t => Sys2Proof.Machine.execFset p q a b c t s
  | .frnd p d a r f t => Sys2Proof.Machine.execFrnd p d a r f t s
  | .fclass p d a f t => Sys2Proof.Machine.execFclass p d a f t s
  | .rcp p d a f => Sys2Proof.Machine.execRcp p d a f s
  | .rsq p d a f => Sys2Proof.Machine.execRsq p d a f s
  | .sqrt p d a f => Sys2Proof.Machine.execSqrt p d a f s
  | .ex2 p d a f => Sys2Proof.Machine.execEx2 p d a f s
  | .lg2 p d a f => Sys2Proof.Machine.execLg2 p d a f s
  | .sin p d a f => Sys2Proof.Machine.execSin p d a f s
  | .cos p d a f => Sys2Proof.Machine.execCos p d a f s
  | .tanh p d a f => Sys2Proof.Machine.execTanh p d a f s
  | .fdivs p d a b r f => Sys2Proof.Machine.execFdivs p d a b r f s
  | .hadd2 p d a b r t => Sys2Proof.Machine.execHadd2 p d a b r t s
  | .hmul2 p d a b r t => Sys2Proof.Machine.execHmul2 p d a b r t s
  | .hfma2 p d a b c t => Sys2Proof.Machine.execHfma2 p d a b c t s
  | .cvt p d a w => Sys2Proof.Machine.execCvt p d a w s
  | .cvtMx p d a b w => Sys2Proof.Machine.execCvtMx p d a b w s
  | .qblk p d a w => Sys2Proof.Machine.execQblk p d a w s
  | .qdec p d a w => Sys2Proof.Machine.execQdec p d a w s
  | .qscale p d a w => Sys2Proof.Machine.execQscale p d a w s
  | .shfl p d a b m w => Sys2Proof.Machine.execShfl p d a b m w s
  | .vote p q a m => Sys2Proof.Machine.execVote p q a m s
  | .ballot p d a => Sys2Proof.Machine.execBallot p d a s
  | .matchLane p d a wide => Sys2Proof.Machine.execMatch p d a wide s
  | .scan p d a excl o t => Sys2Proof.Machine.execScan p d a excl o t s
  | .redux p d a o t => Sys2Proof.Machine.execRedux p d a o t s
  | .bmand p d a b => Sys2Proof.Machine.execBmand p d a b s
  | .ld f w => Sys2Proof.Machine.execLd f w s
  | .st f w => Sys2Proof.Machine.execSt f w s
  | .lda f w => Sys2Proof.Machine.execLda f w s
  | .ldw f w => Sys2Proof.Machine.execLdw f w s
  | .atom f w => Sys2Proof.Machine.execAtom f w s
  | .red f w => Sys2Proof.Machine.execRed f w s
  | .pref f w => Sys2Proof.Machine.execPref f w s
  | .cctl f w => Sys2Proof.Machine.execCctl f w s
  | .cpy e => Sys2Proof.Machine.execCpy e s
  | .cpyTx e => Sys2Proof.Machine.execCpyTx e s
  | .cpyFo e => Sys2Proof.Machine.execCpyFo e s
  | .cpyTxFo e => Sys2Proof.Machine.execCpyTxFo e s
  | .ldws e => Sys2Proof.Machine.execLdws e s
  | .ldwsW e => Sys2Proof.Machine.execLdwsW e s
  | .swapw p t la => Sys2Proof.Machine.execSwapw p t la s
  | .mma e v => Sys2Proof.Machine.execMma e v s
  | .mmaChain e v => Sys2Proof.Machine.execMmaChain e v s
  | .mmaSmx e v => Sys2Proof.Machine.execMmaSmx e v s
  | .enct e => Sys2Proof.Machine.execEnct e s
  | .enctAuto e => Sys2Proof.Machine.execEnctAuto e s
  | .accrd e => Sys2Proof.Machine.execAccrd e s
  | .accwr e => Sys2Proof.Machine.execAccwr e s
  | .accz e => Sys2Proof.Machine.execAccz e s
  | .accsc e => Sys2Proof.Machine.execAccsc e s
  | .xlat p sx la v => Sys2Proof.Machine.execXlat p sx la v s
  | .xlatWr p sx la v => Sys2Proof.Machine.execXlatWr p sx la v s
  | .kvfork e => Sys2Proof.Machine.execKvfork e s
  | .kvext e => Sys2Proof.Machine.execKvext e s
  | .kvcow e => Sys2Proof.Machine.execKvcow e s
  | .kvfree e => Sys2Proof.Machine.execKvfree e s
  | .coll e => Sys2Proof.Machine.execColl e s
  | .binit p o d => Sys2Proof.Machine.execBinit p o d s
  | .bretire p a imm => Sys2Proof.Machine.execBretire p a imm s
  | .arrive p o d => Sys2Proof.Machine.execArrive p o d s
  | .expect p o d => Sys2Proof.Machine.execExpect p o d s
  | .waitph p o d => Sys2Proof.Machine.execWaitph p o d s
  | .testph p o q => Sys2Proof.Machine.execTestph p o q s
  | .seal p => Sys2Proof.Machine.execSeal p s
  | .waitb p n => Sys2Proof.Machine.execWaitb p n s
  | .waitt p m => Sys2Proof.Machine.execWaitt p m s
  | .parkG p d a imm => Sys2Proof.Machine.execParkG p d a imm s
  | .parkX p d a imm => Sys2Proof.Machine.execParkX p d a imm s
  | .fence p sx => Sys2Proof.Machine.execFence p sx s
  | .qfence p m => Sys2Proof.Machine.execQfence p m s
  | .xfence p sx => Sys2Proof.Machine.execXfence p sx s
  | .acq p sx => Sys2Proof.Machine.execAcq p sx s
  | .rel p sx => Sys2Proof.Machine.execRel p sx s
  | .bind p d a => Sys2Proof.Machine.execBind p d a s
  | .unbind p d a => Sys2Proof.Machine.execUnbind p d a s
  | .bra p o => Sys2Proof.Machine.execBra p o s
  | .call v o => Sys2Proof.Machine.execCall v o s
  | .brc c o => Sys2Proof.Machine.execBrc c o s
  | .nop p => Sys2Proof.Machine.execNop p s
  | .brx p a => Sys2Proof.Machine.execBrx p a s
  | .callx v a => Sys2Proof.Machine.execCallx v a s
  | .ret => Sys2Proof.Machine.execRet s
  | .exit p => Sys2Proof.Machine.execExit p s
  | .trap p imm => Sys2Proof.Machine.execTrap p imm s
  | .tret => Sys2Proof.Machine.execTret s
  | .srd p d f n => Sys2Proof.Machine.execSrd p d f n s
  | .submit d a b => Sys2Proof.Machine.execSubmit d a b s
  | .launch d a b => Sys2Proof.Machine.execLaunch d a b s
  | .trig => Sys2Proof.Machine.execTrig s
  | .waitdep => Sys2Proof.Machine.execWaitdep s
  | .switchpt imm => Sys2Proof.Machine.execSwitchpt imm s
  | .step => Sys2Proof.Machine.execStep s
  | .beat => Sys2Proof.Machine.execBeat s
  | .reggive n => Sys2Proof.Machine.execReggive n s
  | .regclaim q n => Sys2Proof.Machine.execRegclaim q n s
  | .keydrop a => Sys2Proof.Machine.execKeydrop a s
  | .swr a n => Sys2Proof.Machine.execSwr a n s
  | .segset a g => Sys2Proof.Machine.execSegset a g s
  | .spillf a n => Sys2Proof.Machine.execSpillf a n s
  | .fillf a n => Sys2Proof.Machine.execFillf a n s
  | .ctxsv d a => Sys2Proof.Machine.execCtxsv d a s
  | .ctxld d a => Sys2Proof.Machine.execCtxld d a s
  | .tlbinv a => Sys2Proof.Machine.execTlbinv a s
  | .freeze d a => Sys2Proof.Machine.execFreeze d a s
  | .thaw d a => Sys2Proof.Machine.execThaw d a s
  | .perfsel d a n => Sys2Proof.Machine.execPerfsel d a n s
  | .movLong d b => Sys2Proof.Machine.execMovLong d b s
  | .clauseEntry => Sys2Proof.Machine.execClauseEntry s
  | .loadComplete w k => Sys2Proof.Machine.execLoadComplete w k s
  | .ldaLanePerform w k lane => Sys2Proof.Machine.execLdaLanePerform w k lane s
  | .registerWrite ag r v => Sys2Proof.Machine.execRegisterWrite ag r v s
  | .queueEnable ag q kind => Sys2Proof.Machine.execQueueEnable ag q kind s
  | .queueDisable ag q => Sys2Proof.Machine.execQueueDisable ag q s
  | .reserveIndexRead ag q => Sys2Proof.Machine.execReserveIndexRead ag q s
  | .doorbell ag q => Sys2Proof.Machine.execDoorbell ag q s
  | .launchCommand q => Sys2Proof.Machine.execLaunchCommand q s
  | .taskCommand q => Sys2Proof.Machine.execTaskCommand q s
  | .signal q => Sys2Proof.Machine.execSignal q s
  | .cadd q => Sys2Proof.Machine.execCadd q s
  | .cset q => Sys2Proof.Machine.execCset q s
  | .wsload q => Sys2Proof.Machine.execWsload q s
  | .hold q => Sys2Proof.Machine.execHold q s
  | .holdRelease q => Sys2Proof.Machine.execHoldRelease q s
  | .queueResume q => Sys2Proof.Machine.execQueueResume q s
  | .counterApertureWrite ag off size v => Sys2Proof.Machine.execCounterApertureWrite ag off size v s
  | .heldCancelDelivery => Sys2Proof.Machine.execHeldCancelDelivery s
  | .dispatchStep die => Sys2Proof.Machine.execDispatchStep die s
  | .keyGrant die => Sys2Proof.Machine.execKeyGrant die s
  | .warpRelease m => Sys2Proof.Machine.execWarpRelease m s
  | .entryAged die e => Sys2Proof.Machine.execEntryAged die e s
  | .placementWaitLimit die e => Sys2Proof.Machine.execPlacementWaitLimit die e s
  | .preemptionDelayExpiry die e => Sys2Proof.Machine.execPreemptionDelayExpiry die e s
  | .readmissionDelayExpiry m => Sys2Proof.Machine.execReadmissionDelayExpiry m s
  | .switchComplete m => Sys2Proof.Machine.execSwitchComplete m s
  | .preemptionTakeEffect m => Sys2Proof.Machine.execPreemptionTakeEffect m s
  | .contextSaveComplete m => Sys2Proof.Machine.execContextSaveComplete m s
  | .watchdogFire m => Sys2Proof.Machine.execWatchdogFire m s
  | .invalidateTranslations ag => Sys2Proof.Machine.execInvalidateTranslations ag s
  | .cleanAndInvalidate ag => Sys2Proof.Machine.execCleanAndInvalidate ag s
  | .setPacked ag => Sys2Proof.Machine.execSetPacked ag s
  | .setUnpacked ag => Sys2Proof.Machine.execSetUnpacked ag s
  | .retryMiss ag => Sys2Proof.Machine.execRetryMiss ag s
  | .declineMiss ag => Sys2Proof.Machine.execDeclineMiss ag s
  | .maintenanceComplete => Sys2Proof.Machine.execMaintenanceComplete s
  | .wsRefreshWindow g => Sys2Proof.Machine.execWsRefreshWindow g s
  | .wsloadCopyStart k => Sys2Proof.Machine.execWsloadCopyStart k s
  | .wsloadComplete k => Sys2Proof.Machine.execWsloadComplete k s
  | .copyStart m k => Sys2Proof.Machine.execCopyStart m k s
  | .granuleLand m k => Sys2Proof.Machine.execGranuleLand m k s
  | .engineCommandStart m k => Sys2Proof.Machine.execEngineCommandStart m k s
  | .engineCommandComplete m k => Sys2Proof.Machine.execEngineCommandComplete m k s
  | .pageUnitOperation die k => Sys2Proof.Machine.execPageUnitOperation die k s
  | .kvcowCopyComplete m k => Sys2Proof.Machine.execKvcowCopyComplete m k s
  | .parkWake w cause => Sys2Proof.Machine.execParkWake w cause s
  | .warpRetire w => Sys2Proof.Machine.execWarpRetire w s
  | .blockRetire m => Sys2Proof.Machine.execBlockRetire m s
  | .taskRetire m => Sys2Proof.Machine.execTaskRetire m s
  | .drainSweepEnd grid => Sys2Proof.Machine.execDrainSweepEnd grid s
  | .freezeRequest ag => Sys2Proof.Machine.execFreezeRequest ag s
  | .thawRequest ag => Sys2Proof.Machine.execThawRequest ag s
  | .abortRequest ag => Sys2Proof.Machine.execAbortRequest ag s
  | .preemptRequest ag => Sys2Proof.Machine.execPreemptRequest ag s
  | .heldRequestApply m => Sys2Proof.Machine.execHeldRequestApply m s
  | .faultRecordAppend die => Sys2Proof.Machine.execFaultRecordAppend die s
  | .faultInterrupt => Sys2Proof.Machine.execFaultInterrupt s
  | .collStepBegin k => Sys2Proof.Machine.execCollStepBegin k s
  | .chunkTransfer k step => Sys2Proof.Machine.execChunkTransfer k step s
  | .inboundChunk k buf idx bytes => Sys2Proof.Machine.execInboundChunk k buf idx bytes s
  | .collComplete k => Sys2Proof.Machine.execCollComplete k s
  | .collTimeout k => Sys2Proof.Machine.execCollTimeout k s
  | .collAbort k code => Sys2Proof.Machine.execCollAbort k code s
  | .inboundRequest peer pa op => Sys2Proof.Machine.execInboundRequest peer pa op s
  | .cxlMemRequest pa op => Sys2Proof.Machine.execCxlMemRequest pa op s
  | .cxlSnoop pa => Sys2Proof.Machine.execCxlSnoop pa s
  | .cxlLinkDown => Sys2Proof.Machine.execCxlLinkDown s
  | .linkDown bit => Sys2Proof.Machine.execLinkDown bit s
  | .linkUp bit => Sys2Proof.Machine.execLinkUp bit s
  | .packageReset => Sys2Proof.Machine.execPackageReset s
  | .loadFirmware ag => Sys2Proof.Machine.execLoadFirmware ag s
  | .firmwareVerifyDone => Sys2Proof.Machine.execFirmwareVerifyDone s
  | .loadBlob ag => Sys2Proof.Machine.execLoadBlob ag s
  | .blobVerifyDone => Sys2Proof.Machine.execBlobVerifyDone s
  | .extendMeasurement ag => Sys2Proof.Machine.execExtendMeasurement ag s
  | .requestQuote ag => Sys2Proof.Machine.execRequestQuote ag s
  | .quoteDone => Sys2Proof.Machine.execQuoteDone s
  | .functionReady bit => Sys2Proof.Machine.execFunctionReady bit s
  | .throttle => Sys2Proof.Machine.execThrottle s
  | .criticalTemperature => Sys2Proof.Machine.execCriticalTemperature s
  | .remoteRefusal w k lanes => Sys2Proof.Machine.execRemoteRefusal w k lanes s
  | .throttleEnd => Sys2Proof.Machine.execThrottleEnd s

end Sys2Proof.Machine
end

