-- ==== Sys2Proof/Machine/Turn.lean ====
section
/-! DEFINITION. The turn of a warp: entering a clause, decoding the next word, the illegal-instruction checks, the scoreboard
and the lookahead spans, then the instruction (R113 to R117, R123, R124, R135, R136). -/

namespace Sys2Proof.Machine

/-- The subcodes of R135 that the instruction meets by the values it reads (R278, R311, R340, R366, R417 and the
descriptions): the conditions its meaning raises. -/
def Ctx.dynSubs (c : Ctx) (s : State) (i : Instr) : List Nat :=
  match i with
  | .cpy e => sliceSubs c e false false
  | .cpyTx e => sliceSubs c e true false
  | .cpyFo e => sliceSubs c e false true
  | .cpyTxFo e => sliceSubs c e true true
  | .ldws e => ldwsSubs c e false
  | .ldwsW e => ldwsSubs c e true
  | .swapw .. => arrayVariant c
  | .mma e v => mmaAll c e .mma v
  | .mmaChain e v => mmaAll c e .mmaChain v
  | .mmaSmx e v => mmaAll c e .mmaSmx v
  | .enct e => enctSubs c e false
  | .enctAuto e => enctSubs c e true
  | .accrd e | .accwr e => accSubs c e
  | .accz e => acczSubs c e
  | .accsc e => accscSubs c e
  | .xlat _ r _ _ | .xlatWr _ r _ _ => xlatSubs c r
  | .kvfork e => kvSubs c e .kvfork
  | .kvext e => kvSubs c e .kvext
  | .kvcow e => kvSubs c e .kvcow
  | .kvfree e => kvSubs c e .kvfree
  | .coll e => collSubs c e
  | .binit _ o d => binitSubs c o d
  | .bretire _ a n => bretireSubs c a n
  | .arrive _ o d | .expect _ o d => postSubs c o d
  | .waitph _ o d => phaseSubs c o (c.waited o d)
  | .testph _ o _ => phaseSubs c o (c.comparand o 31)
  | .waitb _ n => need (decide (n.toNat ≤ 15)) 8
  | .waitt _ m | .qfence _ m => need (m != 0) 8
  | .bind _ _ a => bindSubs a
  | .brc r _ => brcSubs r
  | .brx p a => brxSubs c p a
  | .call v _ => callSubs c v.toNat
  | .callx v a => callxSubs c v a
  | .ret => retSubs c
  | .tret => tretSubs c
  | .srd _ _ f n => srdSubs f n
  | .submit _ _ b | .launch _ _ b => submitSubs c b
  | .switchpt n => switchSubs c n
  | .step => stepSubs c
  | .reggive n => reggiveSubs c n
  | .regclaim _ n => regclaimSubs c n
  | .keydrop a => keydropSubs c a
  | .swr a n => swrSubs s c a n
  | .segset a g => segsetSubs c a g
  | .spillf _ n => spillfSubs c n
  | .fillf _ n => fillfSubs c n
  | .ctxsv _ a | .ctxld _ a => ctxSubs c a
  | .tlbinv a => tlbinvSubs c a
  | .freeze _ a | .thaw _ a => targetSubs c a
  | .perfsel _ a n => perfselSubs c a n
  | .iabs _ _ _ _ t => need t.signed 2
  | .bfx _ _ _ _ t => need (decide (32 ≤ t.bits)) 2
  | .iadd .. | .isub .. | .iaddSat .. | .isubSat .. | .imul .. | .imulh .. | .imin .. | .imax .. | .imad .. | .and ..
  | .or .. | .xor .. | .andn .. | .not .. | .ineg .. | .popc .. | .clz .. | .brev .. | .mov .. | .shl .. | .shr ..
  | .sar .. | .rot .. | .iset .. | .iaddc .. | .isubb .. | .bfi .. | .perm .. | .sel .. | .lea .. | .movi ..
  | .moviHi .. | .iaddImm .. | .isubImm .. | .andImm .. | .orImm .. | .xorImm .. | .shlImm .. | .shrImm ..
  | .sarImm .. | .rotImm .. | .imulImm .. | .fadd .. | .fsub .. | .fmul .. | .ffma .. | .fmin .. | .fmax .. | .fset ..
  | .frnd .. | .fclass .. | .rcp .. | .rsq .. | .sqrt .. | .ex2 .. | .lg2 .. | .sin .. | .cos .. | .tanh ..
  | .fdivs .. | .hadd2 .. | .hmul2 .. | .hfma2 .. | .cvt .. | .cvtMx .. | .qblk .. | .qdec .. | .qscale .. | .shfl ..
  | .vote .. | .ballot .. | .matchLane .. | .scan .. | .redux .. | .bmand .. | .ld .. | .st .. | .lda .. | .ldw ..
  | .atom .. | .red .. | .pref .. | .cctl .. | .seal .. | .parkG .. | .parkX .. | .fence .. | .xfence .. | .acq ..
  | .rel .. | .unbind .. | .bra .. | .nop .. | .exit .. | .trap .. | .trig | .waitdep | .beat | .movLong ..
  | .clauseEntry | .loadComplete .. | .ldaLanePerform .. | .registerWrite .. | .queueEnable .. | .queueDisable ..
  | .reserveIndexRead .. | .doorbell .. | .launchCommand .. | .taskCommand .. | .signal .. | .cadd .. | .cset ..
  | .wsload .. | .hold .. | .holdRelease .. | .queueResume .. | .counterApertureWrite .. | .heldCancelDelivery
  | .dispatchStep .. | .keyGrant .. | .warpRelease .. | .entryAged .. | .placementWaitLimit ..
  | .preemptionDelayExpiry .. | .readmissionDelayExpiry .. | .switchComplete .. | .preemptionTakeEffect ..
  | .contextSaveComplete .. | .watchdogFire .. | .invalidateTranslations .. | .cleanAndInvalidate .. | .setPacked ..
  | .setUnpacked .. | .retryMiss .. | .declineMiss .. | .maintenanceComplete | .wsRefreshWindow ..
  | .wsloadCopyStart .. | .wsloadComplete .. | .copyStart .. | .granuleLand .. | .engineCommandStart ..
  | .engineCommandComplete .. | .pageUnitOperation .. | .kvcowCopyComplete .. | .parkWake .. | .warpRetire ..
  | .blockRetire .. | .taskRetire .. | .drainSweepEnd .. | .freezeRequest .. | .thawRequest .. | .abortRequest ..
  | .preemptRequest .. | .heldRequestApply .. | .faultRecordAppend .. | .faultInterrupt | .collStepBegin ..
  | .chunkTransfer .. | .inboundChunk .. | .collComplete .. | .collTimeout .. | .collAbort .. | .inboundRequest ..
  | .cxlMemRequest .. | .cxlSnoop .. | .cxlLinkDown | .linkDown .. | .linkUp .. | .packageReset | .loadFirmware ..
  | .firmwareVerifyDone | .loadBlob .. | .blobVerifyDone | .extendMeasurement .. | .requestQuote .. | .quoteDone
  | .functionReady .. | .throttle | .criticalTemperature | .remoteRefusal .. | .throttleEnd => []

/-- XLAT holds a replay slot as M-format instructions do (R363). -/
def Instr.replays (i : Instr) : Bool :=
  Instr.isMem i || match i with
    | .xlat .. | .xlatWr .. => true
    | _ => false

/-- Raise the lookahead violation (R124). -/
def lookaheadTrap (s : State) (c : Ctx) : State :=
  s.takeTrap c.ref c.c 2 c.c.lanes c.c.pc (BitVec.ofNat 32 (256 * c.c.next))

/-- What the next word of the clause in progress makes the warp do: the state, and the instruction to execute in it. An
illegal instruction, a violated span and a wait leave none (R123, R124, R135, R136). -/
def State.issueWord (s : State) (c : Ctx) : State × Option Instr :=
  match decode (c.c.words.getD (c.c.next - 1) 0) (c.c.words.getD c.c.next 0) with
  | .illegal sub none => (illegal s c sub, none)
  | .illegal sub (some i) =>
    if c.w.blocked c.c i then (s, none) else (checked s c (sub :: c.dynSubs s i) s, none)
  | .instr i =>
    if c.w.blocked c.c i then (s, none)
    else if !(c.dynSubs s i).isEmpty then (s, some i)
    else if c.w.violates c.c i then (lookaheadTrap s c, none)
    else if Instr.replays i && c.w.replayFull then (s, none)
    else (s, some i)

/-- May the warp issue at all: its master runs, it has lanes, no fetch of it waits, and it is not kept at a clause boundary
by a pre-emption (R93, R107, R116)? -/
def Master.mayIssue (b : Master) (w : Warp) : Bool :=
  b.phase == .running && !w.retired && w.fetchMiss.isNone && !(b.preempt && w.atBoundary)

/-- The turn of a warp: the state with the warp current, and the instruction it then executes. With no clause in progress
it enters one (R113). -/
def State.issue (s : State) (r : WRef) : State × Option Instr :=
  match s.master r.m with
  | none => (s, none)
  | some b => match b.warps[r.w]? with
    | none => (s, none)
    | some w =>
      if !b.mayIssue w then (s, none)
      else
        let t := { s with cur := some r }
        match w.clause with
        | some c => t.issueWord ⟨r, b, w, c⟩
        | none => (t, if w.frontier.isEmpty then none else some .clauseEntry)

/-! ## What a step brings with it -/

/-- Entries that issue and entries set aside. -/
def Warp.standing (w : Warp) : List FEntry := w.frontier ++ (match w.handler with | some h => h.setAside | none => [])

/-- Words of a suspended clause that are fetched again as it goes on (R169). -/
def Warp.refetched (old w : Warp) : List Dword :=
  match w.clause with
  | none => []
  | some c =>
    let back := match old.handler, w.handler, old.stall, w.stall with
      | some _, none, _, _ => !w.tcause.getLsbD 31
      | _, _, some x, none => !x.completed
      | _, _, _, _ => false
    if back then (List.range c.words.length).map fun i => c.addr (i + 1) else []

/-- The words that a step reads of code beside those of the clause it enters: the header of each entry that is new (R144, log
7), and the words of a clause that goes on. -/
def Warp.codeReads (old : Option Warp) (w : Warp) : List Dword :=
  let before := match old with | some o => o.standing | none => []
  (w.standing.filter fun e => !before.contains e).map FEntry.addr ++ (match old with | some o => o.refetched w | none => [])

/-- These reads are requests like any other: translations are cached, and a packed bit that disagrees shows (R247, R255). -/
def State.readCode (s t : State) : State :=
  t.masters.foldl (fun u p => p.2.warps.zipIdx.foldl (fun u q =>
    (Warp.codeReads (s.warp ⟨p.1, q.2⟩) q.1).foldl (fun u a => (u.fetchWord p.2 a).1) u) u) t

/-- The warp's entries, highest-ranked first, each at its clause: the first 16 are on chip, the others spilled (R146). -/
def Warp.ranked (w : Warp) (prio : Dword → Nat) : List FEntry :=
  let atHeader (c : Clause) : Clause := { c with next := 0 }
  let x : Warp := { w with
    clause := w.clause.map atHeader
    handler := w.handler.map fun h => { h with susp := atHeader h.susp } }
  (x.recordEntries prio).map Prod.fst

/-- The same entry, after some of its lanes have left it or others have joined. -/
def FEntry.same (a b : FEntry) : Bool := a.addr == b.addr && a.base == b.base && a.lanes &&& b.lanes != 0

/-- Entries that the step has spilled and refilled (R146), counted for the core (R424, log 76). -/
def State.countSpills (s t : State) : State :=
  t.masters.foldl (fun u p => p.2.warps.zipIdx.foldl (fun u q =>
    let old := (s.warp ⟨p.1, q.2⟩).getD { q.1 with clause := none, frontier := [], held := [], handler := none }
    if decide (q.1.entryCount ≤ 16 ∧ old.entryCount ≤ 16) then u
    else
      let was := (old.ranked (s.headerPrio p.2)).drop 16
      let now := q.1.ranked (t.headerPrio p.2)
      let core := (p.2.coreHold q.2).core
      (u.perf p.2.die core 3 ((now.drop 16).filter fun e => !was.any e.same).length).perf p.2.die core 4
        ((now.take 16).filter fun e => was.any e.same).length) u) t

/-- Has a grid whose record is `key` made progress in this step? -/
def State.progressedOn (s : State) (key : Nat) : Bool := s.grids.any fun p => p.2.complKey == key && p.2.progressed

/-- R110: does progress elsewhere reset the timer of a block that waits so: in WAITDEP, or at STEP? -/
def State.lends (s t : State) (b : Master) : Bool :=
  b.phase.timed && (match s.gridOf b with
    | none => false
    | some g => (b.allWaitDep && g.producers.any t.progressedOn) || (b.atStep && (match t.gridOf b with
        | some x => x.progressed
        | none => false)))

/-- Timers that the step resets for progress elsewhere (R110). -/
def State.lend (s t : State) : State :=
  { t with
    masters := t.masters.map fun p => match s.master p.1 with
      | some b => if s.lends t b then (p.1, { p.2 with timer := t.cycles }) else p
      | none => p
    grids := t.grids.map fun p => (p.1, { p.2 with progressed := false }) }

/-- R404: masters that this step has frozen write their progress words. -/
def State.sealFrozen (s t : State) : State :=
  t.masters.foldl (fun u p =>
    let before := match s.master p.1 with | some b => b.phase == .frozen | none => false
    if p.2.phase == .frozen && !before then u.writeProgress p.1 else u) t

/-- Does the warp wait at the scoreboard for the next instruction of its clause (R123)? -/
def Warp.waitsForNames (w : Warp) : Bool :=
  match w.clause with
  | none => false
  | some c => match decode (c.words.getD (c.next - 1) 0) (c.words.getD c.next 0) with
    | .instr i | .illegal _ (some i) => w.blocked c i
    | .illegal _ none => false

/-- The cores (die, core) on which a warp of a master that holds them meets a condition. -/
def State.coresWhere (s : State) (p : Master → Warp → Bool) : List (Nat × Nat) :=
  (s.masters.flatMap fun q => q.2.warps.zipIdx.filterMap fun w =>
    if !q.2.cores.isEmpty && p q.2 w.1 then some (q.2.die, (q.2.coreHold w.2).core) else none).eraseDups

/-- Cycles in which all replay slots of a warp of the core are full, and in which one that could issue waits at the scoreboard
(R424). -/
def State.countStalls (s : State) (n : Nat) : State :=
  let count (t : State) (event : Nat) (l : List (Nat × Nat)) : State := l.foldl (fun t c => t.perf c.1 c.2 event n) t
  count (count s 5 (s.coresWhere fun _ w => w.replayFull)) 6 (s.coresWhere fun b w => b.mayIssue w && w.waitsForNames)

/-- The time of a PARK whose watched bytes nothing has written has passed (R345). -/
def Park.timed (k : Park) (now : Nat) : Park := { k with late := k.late || (!k.hit && decide (k.until' ≤ now)) }

/-- Pauses whose time has passed by now. -/
def State.timeParks (s : State) : State :=
  { s with masters := s.masters.map fun p => (p.1, { p.2 with
      warps := p.2.warps.map fun w => { w with park := w.park.map fun k => k.timed s.cycles } }) }

/-- Let time pass: cycles are counted, pauses end, and sweeps in progress read what falls due (R345, R424, R433). -/
def State.pass (s : State) (n : Nat) : State :=
  ({ (if n == 0 then s else s.countStalls n) with cycles := s.cycles + n } : State).timeParks.takeReadings

/-- What a move brings with it: reads of code, spills, progress lent, progress words. -/
def State.settle (s t : State) : State := s.sealFrozen (s.lend (s.countSpills (s.readCode t)))

/-- Seal the outcome of a move. -/
def State.sealOutcome (s : State) : Host.Outcome State Fault Refusal → Host.Outcome State Fault Refusal
  | .next t => .next (s.settle t)
  | .fault f => .fault f
  | .refused f => .refused f

/-- Carry out one turn. A turn of a warp that cannot issue, an instruction named as an event, and anything but a package
reset on a part that has stopped (R448) leave the machine as it is. -/
def runTurn (s : State) (turn : Turn) : Host.Outcome State Fault Refusal :=
  if s.halted && turn != .event .packageReset then .next s
  else match turn with
    | .warp r => match s.issue r with
      | (t, none) => s.sealOutcome (.next t)
      | (t, some i) => s.sealOutcome (exec i t)
    | .event i => if i.isEvent then s.sealOutcome (exec i { s with cur := none }) else .next s
    | .background b => s.sealOutcome (runBackground b s)

end Sys2Proof.Machine
end

