-- ==== Sys2Proof/Machine/Step.lean ====
section
/-! DEFINITION. One step: the schedule's next move, or a free one (log 1); time passes, and a warp, an event or a happening
takes its turn. -/

namespace Sys2Proof.Config

/-- The moves that no schedule names: who moves next is open (log 1). -/
opaque nextMove : Nat → Machine.Move

end Sys2Proof.Config

namespace Sys2Proof.Machine

/-- The next move, and the state without it. -/
def State.takeMove (s : State) : State × Move :=
  match s.schedule with
  | m :: r => ({ s with schedule := r }, m)
  | [] => ({ s with freeTick := s.freeTick + 1 }, Config.nextMove s.freeTick)

/-- One step of the machine. -/
def step (s : State) : Host.Outcome State Fault Refusal :=
  runTurn (s.takeMove.1.pass s.takeMove.2.cycles) s.takeMove.2.turn

/-! ## Laying out one instruction (log 37) -/

/-- The image of a one-warp program with every resource a block can declare at hand. -/
def probeImage : Image where
  base := 0x10000
  size := 4096
  id := 1
  stepCarried := 0
  variants := [{ (default : Variant) with
    warps := 1, span := 1, frames := 16, slots := 16, scratch := 65536, hwbars := 16, acc := 2, stages := [1, 0, 0, 0]
    codeSize := 4096, switches := [⟨0, 0, 0⟩] }]

/-- Its grid: one privileged block of 128 threads, with a handler for every trap. -/
def probeGrid : Grid := { (default : Grid) with
  id := 1, privileged := true, ctx := ⟨1, 0, 0, 2 ^ 31, 0, 2 ^ 32⟩, image := probeImage, started := true, nextLin := 1
  diesUsed := 1, sent := List.replicate 8 0, received := List.replicate 8 0
  launch := { (default : Launch) with
    varMask := 1, wdExp := 20, gx := 1, gy := 1, gz := 1, bx := 128, by' := 1, bz := 1, minDies := 1, maxDies := 1
    dieMask := 1, traps := List.replicate 32 0x10400 } }

/-- Its one warp, about to issue the first of the two words. -/
def probeWarp (w0 w1 : Word) : Warp :=
  { Warp.entry 16 [] (List.replicate 63 0) with clause := some ⟨0x10000, [w0, w1], 1, Mask.all, 0, 0, []⟩ }

/-- Its block, placed on core 0 of die 0. -/
def probeBlock (u now : Nat) (w0 w1 : Word) : Master :=
  { Master.ofBlock probeGrid u 0 0 0 now 0 [⟨0, [0], 64, 0, 65536, 16, List.range 16, true, [0, 1], 0⟩] [] with
    warps := [probeWarp w0 w1] }

/-- The machine with a block in it whose warp's clause holds the instruction of a table word (its first word in the low 32
bits, zeros above `nbits`), and with that warp's turn next. -/
def State.withFetchWord (s : State) (nbits w : Nat) : State :=
  let v := w % 2 ^ nbits
  let u := freshKey s.grids
  let m := freshKey s.masters
  { s with
    halted := false
    grids := aset s.grids u probeGrid
    masters := aset s.masters m (probeBlock u s.cycles (BitVec.ofNat 32 v) (BitVec.ofNat 32 (v / 2 ^ 32)))
    schedule := ⟨0, .warp ⟨m, 0⟩⟩ :: s.schedule }

end Sys2Proof.Machine
end

