-- ==== Sys2Proof/Safety.lean ====
section
/-! DEFINITION. What counts as a safe run, and the terms the statements use: the machine goes on, memory keeps its
canonical form, and an instruction of one warp leaves everything else as it was. -/

namespace Sys2Proof.Machine

/-- The outcome is a next state. -/
def goesOn (o : Host.Outcome State Fault Refusal) : Prop := ∃ t, o = .next t

/-- Every memory of the machine is in canonical form: its homes, and each master's scratch memory. -/
def State.memOk (s : State) : Prop := s.mem.wf = true ∧ ∀ p ∈ s.masters, p.2.x.wf = true

/-- A run of n steps that never stops. -/
def safeRun : Nat → State → Prop
  | 0, _ => True
  | n + 1, s => ∃ t, step s = .next t ∧ safeRun n t

/-- Everything but warp r is as it was: memory, queues, tables, every other block and task, the warp's own block but for its
other warps being the same. What may differ beside the warp are the counts of performance events (R424), the time from
which the watchdog counts (R109) and the mark that the block's grid has made progress (R110), which every instruction moves. -/
structure SameElsewhere (s t : State) (r : WRef) : Prop where
  rest : { t with masters := s.masters, grids := s.grids, dies := s.dies } = s
  dies : ∀ d, d < 8 → { t.die d with perf := (s.die d).perf } = s.die d
  grids : ∀ u, (aget t.grids u).map (fun g => { g with progressed := false }) =
    (aget s.grids u).map (fun g => { g with progressed := false })
  masters : ∀ m, m ≠ r.m → t.master m = s.master m
  own : ∀ b, s.master r.m = some b → ∃ b', t.master r.m = some b' ∧ { b' with warps := b.warps, timer := b.timer } = b ∧
    ∀ j, j ≠ r.w → b'.warps[j]? = b.warps[j]?

/-- The outcome is a next state in which the warp is `w`, moved past `n` words of its clause, and everything else is as in
`u`. -/
def Completes (u : State) (c : Ctx) (n : Nat) (w : Warp) (o : Host.Outcome State Fault Refusal) : Prop :=
  ∃ t, o = .next t ∧ SameElsewhere u t c.ref ∧ t.warp c.ref = some (u.stepOver c.b w c.c n)

/-- The outcome is a next state in which the warp is `w` with its clause ended, its lanes having reached the named places, and
everything else is as in `u`. -/
def CompletesTo (u : State) (c : Ctx) (w : Warp) (rs : List Reach) (o : Host.Outcome State Fault Refusal) : Prop :=
  ∃ t, o = .next t ∧ SameElsewhere u t c.ref ∧ t.warp c.ref = some (u.endClause c.b w rs)

/-! ## What an instruction writes to registers -/

/-- The warp with per-thread register d, or the pair d:d+1 when `n` is 2, of the window at `base` holding `f` in the lanes of
`m`, and nothing else changed; vz discards (R119, R147). -/
structure WritesV (w w' : Warp) (base : Nat) (d : Reg5) (n : Nat) (m : Mask) (f : Nat → Dword) : Prop where
  low : d ≠ 31 → ∀ l, l < 128 → m.has l = true → w'.v base d.toNat l = (f l).extractLsb' 0 32
  high : d ≠ 31 → n = 2 → ∀ l, l < 128 → m.has l = true → w'.v base (d.toNat + 1) l = (f l).extractLsb' 32 32
  kept : ∀ b r l, r ≠ 31 → l < 128 → (d = 31 ∨ m.has l = false ∨
    (vKey b r ≠ vKey base d.toNat ∧ (n = 2 → vKey b r ≠ vKey base (d.toNat + 1)))) → w'.v b r l = w.v b r l
  rest : { w' with regs := w.regs } = w

/-- The warp with uniform register r, or the pair r:r+1 when `n` is 2, holding `x`, and nothing else changed; sz (63)
discards (R119, R152). -/
structure WritesS (w w' : Warp) (r n : Nat) (x : Dword) : Prop where
  low : r < 63 → w'.s r = x.extractLsb' 0 32
  high : n = 2 → r + 1 < 63 → w'.s (r + 1) = x.extractLsb' 32 32
  kept : ∀ k, k ≤ 63 → (r = 63 ∨ (k ≠ r ∧ (n = 2 → k ≠ r + 1))) → w'.s k = w.s k
  rest : { w' with unif := w.unif } = w

/-- The warp with predicate q holding `x` in the lanes of `m`, and nothing else changed; pt (7) discards (R119, R153). -/
structure WritesP (w w' : Warp) (q : Nat) (m x : Mask) : Prop where
  value : q < 7 → ∀ l, l < 128 → (w'.p q).has l = if m.has l then x.has l else (w.p q).has l
  kept : ∀ k, k ≤ 7 → k ≠ q → w'.p k = w.p k
  rest : { w' with preds := w.preds } = w

/-- The warp moves on with one result written: a uniform destination once, or a per-thread one in each executing lane. `R l`
says what a result of lane l is. -/
def Writes (s : State) (c : Ctx) (uniform : Bool) (d : Reg5) (n len : Nat) (m : Mask) (R : Nat → Dword → Prop)
    (o : Host.Outcome State Fault Refusal) : Prop :=
  if uniform then ∃ w x, R 0 x ∧ WritesS c.w w (u5 d) n x ∧ Completes s c len w o
  else ∃ w f, (∀ l, l < 128 → m.has l = true → R l (f l)) ∧ WritesV c.w w c.c.base d n m f ∧ Completes s c len w o

/-- The a operand: the uniform file or lane l. -/
def opA (c : Ctx) (uniform : Bool) (n : Nat) (a : Reg5) (l : Nat) : Dword := if uniform then c.sn n a else c.vn n a l

/-- Is the file of a unary instruction the uniform one (R126)? -/
def unUniform : UnFile → Bool | .uni => true | .thread => false

/-- The `n` bits of a word from bit k on. -/
def field (x : Word) (k n : Nat) : Nat := x.toNat / 2 ^ k % 2 ^ n

/-- Does some executing lane raise class k? -/
def raises (m : Mask) (exc : Nat → Exc) (k : Nat) : Bool := m.lanes.any fun l => (exc l).getLsbD k

/-- How a floating-point instruction of `len` words ends, its destinations written in `w` (R196): the flags gather what the
executing lanes raised; with no enabled class raised the warp moves on; otherwise it takes one trap, with the vector of the
lowest class both raised and enabled, the lanes that raised an enabled class, the instruction's address, and the classes and
the word index in %tinfo. -/
def FloatEnds (s : State) (c : Ctx) (len : Nat) (m : Mask) (w : Warp) (exc : Nat → Exc)
    (o : Host.Outcome State Fault Refusal) : Prop :=
  ∃ fl : Exc, (∀ k, k < 5 → fl.getLsbD k = (c.w.fflags.getLsbD k || raises m exc k)) ∧
    ((∀ k, k < 5 → c.w.fctl.getLsbD k = true → raises m exc k = false) → Completes s c len { w with fflags := fl } o) ∧
    ∀ k, k < 5 → c.w.fctl.getLsbD k = true → raises m exc k = true →
      (∀ j, j < k → c.w.fctl.getLsbD j = true → raises m exc j = false) →
      ∃ (t : State) (lanes : Mask) (info : Word), o = .next (t.takeTrap c.ref c.c (3 + k) lanes c.c.pc info) ∧
        SameElsewhere s t c.ref ∧ t.warp c.ref = some { w with fflags := fl } ∧
        (∀ l, l < 128 → (lanes.has l = true ↔ m.has l = true ∧ exc l &&& c.w.fctl ≠ 0)) ∧
        (∀ j, j < 5 → info.getLsbD j = raises m exc j) ∧ field info 5 3 = 0 ∧
        (c.c.next < 16 → info.toNat / 256 = c.c.next)

end Sys2Proof.Machine
end

