-- ==== Sys2Proof/Certificates/Slice0/Obligations.lean ====
section
/-! DEFINITION. The statements for the provers. The definitions of `Sys2Proof.Claims` are the terms they use. -/

namespace Sys2Proof.Claims

open Sys2Proof.Machine

/-! ## Integer results (R182 to R192) -/

/-- The low w bits of an operand as a number. -/
def low (t : IntTy) (x : Dword) : Nat := x.toNat % 2 ^ t.bits

/-- What an operand is worth (R182): two's complement for an .i type, unsigned for an .n type. -/
def worth (t : IntTy) (x : Dword) : Int :=
  if t.signed && x.getLsbD (t.bits - 1) then (low t x : Int) - 2 ^ t.bits else low t x

/-- For widths of 32 or less the destination word is the extension of the result's low w bits (R182). -/
def Extended (t : IntTy) (x : Dword) : Prop :=
  t.bits ≤ 32 → ((x.extractLsb' 0 32).toNat : Int) % 2 ^ 32 = worth t x % 2 ^ 32

/-- `x` is the result `r` modulo 2^w, extended (R182, R184). -/
def IsValue (t : IntTy) (r : Int) (x : Dword) : Prop := (low t x : Int) = r % 2 ^ t.bits ∧ Extended t x

/-- `x` has `f i` as its bit i below w, and is extended. -/
def IsBits (t : IntTy) (f : Nat → Bool) (x : Dword) : Prop := (∀ i, i < t.bits → x.getLsbD i = f i) ∧ Extended t x

/-- What each two-operand instruction says of a result, from the operands A and B (R184). -/
def intBinary : List ((Pred → Reg5 → Reg5 → IntB → IntTy → Instr) × (IntTy → Dword → Dword → Dword → Prop)) :=
  let lo (t : IntTy) : Int := if t.signed then -2 ^ (t.bits - 1) else 0
  let hi (t : IntTy) : Int := if t.signed then 2 ^ (t.bits - 1) - 1 else 2 ^ t.bits - 1
  let clamp (t : IntTy) (r : Int) : Int := if r < lo t then lo t else if hi t < r then hi t else r
  [(.iadd, fun t a b => IsValue t (worth t a + worth t b)),
   (.isub, fun t a b => IsValue t (worth t a - worth t b)),
   (.iaddSat, fun t a b => IsValue t (clamp t (worth t a + worth t b))),
   (.isubSat, fun t a b => IsValue t (clamp t (worth t a - worth t b))),
   (.imul, fun t a b => IsValue t (worth t a * worth t b)),
   (.imulh, fun t a b => IsValue t (Int.fdiv (worth t a * worth t b) (2 ^ t.bits))),
   (.imin, fun t a b => IsValue t (if worth t b < worth t a then worth t b else worth t a)),
   (.imax, fun t a b => IsValue t (if worth t a < worth t b then worth t b else worth t a)),
   (.and, fun t a b => IsBits t fun i => a.getLsbD i && b.getLsbD i),
   (.or, fun t a b => IsBits t fun i => a.getLsbD i || b.getLsbD i),
   (.xor, fun t a b => IsBits t fun i => a.getLsbD i != b.getLsbD i),
   (.andn, fun t a b => IsBits t fun i => a.getLsbD i && !b.getLsbD i)]

/-- The shifts and BFX: the single-register b gives the amount, or position and width (R187, R188). -/
def intShift : List ((Pred → Reg5 → Reg5 → IntB → IntTy → Instr) × (IntTy → Dword → Dword → Dword → Prop)) :=
  let amount (b : Dword) : Nat := b.toNat % 256
  let top (t : IntTy) (a : Dword) : Bool := a.getLsbD (t.bits - 1)
  [(.shl, fun t a b => IsBits t fun i => decide (amount b ≤ i) && a.getLsbD (i - amount b)),
   (.shr, fun t a b => IsBits t fun i => decide (i + amount b < t.bits) && a.getLsbD (i + amount b)),
   (.sar, fun t a b => IsBits t fun i => if i + amount b < t.bits then a.getLsbD (i + amount b) else top t a),
   (.rot, fun t a b => IsBits t fun i => a.getLsbD ((i + (t.bits - amount b % t.bits)) % t.bits)),
   (.bfx, fun t a b =>
      let p := b.toNat % 256
      let len := min (p + b.toNat / 256 % 256) t.bits - p
      IsBits t fun i => if len = 0 then false
        else if i < len then a.getLsbD (p + i) else t.signed && a.getLsbD (p + len - 1))]

/-- The unary instructions with a result of the type's width (R184). -/
def intUnary : List ((Pred → Reg5 → Reg5 → UnFile → IntTy → Instr) × (IntTy → Dword → Dword → Prop)) :=
  [(.not, fun t a => IsBits t fun i => !a.getLsbD i),
   (.iabs, fun t a => IsValue t (if worth t a < 0 then -worth t a else worth t a)),
   (.ineg, fun t a => IsValue t (-worth t a)),
   (.brev, fun t a => IsBits t fun i => a.getLsbD (t.bits - 1 - i))]

/-- POPC and CLZ write one register (R184). -/
def intCount : List ((Pred → Reg5 → Reg5 → UnFile → IntTy → Instr) × (IntTy → Dword → Dword → Prop)) :=
  [(.popc, fun t a x => (x.extractLsb' 0 32).toNat = ((List.range t.bits).filter fun i => a.getLsbD i).length),
   (.clz, fun t a x =>
      let n := (x.extractLsb' 0 32).toNat
      n ≤ t.bits ∧ (∀ i, i < t.bits → t.bits ≤ i + n → a.getLsbD i = false) ∧
        (n < t.bits → a.getLsbD (t.bits - 1 - n) = true))]

end Sys2Proof.Claims

open Sys2Proof Sys2Proof.Machine Sys2Proof.Claims

/-- R184 for the twelve two-operand instructions, with R182's operand files and extension: each completes with the result in
its destination and nothing else changed. -/
def Sys2Proof.Claims.IntBinaryResultsPart : Prop :=
  ∀ e ∈ intBinary, ∀ (s : State) (c : Ctx) (p : Pred) (d a : Reg5) (b : IntB) (t : IntTy),
    s.ctx = some c → (e.1 p d a b t).WellFormed = true →
    Writes s c b.uniform d t.nregs b.len (c.active p)
      (fun l => e.2 t (opA c b.uniform t.nregs a l) (c.intB b t.nregs t l)) (exec (e.1 p d a b t) s)

/-- R187 and R188 for the shifts and BFX. -/
def Obligations.IntShiftResults : Prop :=
  (∀ e ∈ intShift, ∀ (s : State) (c : Ctx) (p : Pred) (d a : Reg5) (b : IntB) (t : IntTy),
    s.ctx = some c → (e.1 p d a b t).WellFormed = true → (32 ≤ t.bits ∨ ∀ x, e.1 p d a b t ≠ .bfx p d a b x) →
    Writes s c b.uniform d t.nregs b.len (c.active p)
      (fun l => e.2 t (opA c b.uniform t.nregs a l) (c.intB b 1 t l)) (exec (e.1 p d a b t) s)) ∧
  ∀ (s : State) (c : Ctx) (p : Pred) (d a : Reg5) (b : IntB) (t : IntTy),
    s.ctx = some c → t.bits < 32 → exec (.bfx p d a b t) s = .next (illegal s c 2)

/-- R184 for the unary instructions and MOV; IABS has no unsigned types (R183). -/
def Obligations.IntUnaryResults : Prop :=
  (∀ e ∈ intUnary, ∀ (s : State) (c : Ctx) (p : Pred) (d a : Reg5) (f : UnFile) (t : IntTy),
    s.ctx = some c → (e.1 p d a f t).WellFormed = true → (t.signed = true ∨ ∀ x, e.1 p d a f t ≠ .iabs p d a f x) →
    Writes s c (unUniform f) d t.nregs 1 (c.active p) (fun l => e.2 t (opA c (unUniform f) t.nregs a l))
      (exec (e.1 p d a f t) s)) ∧
  (∀ e ∈ intCount, ∀ (s : State) (c : Ctx) (p : Pred) (d a : Reg5) (f : UnFile) (t : IntTy),
    s.ctx = some c → (e.1 p d a f t).WellFormed = true →
    Writes s c (unUniform f) d 1 1 (c.active p) (fun l => e.2 t (opA c (unUniform f) t.nregs a l))
      (exec (e.1 p d a f t) s)) ∧
  (∀ (s : State) (c : Ctx) (p : Pred) (d : Reg5) (b : IntB) (t : IntTy),
    s.ctx = some c → (Instr.mov p d b t).WellFormed = true →
    Writes s c b.uniform d t.nregs b.len (c.active p) (fun l => IsValue t (worth t (c.intB b t.nregs t l)))
      (exec (.mov p d b t) s)) ∧
  ∀ (s : State) (c : Ctx) (p : Pred) (d a : Reg5) (f : UnFile) (t : IntTy),
    s.ctx = some c → t.signed = false → exec (.iabs p d a f t) s = .next (illegal s c 2)

namespace Sys2Proof.Claims

open Sys2Proof.Machine

/-- IADDC and ISUBB: what the pair holds, from A, B and the carry in (R186). -/
def isCarry (sub : Bool) (a b cin : Nat) (x : Dword) : Prop :=
  if sub then
    ((x.extractLsb' 0 32).toNat : Int) = ((a : Int) - b - cin) % 2 ^ 32 ∧
      (x.extractLsb' 32 32).toNat = if (a : Int) - b - cin < 0 then 1 else 0
  else
    (x.extractLsb' 0 32).toNat = (a + b + cin) % 2 ^ 32 ∧
      (x.extractLsb' 32 32).toNat = if 2 ^ 32 ≤ a + b + cin then 1 else 0

/-- R190: the comparison of the operands' values. -/
def compares (cc : ICond) (a b : Int) : Prop :=
  match cc with
  | .eq => a = b | .ne => a ≠ b | .lt => a < b | .le => a ≤ b | .gt => a > b | .ge => a ≥ b

/-- The immediate forms (R192): the .n32 result with B the immediate. -/
def intImmediate : List ((Pred → Reg5 → Reg5 → BitVec 8 → Instr) × (Dword → Nat → Dword → Prop)) :=
  let shifted (f : Dword → Nat → Nat → Bool) (a : Dword) (n : Nat) : Dword → Prop := IsBits .n32 (f a n)
  [(.iaddImm, fun a n => IsValue .n32 (worth .n32 a + n)),
   (.isubImm, fun a n => IsValue .n32 (worth .n32 a - n)),
   (.imulImm, fun a n => IsValue .n32 (worth .n32 a * n)),
   (.andImm, fun a n => IsBits .n32 fun i => a.getLsbD i && n.testBit i),
   (.orImm, fun a n => IsBits .n32 fun i => a.getLsbD i || n.testBit i),
   (.xorImm, fun a n => IsBits .n32 fun i => a.getLsbD i != n.testBit i),
   (.shlImm, shifted fun a n i => decide (n ≤ i) && a.getLsbD (i - n)),
   (.shrImm, shifted fun a n i => decide (i + n < 32) && a.getLsbD (i + n)),
   (.sarImm, shifted fun a n i => a.getLsbD (if i + n < 32 then i + n else 31)),
   (.rotImm, shifted fun a n i => a.getLsbD ((i + (32 - n % 32)) % 32))]

end Sys2Proof.Claims

/-- IMAD, IADDC, ISUBB and ISET. -/
def Sys2Proof.Claims.IntWideResultsPart : Prop :=
  (∀ (s : State) (c : Ctx) (p : Pred) (d a b e : Reg5) (t : WideTy), s.ctx = some c → (Instr.imad p d a b e t).WellFormed = true →
    Writes s c false d t.nregs 1 (c.active p) (fun l => IsValue t.ty (worth t.ty (c.vn t.nregs a l) * worth t.ty (c.vn t.nregs b l) +
      worth t.ty (c.vn t.nregs e l))) (exec (.imad p d a b e t) s)) ∧
  (∀ (s : State) (c : Ctx) (p : Pred) (d a : Reg5) (b : IntB) (sub : Bool), s.ctx = some c →
    (Instr.iaddc p d a b).WellFormed = true →
    Writes s c b.uniform d 2 b.len (c.active p) (fun l => isCarry sub (low .n32 (opA c b.uniform 1 a l))
      (low .n32 (c.intB b 1 .n32 l)) (((opA c b.uniform 2 d l).getLsbD 32).toNat))
      (exec (if sub then .isubb p d a b else .iaddc p d a b) s)) ∧
  ∀ (s : State) (c : Ctx) (p : Pred) (q : BitVec 3) (a b : Reg5) (u : Bool) (cc : ICond) (t : WideTy), s.ctx = some c →
    (Instr.iset p q a b u cc t).WellFormed = true →
    ∃ w x, WritesP c.w w q.toNat (c.active p) x ∧ Completes s c 1 w (exec (.iset p q a b u cc t) s) ∧
      ∀ l, l < 128 → (x.has l = true ↔ compares cc (worth t.ty (c.vn t.nregs a l))
        (worth t.ty (if u then c.sn t.nregs b else c.vn t.nregs b l)))

/-- R189 and R191: BFI, PERM, SEL, LEA, MOVI and MOVI.hi, and MOV's long form (R134). -/
def Sys2Proof.Claims.IntFieldResultsPart : Prop :=
  ∀ (s : State) (c : Ctx) (p : Pred) (d a b e : Reg5), s.ctx = some c → p.ok = [] →
  let one (R : Nat → Word → Prop) (i : Instr) : Prop :=
    Writes s c false d 1 1 (c.active p) (fun l x => R l (x.extractLsb' 0 32)) (exec i s)
  one (fun l x => ∀ i, i < 32 → x.getLsbD i =
      (let k := field (c.v1 e l) 0 8
       let q := min (field (c.v1 e l) 8 8) 32
       if k ≤ i ∧ i < min (k + q) 32 then (c.v1 b l).getLsbD (i - k) else (c.v1 a l).getLsbD i)) (.bfi p d a b e) ∧
  one (fun l x => ∀ k, k < 4 → field x (8 * k) 8 =
      (let n := field (c.v1 e l) (4 * k) 4
       let y := if n % 8 < 4 then field (c.v1 a l) (8 * (n % 8)) 8 else field (c.v1 b l) (8 * (n % 8 - 4)) 8
       if n < 8 then y else if y < 128 then 0x00 else 0xFF)) (.perm p d a b e) ∧
  (∀ n : BitVec 3, one (fun l x => x = if (c.w.p n.toNat).has l then c.v1 a l else c.v1 b l) (.sel p d a b n)) ∧
  (∀ n : BitVec 5, one (fun l x => x.toNat = ((c.v1 a l).toNat + (c.v1 b l).toNat * 2 ^ n.toNat) % 2 ^ 32) (.lea p d a b n)) ∧
  (∀ n : BitVec 16, one (fun _ x => x.toNat = n.toNat) (.movi p d n)) ∧
  (∀ n : BitVec 16, one (fun l x => field x 16 16 = n.toNat ∧ field x 0 16 = field (c.v1 d l) 0 16) (.moviHi p d n)) ∧
  ∀ f g : Reg6, ∃ w, WritesS c.w w f.toNat 1 ((c.w.s g.toNat).setWidth 64) ∧ Completes s c 2 w (exec (.movLong f g) s)

/-- R185, R186, R189, R190, R191 and MOV's long form. -/
def Obligations.IntWideResults : Prop :=
  Sys2Proof.Claims.IntWideResultsPart ∧ Sys2Proof.Claims.IntFieldResultsPart

/-- R192. -/
def Sys2Proof.Claims.IntImmediateResultsPart : Prop :=
  ∀ e ∈ intImmediate, ∀ (s : State) (c : Ctx) (p : Pred) (d a : Reg5) (n : BitVec 8), s.ctx = some c →
    (e.1 p d a n).WellFormed = true →
    Writes s c false d 1 1 (c.active p) (fun l => e.2 (c.vn 1 a l) n.toNat) (exec (e.1 p d a n) s)

/-- R184 and R192: the two-operand instructions, and their forms with an immediate. -/
def Obligations.IntBinaryResults : Prop :=
  Sys2Proof.Claims.IntBinaryResultsPart ∧ Sys2Proof.Claims.IntImmediateResultsPart

namespace Sys2Proof.Claims

open Sys2Proof.Machine

/-- What each floating-point instruction with one per-thread result does in a lane: predicate, destination, words, and the
value with the classes raised (R198 to R207, R233, R234). -/
def floatLane : Instr → Option (Pred × Reg5 × Nat × (Ctx → Nat → Word × Exc))
  | .fadd p d a b r f t => some (p, d, b.len, fun c l => fpArith .add t.fmt r f (c.v1 a l) (c.fltB b l))
  | .fsub p d a b r f t => some (p, d, b.len, fun c l => fpArith .sub t.fmt r f (c.v1 a l) (c.fltB b l))
  | .fmul p d a b r f t => some (p, d, b.len, fun c l => fpArith .mul t.fmt r f (c.v1 a l) (c.fltB b l))
  | .fdivs p d a b r f => some (p, d, b.len, fun c l => fpArith .div .f32 r f (c.v1 a l) (c.fltB b l))
  | .ffma p d a b e r => some (p, d, 1, fun c l => fpFma .f32 r (c.v1 a l) (c.v1 b l) (c.v1 e l))
  | .fmin p d a b f t => some (p, d, b.len, fun c l => fpMinMax false t f (c.v1 a l) (c.fltB b l))
  | .fmax p d a b f t => some (p, d, b.len, fun c l => fpMinMax true t f (c.v1 a l) (c.fltB b l))
  | .frnd p d a r f t => some (p, d, 1, fun c l => fpRound t r f (c.v1 a l))
  | .fclass p d a f t => some (p, d, 1, fun c l => (fpClass t f (c.v1 a l), 0))
  | .rcp p d a f => some (p, d, 1, fun c l => transOp .rcp f (c.v1 a l))
  | .rsq p d a f => some (p, d, 1, fun c l => transOp .rsq f (c.v1 a l))
  | .sqrt p d a f => some (p, d, 1, fun c l => transOp .sqrt f (c.v1 a l))
  | .ex2 p d a f => some (p, d, 1, fun c l => transOp .ex2 f (c.v1 a l))
  | .lg2 p d a f => some (p, d, 1, fun c l => transOp .lg2 f (c.v1 a l))
  | .sin p d a f => some (p, d, 1, fun c l => transOp .sin f (c.v1 a l))
  | .cos p d a f => some (p, d, 1, fun c l => transOp .cos f (c.v1 a l))
  | .tanh p d a f => some (p, d, 1, fun c l => transOp .tanh f (c.v1 a l))
  | .hadd2 p d a b r t => some (p, d, b.len, fun c l => fpPair .add t r (c.v1 a l) (c.fltB b l))
  | .hmul2 p d a b r t => some (p, d, b.len, fun c l => fpPair .mul t r (c.v1 a l) (c.fltB b l))
  | .hfma2 p d a b e t => some (p, d, 1, fun c l => fpPairFma t (c.v1 a l) (c.v1 b l) (c.v1 e l))
  | .cvt p d a w => some (p, d, 2, fun c l => cvtLane w (c.v1 a l))
  | .cvtMx p d a b w => some (p, d, 2, fun c l => cvtMxLane w (c.v1 a l) (c.v1 b l))
  | _ => none

/-- The lanes of a group of `n` that executes lane l. -/
def groupOf (m : Mask) (n l : Nat) : List Nat := ((List.range n).filter fun k => m.has (l - l % n + k)).map (l - l % n + ·)

/-- The combination of the values of some lanes, in order, from the identity (R212, R213). -/
def combined (o : LaneOp) (t : LaneTy) (f : Nat → Word) (ls : List Nat) : Word :=
  ls.foldl (fun x l => (laneCombine o t x (f l)).1) (laneIdentity o t)

/-- The lane SHFL reads (R210). -/
def shflFrom (m : ShflMode) (seg l n : Nat) : Nat :=
  let base := l - l % seg
  match m with
  | .idx => base + n % seg
  | .up => if n < seg ∧ base + n ≤ l then l - n else l
  | .down => if n < seg ∧ l + n < base + seg then l + n else l
  | .xor => base + Nat.xor (l - base) (n % seg)

end Sys2Proof.Claims

namespace Sys2Proof.Claims

open Sys2Proof.Machine

/-- Is the value finite? -/
def Finite (x : FVal) : Prop := x.isNaN = false ∧ x.isInf = false

/-- A finite value in units of 2^-300, which divide every value of every format. -/
def scaled (x : FVal) : Int :=
  match x with
  | .fin neg m e => (if neg then -1 else 1) * (m : Int) * 2 ^ (e + 300).toNat
  | _ => 0

/-- The first magnitude beyond the format's range, and its largest finite one, in the same units. -/
def beyond (t : FltTy) : Int := 2 ^ (300 + match t with | .f32 | .bf16 => 128 | .f16 => 16)
def largest (t : FltTy) : Int := beyond t - 2 ^ (300 + match t with | .f32 => 104 | .bf16 => 120 | .f16 => 5)

/-- The magnitude of an integer. -/
def mag (x : Int) : Int := x.natAbs

/-- Does num/den, in those units, round out of the range (R193, R218)? -/
def Overflows (t : FltTy) (rd : Rnd) (num den : Int) : Prop :=
  match rd with
  | .rn => (largest t + beyond t) * den ≤ 2 * mag num
  | .rz => beyond t * den ≤ mag num
  | .rm => beyond t * den ≤ num ∨ num < -(largest t * den)
  | .rp => largest t * den < num ∨ num ≤ -(beyond t * den)

/-- Is v the value nearest to num/den, or the next one in the direction of rounding, among those of `all`? `even` says that v
wins a tie. -/
def Chosen (rd : Rnd) (num den v : Int) (even : Prop) (all : Int → Prop) : Prop :=
  match rd with
  | .rn => ∀ y, all y → mag (num - v * den) ≤ mag (num - y * den) ∧ (mag (num - v * den) = mag (num - y * den) → y ≠ v → even)
  | .rz => mag (v * den) ≤ mag num ∧ 0 ≤ v * num ∧ ∀ y, all y → mag (y * den) ≤ mag num → mag y ≤ mag v
  | .rm => v * den ≤ num ∧ ∀ y, all y → y * den ≤ num → y ≤ v
  | .rp => num ≤ v * den ∧ ∀ y, all y → num ≤ y * den → v ≤ y

/-- The register `r` is num/den rounded once to the type, and `e` the classes raised, underflow apart (R193, R198, R218). -/
structure Rounded (t : FltTy) (rd : Rnd) (num den : Int) (r : Word) (e : Exc) : Prop where
  width : t ≠ .f32 → r.toNat < 2 ^ 16
  classes : e.getLsbD 0 = false ∧ e.getLsbD 1 = false
  overflow : Overflows t rd num den → e.getLsbD 2 = true ∧ e.getLsbD 4 = true ∧
    if rd = .rn ∨ (rd = .rm ∧ num < 0) ∨ (rd = .rp ∧ 0 < num) then t.fmt.decode r = .inf (decide (num < 0))
    else Finite (t.fmt.decode r) ∧ scaled (t.fmt.decode r) = if num < 0 then -largest t else largest t
  within : ¬Overflows t rd num den → Finite (t.fmt.decode r) ∧ e.getLsbD 2 = false ∧
    (e.getLsbD 4 = true ↔ scaled (t.fmt.decode r) * den ≠ num) ∧
    Chosen rd num den (scaled (t.fmt.decode r)) (r.getLsbD 0 = false)
      fun y => ∃ x : Word, Finite (t.fmt.decode x) ∧ scaled (t.fmt.decode x) = y

/-- The first operand that is a NaN, with its quiet bit set (R194). -/
def quieted (t : FltTy) (a : Word) : Word :=
  match t with
  | .f32 => a ||| 0x00400000
  | .f16 => (a &&& 0xFFFF) ||| 0x0200
  | .bf16 => (a &&& 0xFFFF) ||| 0x0040

/-- The limits of an integer format (R215). -/
def intLimits : Fmt → Option (Int × Int)
  | .i8 => some (-2 ^ 7, 2 ^ 7 - 1) | .n8 => some (0, 2 ^ 8 - 1) | .i16 => some (-2 ^ 15, 2 ^ 15 - 1)
  | .n16 => some (0, 2 ^ 16 - 1) | .i32 => some (-2 ^ 31, 2 ^ 31 - 1) | .n32 => some (0, 2 ^ 32 - 1)
  | _ => none

end Sys2Proof.Claims

/-- R193, R194, R198, R199, R218: sums, differences, products, quotients, fused products and conversions are the exact value
rounded once, NaNs kept or made as R194 says. -/
def Sys2Proof.Claims.RoundingPart : Prop :=
  (∀ (t : FltTy) (rd : Rnd) (a b d : Word), let x := t.fmt.decode a
    let y := t.fmt.decode b
    let z := t.fmt.decode d
    let op (o : ArithOp) : Word × Exc := fpArith o t.fmt rd false a b
    let ok (num den : Int) (r : Word × Exc) : Prop := Rounded t rd num den r.1 r.2
    (Finite x → Finite y → ok (scaled x + scaled y) 1 (op .add) ∧ ok (scaled x - scaled y) 1 (op .sub) ∧
      ok (scaled x * scaled y) (2 ^ 300) (op .mul) ∧
      (scaled y ≠ 0 → ok (scaled x * 2 ^ 300 * (if scaled y < 0 then -1 else 1)) (mag (scaled y)) (op .div)) ∧
      (scaled y = 0 → scaled x ≠ 0 → t.fmt.decode (op .div).1 = .inf (x.sign != y.sign) ∧ (op .div).2 = excDivZero) ∧
      (Finite z → ok (scaled x * scaled y + scaled z * 2 ^ 300) (2 ^ 300) (fpFma t.fmt rd a b d))) ∧
    (x.isNaN = true ∨ y.isNaN = true → ∀ o, op o =
      (quieted t (if x.isNaN then a else b), if x.isSNaN || y.isSNaN then excInvalid else 0)) ∧
    (x.isInf = true → y.isInf = true → (x.sign != y.sign) = true → (op .add).2 = excInvalid ∧ (op .div).2 = excInvalid ∧
      t.fmt.decode (op .add).1 = .nan false false 0 ∧ t.fmt.decode (op .div).1 = .nan false false 0)) ∧
  ∀ (w : ConvWord) (a : Word), w.ftz = false → Finite (w.src.decode a) → let x := scaled (w.src.decode a)
    let r := cvtLane w a
    (∀ t : FltTy, w.dst = t.fmt → w.sat = false → Rounded t w.rnd x 1 r.1 r.2) ∧
    ∀ lo hi, intLimits w.dst = some (lo, hi) → ∃ v : Int, Chosen w.rnd x (2 ^ 300) v (v % 2 = 0) (fun _ => True) ∧
      r.1 = BitVec.ofInt 32 (if v < lo then lo else if hi < v then hi else v) ∧
      r.2 = if v < lo ∨ hi < v then excInvalid else if v * 2 ^ 300 ≠ x then excInexact else 0

/-- The floating-point instructions with one result a lane, by R196; what rounding is (R193, R194, R198, R199, R218). -/
def Obligations.FloatLaneResults : Prop :=
  Sys2Proof.Claims.RoundingPart ∧ ∀ (i : Instr) (p : Pred) (d : Reg5) (n : Nat) (f : Ctx → Nat → Word × Exc) (s : State) (c : Ctx),
    floatLane i = some (p, d, n, f) → s.ctx = some c →
    ∃ w, WritesV c.w w c.c.base d 1 (c.active p) (fun l => (f c l).1.setWidth 64) ∧
      FloatEnds s c n (c.active p) w (fun l => (f c l).2) (exec i s)

/-- FSET, QBLK, QDEC and QSCALE, by R196. -/
def Obligations.FloatGroupResults : Prop :=
  (∀ (p : Pred) (q : BitVec 3) (a : Reg5) (b : FltB) (cc : FCond) (t : FltTy) (s : State) (c : Ctx), s.ctx = some c →
    ∃ w x, WritesP c.w w q.toNat (c.active p) x ∧
      (∀ l, l < 128 → (c.active p).has l = true →
        x.has l = cc.holds (t.fmt.decode (c.v1 a l)) (t.fmt.decode (c.fltB b l))) ∧
      FloatEnds s c b.len (c.active p) w (fun l =>
        if (t.fmt.decode (c.v1 a l)).isSNaN || (t.fmt.decode (c.fltB b l)).isSNaN then excInvalid else 0)
        (exec (.fset p q a b cc t) s)) ∧
  ∀ (p : Pred) (d a : Reg5) (v : ConvWord) (s : State) (c : Ctx), s.ctx = some c →
    let m := c.active p
    let x (l : Nat) : FVal := v.src.ftzSource v.ftz (v.src.decode (c.v1 a l))
    let image (l n : Nat) : Nat := (groupOf m 16 l).foldl (fun y j =>
      if j % 16 < blockWords n then y + (c.v1 a j).toNat * 2 ^ (32 * (j % 16)) else y) 0
    (∃ w, WritesV c.w w c.c.base d 1 m (fun l =>
        if l % 16 < blockWords v.dst.blockN
        then BitVec.ofNat 64 ((qblkGroup c m a v (l / 16)).1 / 2 ^ (32 * (l % 16)) % 2 ^ 32) else 0) ∧
      FloatEnds s c 2 m w (fun l => (qblkGroup c m a v (l / 16)).2.getD (l % 16) 0) (exec (.qblk p d a v) s)) ∧
    (∃ (w : Warp) (f : Nat → Word × Exc), WritesV c.w w c.c.base d 1 m (fun l => (f l).1.setWidth 64) ∧
      (∀ l, l < 128 → f l =
        let y := wblockDecode (image l v.src.blockN) (l % 16) v.src.blockN
        let z := v.dst.encode y.1 v.rnd false v.ftz
        (z.1, y.2 ||| z.2)) ∧
      FloatEnds s c 2 m w (fun l => (f l).2) (exec (.qdec p d a v) s)) ∧
    ∃ w, WritesV c.w w c.c.base d 1 m (fun l => BitVec.ofNat 64 (mxScale ((groupOf m 32 l).map x) v.dst % 2 ^ 32)) ∧
      FloatEnds s c 2 m w (fun l => if (x l).isInf || (x l).isSNaN then excInvalid else 0) (exec (.qscale p d a v) s)

/-- R210, R211 and R214: SHFL, VOTE, BALLOT, MATCH and BMAND. -/
def Obligations.LaneExchange : Prop :=
  ∀ (s : State) (c : Ctx) (p : Pred), s.ctx = some c →
  let m := c.active p
  (∀ (d a : Reg5) (b : FltB) (mode : ShflMode) (g : SegW), Writes s c false d 1 b.len m (fun l x =>
      let j := shflFrom mode g.lanes l (c.fltB b l).toNat
      x.extractLsb' 0 32 = if m.has j then c.v1 a j else c.v1 a l) (exec (.shfl p d a b mode g) s)) ∧
  (∀ (q a : BitVec 3) (v : VoteMode), ∃ w r, WritesP c.w w q.toNat m (if r then Mask.all else 0) ∧
      Completes s c 1 w (exec (.vote p q a v) s) ∧
      (r = true ↔ match v with
        | .every => ∀ l ∈ m.lanes, (c.w.p a.toNat).has l = true
        | .some => ∃ l ∈ m.lanes, (c.w.p a.toNat).has l = true
        | .same => ∀ l ∈ m.lanes, ∀ k ∈ m.lanes, (c.w.p a.toNat).has l = (c.w.p a.toNat).has k
        | .odd => (m.lanes.filter fun l => (c.w.p a.toNat).has l).length % 2 = 1)) ∧
  (∀ (d : Reg5) (a : BitVec 3), (Instr.ballot p d a).WellFormed = true → ∃ w, Completes s c 1 w (exec (.ballot p d a) s) ∧
      { w with unif := c.w.unif } = c.w ∧
      ∀ r, r ≤ 63 → w.s r =
        if d ≠ 31 ∧ m ≠ 0 ∧ d.toNat ≤ r ∧ r < d.toNat + 4
        then (m &&& c.w.p a.toNat).extractLsb' (32 * (r - d.toNat)) 32 else c.w.s r) ∧
  (∀ (d a : Reg5) (wide : Bool), Writes s c false d 1 1 m (fun l x =>
      let n := if wide then 2 else 1
      let j := (x.extractLsb' 0 32).toNat
      j ∈ m.lanes ∧ c.vn n a j = c.vn n a l ∧ ∀ k ∈ m.lanes, k < j → c.vn n a k ≠ c.vn n a l)
      (exec (.matchLane p d a wide) s)) ∧
  ∀ d a b : Reg5, (Instr.bmand p d a b).WellFormed = true → Writes s c false d 2 1 m (fun l x =>
      x.extractLsb' 0 32 = c.v1 a l &&& c.v1 b l ∧
      (x.extractLsb' 32 32).toNat = (m.lanes.filter fun k => decide (k < l)).foldl (fun n k =>
        n + ((List.range 32).filter fun i => (c.v1 a k &&& c.v1 b k).getLsbD i).length) 0 % 2 ^ 32)
      (exec (.bmand p d a b) s)

/-- R212 and R213: SCAN and REDUX. -/
def Obligations.LaneScan : Prop :=
  ∀ (s : State) (c : Ctx) (p : Pred) (d a : Reg5) (o : LaneOp) (t : LaneTy), s.ctx = some c →
  let m := c.active p
  let before (l : Nat) : Word := combined o t (c.v1 a) (m.lanes.filter fun k => decide (k < l))
  let exc (l : Nat) : Exc := (laneCombine o t (before l) (c.v1 a l)).2
  (∀ excl : Bool, ∃ w f, WritesV c.w w c.c.base d 1 m f ∧
    (∀ l, l < 128 → m.has l = true → (f l).extractLsb' 0 32 =
      if excl then before l else combined o t (c.v1 a) (m.lanes.filter fun k => decide (k ≤ l))) ∧
    FloatEnds s c 1 m w exc (exec (.scan p d a excl o t) s)) ∧
  (m ≠ 0 → ∃ w, WritesS c.w w (u5 d) 1 ((combined o t (c.v1 a) m.lanes).setWidth 64) ∧
    FloatEnds s c 1 m w exc (exec (.redux p d a o t) s)) ∧
  (m = 0 → Completes s c 1 c.w (exec (.redux p d a o t) s))

namespace Sys2Proof.Claims

open Sys2Proof.Machine

/-- The address of the word an instruction's J offset names, from the address of its own word (R121). -/
def jumpTo (c : Ctx) (off : Int) : Dword := c.c.hdr + BitVec.ofNat 64 (4 * c.c.next) + BitVec.ofInt 64 (4 * off)

/-- The header that follows the clause (R115). -/
def fallTo (c : Ctx) : Dword := c.c.hdr + BitVec.ofNat 64 (4 * (c.c.words.length + 1))

/-- A 32-bit operand of BRX or CALLX. -/
def target (c : Ctx) (a : XSrc) (l : Nat) : Nat :=
  match a with | .thread r => (c.v1 r l).toNat | .uni r => (c.w.s5 r).toNat

/-- The vectors whose instruction has completed (R169). -/
def afterVector (v : Nat) : Bool := [3, 4, 5, 6, 7, 16, 17, 18, 19, 20, 21, 22, 23, 24, 25, 26, 27, 28, 29, 30, 31].contains v

/-- The words of the trap that takes lanes `susp.lanes` of warp r to the handler at `a` (R168). -/
structure InHandler (s t : State) (r : WRef) (w : Warp) (susp : Clause) (vec : Nat) (lanes : Mask) (tpc : Dword) (info : Word)
    (a : Dword) (prio : Nat) : Prop where
  elsewhere : SameElsewhere s t r
  warp : ∃ w' h, t.warp r = some w' ∧ w'.handler = some h ∧ h.susp = susp ∧ h.setAside = w.frontier ∧ h.vector = vec ∧
    h.tret = [] ∧ w'.clause = none ∧ w'.frontier = [⟨prio, a, susp.lanes, susp.base, true⟩] ∧
    w'.tlanes = lanes ∧ w'.tpc = tpc ∧ w'.tinfo = info ∧
    (vec < 32 → w'.tcause.toNat = vec + if afterVector vec then 2 ^ 31 else 0) ∧
    { w' with handler := w.handler, clause := w.clause, frontier := w.frontier, tlanes := w.tlanes, tpc := w.tpc
              tcause := w.tcause, tinfo := w.tinfo } = w

/-- The vector table of a warp's launch names a clause header for the vector (R50, R51). -/
def HasVector (s : State) (r : WRef) (vec : Nat) (a : Dword) (prio : Nat) : Prop :=
  ∃ b g x h, s.master r.m = some b ∧ s.gridOf b = some g ∧ g.launch.traps[vec]? = some a ∧ a ≠ 0 ∧
    (s.fetchWord b a).2 = .word x ∧ headerOf x = some h ∧ prio = h.prio.toNat

end Sys2Proof.Claims

/-- R168: taking a trap. -/
def Sys2Proof.Claims.TrapEntryPart : Prop :=
  ∀ (s : State) (r : WRef) (w : Warp) (susp : Clause) (vec : Nat) (lanes : Mask) (tpc : Dword) (info : Word) (a : Dword)
    (prio : Nat), s.warp r = some w → w.handler = none → HasVector s r vec a prio →
    InHandler s (s.takeTrap r susp vec lanes tpc info) r w susp vec lanes tpc info a prio

/-- R51 and R168: without a vector, in a handler, or at a vector that is no header, the trap freezes the master. -/
def Sys2Proof.Claims.TrapFreezesPart : Prop :=
  ∀ (s : State) (r : WRef) (b : Master) (w : Warp) (susp : Clause) (vec : Nat) (lanes : Mask) (tpc : Dword) (info : Word),
    s.master r.m = some b → b.warps[r.w]? = some w → b.phase ≠ .frozen →
    (w.handler ≠ none ∨ (∀ g a, s.gridOf b = some g → g.launch.traps[vec]? = some a → a = 0) ∨
      ∃ g a x, s.gridOf b = some g ∧ g.launch.traps[vec]? = some a ∧ (s.fetchWord b a).2 = .word x ∧ headerOf x = none) →
    ∃ (b' : Master) (f : FreezeAt) (u : State), (s.takeTrap r susp vec lanes tpc info).master r.m = some b' ∧ b'.phase = .frozen ∧
      s.takeTrap r susp vec lanes tpc info = u.freeze r.m f ∧ f.warp = some r.w ∧ f.pc = tpc ∧ f.lanes = lanes ∧
      f.cause = (if w.handler ≠ none then 0x02 else if (s.vectorOf b vec).isNone then 0x01 else 0x03) ∧
      f.info.toNat = ((if w.handler ≠ none then vec + 0x80 else vec) + 2 ^ 32 * info.toNat) % 2 ^ 64

/-- R51 and R168: taking a trap, and where a trap freezes instead. What the model chose here: log 7, 62. -/
def Obligations.TrapEntry : Prop :=
  Sys2Proof.Claims.TrapEntryPart ∧ Sys2Proof.Claims.TrapFreezesPart

/-- R400 to R402: a violation freezes a running master once, and its 64-byte record reaches the fault queue. -/
def Sys2Proof.Claims.FreezeRecordPart : Prop :=
  ∀ (s : State) (m : Nat) (b : Master) (f : FreezeAt) (bl : Blob), s.master m = some b → s.blob = some bl →
    (s.die b.die).records = [] → s.fqWrite - s.fqRead < 2 ^ bl.fqExp → f.cause < 256 → b.die < 256 →
    let t := s.freeze m f
    let base := bl.faultQueue + 64 * (s.fqWrite % 2 ^ bl.fqExp)
    let at' (off n : Nat) : Nat := leNat (readBytes t.mem (base + off) n)
    (∃ b', t.master m = some b' ∧ b'.phase = .frozen ∧ (b.phase = .frozen → b' = b)) ∧
    t.fqWrite = s.fqWrite + 1 ∧ (∀ a, a < base ∨ base + 64 ≤ a → t.mem.read a = s.mem.read a) ∧
    at' 0 1 = 1 ∧ at' 1 1 = f.cause ∧ at' 2 1 % 2 = (if b.phase = .frozen then 1 else 0) ∧ at' 3 1 = b.die ∧
    at' 6 2 = b.queue % 2 ^ 16 ∧ at' 8 4 = b.gridId.toNat ∧ at' 24 8 = f.pc.toNat ∧ at' 32 16 = f.lanes.toNat ∧
    at' 48 8 = f.address.toNat ∧ at' 56 8 = f.info.toNat

/-- R169: TRET, when it is the last of the handler's lanes: the suspended lanes resume. What the model chose here: log 65. -/
def Obligations.HandlerReturn : Prop :=
  ∀ (s : State) (c : Ctx) (h : Handler), s.ctx = some c →
    (c.w.handler = none → exec .tret s = .next (illegal s c 8)) ∧
    (c.w.handler = some h →
      (∃ w, CompletesTo s c w [] (exec .tret s) ∧ w.handler = some { h with tret := h.tret ++ [⟨fallTo c, c.c.lanes, c.c.base, false, c.c.next⟩] } ∧
        { w with handler := c.w.handler } = c.w) ∧
      (c.w.frontier = [] → c.w.held = [] → c.c.lanes ≠ 0 → ∃ t w, exec .tret s = .next t ∧ t.warp c.ref = some w ∧
        w.handler = none ∧
        let live := h.tret.foldl (fun m e => m ||| e.lanes) 0 ||| c.c.lanes
        let k := (c.w.tpc - h.susp.hdr).toNat / 4
        if h.tpcWritten then
          w.clause = none ∧ w.frontier = addEntry h.setAside (s.entryAt c.b ⟨c.w.tpc, h.susp.base, live⟩)
        else if c.w.tcause.getLsbD 31 then
          let n := k + if hasLiteral (h.susp.words.getD (k - 1) 0) then 2 else 1
          if h.susp.words.length < n then
            w.clause = none ∧ w.frontier = addEntry h.setAside (s.entryAt c.b ⟨h.susp.fall, h.susp.base, live⟩)
          else w.frontier = h.setAside ∧ ∃ cl, w.clause = some cl ∧ cl.next = n ∧ cl.lanes = live ∧ cl.words = h.susp.words ∧
            cl.hdr = h.susp.hdr ∧ cl.base = h.susp.base
        else if (c.w.tpc - h.susp.hdr).toNat % 4 = 0 ∧ 1 ≤ k ∧ k ≤ h.susp.words.length then
          w.frontier = h.setAside ∧ ∃ cl, w.clause = some cl ∧ cl.next = k ∧ cl.lanes = live ∧ cl.hdr = h.susp.hdr ∧
            cl.base = h.susp.base
        else w.clause = none ∧ w.frontier = addEntry h.setAside (s.entryAt c.b ⟨c.w.tpc, h.susp.base, live⟩)))

/-- R159, R160 and R162. -/
def Obligations.Branches : Prop :=
  ∀ (s : State) (c : Ctx), s.ctx = some c →
  (∀ (p : Pred) (o : BitVec 22), CompletesTo s c c.w
    [⟨jumpTo c o.toInt, c.c.base, c.active p⟩, ⟨fallTo c, c.c.base, c.c.lanes &&& ~~~c.active p⟩] (exec (.bra p o) s)) ∧
  (∀ (r : Reg5) (o : BitVec 17), if r = 31 then exec (.brc r o) s = .next (illegal s c 8)
    else ∃ w, WritesS c.w w r.toNat 1 ((c.w.s r.toNat - 1).setWidth 64) ∧
      CompletesTo s c w [⟨if c.w.s r.toNat = 1 then fallTo c else jumpTo c o.toInt, c.c.base, c.c.lanes⟩] (exec (.brc r o) s)) ∧
  ∀ (p : Pred) (a : XSrc), if ∀ l ∈ (c.active p).lanes, target c a l % 4 = 0 then
      CompletesTo s c c.w ((c.active p).lanes.map (fun l => ⟨c.b.image.base + BitVec.ofNat 64 (target c a l), c.c.base, laneBit l⟩) ++
        [⟨fallTo c, c.c.base, c.c.lanes &&& ~~~c.active p⟩]) (exec (.brx p a) s)
    else exec (.brx p a) s = .next (illegal s c 8)

/-- R147 to R151, R161, R163 and R164: calls move the window and link back, or trap; RET undoes the move, or traps. What the
model chose here: log 2, 63. -/
def Obligations.CallsAndReturns : Prop :=
  ∀ (s : State) (c : Ctx), s.ctx = some c →
  let tinfo (n : Nat) : Word := BitVec.ofNat 32 (n % 256 + 256 * c.c.next)
  let back : Nat := (jumpTo c 1 - c.b.image.base).toNat
  (∀ (v : BitVec 2) (i : Instr) (dest : Nat → Dword), v ≠ 0 →
    ((∃ o, i = .call v o ∧ dest = fun _ => jumpTo c o.toInt) ∨
      ∃ a, i = .callx v a ∧ (∀ l ∈ c.c.lanes.lanes, target c a l % 4 = 0) ∧
        dest = fun l => c.b.image.base + BitVec.ofNat 64 (target c a l)) →
    let n := c.c.base + v.toNat + 3 - c.w.resident + 1
    if 4095 < c.c.base + v.toNat + 3 ∨ 2 ^ 32 ≤ back then exec i s = .next (illegal s c 8)
    else if c.w.allot < n then exec i s = .next (s.takeTrap c.ref c.c 10 c.c.lanes c.c.pc (tinfo (n - c.w.allot)))
    else ∃ w, CompletesTo { s with freeTick := s.freeTick + 1 } c w
        (c.c.lanes.lanes.map fun l => ⟨dest l, c.c.base + v.toNat, laneBit l⟩) (exec i s) ∧
      (∀ l, l < 128 → c.c.lanes.has l = true → (w.v (c.c.base + v.toNat) 30 l).toNat = back ||| v.toNat) ∧
      (∀ b r l, r < 31 → l < 128 → (vKey b r < 8 * (c.c.base + 3) + 7 ∨ 8 * (c.c.base + 4 + v.toNat) ≤ vKey b r ∨
        (c.c.lanes.has l = false ∧ aget c.w.regs (vKey b r) ≠ none)) → w.v b r l = c.w.v b r l) ∧
      { w with regs := c.w.regs } = c.w) ∧
  (∀ (v : BitVec 2) (a : XSrc), c.c.base + v.toNat + 3 ≤ 4095 → back < 2 ^ 32 → c.c.base + v.toNat + 3 - c.w.resident < c.w.allot →
    (∃ l ∈ c.c.lanes.lanes, target c a l % 4 ≠ 0) → exec (.callx v a) s = .next (illegal s c 8)) ∧
  let adv (l : Nat) : Nat := (c.w.v c.c.base 30 l).toNat % 4
  let most := c.c.lanes.lanes.foldl (fun m l => max m (adv l)) 0
  if ∃ l ∈ c.c.lanes.lanes, adv l = 0 then exec .ret s = .next (illegal s c 8)
  else if c.c.base < c.w.resident + most then ∃ t, exec .ret s = .next (t.modWarp c.ref fun w =>
      { w with handler := w.handler.map fun h => if h.vector == 11 then { h with low := c.c.base - most } else h }) ∧
    t = s.takeTrap c.ref c.c 11 c.c.lanes c.c.pc (tinfo (c.w.resident + most - c.c.base))
  else CompletesTo s c c.w (c.c.lanes.lanes.map fun l =>
    ⟨c.b.image.base + BitVec.ofNat 64 ((c.w.v c.c.base 30 l).toNat - adv l), c.c.base - adv l, laneBit l⟩) (exec .ret s)

namespace Sys2Proof.Claims

open Sys2Proof.Machine

/-- The value of the specials (R154), by number; those of a stage, a core or a position where the block has it (R35, R40, R263). -/
def specials (s : State) (c : Ctx) (l : Nat) : List (Nat × Nat) :=
  let before (i : Nat) : Nat := (c.b.variant.stages.take i).foldl (· + ·) 0
  let stage : List (Nat × Nat) :=
    if c.ref.w < before 4 then [(2, ((List.range 4).filter fun i => decide (before (i + 1) ≤ c.ref.w)).length)] else []
  let core : List (Nat × Nat) := match c.b.cores[c.ref.w / (c.b.variant.warps / c.b.variant.span)]? with
    | some h => [(11, h.core % 2 ^ 64)]
    | none => []
  let index := 128 * c.ref.w + l
  let pos : List Nat := match s.gridOf c.b with
    | some g => [index % g.launch.bx, index / g.launch.bx % g.launch.by', index / (g.launch.bx * g.launch.by')]
    | none => [l, 0, 0]
  let ns := 5 * s.cycles / 8 % 64000
  let group := if ns / 1000 % 4 = 0 then 2 ^ 20 + 2 ^ 16 * (ns / 4000) else 2 ^ 16 * ((ns / 4000 + 1) % 16)
  stage ++ core ++ [(6, pos.getD 0 0 % 2 ^ 64), (7, pos.getD 1 0 % 2 ^ 64), (8, pos.getD 2 0 % 2 ^ 64), (14, group + ns)] ++
  [(0, l), (1, c.ref.w), (3, c.b.coord.1), (4, c.b.coord.2.1), (5, c.b.coord.2.2), (9, c.b.gridId.toNat), (10, c.b.die % 2 ^ 64),
   (12, c.b.varIdx % 2 ^ 64), (13, (s.cycles + s.clockOff) % 2 ^ 64), (15, c.w.fflags.toNat), (16, c.w.fctl.toNat),
   (17, c.w.tlanes.toNat % 2 ^ 32), (18, c.w.tlanes.toNat / 2 ^ 32 % 2 ^ 32), (19, c.w.tlanes.toNat / 2 ^ 64 % 2 ^ 32),
   (20, c.w.tlanes.toNat / 2 ^ 96), (21, c.w.tpc.toNat), (22, c.w.tcause.toNat), (23, c.w.tinfo.toNat)]

/-- The specials that differ by lane, and the 64-bit ones (R154, R132). -/
def perLane (n : Nat) : Bool := [0, 6, 7, 8].contains n
def wideSpecial (n : Nat) : Bool := n == 13 || n == 21

end Sys2Proof.Claims

/-- R166 and R178: NOP does nothing, and BEAT resets the no-progress timer and does nothing else. -/
def Obligations.NopAndBeat : Prop :=
  ∀ (s : State) (c : Ctx), s.ctx = some c → (∀ p : Pred, Completes s c 1 c.w (exec (.nop p) s)) ∧
    Completes s c 1 c.w (exec .beat s) ∧
    ∃ t b, exec .beat s = .next t ∧ t.master c.ref.m = some b ∧ b.timer = s.cycles

/-- R167: TRAP takes vector 16 + n, or falls through when no active lane's predicate is true. -/
def Obligations.TrapInstruction : Prop :=
  ∀ (s : State) (c : Ctx) (p : Pred) (i : BitVec 4), s.ctx = some c →
    (c.active p = 0 → CompletesTo s c c.w [⟨fallTo c, c.c.base, c.c.lanes⟩] (exec (.trap p i) s)) ∧
    (c.active p ≠ 0 → c.w.handler = none → ∀ a prio, HasVector s c.ref (16 + i.toNat) a prio →
      ∃ t, exec (.trap p i) s = .next t ∧
        InHandler s t c.ref c.w c.c (16 + i.toNat) (c.active p) (c.c.hdr + BitVec.ofNat 64 (4 * c.c.next)) 0 a prio ∧
        ∃ w, t.warp c.ref = some w ∧ w.tcause = BitVec.ofNat 32 (16 + i.toNat + 2 ^ 31))

/-- R165, R175 and R176: lanes that exit or are held leave the frontier; what that completes follows (`afterLanes`), and nothing
does while some lane of the warp still issues. -/
def Obligations.LanesLeave : Prop :=
  ∀ (s : State) (c : Ctx), s.ctx = some c →
  (∀ p : Pred, c.w.deliveries = [] → ∃ u, exec (.exit p) s = .next (u.afterLanes c.ref) ∧
    CompletesTo s c (if c.w.liveLanes &&& ~~~c.active p = 0 then { c.w with exitAt := some c.c } else c.w)
      [⟨fallTo c, c.c.base, c.c.lanes &&& ~~~c.active p⟩] (.next u)) ∧
  (∀ i : BitVec 10, c.b.isTask = true →
    if (c.b.variant.switches.any fun p => p.id == i.toNat) then
      CompletesTo s c c.w [⟨fallTo c, c.c.base, c.c.lanes⟩] (exec (.switchpt i) s)
    else exec (.switchpt i) s = .next (illegal s c 8)) ∧
  (∀ i : BitVec 10, c.b.isTask = false → (c.b.variant.switches.any fun p => p.id == i.toNat) = false →
    exec (.switchpt i) s = .next (illegal s c 8)) ∧
  (∀ i : BitVec 10, c.b.isTask = false → (c.b.variant.switches.any fun p => p.id == i.toNat) = true →
    (c.w.heldId = none ∨ c.w.heldId = some i.toNat) →
    if ((c.w.heldLanes ||| c.c.lanes) = c.w.liveLanes ∧ ∀ h ∈ c.w.held, h.step = false) ∧
      (∃ w ∈ c.b.warps, w.arrived = true ∧ (∃ h ∈ w.held, h.step = false) ∧ ∃ k, w.heldId = some k ∧ k < 1024 ∧ k ≠ i.toNat) then
      exec (.switchpt i) s = .next (illegal s c 8)
    else if c.w.outs = [] then ∃ u, exec (.switchpt i) s = .next (u.afterLanes c.ref) ∧
      CompletesTo s c { c.w with held := c.w.held ++ [⟨fallTo c, c.c.lanes, c.c.base, false, c.c.next⟩], heldId := some i.toNat } []
        (.next u)
    else (∀ o ∈ c.w.outs, o.kind = .st ∧ o.undone = true) → exec (.switchpt i) s = .next s) ∧
  (∀ (i : BitVec 10) (k : Nat), c.b.isTask = false → c.w.heldId = some k → k ≠ i.toNat →
    exec (.switchpt i) s = .next (illegal s c 8)) ∧
  (c.b.isTask = true → exec .step s = .next (illegal s c 8)) ∧
  (c.b.isTask = false → c.w.outs = [] → ∃ u, exec .step s = .next (u.afterLanes c.ref) ∧
    CompletesTo s c { c.w with held := c.w.held ++ [⟨fallTo c, c.c.lanes, c.c.base, true, c.c.next⟩] } [] (.next u)) ∧
  ∀ w, s.warp c.ref = some w → (∃ e ∈ w.frontier, e.lanes &&& ~~~w.heldLanes ≠ 0) → s.afterLanes c.ref = s

/-- R170: SRD, and its illegal forms. -/
def Obligations.ReadSpecial : Prop :=
  ∀ (s : State) (c : Ctx) (p : Pred) (d : Reg5) (f : Bool) (n : BitVec 6), s.ctx = some c →
    (Instr.srd p d f n).WellFormed = true →
    if 23 < n.toNat ∨ (f = true ∧ perLane n.toNat = true) then exec (.srd p d f n) s = .next (illegal s c 8)
    else if f = true ∧ c.active p = 0 then Completes s c 1 c.w (exec (.srd p d f n) s)
    else Writes s c f d (if wideSpecial n.toNat then 2 else 1) 1 (c.active p) (fun l x =>
      ∀ v, (n.toNat, v) ∈ specials s c l →
        if wideSpecial n.toNat then x.toNat = v else (x.extractLsb' 0 32).toNat = v % 2 ^ 32) (exec (.srd p d f n) s)

/-- R173, R174: TRIG releases the die's writes and records the block; WAITDEP waits for every producer. -/
def Obligations.TriggerAndDependency : Prop :=
  ∀ (s : State) (c : Ctx), s.ctx = some c →
  (c.b.isTask = true → Completes s c 1 c.w (exec .trig s) ∧
    (c.b.gridUid = none → Completes s c 1 c.w (exec .waitdep s))) ∧
  (c.b.isTask = false → c.w.outs = [] → ∃ u, u = (s.releaseAll c.b.die).blockTriggers c.ref.m ∧
    (∃ b, u.master c.ref.m = some b ∧ b.triggered = true) ∧
    ∃ t, exec .trig s = .next t ∧ SameElsewhere u t c.ref ∧ t.warp c.ref = some (u.stepOver c.b c.w c.c 1)) ∧
  ∀ g, s.gridOf c.b = some g →
    (g.launch.earlyStart = false → Completes s c 1 c.w (exec .waitdep s)) ∧
    (g.launch.earlyStart = true → g.producers = [] → Completes (s.acquireAll c.b.die) c 1 c.w (exec .waitdep s)) ∧
    (g.launch.earlyStart = true → g.producers ≠ [] → exec .waitdep s = .next s)

/-- R179 and R180: frames given to and claimed from the core's pool, and KEYDROP. -/
def Obligations.FramesAndKeys : Prop :=
  ∀ (s : State) (c : Ctx) (h : CoreHold), s.ctx = some c → c.b.cores[c.b.spanOf c.ref.w]? = some h →
  let pooled (k : Nat) (o : Host.Outcome State Fault Refusal) (w : Warp) : Prop :=
    ∃ u b, u.master c.ref.m = some b ∧ b.cores[c.b.spanOf c.ref.w]? = some { h with pool := k } ∧
      { b with cores := c.b.cores } = c.b ∧ { u with masters := s.masters } = s ∧
      (∀ m, m ≠ c.ref.m → u.master m = s.master m) ∧
      ∃ t, o = .next t ∧ SameElsewhere u t c.ref ∧ t.warp c.ref = some (u.stepOver c.b w c.c 1)
  (∀ n : BitVec 6, if n = 0 ∨ c.w.allot < n.toNat + 4 ∨ c.w.allot < n.toNat + (c.w.topFrame + 1 - c.w.resident)
    then exec (.reggive n) s = .next (illegal s c 8)
    else pooled (h.pool + n.toNat) (exec (.reggive n) s) { c.w with allot := c.w.allot - n.toNat }) ∧
  (∀ (q : BitVec 3) (n : BitVec 6), if n = 0 ∨ 64 < c.w.allot + n.toNat then exec (.regclaim q n) s = .next (illegal s c 8)
    else if n.toNat ≤ h.pool then ∃ w, WritesP c.w w q.toNat c.c.lanes Mask.all ∧
      pooled (h.pool - n.toNat) (exec (.regclaim q n) s) { w with allot := c.w.allot + n.toNat }
    else ∃ w, WritesP c.w w q.toNat c.c.lanes 0 ∧ Completes s c 1 w (exec (.regclaim q n) s)) ∧
  ∀ a : Reg5, let k := (c.w.s5 a).toNat
    if 2 ^ 20 ≤ k then exec (.keydrop a) s = .next (illegal s c 8)
    else if k ∈ c.b.keys then (c.w.outs = [] → ∃ u b, u = s.releaseKeys c.ref.m [k] false ∧
      u.master c.ref.m = some b ∧ b.keys = c.b.keys.filter (· != k) ∧ { b with keys := c.b.keys } = c.b ∧
      (∀ m, m ≠ c.ref.m → u.master m = s.master m) ∧
      ∃ t, exec (.keydrop a) s = .next t ∧ SameElsewhere u t c.ref ∧ t.warp c.ref = some (u.stepOver c.b c.w c.c 1))
    else Completes s c 1 c.w (exec (.keydrop a) s)

namespace Sys2Proof.Claims

open Sys2Proof.Machine

/-- The instruction completes in a state where the block has become a `P b` and nothing beside it has changed, but for what an
instruction of the warp itself changes. -/
def BlockBecomes (s : State) (c : Ctx) (P : Master → Prop) (w : Warp) (o : Host.Outcome State Fault Refusal) : Prop :=
  ∃ u b, u.master c.ref.m = some b ∧ P b ∧ { u with masters := s.masters } = s ∧
    (∀ m, m ≠ c.ref.m → u.master m = s.master m) ∧ Completes u c 1 w o

/-- The object an instruction of majors 0x30 and 0x31 names lies in the block's x: space or among its barriers (R340). -/
def InRange (c : Ctx) (o : BarObj) : Prop :=
  match c.barName o with
  | .slot x => x % 16 = 0 ∧ x + 16 ≤ c.b.variant.scratch
  | .hw n => n < c.b.variant.hwbars

/-- Every store, atomic and reduction that the warp has issued has been performed (R309). -/
def StoresDone (w : Warp) : Prop :=
  ∀ o ∈ w.outs, (o.kind = .st ∨ (∃ a, o.kind = .atom a) ∨ ∃ a, o.kind = .red a) → o.undone = false

/-- The object after a post of `n` bytes (R325). -/
def Posted (x y : Barrier) (n : Nat) : Prop :=
  y.phase = x.phase ∧ y.expArr = x.expArr ∧ y.landed = x.landed ∧ y.inFlight = x.inFlight ∧ y.posted = true ∧
  (x.expBytes + n < 2 ^ 31 → y.expBytes = x.expBytes + n)

/-- The object an instruction names is live: a slot that has been initialised, or a hardware barrier (R340). -/
def IsLive (c : Ctx) (o : BarObj) : Prop :=
  InRange c o ∧ ∀ x, c.barName o = .slot x → aget c.b.slots x ≠ none

/-- The phase that the warp's arrival record gives for the object (R343). -/
def recorded (c : Ctx) (o : BarObj) : Option Nat :=
  match c.w.arrival with
  | some (n, ph) => if n = c.barName o then some ph else none
  | none => none

/-- BINIT may initialise the object with this count (R341). -/
def MayInit (c : Ctx) (o : BarObj) (k : Nat) : Prop :=
  InRange c o ∧ (∀ x, c.barName o = .slot x → 1 ≤ k ∧ k ≤ 65535 ∧ aget c.b.slots x = none ∧
    (c.b.slots.filter fun q => c.b.variant.spanAt q.1 == c.b.variant.spanAt x).length < c.b.variant.slots) ∧
  ∀ x, c.barName o = .hw x → k ≤ 65535 ∧ ∀ y, c.b.hw[x]? = some y → y.inFlight = 0

/-- The synchronisation instructions, each with what its operands satisfy to pass its checks (R339 to R344, R347, R348). -/
def syncForms (c : Ctx) (p : Pred) (o : BarObj) (d a : Reg5) (i : BitVec 8) (q : BitVec 3) (sc : Scope) : List (Instr × Prop) :=
  let count := (c.w.s5 d).toNat
  [(.seal p, True), (.fence p sc, True), (.xfence p sc, True), (.acq p sc, True), (.rel p sc, True), (.waitb p i, i.toNat ≤ 15),
   (.waitt p i, i ≠ 0), (.qfence p i, i ≠ 0), (.parkG p d a i, True), (.parkX p d a i, True), (.bind p d a, a.toNat ≤ 23),
   (.unbind p d a, True), (.arrive p o d, IsLive c o ∧ count < 2 ^ 31), (.expect p o d, IsLive c o ∧ count < 2 ^ 31),
   (.binit p o d, MayInit c o count),
   (.bretire p a i, ∃ x y, c.barName (.slot a i) = .slot x ∧ IsLive c (.slot a i) ∧ aget c.b.slots x = some y ∧ y.quiet = true),
   (.waitph p o d, IsLive c o ∧ (d = 31 → recorded c o ≠ none)), (.testph p o q, IsLive c o ∧ recorded c o ≠ none)]

end Sys2Proof.Claims

/-- R339: with no active lane's predicate true, a synchronisation instruction has no effect. -/
def Sys2Proof.Claims.SyncUnexecutedPart : Prop :=
  ∀ (s : State) (c : Ctx) (p : Pred) (o : BarObj) (d a : Reg5) (i : BitVec 8) (q : BitVec 3) (sc : Scope), s.ctx = some c →
    c.active p = 0 → ∀ e ∈ syncForms c p o d a i q sc, e.2 → Completes s c 1 c.w (exec e.1 s)

/-- R341: BINIT and BRETIRE. -/
def Obligations.BarrierLife : Prop :=
  ∀ (s : State) (c : Ctx) (p : Pred) (o : BarObj) (d a : Reg5) (i : BitVec 8), s.ctx = some c → c.active p ≠ 0 →
  let k := (c.w.s5 d).toNat
  let n := c.barName o
  let cleared (n : BarName) (b : Master) : Prop := b.warps.length = c.b.warps.length ∧
    ∀ v ∈ b.warps, ∀ ph, v.arrival ≠ some (n, ph)
  (InRange c o → (∀ x, n = .slot x → 1 ≤ k ∧ k ≤ 65535 ∧ aget c.b.slots x = none ∧
      (c.b.slots.filter fun q => c.b.variant.spanAt q.1 == c.b.variant.spanAt x).length < c.b.variant.slots) →
    (∀ x, n = .hw x → k ≤ 65535 ∧ ∃ y, c.b.hw[x]? = some y ∧ y.inFlight = 0) →
    ∃ w, { w with arrival := c.w.arrival } = c.w ∧ (∀ ph, w.arrival ≠ some (n, ph)) ∧
      BlockBecomes s c (fun b => b.bar n = some (Barrier.idle 0 k) ∧ (∀ j, j ≠ n → b.bar j = c.b.bar j) ∧ cleared n b ∧
        ∀ x, n = .slot x → leNat (readBytes b.x x 16) = 65536 * k ∧
          ∀ y, (y < x ∨ x + 16 ≤ y) → b.x.read y = c.b.x.read y) w (exec (.binit p o d) s)) ∧
  (InRange c o → (∃ x, n = .slot x ∧ (k = 0 ∨ 65535 < k ∨ aget c.b.slots x ≠ none)) →
    exec (.binit p o d) s = .next (illegal s c 8)) ∧
  ∀ x y, c.barName (.slot a i) = .slot x → aget c.b.slots x = some y → x % 16 = 0 → x + 16 ≤ c.b.variant.scratch →
    if y.arrived = 0 ∧ y.expBytes = 0 ∧ y.landed = 0 ∧ y.inFlight = 0 ∧ y.posted = false then
      ∃ w, { w with arrival := c.w.arrival } = c.w ∧ (∀ ph, w.arrival ≠ some (.slot x, ph)) ∧
        BlockBecomes s c (fun b => b.slots = adel c.b.slots x ∧ b.x = c.b.x ∧ b.hw = c.b.hw ∧ cleared (.slot x) b) w
          (exec (.bretire p a i) s)
    else exec (.bretire p a i) s = .next (illegal s c 8)

/-- R325: an event changes an object, and the phase completes exactly when everything it waits for has come. What the model
chose here: log 14. -/
def Obligations.BarrierPhase : Prop :=
  ∀ (s : State) (m : Nat) (b : Master) (n : BarName) (x y : Barrier), s.master m = some b → b.bar n = some x →
    y.failed = false → y.overflow = false → y.landed ≤ y.expBytes → (y.inFlight = 0 → y.landed = y.expBytes) →
    let whole := (if y.expArr = 0 then ∀ i ∈ b.liveWarps, i ∈ y.autoSet else y.arrived = y.expArr) ∧ y.posted = true ∧
      y.landed = y.expBytes ∧ y.inFlight = 0
    ∃ b', (s.barEvent m n fun _ => y).master m = some b' ∧ b'.phase = b.phase ∧
      (whole → b'.bar n = some { y with phase := (y.phase + 1) % 65536, arrived := 0, expBytes := 0, landed := 0
                                        posted := false, autoSet := [] }) ∧
      (¬whole → b'.bar n = some y) ∧ ∀ j, j ≠ n → b'.bar j = b.bar j

/-- R342: ARRIVE and EXPECT apply their event; ARRIVE records the phase it arrived in and waits for the warp's earlier
accesses. -/
def Obligations.ArriveAndExpect : Prop :=
  ∀ (s : State) (c : Ctx) (p : Pred) (o : BarObj) (d : Reg5) (x : Barrier), s.ctx = some c → c.active p ≠ 0 →
    InRange c o → c.b.bar (c.barName o) = some x →
    let k := (c.w.s5 d).toNat
    let n := c.barName o
    let ends (y : Barrier) (w : Warp) (i : Instr) : Prop := ∃ t, exec i s = .next t ∧
      SameElsewhere (s.barEvent c.ref.m n fun _ => y) t c.ref ∧
      t.warp c.ref = some ((s.barEvent c.ref.m n fun _ => y).stepOver c.b w c.c 1)
    if 2 ^ 31 ≤ k then exec (.arrive p o d) s = .next (illegal s c 8) ∧ exec (.expect p o d) s = .next (illegal s c 8)
    else (c.w.outs = [] → ∃ y, Posted x y k ∧
        y.arrived = (if x.expArr = 0 ∧ c.ref.w ∈ x.autoSet then x.arrived else x.arrived + 1) ∧
        y.autoSet = (if x.expArr = 0 ∧ c.ref.w ∉ x.autoSet then x.autoSet ++ [c.ref.w] else x.autoSet) ∧
        ends y { c.w with arrival := some (n, x.phase) } (.arrive p o d)) ∧
      (¬StoresDone c.w → exec (.arrive p o d) s = .next s) ∧
      ∃ y, Posted x y k ∧ y.arrived = x.arrived ∧ y.autoSet = x.autoSet ∧ ends y c.w (.expect p o d)

/-- Batch n of the warp's LDA operations is sealed and has not finished (R344). -/
def Sys2Proof.Claims.Unfinished (w : Warp) (n : Nat) : Prop := n < w.openBatch ∧ ∃ o ∈ w.outs, o.kind = .lda ∧ o.batch = n

/-- R343 and R344: WAITPH, TESTPH, SEAL, WAITB and WAITT. -/
def Sys2Proof.Claims.WaitsPart : Prop :=
  ∀ (s : State) (c : Ctx) (p : Pred), s.ctx = some c → c.active p ≠ 0 →
  (∀ (o : BarObj) (d : Reg5) (q : BitVec 3) (x : Barrier), InRange c o → c.b.bar (c.barName o) = some x →
    let kept : Option Nat := recorded c o
    let k : Option Nat := match c.w.waits with
      | some v => some v
      | none => if d = 31 then kept else some ((c.w.s5 d).toNat % 65536)
    (k = none → exec (.waitph p o d) s = .next (illegal s c 8)) ∧
    (∀ v, k = some v → if x.phase = v then exec (.waitph p o d) s = .next (s.modWarp c.ref fun w => { w with waits := some v })
      else Completes s c 1 { c.w with waits := none } (exec (.waitph p o d) s)) ∧
    (kept = none → exec (.testph p o q) s = .next (illegal s c 8)) ∧
    ∀ v, kept = some v → ∃ w, WritesP c.w w q.toNat (c.active p) (if x.phase = v then 0 else Mask.all) ∧
      Completes s c 1 w (exec (.testph p o q) s)) ∧
  (let waits (n : Nat) : Prop := exec (.seal p) s = .next (s.modWarp c.ref fun w => { w with sealOn := some n })
    let goes : Prop := Completes s c 1 { c.w with openBatch := c.w.openBatch + 1, sealOn := none } (exec (.seal p) s)
    (c.w.sealOn = none → if c.w.sealedOpen < 15 then goes
      else ∃ n, Unfinished c.w n ∧ (∀ k, Unfinished c.w k → n ≤ k) ∧ waits n) ∧
    ∀ n, c.w.sealOn = some n → (Unfinished c.w n → waits n) ∧ (¬Unfinished c.w n → goes)) ∧
  (∀ n : BitVec 8, if 15 < n.toNat then exec (.waitb p n) s = .next (illegal s c 8)
    else if c.w.sealedOpen ≤ n.toNat then Completes s c 1 c.w (exec (.waitb p n) s) else exec (.waitb p n) s = .next s) ∧
  ∀ n : BitVec 8, (n = 0 → exec (.waitt p n) s = .next (illegal s c 8)) ∧
    (n ≠ 0 → c.b.entries = [] → c.w.deliveries = [] →
      if ∀ t ∈ List.range 8, n.getLsbD t = true → c.w.token t = 0 ∧ c.w.strayOn t = false then Completes s c 1 c.w (exec (.waitt p n) s)
      else exec (.waitt p n) s = .next s)

/-- R343, R344 and R339: the waits, and that a synchronisation instruction with no lane executing has no effect. What the
model chose here: log 15, 19. -/
def Obligations.Waits : Prop :=
  Sys2Proof.Claims.WaitsPart ∧ Sys2Proof.Claims.SyncUnexecutedPart

/-- R345: PARK returns reason 3 for a word it could not read, and otherwise pauses; what comes first of a write (0) and the time
(1) ends the pause, and before either the part may (2). What the model chose here: log 95 (of both in one cycle, the time). -/
def Obligations.Parking : Prop :=
  ∀ (s : State) (c : Ctx) (p : Pred) (d a : Reg5) (i : BitVec 8), s.ctx = some c → c.active p ≠ 0 → c.w.park = none →
  let x := (c.w.s5 a).toNat
  let lim := (c.b.segs.getD 1 default).limit
  let due := s.cycles + 160 * (i.toNat + 1)
  (if x % 4 ≠ 0 ∨ lim < x + 4 then
      ∃ w, WritesS c.w w (u5 d) 1 3 ∧ Completes s c 1 w (exec (.parkX p d a i) s)
    else ∃ t, exec (.parkX p d a i) s = .next t ∧ SameElsewhere s t c.ref ∧
      t.warp c.ref = some { c.w with park := some ⟨false, x, due, false, false, d⟩ }) ∧
  ((c.w.s52 a).toNat % 4 ≠ 0 →
    ∃ w, WritesS c.w w (u5 d) 1 3 ∧ Completes s c 1 w (exec (.parkG p d a i) s)) ∧
  (∀ pl : Place, (s.check c.b .g (c.w.s52 a).toNat 4 .read).2 = .ok (.mem pl) →
    (s.check c.b .g (c.w.s52 a).toNat 4 .read).1.readable c.b.die pl.key 4 pl.packed = true →
    ∃ t, exec (.parkG p d a i) s = .next t ∧ SameElsewhere (s.check c.b .g (c.w.s52 a).toNat 4 .read).1 t c.ref ∧
      t.warp c.ref = some { c.w with park := some ⟨true, pl.key / 128 * 128, due, false, false, d⟩ }) ∧
  ∀ (r : WRef) (b : Master) (w : Warp) (cl : Clause) (k : Park) (cause : BitVec 2), s.master r.m = some b →
    b.warps[r.w]? = some w → w.park = some k → w.clause = some cl → b.phase = .running →
    if cause = (if k.late = true then 1 else if k.hit = true then 0 else if k.until' ≤ s.cycles then 1 else 2) then
      ∃ w', WritesS { w with park := none } w' (u5 k.d) 1 (cause.setWidth 64) ∧
        Completes s ⟨r, b, w, cl⟩ 1 w' (exec (.parkWake r cause) s)
    else exec (.parkWake r cause) s = .next s

/-- The place in the block's order of a command that the warp issues now (R308). -/
def Sys2Proof.Claims.orderKey (s : State) (c : Ctx) : Nat := c.b.entryKey s.cycles (c.b.spanOf c.ref.w) c.ref.w

/-- R346 and R347: the fences, once the warp's earlier accesses have performed. -/
def Sys2Proof.Claims.FencesPart : Prop :=
  ∀ (s : State) (c : Ctx) (p : Pred) (sc : Scope), s.ctx = some c → c.active p ≠ 0 →
  let wide : Bool := [Scope.p, .n, .y].contains sc
  let acquired := if wide then s.acquireAll c.b.die else s
  let released := if wide then s.releaseAll c.b.die else s
  let published := s.releaseAll c.b.die
  (c.w.outs = [] → Completes acquired c 1 c.w (exec (.fence p sc) s) ∧ Completes acquired c 1 c.w (exec (.acq p sc) s) ∧
    Completes released c 1 c.w (exec (.rel p sc) s) ∧
    Completes (if wide then published.acquireAll c.b.die else published) c 1 c.w (exec (.xfence p sc) s)) ∧
  (∀ o ∈ c.w.outs, o.kind = .st → o.undone = true → exec (.fence p sc) s = .next s ∧ exec (.rel p sc) s = .next s ∧
    exec (.xfence p sc) s = .next s) ∧
  (∀ o ∈ c.w.outs, o.kind = .ld → o.undone = true → exec (.acq p sc) s = .next s) ∧
  ∀ n : BitVec 8, (n = 0 → exec (.qfence p n) s = .next (illegal s c 8)) ∧
    let e : Entry := { (default : Entry) with op := .qfence, fmt := n.setWidth 32, warp := c.ref.w, st := .queued, wait := .ready }
    (n ≠ 0 → BlockBecomes s c (fun b => b = { c.b with entries := aset c.b.entries (orderKey s c) e }) c.w (exec (.qfence p n) s))

/-- R346, R257: after a full-data acquire no copy is left on the die, and after a release no copy is dirty. Either way the bytes
that were dirty stand at their homes, whose pages have the form of the copies (R254), and no other byte of memory has changed. -/
def Sys2Proof.Claims.FenceCopiesPart : Prop :=
  ∀ (s : State) (d : Nat), d < 8 → ((s.acquireAll d).die d).copies = [] ∧
    (∀ q ∈ ((s.releaseAll d).die d).copies, q.2.dirty = 0) ∧
    ((s.releaseAll d).die d).copies.map (fun q => (q.1, q.2.bytes)) = ((s.die d).copies.map fun q => (q.1, q.2.bytes)) ∧
    (((s.die d).copies.map Prod.fst).Nodup →
      (∀ q ∈ (s.die d).copies, q.2.dirty ≠ 0 → s.formOf (32 * q.1) = if q.2.packed then some .packed else none) →
      ∀ t, (t = s.acquireAll d ∨ t = s.releaseAll d) →
        (∀ q ∈ (s.die d).copies, ∀ i, i < 32 → q.2.dirty.getLsbD i = true → s.unreachable (32 * q.1 + i) 1 = false →
          t.mem.read (32 * q.1 + i) = q.2.bytes.getD i 0) ∧
        ∀ a, (∀ q ∈ (s.die d).copies, ∀ i, i < 32 → q.2.dirty.getLsbD i = true → a ≠ 32 * q.1 + i) →
          t.mem.read a = s.mem.read a)

/-- R346 and R347: the fences, and what they do to the die's copies. -/
def Obligations.Fences : Prop :=
  Sys2Proof.Claims.FencesPart ∧ Sys2Proof.Claims.FenceCopiesPart

/-- R348: BIND and UNBIND. -/
def Obligations.Bindings : Prop :=
  ∀ (s : State) (c : Ctx) (p : Pred) (d a : Reg5), s.ctx = some c → c.active p ≠ 0 →
  let e := (List.range 8).flatMap fun i => leBytes 4 (c.w.s (a.toNat + i)).toNat
  let r := parseRegion e
  let counts : List Nat := match s.gridOf c.b with
    | some g => (g.launch.permitted c.b.image).map fun k => (c.b.image.variants.getD k default).hwbars
    | none => [c.b.variant.hwbars]
  let bad : Bool := regionReserved e || r.malformed (s.exprCount c.b) counts
  let meets : Bool := (s.regions c.b).any fun x =>
    decide (x.base.toNat < r.base.toNat + r.size ∧ r.base.toNat < x.base.toNat + x.size)
  let status (n : Nat) (i : Instr) : Prop := ∃ w, WritesS c.w w (u5 d) 1 (BitVec.ofNat 64 n) ∧ Completes s c 1 w (exec i s)
  (if 23 < a.toNat then exec (.bind p d a) s = .next (illegal s c 8)
    else if bad then status 3 (.bind p d a)
    else if meets then status 1 (.bind p d a)
    else if 64 ≤ c.b.binds.length then status 2 (.bind p d a)
    else r.kind ≠ 0 → ∃ w, WritesS c.w w (u5 d) 1 0 ∧
      BlockBecomes s c (fun b => b = { c.b with binds := c.b.binds ++ [r] }) w (exec (.bind p d a) s)) ∧
  if ∃ x ∈ c.b.binds, x.base = c.w.s52 a then ∃ w, WritesS c.w w (u5 d) 1 0 ∧
      BlockBecomes s c (fun b => b = { c.b with binds := c.b.binds.filter (·.base != c.w.s52 a) }) w (exec (.unbind p d a) s)
    else status 1 (.unbind p d a)

namespace Sys2Proof.Claims

open Sys2Proof.Machine

/-- The lookahead and the request of a memory instruction. -/
def memRequest (c : Ctx) : Instr → Option (Nat × MemReq)
  | .ld f w => some (f.la.toNat, c.plainReq .ld f w (sizeNames c.c.base f) fun _ => [])
  | .st f w => some (f.la.toNat, c.plainReq .st f w [] fun l => c.dataBytes f.d f.size.bytes l)
  | .ldw f w => some (f.la.toNat, c.plainReq .ldw f w (sizeNames c.c.base f) fun _ => [])
  | .atom f w => some (f.la.toNat, c.atomReq (.atom w.op) f w (vNames c.c.base w.op.nregs f.d))
  | .red f w => some (f.la.toNat, c.atomReq (.red w.op) f w [])
  | .lda f w =>
    let q := c.plainReq .lda { f with sw := 0 } w [] fun _ => []
    some (f.la.toNat, { q with lanes := q.lanes.map fun l =>
      { l with dst := BitVec.ofNat 64 (swizzle f.sw.toNat (c.v1 f.d l.lane).toNat) } })
  | _ => none

/-- What an instruction leaves of its warp's registers while its operation is outstanding. -/
def SameRegisters (w w' : Warp) : Prop :=
  w'.regs = w.regs ∧ w'.preds = w.preds ∧ w'.unif = w.unif ∧ w'.fflags = w.fflags ∧ w'.fctl = w.fctl ∧ w'.tokens = w.tokens ∧ w'.stray = w.stray ∧
  w'.tpc = w.tpc ∧ w'.tcause = w.tcause ∧ w'.tinfo = w.tinfo ∧ w'.tlanes = w.tlanes

/-- The warp has moved past `n` words, when its clause holds them. -/
def Moved (c : Ctx) (n : Nat) (w : Warp) : Prop :=
  c.c.next + n ≤ c.c.words.length → ∃ cl, w.clause = some cl ∧ cl.next = c.c.next + n ∧ cl.words = c.c.words ∧
    cl.hdr = c.c.hdr ∧ cl.lanes = c.c.lanes ∧ cl.base = c.c.base

/-- A place in HBM that the die reaches at its own home, of matching form, readable (R254, R333). -/
def AtHome (s : State) (d : Nat) (pl : Place) (z : Nat) : Prop :=
  pl.key < hbmBytes ∧ pl.kind = 0 ∧ homeOf pl.key = some d ∧ s.poisoned pl.key z = false ∧
  s.formOf pl.key = if pl.packed then some .packed else none

/-- What an atomic leaves at its location (R273); none leaves it alone. The operands are read at the operation's width. -/
def atomResult (o : AtomOp) (old v new : Nat) : Option Nat :=
  let sgn (n x : Nat) : Int := if 2 ^ (n - 1) ≤ x then (x : Int) - 2 ^ n else x
  match o with
  | .add32 => some ((old + v) % 2 ^ 32)
  | .add64 => some ((old + v) % 2 ^ 64)
  | .fadd => some (fpArith .add .f32 .rn false (BitVec.ofNat 32 old) (BitVec.ofNat 32 v)).1.toNat
  | .minI32 => some (if sgn 32 v < sgn 32 old then v else old)
  | .maxI32 => some (if sgn 32 v < sgn 32 old then old else v)
  | .minI64 => some (if sgn 64 v < sgn 64 old then v else old)
  | .maxI64 => some (if sgn 64 v < sgn 64 old then old else v)
  | .minN32 | .minN64 => some (min old v)
  | .maxN32 | .maxN64 => some (max old v)
  | .and32 | .and64 => some (Nat.land old v)
  | .or32 | .or64 => some (Nat.lor old v)
  | .xor32 | .xor64 => some (Nat.xor old v)
  | .exch32 | .exch64 => some v
  | .cas32 | .cas64 => if old = v then some new else none

/-- No live slot and no PARK of the block meets the bytes. -/
def PlainBytes (b : Master) (off n : Nat) : Prop :=
  (∀ q ∈ b.slots, off + n ≤ q.1 ∨ q.1 + 16 ≤ off) ∧ ∀ w ∈ b.warps, w.park = none

/-- No byte of x: there is poison. -/
def Clean (b : Master) (off n : Nat) : Prop := ∀ k ∈ b.xPoison, k < off ∨ off + n ≤ k

end Sys2Proof.Claims

/-- R122 and R261: the effective address of a lane. -/
def Sys2Proof.Claims.EffectiveAddressPart : Prop :=
  ∀ (c : Ctx) (sp : Space) (base : Option Reg6) (a : Reg5) (off : Dword) (sw l : Nat), sw < 8 →
    let e := (c.memEa sp base a off sw l).toNat
    (sp = .g → e = ((match base with
      | some r => (c.w.s2 r.toNat).toNat + (c.v1 a l).toNat
      | none => (c.w.v2 c.c.base a.toNat l).toNat) + off.toNat) % 2 ^ 64) ∧
    (sp ≠ .g → let plain := ((match base with | some r => (c.w.s r.toNat).toNat | none => 0) + (c.v1 a l).toNat + off.toNat) % 2 ^ 32
      if sp = .x ∧ sw ≠ 0 then
        ∀ i, e.testBit i = if 4 ≤ i ∧ i < 8 then plain.testBit i != plain.testBit (i + 3 + sw) else plain.testBit i
      else e = plain)

/-- R249, checks 1 and 2: misalignment comes first, then the segment. -/
def Sys2Proof.Claims.AccessChecksPart : Prop :=
  ∀ (s : State) (b : Master) (sp : Space) (ea z : Nat) (acc : Access), 0 < z →
    let g := b.seg sp
    (ea % z ≠ 0 → s.check b sp ea z acc = (s, .bad 1 0x10)) ∧
    (ea % z = 0 → (if sp = .g then ea < g.base ∨ g.base + g.limit < ea + z ∨ 2 ^ 57 ≤ ea else g.limit < ea + z) →
      s.check b sp ea z acc = (s, .bad 2 0x11)) ∧
    (ea % z = 0 → ea + z ≤ g.limit → (sp = .x → s.check b sp ea z acc = (s, .ok (.x ea))) ∧
      (sp = .c → s.check b sp ea z acc = (s, .ok (.c ea)))) ∧
    ∀ t p, s.check b sp ea z acc = (t, .ok (.mem p)) → sp ≠ .w →
      ∃ u, s.translate b.die b.queue b.ctx (if sp = .k then g.base + ea else ea) acc = (u, .ok p)

/-- R122, R261 and R249: a lane's address and its first checks. What the model chose here: log 92 (where a window of w: ends). -/
def Obligations.EffectiveAddress : Prop :=
  Sys2Proof.Claims.EffectiveAddressPart ∧ Sys2Proof.Claims.AccessChecksPart

/-- R250, R123: a memory instruction none of whose lanes fails a check is issued, and the warp moves on with its registers as
they were. -/
def Sys2Proof.Claims.MemoryIssuePart : Prop :=
  ∀ (s : State) (c : Ctx) (i : Instr) (la : Nat) (q : MemReq), s.ctx = some c → memRequest c i = some (la, q) →
    (∀ o ∈ c.w.outs, o.k < c.w.opCount) → (s.precheck c.b q).2.1 = [] →
    ∃ t w, exec i s = .next t ∧ t.warp c.ref = some w ∧ SameRegisters c.w w ∧ Moved c 2 w ∧ w.opCount = c.w.opCount + 1 ∧
      (q.dests ≠ [] ∨ (q.kind = .lda ∧ q.lanes ≠ []) → ∃ o, w.op c.w.opCount = some o ∧ o.kind = q.kind ∧ o.dests = q.dests ∧ o.pc = c.c.pc ∧
        o.lanes.map (fun l => (l.lane, l.ea, l.data)) = q.lanes.map fun l => (l.lane, l.ea, l.data))

namespace Sys2Proof.Claims

open Sys2Proof.Machine

/-- The lanes in positions `is` of operation k perform one after another, each as `performLane` says, from s to t. No earlier
operation of the warp holds one back, and none meets a violation. -/
def Perform (r : WRef) (k : Nat) : List Nat → State → State → Prop
  | [], s, t => t = s
  | i :: is, s, t => ∃ b w o l u l', s.master r.m = some b ∧ b.warps[r.w]? = some w ∧ w.op k = some o ∧ o.lanes[i]? = some l ∧
      w.laneHeld o l = false ∧ s.performLane r b o l = (u, l', none) ∧
      Perform r k is (u.modWarp r fun v => match v.op k with
        | some o => v.setOp { o with lanes := modAt o.lanes i fun _ => l' }
        | none => v) t

/-- The operation that a request becomes. -/
def opOf (c : Ctx) (q : MemReq) : MemOp :=
  ⟨c.w.opCount, c.c.pc, q.kind, q.space, q.bytes, q.dests, q.sext, q.ord, q.scope, q.sw, c.w.openBatch, q.lanes⟩

/-- What x: holds at `a` after the lanes of a store, later lanes last, or `old` (R329). -/
def stored (ls : List LaneAcc) (a : Nat) (old : Byte) : Byte :=
  ls.foldl (fun v l => if l.ea.toNat ≤ a ∧ a < l.ea.toNat + l.data.length then l.data.getD (a - l.ea.toNat) 0 else v) old

/-- Every lane of a request names `n` bytes of x: that are aligned and inside, and that no live slot and no PARK meets. -/
def InScratch (b : Master) (q : MemReq) : Prop :=
  q.space = .x ∧ 0 < q.bytes ∧ ∀ l ∈ q.lanes, l.ea.toNat % q.bytes = 0 ∧ l.ea.toNat + q.bytes ≤ (b.seg .x).limit ∧
    PlainBytes b l.ea.toNat q.bytes ∧ Clean b l.ea.toNat q.bytes

end Sys2Proof.Claims

/-- R250, R251, R253: with nothing of the warp outstanding, every form but LDA performs its lanes one after another, as
`performLane` says, and the warp moves on; LDA, whose lanes the shuttle performs (R297), is outstanding with all of them. -/
def Sys2Proof.Claims.MemoryPerformsPart : Prop :=
  ∀ (s : State) (c : Ctx) (i : Instr) (la : Nat) (q : MemReq), s.ctx = some c → memRequest c i = some (la, q) →
    (s.precheck c.b q).2.1 = [] → c.w.outs = [] →
    let u : State := (s.precheck c.b q).1
    let u0 : State := u.modWarp c.ref fun w => { w with outs := [opOf c q], opCount := c.w.opCount + 1 }
    (q.kind ≠ .lda → ∀ t, Perform c.ref c.w.opCount (List.range q.lanes.length) u0 t →
      exec i s = .next (((t.purge c.ref).countBanks c q).stepLong c 2 la q.dests)) ∧
    (q.kind = .lda → (s.precheck c.b q).2.2 = [] → ∃ t w, exec i s = .next t ∧ SameElsewhere u t c.ref ∧ t.warp c.ref = some w ∧
      SameRegisters c.w w ∧ Moved c 2 w ∧ w.outs = if q.lanes = [] then [] else [opOf c q])

/-- R267, R268, R273, R329: with nothing of the warp outstanding, an access to x: whose lanes pass their checks performs at
once. A store leaves its bytes in x:; a load has its lanes' bytes; an atomic of one lane has both. Nothing beside the warp and
these bytes changes. -/
def Sys2Proof.Claims.MemoryInScratchPart : Prop :=
  ∀ (s : State) (c : Ctx) (i : Instr) (la : Nat) (q : MemReq), s.ctx = some c → memRequest c i = some (la, q) →
    InScratch c.b q → c.w.outs = [] →
    let lands (x : Memory) (P : Warp → Prop) : Prop := ∃ t w, exec i s = .next t ∧
      SameElsewhere (s.setMaster c.ref.m { c.b with x := x }) t c.ref ∧ t.warp c.ref = some w ∧ SameRegisters c.w w ∧ Moved c 2 w ∧
      w.opCount = c.w.opCount + 1 ∧ P w
    let holds (w : Warp) (v : LaneAcc → List Byte) : Prop :=
      w.outs = if q.dests = [] then [] else [{ opOf c q with lanes := q.lanes.map fun l => { l with st := .done, val := v l } }]
    (q.kind = .st → q.dests = [] → (∀ l ∈ q.lanes, l.data.length = q.bytes) → ∃ x, lands x (fun w => w.outs = []) ∧
      ∀ a, x.read a = stored q.lanes a (c.b.x.read a)) ∧
    (q.kind = .ld → lands c.b.x fun w => holds w fun l => readBytes c.b.x l.ea.toNat q.bytes) ∧
    ∀ op l, (q.kind = .atom op ∨ q.kind = .red op) → q.lanes = [l] → q.bytes = op.bytes → l.data.length = q.bytes →
      let old := readBytes c.b.x l.ea.toNat q.bytes
      lands (match atomResult op (leNat old) (leNat l.data) (leNat l.cmp % 2 ^ (8 * op.bytes)) with
        | some v => writeBytes c.b.x l.ea.toNat (leBytes op.bytes v)
        | none => c.b.x) fun w => holds w fun _ => old

/-- R267, R268, R270: with nothing of the warp outstanding, a plain access by one lane to g: at a home on its own die, its
translation cached, performs at once: a store changes exactly its bytes, and a load has them. An LDW performs from the die's
weight store unless a refresh window holds it (R263). -/
def Sys2Proof.Claims.MemoryAtHomePart : Prop :=
  ∀ (s : State) (c : Ctx) (i : Instr) (la : Nat) (q : MemReq) (l : LaneAcc) (pl : Place), s.ctx = some c →
    memRequest c i = some (la, q) → q.lanes = [l] → q.ord = .plain → c.w.outs = [] → 0 < q.bytes →
    s.check c.b q.space l.ea.toNat q.bytes q.kind.access = (s, .ok (.mem pl)) →
    let goes (u : State) (P : Warp → Prop) : Prop := ∃ t w, exec i s = .next t ∧ SameElsewhere u t c.ref ∧ t.warp c.ref = some w ∧
      SameRegisters c.w w ∧ Moved c 2 w ∧ P w
    let reads : Prop := goes s fun w => w.outs = if q.dests = [] then [] else [{ opOf c q with lanes := [{ l with
      st := .done, val := readBytes s.mem pl.key q.bytes }] }]
    (q.kind = .st → q.dests = [] → q.space = .g → l.data.length = q.bytes → AtHome s c.b.die pl q.bytes → (∀ m ∈ s.masters, ∀ w ∈ m.2.warps, w.park = none) →
      ∃ u : State, goes u (fun w => w.outs = []) ∧ { u with mem := s.mem, poison := s.poison } = s ∧
        ∀ a, u.mem.read a = if pl.key ≤ a ∧ a < pl.key + q.bytes then l.data.getD (a - pl.key) 0 else s.mem.read a) ∧
    (q.kind = .ld → q.space = .g → AtHome s c.b.die pl q.bytes → reads) ∧
    (q.kind = .ldw → q.space = .w → s.refreshing pl.key = false → s.poisoned pl.key q.bytes = false → reads) ∧
    (q.kind = .ldw → q.space = .w → s.refreshing pl.key = true → goes s fun w => w.outs = [opOf c q])

/-- R250: when some lane fails a check, no lane performs and the master is frozen, by the earliest check that any lane
fails. -/
def Sys2Proof.Claims.MemoryViolationPart : Prop :=
  ∀ (s : State) (c : Ctx) (i : Instr) (la : Nat) (q : MemReq), s.ctx = some c → memRequest c i = some (la, q) →
    c.b.phase ≠ .frozen → let u := (s.precheck c.b q).1
    let bad := (s.precheck c.b q).2.1
    bad ≠ [] → ∃ f b, exec i s = .next (u.freeze c.ref.m f) ∧ (u.freeze c.ref.m f).master c.ref.m = some b ∧ b.phase = .frozen ∧
      b.warps = c.b.warps ∧ b.x = c.b.x ∧ f.warp = some c.ref.w ∧ f.pc = c.c.pc ∧
      ∃ y ∈ bad, (∀ z ∈ bad, y.order ≤ z.order ∧ (z.order = y.order → y.lane ≤ z.lane)) ∧ f.address = y.addr ∧
        (c.w.handler = none → ∃ z ∈ bad, z.order = y.order ∧ f.cause = z.cause) ∧
        ∀ l, l < 128 → (f.lanes.has l = true ↔ ∃ z ∈ bad, z.order = y.order ∧ z.lane = l)

/-- R250: a memory instruction is issued and its lanes perform, or none of its lanes performs. What the model chose here: log 5
(the lanes perform one after another in lane order within the issuing step; R329 leaves the order open), log 70. -/
def Obligations.MemoryIssue : Prop :=
  Sys2Proof.Claims.MemoryIssuePart ∧ Sys2Proof.Claims.MemoryViolationPart ∧ Sys2Proof.Claims.MemoryPerformsPart ∧
  Sys2Proof.Claims.MemoryInScratchPart ∧ Sys2Proof.Claims.MemoryAtHomePart

/-- R267, R268, R273: one lane's load, store or atomic in x:. -/
def Sys2Proof.Claims.LaneInScratchPart : Prop :=
  ∀ (s : State) (r : WRef) (b : Master) (o : MemOp) (l : LaneAcc), s.master r.m = some b → o.space = .x → 0 < o.bytes →
    l.ea.toNat % o.bytes = 0 → l.ea.toNat + o.bytes ≤ (b.seg .x).limit →
    Clean b l.ea.toNat o.bytes →
    let old := readBytes b.x l.ea.toNat o.bytes
    (o.kind = .ld → s.performLane r b o l = (s, { l with st := .done, val := old }, none)) ∧
    (o.kind = .st → l.data.length = o.bytes → PlainBytes b l.ea.toNat o.bytes →
      s.performLane r b o l = (s.setMaster r.m { b with x := writeBytes b.x l.ea.toNat l.data }, { l with st := .done, val := [] }, none)) ∧
    ∀ op, (o.kind = .atom op ∨ o.kind = .red op) → o.bytes = op.bytes → l.data.length = o.bytes →
      PlainBytes b l.ea.toNat o.bytes →
      let x := match atomResult op (leNat old) (leNat l.data) (leNat l.cmp % 2 ^ (8 * op.bytes)) with
        | some v => writeBytes b.x l.ea.toNat (leBytes op.bytes v)
        | none => b.x
      ∃ t, s.performLane r b o l = (t, { l with st := .done, val := old }, none) ∧ t.master r.m = some { b with x := x } ∧
        t.mem = s.mem ∧ ∀ m, m ≠ r.m → t.master m = s.master m

namespace Sys2Proof.Claims

open Sys2Proof.Machine

/-- What a write of `n` bytes at a home makes of the PARKs: those that watch a line it meets have seen it (R345). -/
def parksSeen (ms : List (Nat × Master)) (key n : Nat) : List (Nat × Master) :=
  ms.map fun m => (m.1, { m.2 with warps := m.2.warps.map fun w => { w with park := w.park.map fun p =>
    if p.isG = true ∧ p.addr < key + n ∧ key < p.addr + 128 then { p with hit := true } else p } })

/-- From u to t, memory holds `bs` at `key` and nothing else changes but the poison of those bytes and the PARKs that watch them. -/
def WritesHome (u t : State) (key : Nat) (bs : List Byte) : Prop :=
  { t with mem := u.mem, poison := u.poison, masters := u.masters } = u ∧ t.masters = parksSeen u.masters key bs.length ∧
  (∀ a, t.mem.read a = if key ≤ a ∧ a < key + bs.length then bs.getD (a - key) 0 else u.mem.read a) ∧
  ∀ k, k ∈ t.poison ↔ k ∈ u.poison ∧ ¬(key ≤ k ∧ k < key + bs.length)

end Sys2Proof.Claims

/-- R267, R268, R273, R420: one lane's plain load, store and atomic in g: or k:, at a home on its own die. -/
def Sys2Proof.Claims.LaneAtHomePart : Prop :=
  ∀ (s u : State) (r : WRef) (b : Master) (o : MemOp) (l : LaneAcc) (pl : Place), o.space = .g ∨ o.space = .k → o.ord = .plain →
    s.check b o.space l.ea.toNat o.bytes o.kind.access = (u, .ok (.mem pl)) → AtHome u b.die pl o.bytes →
    let old := readBytes u.mem pl.key o.bytes
    (o.kind = .ld ∨ o.kind = .fill → s.performLane r b o l = (u, { l with st := .done, val := old }, none)) ∧
    (o.kind = .st ∨ o.kind = .spill → l.data.length = o.bytes → ∃ t, s.performLane r b o l = (t, { l with st := .done, val := [] }, none) ∧
      WritesHome u t pl.key l.data) ∧
    ∀ op, (o.kind = .atom op ∨ o.kind = .red op) → o.bytes = op.bytes → l.data.length = o.bytes →
      ∃ v t, s.performLane r b o l = (t, { l with st := .done, val := old }, none) ∧
        { v with dies := u.dies, freeTick := u.freeTick } = u ∧ (∀ d, d < 8 → { v.die d with contend := (u.die d).contend } = u.die d) ∧
        match atomResult op (leNat old) (leNat l.data) (leNat l.cmp % 2 ^ (8 * op.bytes)) with
        | some x => WritesHome v t pl.key (leBytes op.bytes x)
        | none => t = v

/-- R257, R331: on a die that is not the home, a plain load reads the copy the die holds and a plain store changes that copy
and nothing at the home. An ordered access of wide scope releases first, goes to the home, and acquires after. -/
def Sys2Proof.Claims.LaneAwayPart : Prop :=
  ∀ (s u : State) (r : WRef) (b : Master) (o : MemOp) (l : LaneAcc) (pl : Place), o.space = .g ∨ o.space = .k →
    s.check b o.space l.ea.toNat o.bytes o.kind.access = (u, .ok (.mem pl)) → pl.kind ≠ 2 → ¬(o.bytes = 16 ∧ pl.kind ≠ 0) →
    let va : Nat := if o.space = .g then l.ea.toNat else (b.seg .k).base + l.ea.toNat
    let wide : Bool := [Scope.p, .n, .y].contains o.scope
    (∀ sec, o.ord = .plain → homeOf pl.key ≠ some b.die → pl.key < 2 ^ 61 → b.die < 8 →
      aget (u.die b.die).copies (pl.key / 32) = some sec → u.formOf pl.key ≠ some .mismatched →
      (o.kind = .ld → s.performLane r b o l =
        (u, { l with st := .done, val := (sec.bytes.drop (pl.key % 32)).take o.bytes }, none)) ∧
      (o.kind = .st → sec.bytes.length = 32 → pl.key % 32 + l.data.length ≤ 32 → ∃ t sec', s.performLane r b o l =
          (t, { l with st := .done, val := [] }, none) ∧ t.mem = u.mem ∧ t.masters = parksSeen u.masters pl.key l.data.length ∧
        aget (t.die b.die).copies (pl.key / 32) = some sec' ∧ (∀ i, i ≠ pl.key / 32 → aget (t.die b.die).copies i = aget (u.die b.die).copies i) ∧
        ∀ i, i < 32 → let hit : Prop := pl.key % 32 ≤ i ∧ i < pl.key % 32 + l.data.length
          (hit → sec'.bytes.getD i 0 = l.data.getD (i - pl.key % 32) 0 ∧ sec'.dirty.getLsbD i = true) ∧
          (¬hit → sec'.bytes.getD i 0 = sec.bytes.getD i 0 ∧ sec'.dirty.getLsbD i = sec.dirty.getLsbD i))) ∧
    (o.kind = .st → o.ord = .rel → s.performLane r b o l =
      ((u.releaseAt b o.scope va o.bytes).dieWrite b.die pl.key l.data wide pl.packed, { l with st := .done, val := [] }, none)) ∧
    ∀ t v, o.kind = .ld → o.ord = .acq → u.dieRead b.die pl.key o.bytes wide pl.packed = (t, some v) →
      s.performLane r b o l = (t.acquireAt b o.scope va o.bytes, { l with st := .done, val := v }, none)

/-- R42, R246, R251, R378: a lane reads the arguments in c:; a lane whose address belongs to another package is sent there, and
performs when it is answered; a lane whose page is not present waits for it. -/
def Sys2Proof.Claims.LaneWaitsPart : Prop :=
  ∀ (s u : State) (r : WRef) (b : Master) (o : MemOp) (l : LaneAcc),
    (∀ g, s.gridOf b = some g → o.space = .c → o.kind = .ld → 0 < o.bytes → l.ea.toNat % o.bytes = 0 →
      l.ea.toNat + o.bytes ≤ (b.seg .c).limit →
      let args : List Byte := (aget g.args b.die).getD []
      s.performLane r b o l =
        (s, { l with st := .done, val := (List.range o.bytes).map fun i => args.getD (l.ea.toNat + i) 0 }, none)) ∧
    (∀ pl, s.check b o.space l.ea.toNat o.bytes o.kind.access = (u, .ok (.mem pl)) → pl.kind = 2 →
      (l.st = .ready → s.performLane r b o l = (u, { l with st := .remote }, none)) ∧
      (l.st = .remote → o.kind = .ld → o.ord = .plain → o.bytes < 16 → 2 ^ 61 ≤ pl.key → u.poisoned pl.key o.bytes = false →
        s.performLane r b o l = (u, { l with st := .done, val := readBytes u.mem pl.key o.bytes }, none))) ∧
    ∀ va lv, b.die < 8 → s.check b o.space l.ea.toNat o.bytes o.kind.access = (u, .miss va lv) → ∃ t st, s.performLane r b o l =
      (t, { l with st := st }, none) ∧ t.masters = u.masters ∧ (st = .full ∨ ∃ k, st = .missing k ∧ (aget (t.die b.die).miss k).isSome)

/-- R257, R267, R268, R273, R331: one lane's access. What the model chose here: log 5, log 8 (a line of another package is read
and written at its home, without the remote copy that R257 allows), log 9, log 60. -/
def Obligations.LaneAccess : Prop :=
  Sys2Proof.Claims.LaneInScratchPart ∧ Sys2Proof.Claims.LaneAtHomePart ∧ Sys2Proof.Claims.LaneAwayPart ∧
  Sys2Proof.Claims.LaneWaitsPart

/-- R123, R267, R273: a completed load or atomic writes its registers: one, two or four for each lane, or a predicate. -/
def Sys2Proof.Claims.LoadCompletesPart : Prop :=
  ∀ (s : State) (r : WRef) (b : Master) (w : Warp) (o : MemOp), s.master r.m = some b → b.warps[r.w]? = some w →
    b.phase = .running → w.outs = [o] → (∀ l ∈ o.lanes, l.st = .done ∧ l.val.length = o.bytes) → (o.kind = .ld ∨ o.kind = .ldw ∨ ∃ a, o.kind = .atom a) →
    let took (l : Nat) : Option (List Byte) := (o.lanes.find? fun x => x.lane == l).map LaneAcc.val
    ∃ t w', exec (.loadComplete r o.k) s = .next t ∧ SameElsewhere s t r ∧ t.warp r = some w' ∧ w'.outs = [] ∧
      (∀ key, o.dests = [.v key] → o.bytes ≤ 4 → { w' with regs := w.regs, outs := w.outs } = w ∧
        ∀ k l, l < 128 → ((aget w'.regs k).getD []).getD l 0 = match if k = key then took l else none with
          | some v => if o.sext && decide (o.bytes < 4) then
              (if o.bytes = 1 then (BitVec.ofNat 8 (leNat v)).signExtend 32 else (BitVec.ofNat 16 (leNat v)).signExtend 32)
            else BitVec.ofNat 32 (leNat v)
          | none => ((aget w.regs k).getD []).getD l 0) ∧
      (∀ keys : List Nat, o.dests = keys.map .v → keys.Nodup → o.bytes = 4 * keys.length → { w' with regs := w.regs, outs := w.outs } = w ∧
        (∀ i key l, keys[i]? = some key → l < 128 → ((aget w'.regs key).getD []).getD l 0 = match took l with
          | some v => BitVec.ofNat 32 (leNat ((v.drop (4 * i)).take 4))
          | none => ((aget w.regs key).getD []).getD l 0) ∧
        ∀ k l, k ∉ keys → ((aget w'.regs k).getD []).getD l 0 = ((aget w.regs k).getD []).getD l 0) ∧
      ∀ q, o.dests = [.p q] → q < 7 → { w' with preds := w.preds, outs := w.outs } = w ∧
        ∀ l, l < 128 → (w'.p q).has l = match took l with
          | some v => leNat v != 0
          | none => (w.p q).has l

/-- R269, R297: one lane of an LDA copies its bytes into x:. -/
def Sys2Proof.Claims.LdaLanePart : Prop :=
  ∀ (s : State) (r : WRef) (b : Master) (w : Warp) (o : MemOp) (l : LaneAcc) (pl : Place), s.master r.m = some b →
    b.warps[r.w]? = some w → b.phase = .running → w.outs = [o] → o.kind = .lda → o.space = .g → o.ord = .plain → o.lanes = [l] →
    l.st = .ready → s.check b .g l.ea.toNat o.bytes .read = (s, .ok (.mem pl)) → AtHome s b.die pl o.bytes →
    PlainBytes b l.dst.toNat o.bytes →
    ∃ t b', exec (.ldaLanePerform r o.k l.lane) s = .next t ∧ t.master r.m = some b' ∧
      b'.x = writeBytes b.x l.dst.toNat (readBytes s.mem pl.key o.bytes) ∧ t.mem = s.mem ∧
      t.warp r = some { w with outs := [] }

/-- R123, R267, R269, R273: loads and atomics write their registers, LDA its bytes. -/
def Obligations.LoadCompletes : Prop :=
  Sys2Proof.Claims.LoadCompletesPart ∧ Sys2Proof.Claims.LdaLanePart

namespace Sys2Proof.Claims

open Sys2Proof.Machine

/-- From s to u only die d's translations and copies have changed, and of its copies only those of the named lines. -/
structure HintChanges (s u : State) (d : Nat) (lines : List Place) : Prop where
  dies : ∀ k, k < 8 → k ≠ d → u.die k = s.die k
  own : { u.die d with tlb := (s.die d).tlb, copies := (s.die d).copies } = s.die d
  others : ∀ i, (∀ pl ∈ lines, i / 4 ≠ pl.key / 128) → aget (u.die d).copies i = aget (s.die d).copies i

end Sys2Proof.Claims

/-- R271 and R272: PREF and CCTL complete at once, change no register and, beside translations, only the die's copies of the
lines they name, where packed bits agree with their pages (R255). PREF leaves the readable sectors of those lines as copies. CCTL's clean (0), clean and
invalidate (2) and write back (3) put dirty bytes at their home, and nothing else into memory; it waits for the warp's earlier
stores to its lines. What the model chose here: log 8. -/
def Obligations.CacheHints : Prop :=
  ∀ (s : State) (c : Ctx) (f : MFields) (w : AddrWord), s.ctx = some c → c.b.die < 8 →
    let lines := (c.lines s f w).2
    let goes (i : Instr) (P : State → Prop) : Prop := ∃ u t v, exec i s = .next t ∧ SameElsewhere u t c.ref ∧
      t.warp c.ref = some v ∧ SameRegisters c.w v ∧ Moved c 2 v ∧ v.outs = c.w.outs ∧ HintChanges s u c.b.die lines ∧ P u
    ((∀ pl ∈ lines, s.formAgrees pl.key pl.packed = true) → goes (.pref f w) (fun u => { u with dies := s.dies } = s ∧ ∀ pl ∈ lines, ∀ i, i / 4 = pl.key / 128 →
      (∀ x, aget (s.die c.b.die).copies i = some x → aget (u.die c.b.die).copies i = some x) ∧
      (homeOf pl.key ≠ some c.b.die → pl.key < 2 ^ 61 → aget (s.die c.b.die).copies i = none → s.poisoned (32 * i) 32 = false →
        ∃ x, aget (u.die c.b.die).copies i = some x ∧ x.bytes = readBytes s.mem (32 * i) 32 ∧ x.dirty = 0))) ∧
    ((∃ o ∈ c.w.outs, o.kind = .st ∧ ∃ l ∈ o.lanes, l.st ≠ .done ∧ ∃ k ∈ (c.active f.p).lanes,
        l.ea.toNat / 128 = (c.effAddr w.space w.base f.a w.disp k).toNat / 128) → exec (.cctl f w) s = .next s) ∧
    (c.w.outs = [] → f.d.toNat < 4 → (∀ q ∈ (s.die c.b.die).copies, s.formAgrees (32 * q.1) q.2.packed = true) →
      goes (.cctl f w) fun u => { u with dies := s.dies } = { s with mem := u.mem, poison := u.poison } ∧
        (f.d = 1 → u.mem = s.mem ∧ (u.die c.b.die).copies = (s.die c.b.die).copies) ∧
        (∀ pl ∈ lines, (f.d = 2 → ∀ q ∈ (u.die c.b.die).copies, q.1 / 4 ≠ pl.key / 128) ∧
          (f.d = 0 ∨ f.d = 3 → ∀ q ∈ (u.die c.b.die).copies, q.1 / 4 = pl.key / 128 → q.2.dirty = 0)) ∧
        ((∀ q ∈ (s.die c.b.die).copies, s.unreachable (32 * q.1) 32 = false ∧ s.formOf (32 * q.1) ≠ some .mismatched ∧
            aget (s.die c.b.die).copies q.1 = some q.2) →
          ∀ a, let i := a / 32
            u.mem.read a = match aget (s.die c.b.die).copies i with
              | some x => if f.d ≠ 1 ∧ (∃ pl ∈ lines, i / 4 = pl.key / 128) ∧ x.dirty.getLsbD (a % 32) = true
                then x.bytes.getD (a % 32) 0 else s.mem.read a
              | none => s.mem.read a))

namespace Sys2Proof.Claims

open Sys2Proof.Machine

/-- The warp with one more count on token slot t. -/
def Counted (w w' : Warp) (t : Nat) : Prop :=
  { w' with tokens := w.tokens, stray := w.stray } = w ∧ w'.token t = w.token t + 1 ∧ w'.strayOn t = false ∧
  ∀ k, k < 8 → k ≠ t → w'.token k = w.token k ∧ w'.strayOn k = w.strayOn k

/-- The instruction completes with `e` as the block's latest command, counted on token slot t (R280, R309). -/
def Issued (s : State) (c : Ctx) (t : BitVec 3) (e : Entry) (o : Host.Outcome State Fault Refusal) : Prop :=
  ∃ w, Counted c.w w t.toNat ∧
    BlockBecomes s c (fun b => b = { c.b with entries := aset c.b.entries (orderKey s c) e }) w o

/-- A command of the warp's own core, just issued. -/
def command (c : Ctx) (op : EOp) (ws : List Word) (fmt : Word) (t : BitVec 3) : Entry :=
  { op := op, words := ws, fo := [], fmt := fmt, span := c.b.spanOf c.ref.w, warp := c.ref.w, toks := [(c.ref.w, t.toNat)]
    st := .queued, landed := 0, copied := none, stage := [], clamp := none, wait := .ready }

/-- Either case of a proposition. -/
def Cases (p a b : Prop) : Prop := (p → a) ∧ (¬p → b)

/-- The array commands but for the MMA forms: predicate, token slot, descriptor register and length, command. -/
def arrayForm : Instr → Option (Pred × BitVec 3 × Reg6 × Nat × EOp)
  | .ldws e => some (e.p, e.t, e.s, 4, .ldws false)
  | .ldwsW e => some (e.p, e.t, e.s, 4, .ldws true)
  | .swapw p t _ => some (p, t, 0, 0, .swapw)
  | .enct e => some (e.p, e.t, e.s, 4, .enct false)
  | .enctAuto e => some (e.p, e.t, e.s, 4, .enct true)
  | .accrd e => some (e.p, e.t, e.s, 2, .accrd)
  | .accwr e => some (e.p, e.t, e.s, 2, .accwr)
  | .accz e => some (e.p, e.t, e.s, 1, .accz)
  | .accsc e => some (e.p, e.t, e.s, 2, .accsc)
  | _ => none

/-- `n` bytes at an x: offset, a multiple of `al`, lie in the block's x: space. -/
def FitsX (c : Ctx) (off n al : Nat) : Prop := off % al = 0 ∧ off + n ≤ c.b.variant.scratch

/-- A split tile format (R299). -/
def IsSplit (f : Nat) : Prop := 16 ≤ f ∧ f ≤ 18

/-- Two runs of bytes are apart. -/
def Apart (a n b m : Nat) : Prop := a + n ≤ b ∨ b + m ≤ a

/-- What a descriptor of each array command satisfies (R311, R312, R317 to R320). -/
def arrayLegal (c : Ctx) (op : EOp) (ws : List Word) : Prop :=
  let x (i : Nat) : Word := ws.getD i 0
  let f (i lo n : Nat) : Nat := field (x i) lo n
  match op with
  | .ldws store => c.b.variant.acc ≠ 0 ∧ (x 2).toNat < 16 ∧ IsSplit (x 3).toNat ∧ (x 0).toNat % 128 = 0 ∧
      (x 1).toNat % 128 = 0 ∧ ∀ t, t < 4 → (x 2).getLsbD t = true →
        (x 0).toNat + t * (x 1).toNat + splitBytes (x 3).toNat ≤ if store then (c.b.seg .w).limit else c.b.variant.scratch
  | .enct auto =>
      let n := (f 0 9 6 + 1) * 256 * (if f 0 22 5 = 0 then 4 else 2)
      f 0 19 1 = 0 ∧ f 0 8 1 = 0 ∧ f 2 16 8 = 0 ∧ IsSplit (f 0 27 5) ∧ f 0 22 5 ≤ 2 ∧
      (if f 0 18 1 = 1 then f 0 22 5 = 0 ∧ x 1 = 0 ∧ c.b.variant.acc ≠ 0 ∧ f 0 15 3 < c.b.variant.acc
       else f 0 15 3 = 0 ∧ FitsX c (x 1).toNat n 128 ∧ Apart (x 1).toNat n (x 3).toNat (splitBytes (f 0 27 5))) ∧
      FitsX c (x 3).toNat (splitBytes (f 0 27 5)) 128 ∧
      if auto then f 2 0 16 = 0 else 0 < f 2 0 16 ∧ f 2 0 16 < 0x7F80
  | .accrd | .accwr => c.b.variant.acc ≠ 0 ∧ f 0 0 15 = 0 ∧ f 0 27 2 ≠ 3 ∧ (f 0 27 2 = 2 → f 0 15 12 = 0) ∧
      f 0 29 3 < c.b.variant.acc ∧ f 0 21 6 + f 0 15 6 + 1 ≤ 64 ∧
      FitsX c (x 1).toNat (if f 0 27 2 = 0 then 1024 * (f 0 15 6 + 1) else if f 0 27 2 = 1 then 512 * (f 0 15 6 + 1) else 1024) 16
  | .accz => c.b.variant.acc ≠ 0 ∧ 0 < (x 0).toNat ∧ (x 0).toNat < 256 ∧ (x 0).toNat < 2 ^ c.b.variant.acc
  | .accsc => c.b.variant.acc ≠ 0 ∧ f 0 0 24 = 0 ∧ f 0 27 2 ≠ 3 ∧ f 0 29 3 < c.b.variant.acc ∧
      if f 0 27 2 = 0 then f 0 24 3 = 0 else x 1 = 0 ∧ f 0 24 3 < c.b.variant.acc
  | _ => c.b.variant.acc ≠ 0

/-- The MMA forms. -/
def mmaForm : Instr → Option (EFields × Reg5 × EOp)
  | .mma e v => some (e, v, .mma)
  | .mmaChain e v => some (e, v, .mmaChain)
  | .mmaSmx e v => some (e, v, .mmaSmx)
  | _ => none

/-- A sound format word (R305). -/
def FormatWord (op : EOp) (f : Word) : Prop :=
  IsSplit (field f 27 5) ∧ IsSplit (field f 22 5) ∧ field f 0 17 = 0 ∧
    if op = .mmaSmx then IsSplit (field f 17 5) else field f 17 5 = 0

/-- What a descriptor of an MMA form satisfies, with the tile formats of its format word (R311, R314 to R316). -/
def mmaLegal (c : Ctx) (op : EOp) (ws : List Word) (fmt : Word) : Prop :=
  let x (i : Nat) : Word := ws.getD i 0
  let f (i lo n : Nat) : Nat := field (x i) lo n
  let a := splitBytes (field fmt 27 5)
  let p := splitBytes (field fmt 17 5)
  c.b.variant.acc ≠ 0 ∧ f 1 0 25 = 0 ∧ f 1 29 3 < c.b.variant.acc ∧ FitsX c (x 0).toNat a 128 ∧
  (if op = .mmaChain then f 1 25 3 < c.b.variant.acc ∧ f 1 28 1 = 1 ∧ f 1 25 3 ≠ f 1 29 3 else f 1 25 3 = 0) ∧
  if op = .mmaSmx then FitsX c (x 2).toNat p 128 ∧ Apart (x 0).toNat a (x 2).toNat p ∧ f 3 23 8 ≠ 255 else x 2 = 0 ∧ x 3 = 0

/-- The KV commands with their descriptor's length. -/
def kvForm : Instr → Option (EFields × Nat × EOp)
  | .kvfork e => some (e, 2, .kvfork)
  | .kvext e => some (e, 2, .kvext)
  | .kvcow e => some (e, 2, .kvcow)
  | .kvfree e => some (e, 1, .kvfree)
  | _ => none

/-- What a descriptor of a KV command satisfies (R366). -/
def kvLegal (c : Ctx) (op : EOp) (ws : List Word) : Prop :=
  let w0 := ws.getD 0 0
  let w1 := ws.getD 1 0
  ∃ k, c.b.kv = some k ∧ 16 * field w0 20 12 + 16 ≤ c.b.variant.scratch ∧ field w0 0 20 < k.seqCount ∧
    match op with
    | .kvfork => field w1 20 12 = 0 ∧ field w1 0 20 < k.seqCount
    | .kvext => field w1 16 16 = 0 ∧ field w1 0 16 ≠ 0
    | .kvcow => field w1 28 4 = 0
    | _ => True

end Sys2Proof.Claims

/-- R309 and R311: an array command other than an MMA form with a sound descriptor waits for its warp's stores and then joins
the block's commands with a count on its token slot; without an active lane it does nothing; any other descriptor is illegal. -/
def Sys2Proof.Claims.ArrayCommandIssuePart : Prop :=
  ∀ (i : Instr) (p : Pred) (t : BitVec 3) (r : Reg6) (n : Nat) (op : EOp) (s : State) (c : Ctx),
    arrayForm i = some (p, t, r, n, op) → s.ctx = some c →
    Cases (r.toNat + n ≤ 63 ∧ arrayLegal c op (c.desc r n))
      ((c.active p = 0 → Completes s c 1 c.w (exec i s)) ∧
       (c.active p ≠ 0 → ¬StoresDone c.w → exec i s = .next s) ∧
       (c.active p ≠ 0 → StoresDone c.w → Issued s c t (command c op (c.desc r n) 0 t) (exec i s)))
      (∃ k ∈ [2, 3, 8], exec i s = .next (illegal s c k))

/-- R305, R309, R311: an MMA form takes its format word from its lanes: one they agree on and that is sound is issued with the
command, one that is not sound is illegal, and lanes that differ trap with vector 8. -/
def Sys2Proof.Claims.MatrixIssuePart : Prop :=
  ∀ (i : Instr) (e : EFields) (v : Reg5) (op : EOp) (s : State) (c : Ctx), mmaForm i = some (e, v, op) → s.ctx = some c →
    let ws := c.desc e.s 4
    let m := c.active e.p
    e.s.toNat ≤ 59 →
    (m = 0 → mmaLegal c op ws 0x84210000 → Completes s c 1 c.w (exec i s)) ∧
    (∀ f, m ≠ 0 → (∀ l ∈ m.lanes, c.v1 v l = f) →
      Cases (FormatWord op f ∧ mmaLegal c op ws f)
        (Cases (StoresDone c.w) (Issued s c e.t (command c op ws f e.t) (exec i s)) (exec i s = .next s))
        (∃ k ∈ [2, 3, 8], exec i s = .next (illegal s c k))) ∧
    ∀ l, m.has l = true → l < 128 → (∀ k, k < l → m.has k = false) → (∃ k ∈ m.lanes, c.v1 v k ≠ c.v1 v l) →
      mmaLegal c op ws 0x84210000 →
      ∃ lanes, exec i s = .next (s.takeTrap c.ref c.c 8 lanes c.c.pc (BitVec.ofNat 32 (256 * c.c.next))) ∧
        ∀ k, k < 128 → (lanes.has k = true ↔ m.has k = true ∧ c.v1 v k ≠ c.v1 v l)

/-- R308: the place that a command takes in its block's order. It is free; places rise by cycle, within a cycle by span core and
then by warp; and a warp's own commands of a cycle stand in the order it issues them. -/
def Sys2Proof.Claims.BlockOrderPart : Prop :=
  (∀ (b : Master) (now span w : Nat), let k := b.entryKey now span w
    let first := entryBase now span w
    first ≤ k ∧ (∀ p ∈ b.entries, first ≤ p.1 → p.1 < first + 2 ^ 16 → p.1 < k) ∧
    ((∀ p ∈ b.entries, p.1 < first ∨ first + 2 ^ 16 ≤ p.1) → k = first) ∧
    ((∀ p ∈ b.entries, p.1 + 1 ≠ first + 2 ^ 16) → k < first + 2 ^ 16 ∧ aget b.entries k = none)) ∧
  ∀ n n' p p' w w' : Nat, p < 16 → p' < 16 → w < 256 → w' < 256 → (n < n' ∨ n = n' ∧ (p < p' ∨ p = p' ∧ w < w')) →
    entryBase n p w + 2 ^ 16 ≤ entryBase n' p' w'

/-- R308 to R320: the array instructions. What the model chose here: log 69. -/
def Obligations.ArrayCommandIssue : Prop :=
  Sys2Proof.Claims.ArrayCommandIssuePart ∧ Sys2Proof.Claims.MatrixIssuePart ∧ Sys2Proof.Claims.BlockOrderPart

/-- R309, R359, R366: a KV command joins both the block's commands and the order of its die's page unit. -/
def Sys2Proof.Claims.KvIssuePart : Prop :=
  ∀ (i : Instr) (e : EFields) (n : Nat) (op : EOp) (s : State) (c : Ctx), kvForm i = some (e, n, op) → s.ctx = some c →
    let ws := c.desc e.s n
    Cases (e.s.toNat + n ≤ 63 ∧ kvLegal c op ws)
      ((c.active e.p = 0 → Completes s c 1 c.w (exec i s)) ∧
      (c.active e.p ≠ 0 → ¬StoresDone c.w → exec i s = .next s) ∧
      (c.active e.p ≠ 0 → StoresDone c.w → c.b.die < 8 → ∃ u, Issued u c e.t (command c op ws 0 e.t) (exec i s) ∧
        { u with dies := s.dies } = s ∧ (∀ d, d ≠ c.b.die → u.die d = s.die d) ∧
        u.die c.b.die = { s.die c.b.die with
          pageOps := aset (s.die c.b.die).pageOps (s.die c.b.die).pageSeq ⟨c.ref.m, c.ref.w, orderKey s c, true, 0, .waiting⟩
          pageSeq := (s.die c.b.die).pageSeq + 1 }))
      (∃ k ∈ [3, 8], exec i s = .next (illegal s c k))

/-- R362 to R364: XLAT and XLAT.wr issue as one operation of the die's page unit, with their lanes' positions and sequences. -/
def Sys2Proof.Claims.TranslationIssuePart : Prop :=
  ∀ (p : Pred) (r : Reg6) (la : BitVec 4) (v : Reg5) (wr : Bool) (s : State) (c : Ctx) (k : KvCtx), s.ctx = some c →
    let i : Instr := if wr then .xlatWr p r la v else .xlat p r la v
    let w := c.w.s r.toNat
    let own := field w 31 1 = 1
    let m := c.active p
    c.b.kv = some k → c.b.die < 8 → v ≠ 31 → (∀ o ∈ c.w.outs, o.k < c.w.opCount) →
    if r ≠ 63 ∧ field w 20 11 = 0 ∧ (if own then field w 0 20 = 0 else field w 0 20 < k.seqCount) then
      (m = 0 → ∃ t w', exec i s = .next t ∧ SameElsewhere s t c.ref ∧ t.warp c.ref = some w' ∧ SameRegisters c.w w' ∧
        Moved c 1 w' ∧ w'.outs = c.w.outs) ∧
      (m ≠ 0 → ∃ t w' o, exec i s = .next t ∧ t.warp c.ref = some w' ∧ SameRegisters c.w w' ∧ Moved c 1 w' ∧
        w'.op c.w.opCount = some o ∧ o.kind = .xlat wr ∧ o.pc = c.c.pc ∧ o.lanes.map LaneAcc.lane = m.lanes ∧
        (∀ l ∈ o.lanes, l.ea.toNat = (c.v1 v l.lane).toNat ∧
          l.dst.toNat = if own then (c.w.v c.c.base (v.toNat + 1) l.lane).toNat % 2 ^ 20 else field w 0 20) ∧
        ∃ x ∈ (t.die c.b.die).pageOps, x.1 = (s.die c.b.die).pageSeq ∧
          x.2 = ⟨c.ref.m, c.ref.w, c.w.opCount, false, m, .waiting⟩)
    else ∃ k ∈ [3, 8], exec i s = .next (illegal s c k)

/-- R363 and R366: XLAT and the KV instructions. -/
def Obligations.PageUnitIssue : Prop :=
  Sys2Proof.Claims.KvIssuePart ∧ Sys2Proof.Claims.TranslationIssuePart

namespace Sys2Proof.Claims

open Sys2Proof.Machine

/-- The CPY forms: with transform words, with follow-on words. -/
def copyForm : Instr → Option (EFields × Bool × Bool)
  | .cpy e => some (e, false, false)
  | .cpyTx e => some (e, true, false)
  | .cpyFo e => some (e, false, true)
  | .cpyTxFo e => some (e, true, true)
  | _ => none

/-- The object a copy is bound to (R277). -/
def boundTo (ws : List Word) : Option BarName :=
  let f (lo n : Nat) : Nat := field (ws.getD 7 0) lo n
  if f 15 1 = 0 then none else some (if f 14 1 = 1 then .hw (f 0 14) else .slot (16 * f 0 14))

/-- What the transform words of a CPY descriptor satisfy (R278, R283). -/
def transformLegal (ws : List Word) : Prop :=
  let x (i : Nat) : Word := ws.getD i 0
  let f (i lo n : Nat) : Nat := field (x i) lo n
  let tr := f 8 24 8
  let z := 2 ^ f 0 6 3
  tr ≤ 4 ∧ f 8 8 2 = 0 ∧ x 10 = 0 ∧ x 11 = 0 ∧
  (if tr = 1 ∨ tr = 3 then IsSplit (f 8 19 5) ∧ f 8 14 5 ≤ 2 ∧ z = (if f 8 14 5 = 0 then 4 else 2) else f 8 11 13 = 0) ∧
  (if tr = 3 then f 9 16 16 = 0 ∧ if f 8 10 1 = 1 then f 9 0 16 = 0 else 0 < f 9 0 16 ∧ f 9 0 16 ≤ 0x7F80
   else f 8 10 1 = 0 ∧ f 8 0 8 = 0 ∧ if tr = 4 then (x 9).toNat % 4 = 0 else x 9 = 0) ∧
  (tr = 2 → z ≤ 4)

/-- What the follow-on words, from word k on, satisfy (R278, R293). -/
def followLegal (c : Ctx) (ws : List Word) (k : Nat) : Prop :=
  let x (i : Nat) : Word := ws.getD i 0
  c.b.variant.acc ≠ 0 ∧ field (x k) 29 3 ≤ 3 ∧ field (x k) 23 6 ≤ 59 ∧ field (x k) 0 23 = 0 ∧ x (k + 2) = 0 ∧ x (k + 3) = 0 ∧
    (field (x k) 29 3 = 3 → x (k + 1) = 0)

/-- The bytes that a copy writes (R286). -/
def copyBytes (ws : List Word) (tx : Bool) : Nat :=
  let f (i lo n : Nat) : Nat := field (ws.getD i 0) lo n
  let h := f 5 16 16
  let w := f 5 0 16
  if tx = true ∧ f 8 24 8 = 2 then 32 * ceilDiv w 32 * (32 * ceilDiv h 32) * 2 ^ f 0 6 3
  else if tx = true ∧ f 8 24 8 = 3 then ceilDiv h 64 * ceilDiv w 256 * splitBytes (f 8 19 5)
  else h * w * 2 ^ f 0 6 3

/-- What a CPY descriptor satisfies (R276 to R278). -/
def copyLegal (c : Ctx) (ws : List Word) (tx fo : Bool) : Prop :=
  let x (i : Nat) : Word := ws.getD i 0
  let f (i lo n : Nat) : Nat := field (x i) lo n
  let side (space swizzle : Nat) (high : Word) : Prop := space ≠ 3 ∧ (space ≠ 1 → swizzle = 0) ∧ (space ≠ 0 → high = 0)
  side (f 0 11 2) (f 0 0 3) (x 2) ∧ side (f 0 9 2) (f 0 3 3) (x 4) ∧ (f 0 11 2 = 1 ∨ f 0 9 2 = 1) ∧ f 0 6 3 ≤ 4 ∧
  f 0 13 8 ≤ f 0 21 8 ∧ f 5 16 16 ≠ 0 ∧ f 5 0 16 ≠ 0 ∧
  (match boundTo ws with
    | none => True
    | some (.hw n) => n < c.b.variant.hwbars ∧ copyBytes ws tx < 2 ^ 31
    | some (.slot o) => o + 16 ≤ c.b.variant.scratch ∧ copyBytes ws tx < 2 ^ 31) ∧
  (tx = true → transformLegal ws) ∧ (fo = true → followLegal c ws (if tx then 12 else 8))

/-- The copy that a closed collection becomes: slice 0's warp and count come first. -/
def copyOf (c : Ctx) (k : Collection) (tx fo : Bool) : Entry :=
  let toks := ((k.parts.filter fun p => p.1 == 0) ++ k.parts.filter fun p => p.1 != 0).map fun p => p.2
  let w := (toks.headD (0, 0)).1
  { op := .copy tx fo, words := k.words, fo := k.fo, fmt := if fo then k.words.getD (if tx then 13 else 9) 0 else 0
    span := c.b.spanOf w, warp := w, toks := toks, st := .queued, landed := 0, copied := none, stage := [], clamp := none
    wait := .ready }

/-- The collection that a slice joins: the open one of its id, or a new one (R279). -/
def joined (c : Ctx) (e : EFields) (tx fo : Bool) : Collection :=
  let ws := c.desc e.s (copyLen tx fo)
  let k : Collection := (aget c.b.collections (field (ws.getD 0 0) 29 3)).getD
    ⟨.copy tx fo, (ws.getD 0 0 &&& ~~~(0xFF#32 <<< 13)) :: ws.tail, c.foRegs ws tx fo, []⟩
  { k with parts := k.parts ++ [(field (ws.getD 0 0) 13 8, c.ref.w, e.t.toNat)] }

end Sys2Proof.Claims

/-- R277 to R282: a slice whose descriptor is sound joins the collection of its id or begins one, with a count on its token slot.
The last slice closes the collection, whose copy then stands in the block's order, slice 0's warp and count first; a copy bound
to an object is in flight there from then. A slice that does not match the open collection and an unsound descriptor are
illegal. What the model chose here: log 23, 53. -/
def Obligations.CopySlices : Prop :=
  ∀ (i : Instr) (e : EFields) (tx fo : Bool) (s : State) (c : Ctx), copyForm i = some (e, tx, fo) → s.ctx = some c →
    let ws := c.desc e.s (copyLen tx fo)
    let q := field (ws.getD 0 0) 29 3
    let k := joined c e tx fo
    let agrees : Prop := ∀ y, aget c.b.collections q = some y → y.op = .copy tx fo ∧
      y.words = (ws.getD 0 0 &&& ~~~(0xFF#32 <<< 13)) :: ws.tail ∧ y.fo = c.foRegs ws tx fo ∧
      ∀ x ∈ y.parts, x.1 ≠ field (ws.getD 0 0) 13 8
    let last : Prop := k.parts.length = field (ws.getD 0 0) 21 8 + 1
    let closed : Master := { c.b with collections := adel c.b.collections q
                                      entries := aset c.b.entries (orderKey s c) (copyOf c k tx fo) }
    let goes (w : Warp) (b : Master) : Prop := BlockBecomes s c (fun x => x = b) w (exec i s)
    Cases (e.s.toNat + copyLen tx fo ≤ 63 ∧ copyLegal c ws tx fo)
      ((c.active e.p = 0 → Completes s c 1 c.w (exec i s)) ∧
       (c.active e.p ≠ 0 → ¬agrees → exec i s = .next (illegal s c 8)) ∧
       (c.active e.p ≠ 0 → agrees → ¬StoresDone c.w → exec i s = .next s) ∧
       (c.active e.p ≠ 0 → agrees → StoresDone c.w → ∃ w, Counted c.w w e.t.toNat ∧
         (¬last → goes w { c.b with collections := aset c.b.collections q k }) ∧
         (last → boundTo ws = none → goes w closed) ∧
         ∀ n y, last → boundTo ws = some n → c.b.bar n = some y → y.failed = true ∨ y.arrivals c.b.liveWarps = false →
           goes w (closed.setBar n { y with inFlight := y.inFlight + 1 })))
      (∃ j ∈ [2, 3, 8], exec i s = .next (illegal s c j))

/-- R382, R385: COLL counts on its token slot and gives its engine an instance, which the engine has yet to take.
What the model chose here: log 72. -/
def Obligations.CollectiveIssue : Prop :=
  ∀ (e : EFields) (s : State) (c : Ctx), s.ctx = some c →
    if e.s.toNat ≤ 61 ∧ (c.w.s2 e.s.toNat).toNat % 64 = 0 then
      (c.active e.p = 0 → Completes s c 1 c.w (exec (.coll e) s)) ∧
      (c.active e.p ≠ 0 →
        let k := freshKey s.colls
        let x : Coll := { (default : Coll) with
          m := c.ref.m, w := c.ref.w, tok := e.t.toNat, die := c.b.die, ctrs := [0, 0, 0, 0], progressAt := s.cycles
          wait := .ready, ctx := c.b.ctx, queue := c.b.queue, blockVa := c.w.s2 e.s.toNat }
        ∃ (u : State) (w : Warp), Counted c.w w e.t.toNat ∧ Completes u c 1 w (exec (.coll e) s) ∧
          { u with colls := s.colls } = s ∧ u.colls = aset s.colls k x)
    else exec (.coll e) s = .next (illegal s c 8)

namespace Sys2Proof.Claims

open Sys2Proof.Machine

/-- The entry at position k of block m's order is over: it has left the order, one count of token slot `tk` of its warp is
released, the array state of its core is `arr`, x: is `x`, and memory, registers and every other block are as they were. -/
def CommandOver (s : State) (m : Nat) (b : Master) (k : Nat) (e : Entry) (tk : Nat) (arr : ArraySt) (x : Memory)
    (o : Host.Outcome State Fault Refusal) : Prop :=
  ∃ t b', o = .next t ∧ t.master m = some b' ∧ aget b'.entries k = none ∧ b'.arrays = modAt b.arrays e.span (fun _ => arr) ∧
    b'.x = x ∧ b'.phase = b.phase ∧ b'.slots = b.slots ∧ b'.hw = b.hw ∧ t.mem = s.mem ∧ (∀ j, j ≠ m → t.master j = s.master j) ∧
    ∀ i w, b.warps[i]? = some w → ∃ w', b'.warps[i]? = some w' ∧ { w' with tokens := w.tokens } = w ∧
      (i ≠ e.warp → ∀ q, q < 8 → w'.token q = w.token q) ∧
      (i = e.warp → ∀ q, q < 8 → w'.token q = if q = tk then w.token q - 1 else w.token q)

/-- The array state a command of the statements below finds. -/
def arrayOf (b : Master) (e : Entry) : ArraySt := b.arrays.getD e.span default

/-- Of the words of the accumulator tiles, side registers included, only those named have changed. -/
def OnlyWords (arr a : ArraySt) (named : Nat → Nat → Prop) : Prop :=
  a.p0 = arr.p0 ∧ a.p1 = arr.p1 ∧ ∀ t i, t < 8 → ¬named t i → (a.tile t).word i = (arr.tile t).word i

/-- The exception word gathers the classes `raised` (R301). -/
def Sticky (old new : AccTile) (raised : Nat → Prop) : Prop :=
  ∀ q, q < 5 → ((new.word 16576).getLsbD q = true ↔ (old.word 16576).getLsbD q = true ∨ raised q)

end Sys2Proof.Claims

/-- R306 to R308: an array command whose turn has come, nothing of the block's order before it, starts in a later cycle than its
issue when its checks pass; one that meets poison or a mismatch of formats is held with its fault. A command that waits for an
earlier conflicting one does not start. -/
def Sys2Proof.Claims.CommandStartPart : Prop :=
  ∀ (s : State) (m k : Nat) (b : Master) (e : Entry), s.master m = some b → aget b.entries k = some e → e.op.isArray = true →
    e.st = .queued → b.phase = .running → e.span < b.arrays.length → entryCycle k < s.cycles →
    let w0 := e.words.getD 0 0
    let w1 := e.words.getD 1 0
    let descriptor := w0.toNat + 2 ^ 32 * w1.toNat
    let became (st : ESt) : Prop := ∃ t b', exec (.engineCommandStart m k) s = .next t ∧ t.master m = some b' ∧
      b' = { b with entries := aset b.entries k { e with st := st } } ∧ { t with masters := s.masters } = s ∧
      ∀ j, j ≠ m → t.master j = s.master j
    ((∀ p ∈ b.entries, k ≤ p.1) →
      (e.op = .swapw ∨ e.op = .accz ∨ e.op = .accrd ∨ e.op = .accsc → became .started) ∧
      (e.op = .accwr → let n := (if field w0 27 2 = 1 then 512 else 1024) * (if field w0 27 2 < 2 then field w0 15 6 + 1 else 1)
        Cases (Clean b w1.toNat n) (became .started) (became (.faulted 0x15 descriptor))) ∧
      (∀ auto, e.op = .enct auto →
        Cases (field w0 18 1 = 1 ∨ Clean b w1.toNat ((field w0 9 6 + 1) * 256 * (if field w0 22 5 = 0 then 4 else 2)))
          (became .started) (became (.faulted 0x15 descriptor))) ∧
      (e.op = .ldws false → let n := splitBytes (field (e.words.getD 3 0) 0 5)
        let reason (t : Nat) : Option Nat :=
          if (e.words.getD 2 0).getLsbD t = true
          then tileReason (readBytes b.x (w0.toNat + t * w1.toNat) n) (field (e.words.getD 3 0) 0 5) else none
        Cases (∀ t, t < 4 → (e.words.getD 2 0).getLsbD t = true → Clean b (w0.toNat + t * w1.toNat) n)
          (((∀ t, t < 4 → reason t = none) → became .started) ∧
           ∀ t r, t < 4 → reason t = some r → (∀ j, j < t → reason j = none) → became (.faulted 0x22 (r + 16 * (1 + t))))
          (became (.faulted 0x15 descriptor))) ∧
      (e.op = .mma ∨ e.op = .mmaSmx ∨ e.op = .mmaChain → ¬Clean b w0.toNat (splitBytes (field e.fmt 27 5)) →
        became (.faulted 0x15 descriptor)) ∧
      (e.op = .mma ∨ e.op = .mmaSmx ∨ e.op = .mmaChain → Clean b w0.toNat (splitBytes (field e.fmt 27 5)) →
        let a := readBytes b.x w0.toNat (splitBytes (field e.fmt 27 5))
        (∀ r, tileReason a (field e.fmt 27 5) = some r → became (.faulted 0x22 r)) ∧
        (tileReason a (field e.fmt 27 5) = none →
          ((arrayOf b e).p0.length = 4 → (∀ p, some p ∈ (arrayOf b e).p0 → p.fmt = field e.fmt 22 5) →
            ((arrayOf b e).p0.getD 0 none ≠ none ∨ e.op ≠ .mmaSmx) → became .started) ∧
          ∀ n p, n < 4 → (arrayOf b e).p0[n]? = some (some p) → p.fmt ≠ field e.fmt 22 5 →
            (∀ j q, j < n → (arrayOf b e).p0[j]? = some (some q) → q.fmt = field e.fmt 22 5) →
            became (.faulted 0x22 (16 * (1 + n)))))) ∧
    ∀ p ∈ b.entries, p.1 < k → p.2.op = .swapw → p.2.span = e.span → e.op = .swapw → exec (.engineCommandStart m k) s = .next s

/-- R300, R313, R318, R319: what SWAPW, ACCZ, ACCRD and ACCWR with 32-bit rows, and MMA leave when they complete. -/
def Sys2Proof.Claims.CommandResultsPart : Prop :=
  ∀ (s : State) (m k : Nat) (b : Master) (e : Entry) (tk : Nat), s.master m = some b → aget b.entries k = some e →
    e.st = .started → e.toks = [(e.warp, tk)] → e.span < b.arrays.length → (∀ p ∈ b.entries, p.2.op ≠ .qfence) →
    let arr := arrayOf b e
    let w0 := e.words.getD 0 0
    let w1 := e.words.getD 1 0
    let ended (a : ArraySt) (x : Memory) : Prop := CommandOver s m b k e tk a x (exec (.engineCommandComplete m k) s)
    (e.op = .swapw → ended { arr with p0 := arr.p1, p1 := arr.p0 } b.x) ∧
    (e.op = .accz → ∃ a, ended a b.x ∧ a.p0 = arr.p0 ∧ a.p1 = arr.p1 ∧ ∀ d i, d < 8 → i ≤ 16576 →
      if w0.getLsbD d then (i < 16384 → (a.tile d).word i = 0) ∧ (16384 ≤ i → (a.tile d).word i = sideInit i)
      else (a.tile d).word i = (arr.tile d).word i) ∧
    (e.op = .accrd → field w0 27 2 = 0 → PlainBytes b w1.toNat (1024 * (field w0 15 6 + 1)) → ∃ x, ended arr x ∧
      (∀ i n, i ≤ field w0 15 6 → n < 256 → leNat (readBytes x (w1.toNat + 1024 * i + 4 * n) 4) =
        ((arr.tile (field w0 29 3)).elem (field w0 21 6 + i) n).toNat) ∧
      ∀ y, (y < w1.toNat ∨ w1.toNat + 1024 * (field w0 15 6 + 1) ≤ y) → x.read y = b.x.read y) ∧
    (e.op = .accwr → field w0 27 2 = 0 → field w0 29 3 < arr.tiles.length → field w0 21 6 + field w0 15 6 + 1 ≤ 64 →
      Clean b w1.toNat (1024 * (field w0 15 6 + 1)) → ∃ a, ended a b.x ∧ a.p0 = arr.p0 ∧ a.p1 = arr.p1 ∧ (∀ d, d < 8 → d ≠ field w0 29 3 → a.tile d = arr.tile d) ∧
      ∀ r n, r < 64 → n < 256 → (a.tile (field w0 29 3)).elem r n =
        if field w0 21 6 ≤ r ∧ r ≤ field w0 21 6 + field w0 15 6
        then BitVec.ofNat 32 (leNat (readBytes b.x (w1.toNat + 1024 * (r - field w0 21 6) + 4 * n) 4))
        else (arr.tile (field w0 29 3)).elem r n) ∧
    (e.op = .mma → field w1 29 3 < arr.tiles.length → let img := readBytes b.x w0.toNat (splitBytes (field e.fmt 27 5))
      mmaFault arr img e.fmt false = none → Clean b w0.toNat (splitBytes (field e.fmt 27 5)) → ∃ a, ended a b.x ∧ a.p0 = arr.p0 ∧ a.p1 = arr.p1 ∧
      (∀ d, d < 8 → d ≠ field w1 29 3 → a.tile d = arr.tile d) ∧
      ∀ r n, r < 64 → n < 256 → (a.tile (field w1 29 3)).elem r n =
        let old := (arr.tile (field w1 29 3)).elem r n
        if r < (PlaneTile.ofBytes img).rows then match arr.terms (PlaneTile.ofBytes img) r n with
          | some ts => (windowSum (ts.1 ++ [if field w1 28 1 = 1 then fp32.decode old.toNat else .zero false]) false).1
          | none => old
        else old)

/-- R301, R318, R320: what the 16-bit and side-register modes of ACCRD and ACCWR, and ACCSC leave when they complete. -/
def Sys2Proof.Claims.AccumulatorResultsPart : Prop :=
  ∀ (s : State) (m k : Nat) (b : Master) (e : Entry) (tk : Nat), s.master m = some b → aget b.entries k = some e →
    e.st = .started → e.toks = [(e.warp, tk)] → e.span < b.arrays.length → (∀ p ∈ b.entries, p.2.op ≠ .qfence) →
    let arr := arrayOf b e
    let w0 := e.words.getD 0 0
    let w1 := e.words.getD 1 0
    let d := field w0 29 3
    let mode := field w0 27 2
    let rows := field w0 15 6 + 1
    let row0 := field w0 21 6
    let ended (a : ArraySt) (x : Memory) : Prop := CommandOver s m b k e tk a x (exec (.engineCommandComplete m k) s)
    d < arr.tiles.length → row0 + rows ≤ 64 →
    (e.op = .accrd → mode = 1 → PlainBytes b w1.toNat (512 * rows) → ∃ a x, ended a x ∧
      let half (i n : Nat) : Word × Exc := Fmt.bf16.encode (fp32.decode ((arr.tile d).elem (row0 + i) n).toNat) .rn false false
      (∀ i n, i < rows → n < 256 → leNat (readBytes x (w1.toNat + 512 * i + 2 * n) 2) = (half i n).1.toNat) ∧
      (∀ y, (y < w1.toNat ∨ w1.toNat + 512 * rows ≤ y) → x.read y = b.x.read y) ∧
      OnlyWords arr a (fun t i => t = d ∧ i = 16576) ∧
      Sticky (arr.tile d) (a.tile d) fun q => ∃ i n, i < rows ∧ n < 256 ∧ (half i n).2.getLsbD q = true) ∧
    (e.op = .accrd → mode = 2 → PlainBytes b w1.toNat 1024 → ∃ x, ended arr x ∧
      (∀ i, i < 256 → leNat (readBytes x (w1.toNat + 4 * i) 4) = ((arr.tile d).word (16384 + i)).toNat) ∧
      ∀ y, (y < w1.toNat ∨ w1.toNat + 1024 ≤ y) → x.read y = b.x.read y) ∧
    (e.op = .accwr → mode = 1 → Clean b w1.toNat (512 * rows) → ∃ a, ended a b.x ∧
      OnlyWords arr a (fun t i => t = d ∧ 256 * row0 ≤ i ∧ i < 256 * (row0 + rows)) ∧
      ∀ i n, i < rows → n < 256 → (a.tile d).elem (row0 + i) n =
        BitVec.ofNat 32 (2 ^ 16 * leNat (readBytes b.x (w1.toNat + 512 * i + 2 * n) 2))) ∧
    (e.op = .accwr → mode = 2 → Clean b w1.toNat 1024 → ∃ a, ended a b.x ∧
      OnlyWords arr a (fun t i => t = d ∧ 16384 ≤ i) ∧
      ∀ i, i ≤ 192 → (a.tile d).word (16384 + i) =
        BitVec.ofNat 32 (leNat (readBytes b.x (w1.toNat + 4 * i) 4)) &&& (if i = 192 then 0x1F else 0xFFFFFFFF)) ∧
    (e.op = .accsc → mode ≤ 2 → let side := arr.tile (field w0 24 3)
      let value (r n : Nat) : Word × Exc := let x := (arr.tile d).elem r n
        if mode = 0 then fpArith .mul .f32 .rn false x w1 else if mode = 1 then fpArith .mul .f32 .rn false x (side.rescale r)
        else fpArith .div .f32 .rn false x (side.rowSum r)
      (mode = 1 → field w0 24 3 < arr.tiles.length) → ∃ a, ended a b.x ∧
      OnlyWords arr a (fun t i => (t = d ∧ (i < 16384 ∨ i = 16576)) ∨ (mode = 1 ∧ t = field w0 24 3 ∧ 16512 ≤ i ∧ i < 16576)) ∧
      (∀ r n, r < 64 → n < 256 → (a.tile d).elem r n = (value r n).1) ∧
      (mode = 1 → ∀ r, r < 64 → (a.tile (field w0 24 3)).rescale r = 0x3F800000) ∧
      Sticky (arr.tile d) (a.tile d) fun q => ∃ r n, r < 64 ∧ n < 256 ∧ (value r n).2.getLsbD q = true)

/-- R312, R317: what LDWS, LDWS.w, ENCT and ENCT.auto leave when they complete. A tile with more clamped values than it may spill
leaves its warp a trap. -/
def Sys2Proof.Claims.TileResultsPart : Prop :=
  ∀ (s : State) (m k : Nat) (b : Master) (e : Entry) (tk : Nat), s.master m = some b → aget b.entries k = some e →
    e.st = .started → e.toks = [(e.warp, tk)] → e.span < b.arrays.length → (∀ p ∈ b.entries, p.2.op ≠ .qfence) →
    let arr := arrayOf b e
    let w (i : Nat) : Word := e.words.getD i 0
    let out := exec (.engineCommandComplete m k) s
    let ended (a : ArraySt) (x : Memory) : Prop := CommandOver s m b k e tk a x out
    (∀ store, e.op = .ldws store → let fmt := field (w 3) 0 5
      let n := splitBytes fmt
      let off (t : Nat) : Nat := (w 0).toNat + t * (w 1).toNat
      let key (t : Nat) : Nat := wsKey b.die ((b.seg .w).base + off t)
      let tile (t : Nat) : List Byte := if store then readBytes s.mem (key t) n else readBytes b.x (off t) n
      (∀ t, t < 4 → (w 2).getLsbD t = true → tileReason (tile t) fmt = none ∧ if store
        then (∀ i, i < n → s.refreshing (key t + i) = false) ∧ s.poisoned (key t) n = false ∧ s.formOf (key t) = none
        else Clean b (off t) n) →
      ∃ a, ended a b.x ∧ a.p0 = arr.p0 ∧ a.tiles = arr.tiles ∧ ∀ t, t < 4 → a.p1.getD t none =
        if (w 2).getLsbD t then some (PlaneTile.ofBytes (tile t)) else none) ∧
    ∀ auto, e.op = .enct auto → let z := if field (w 0) 22 5 = 0 then 4 else 2
      let kind := field (w 0) 18 1
      let source (r n : Nat) : FVal :=
        if kind = 1 then fp32.decode ((arr.tile (field (w 0) 15 3)).elem r n).toNat
        else (scalarFmt (field (w 0) 22 5)).decode (BitVec.ofNat 32 (leNat (readBytes b.x ((w 1).toNat + 256 * z * r + z * n) z)))
      let code := splitEncode source (field (w 0) 9 6 + 1) (field (w 2) 24 8 + 1) (field (w 0) 27 5)
        (if auto then none else some (bfp16.decode (field (w 2) 0 16))) (field (w 0) 0 8) (rndOf (field (w 0) 20 2))
      (kind ≠ 1 → Clean b (w 1).toNat ((field (w 0) 9 6 + 1) * 256 * z)) →
      PlainBytes b (w 3).toNat (splitBytes (field (w 0) 27 5)) →
      let x := writeBytes b.x (w 3).toNat code.1
      (code.2 ≤ field (w 0) 0 8 → ended arr x) ∧
      (field (w 0) 0 8 < code.2 → ∀ v, b.warps[e.warp]? = some v → ∃ t b' v', out = .next t ∧ t.master m = some b' ∧ b'.x = x ∧
        b'.arrays = modAt b.arrays e.span (fun _ => arr) ∧ aget b'.entries k = none ∧ t.mem = s.mem ∧
        b'.warps[e.warp]? = some v' ∧ { v' with tokens := v.tokens, deliveries := v.deliveries } = v ∧
        v'.deliveries = v.deliveries ++ [(tk, Delivery.trap 9 (BitVec.ofNat 32 (code.2 % 2 ^ 14)) none)])

/-- R315, R316: what MMA.smx and MMA.chain leave when they complete. -/
def Sys2Proof.Claims.SoftmaxResultsPart : Prop :=
  ∀ (s : State) (m k : Nat) (b : Master) (e : Entry) (tk : Nat), s.master m = some b → aget b.entries k = some e →
    e.st = .started → e.toks = [(e.warp, tk)] → e.span < b.arrays.length → (∀ p ∈ b.entries, p.2.op ≠ .qfence) →
    let arr := arrayOf b e
    let w (i : Nat) : Word := e.words.getD i 0
    let d := field (w 1) 29 3
    let old := arr.tile d
    let n := splitBytes (field e.fmt 27 5)
    let img := readBytes b.x (w 0).toNat n
    let act := PlaneTile.ofBytes img
    let f (x : Word) : FVal := fp32.decode x.toNat
    let ended (a : ArraySt) (x : Memory) : Prop := CommandOver s m b k e tk a x (exec (.engineCommandComplete m k) s)
    d < arr.tiles.length → Clean b (w 0).toNat n → act.rows ≤ 64 →
    (e.op = .mmaChain → mmaFault arr img e.fmt false = none → let q := field (w 1) 25 3
      q < arr.tiles.length → q ≠ d → ∃ a, ended a b.x ∧ a.p0 = arr.p0 ∧ a.p1 = arr.p1 ∧
      OnlyWords arr a (fun t i => (t = d ∧ (i < 256 * act.rows ∨ i = 16576)) ∨ (t = q ∧ 16512 ≤ i ∧ i < 16512 + act.rows)) ∧
      (∀ r, r < act.rows → (a.tile q).rescale r = 0x3F800000) ∧
      ∀ r c, r < act.rows → c < 256 → (a.tile d).elem r c = (windowSum (((arr.terms act r c).map Prod.fst).getD [] ++
        [((f ((arr.tile q).rescale r)).mul (f (old.elem r c))).1]) false).1) ∧
    (e.op = .mmaSmx → mmaFault arr img e.fmt true = none → PlainBytes b (w 2).toNat (splitBytes (field e.fmt 17 5)) →
      ∃ a x, ended a x ∧ a.p0 = arr.p0 ∧ a.p1 = arr.p1 ∧
      let new := a.tile d
      let written (c : Nat) : Prop := ∃ p, arr.p0.getD (c / 64) none = some p ∧ c % 64 < p.rows
      let top (r : Nat) : Word := arr.columns.foldl (fun y c => (fpMinMax true .f32 false y (new.elem r c)).1) (old.rowMax r)
      let above (r : Nat) (y : Word) : Word := (transOp .ex2 false (fpArith .sub .f32 .rn false y (top r)).1).1
      let low (r : Nat) : Prop := top r = 0xFF800000
      let factor (r : Nat) : Word := if top r = 0xFF800000 then 0x3F800000 else above r (old.rowMax r)
      let prob (r c : Nat) : Word := if top r = 0xFF800000 then 0 else above r (new.elem r c)
      (∀ c, c ∈ arr.columns ↔ c < 256 ∧ written c) ∧ arr.columns.Pairwise (· < ·) ∧
      OnlyWords arr a (fun t i => t = d ∧ (i < 256 * act.rows ∨ i = 16576 ∨ ∃ r, r < act.rows ∧
        (i = 16384 + r ∨ i = 16448 + r ∨ i = 16512 + r))) ∧
      (∀ r c, r < act.rows → c < 256 → new.elem r c = match arr.terms act r c with
        | some ts => (windowSum ((ts.1 ++ [if field (w 1) 28 1 = 1 then f (old.elem r c) else .zero false]).map
            fun y => (y.mul (f (w 3))).1) false).1
        | none => old.elem r c) ∧
      (∀ r, r < act.rows → new.rowMax r = top r ∧
        new.rescale r = (fpArith .mul .f32 .rn false (old.rescale r) (factor r)).1 ∧
        (low r → new.rowSum r = (windowSum (((f (old.rowSum r)).mul (f (factor r))).1 ::
          arr.columns.map fun _ => .zero false) false).1) ∧
        (¬low r → new.rowSum r = (windowSum (((f (old.rowSum r)).mul (f (factor r))).1 ::
          arr.columns.map fun c => f (prob r c)) false).1)) ∧
      let code := splitEncode (fun r c => if r < act.rows ∧ c ∈ arr.columns then f (prob r c) else .zero false) act.rows
        (1 + arr.columns.foldl max 0) (field e.fmt 17 5) (some (.fin false 1 1)) 255 .rn
      x = writeBytes b.x (w 2).toNat code.1)

/-- R300 to R320: array commands start and complete. -/
def Obligations.ArrayCommands : Prop :=
  Sys2Proof.Claims.CommandStartPart ∧ Sys2Proof.Claims.CommandResultsPart ∧ Sys2Proof.Claims.AccumulatorResultsPart ∧
  Sys2Proof.Claims.TileResultsPart ∧ Sys2Proof.Claims.SoftmaxResultsPart

namespace Sys2Proof.Claims

open Sys2Proof.Machine

/-- Memory at a place answers, free of poison, with a packed bit that agrees (R254, R333). -/
def Sound (s : State) (pl : Place) (n : Nat) : Prop :=
  s.poisoned pl.key n = false ∧ (pl.key < hbmBytes → s.formOf pl.key = if pl.packed then some .packed else none)

/-- The shuttle reads `n` bytes of a space (R249, R261, R285, R288): aligned, in the segment, sound. Translations are cached from s
to t. -/
def Piece (s t : State) (b : Master) (sp sw addr n z : Nat) (bs : List Byte) : Prop :=
  let a := wrapSpace sp addr
  a % z = 0 ∧ if sp = 1 then t = s ∧ (∀ i, i < n → swizzle sw (a + i) < (b.seg .x).limit ∧ swizzle sw (a + i) ∉ b.xPoison) ∧
      bs = (List.range n).map fun i => b.x.read (swizzle sw (a + i))
    else b.outside sp a n = false ∧ ∃ ps, s.vaPlaces b.die b.queue b.ctx (b.virtual sp a) n .read = (t, .ok ps) ∧
      (∀ p ∈ ps, Sound t p.1 p.2) ∧ bs = ps.flatMap fun p => readBytes t.mem p.1.key p.2

/-- Pieces read one after another: address, length, alignment. -/
def Pieces (b : Master) (sp sw : Nat) : List (Nat × Nat × Nat) → State → State → List Byte → Prop
  | [], s, t, bs => t = s ∧ bs = []
  | p :: ps, s, t, bs => ∃ u x y, Piece s u b sp sw p.1 p.2.1 p.2.2 x ∧ Pieces b sp sw ps u t y ∧ bs = x ++ y

/-- The elements of a destination row of a transpose: those of the source box, and zeros (R284). -/
def Transposed (b : Master) (x : Box) (i : Nat) : List Nat → State → State → List Byte → Prop
  | [], s, t, bs => t = s ∧ bs = []
  | j :: js, s, t, bs => if j < x.h ∧ i < x.w
    then ∃ u y r, Piece s u b x.srcSp x.srcSw (x.src + x.spitch * j + x.z * i) x.z x.z y ∧ Transposed b x i js u t r ∧ bs = y ++ r
    else ∃ r, Transposed b x i js s t r ∧ bs = List.replicate x.z 0 ++ r

/-- What a move reads whole before bytes that depend on it land (R284): the gather index of row j, tile j of a dequantise that
passes R228, the elements of tile j of a split-encode and the tile and clamped count they give (R229). -/
def Whole (b : Master) (x : Box) (j : Nat) (s t : State) (w : List Byte × Nat) : Prop :=
  let nb := ceilDiv x.w 256
  if x.tr = 4 then Piece s t b 1 0 (x.idx + 4 * j) 4 4 w.1 ∧ w.2 = 0
  else if x.tr = 1 then
    Piece s t b x.srcSp x.srcSw (x.src + x.spitch * (j / nb) + splitBytes x.tfmt * (j % nb)) (splitBytes x.tfmt) 1 w.1 ∧
      tileReason w.1 x.tfmt = none ∧ w.2 = 0
  else
    let rows := min 64 (x.h - 64 * (j / nb))
    let cols := min 256 (x.w - 256 * (j % nb))
    ∃ bs, Pieces b x.srcSp x.srcSw ((List.range rows).map fun r =>
        (x.src + x.spitch * (64 * (j / nb) + r) + x.z * 256 * (j % nb), x.z * cols, x.z)) s t bs ∧
      w = splitEncode (fun r k => (scalarFmt x.sfmt).ftzSource x.ftz ((scalarFmt x.sfmt).decode
        (BitVec.ofNat 32 (recNat bs (x.z * (cols * r + k)) x.z)))) rows cols x.tfmt x.thr x.spill x.rnd

/-- The wholes on which n bytes from offset o of unit i depend. -/
def wholes (x : Box) (i o n : Nat) : List Nat :=
  if x.tr = 3 ∨ x.tr = 4 then [i]
  else if x.tr = 1 then (List.range ((o + n - 1) / x.z / 256 + 1 - o / x.z / 256)).map fun k => ceilDiv x.w 256 * (i / 64) + (o / x.z / 256 + k)
  else []

/-- Each is held from an earlier granule of its unit, or read now. -/
def HasWholes (b : Master) (x : Box) (g : Stage) (w : Nat → List Byte × Nat) : List Nat → State → State → Prop
  | [], s, t => t = s
  | j :: js, s, t => ∃ u, (aget g j = some (w j) ∧ u = s ∨ aget g j = none ∧ Whole b x j s u (w j)) ∧ HasWholes b x g w js u t

/-- The bytes of a granule, from offset o of unit i (R284), and a split tile's clamped count. -/
def GranuleBytes (b : Master) (x : Box) (w : Nat → List Byte × Nat) (i o n : Nat) (s t : State) (bs : List Byte) (c : Nat) : Prop :=
  if x.tr = 3 then t = s ∧ bs = ((w i).1.drop o).take n ∧ c = (w i).2
  else if x.tr = 2 then Transposed b x i ((List.range (n / x.z)).map (o / x.z + ·)) s t bs ∧ c = 0
  else if x.tr = 1 then t = s ∧ c = 0 ∧ bs = (List.range (n / x.z)).flatMap fun k =>
    leBytes x.z ((scalarFmt x.sfmt).encode (tileValue (w (ceilDiv x.w 256 * (i / 64) + (o / x.z + k) / 256)).1 (i % 64) ((o / x.z + k) % 256)).1
      x.rnd false x.ftz).1.toNat
  else Piece s t b x.srcSp x.srcSw (x.src + x.spitch * (if x.tr = 4 then leNat (w i).1 else i) + o) n x.z bs ∧ c = 0

/-- The destination of a granule takes it (R249, R288): none is x:, some is a place in memory, of whose line the die has no copy.
No live slot and no PARK is met. -/
def Takes (s t : State) (b : Master) (x : Box) (a n : Nat) : Option Place → Prop
  | none => x.dstSp = 1 ∧ t = s ∧ a % (if x.tr = 3 then 1 else x.z) = 0 ∧
      ∀ i, i < n → swizzle x.dstSw (a + i) < (b.seg .x).limit ∧ PlainBytes b (swizzle x.dstSw (a + i)) 1
  | some pl => x.dstSp ≠ 1 ∧ b.outside x.dstSp a n = false ∧ a % (if x.tr = 3 then 1 else x.z) = 0 ∧
      s.vaPlaces b.die b.queue b.ctx (b.virtual x.dstSp a) n .write = (t, .ok [(pl, n)]) ∧ Sound t pl n ∧
      (∀ q ∈ (t.die b.die).copies, q.1 / 4 < pl.key / 128 ∨ (pl.key + n - 1) / 128 < q.1 / 4) ∧
      ∀ m ∈ t.masters, ∀ w ∈ m.2.warps, w.park = none

/-- An entry that moves bytes, and its move: a copy of a running block, or a fill of one in its prologue (R295). -/
def Moves (s : State) (b : Master) (e : Entry) (x : Box) : Prop :=
  (b.phase = .running ∧ ∃ tx fo, e.op = .copy tx fo ∧ x = copyBox tx e.words) ∨
  (b.phase = .prologue ∧ e.op = .fill ∧ ∃ g y, s.gridOf b = some g ∧ g.launch.binds[e.fmt.toNat]? = some y ∧
    x = fillBox y b.coord.1 b.coord.2.1)

/-- The object to which a move reports (R292, R295). -/
def objectOf (e : Entry) : Option BarName := if e.op = .fill then some (.hw 0) else boundTo e.words

/-- Between two blocks the object of that name has changed by f, and no other; a slot's bytes follow it (R323). `xm` is what x:
holds apart from that. -/
def AtObject (b b' : Master) (nm : Option BarName) (f : Barrier → Barrier) (xm : Memory) : Prop :=
  let overlay (p : Nat) : Option Byte := match nm with
    | some (.slot o) => if o ≤ p ∧ p < o + 16 then (aget b.slots o).map fun y => (f y).bytes.getD (p - o) 0 else none
    | _ => none
  (∀ j, b'.hw[j]? = if nm = some (.hw j) then (b.hw[j]?).map f else b.hw[j]?) ∧
  (∀ q, aget b'.slots q = if nm = some (.slot q) then (aget b.slots q).map f else aget b.slots q) ∧
  ∀ p, b'.x.read p = (overlay p).getD (xm.read p)

/-- A landing of n bytes at an object (R292, R326). -/
def landed (n : Nat) (y : Barrier) : Barrier :=
  { y with landed := min (y.landed + n) (2 ^ 31 - 1), overflow := y.overflow || decide (2 ^ 31 - 1 < y.landed + n) }

/-- Every count of an entry is released (R281); the warp of its slice 0 has the deliveries ds added. -/
def ReleasedAll (b b' : Master) (e : Entry) (ds : List (Nat × Delivery)) : Prop :=
  b'.warps.length = b.warps.length ∧ ∀ i v, b.warps[i]? = some v → ∃ v', b'.warps[i]? = some v' ∧
    { v' with tokens := v.tokens, deliveries := v.deliveries } = v ∧
    v'.deliveries = v.deliveries ++ (if i = e.warp then ds else []) ∧
    ∀ q, q < 8 → v'.token q = v.token q - (e.toks.filter fun p => p = (i, q)).length

end Sys2Proof.Claims

/-- R280, R296: a copy starts in a later cycle than it closed when no other is before it, and a fill when every earlier one has
started. -/
def Sys2Proof.Claims.CopyStartsPart : Prop :=
  ∀ (s : State) (m k : Nat) (b : Master) (e : Entry), s.master m = some b → aget b.entries k = some e → e.st = .queued →
    (∀ tx fo, e.op = .copy tx fo → b.phase = .running ∧ entryCycle k < s.cycles ∧ ∀ p ∈ b.entries, k ≤ p.1) →
    (e.op = .fill → b.phase = .prologue ∧ ∀ p ∈ b.entries, p.1 < k → p.2.st ≠ .queued) → (e.op = .fill ∨ ∃ tx fo, e.op = .copy tx fo) →
    ∃ t, exec (.copyStart m k) s = .next t ∧ t.master m = some { b with entries := aset b.entries k { e with st := .started } } ∧
      { t with masters := s.masters } = s ∧ ∀ j, j ≠ m → t.master j = s.master j

/-- R286: the bytes that a copy and a fill write. -/
def Sys2Proof.Claims.CopyTotalsPart : Prop :=
  (∀ tx ws, (copyBox tx ws).total = copyBytes ws tx) ∧
  ∀ (y : XformBind) (i j : Nat),
    (y.transform = 0 → (fillBox y i j).total = y.rows * y.rowBytes) ∧
    (y.transform = 1 → (fillBox y i j).total = 32768 * y.rows) ∧
    (y.transform = 2 → (fillBox y i j).total = 32 * ceilDiv (y.rowBytes / scalarBytes y.format) 32 *
      (32 * ceilDiv y.rows 32 * scalarBytes y.format)) ∧
    (y.transform = 3 → (fillBox y i j).total = ceilDiv y.rows 64 * splitBytes y.format)

/-- R281, R284 to R288, R291, R292, R294 to R296: a granule of a copy or of a fill, of any transform and between any spaces, lands:
its bytes stand at its destination and count at the object of the move, whose phase that does not decide. The last ends the move:
its counts are released, a follow-on command enters the block order in its place, an outlier trap awaits slice 0's warp, the last
fill lets the block run. -/
def Sys2Proof.Claims.GranulesLandPart : Prop :=
  ∀ (s t v : State) (m k : Nat) (b : Master) (e : Entry) (x : Box) (w : Nat → List Byte × Nat) (u : State) (bs : List Byte) (c : Nat)
    (pl : Option Place), s.master m = some b → aget b.entries k = some e → Moves s b e x → e.st = .started → e.wait = .ready →
    (∀ p ∈ b.entries, p.2.op ≠ .qfence) → 0 < x.w → 0 < x.h → x.tr ≤ 4 → e.landed < x.total →
    let i := e.landed / x.unit
    let o := e.landed % x.unit
    let a := wrapSpace x.dstSp (x.unitAt i + o)
    let n := min (x.unit - o) (128 - a % 128)
    HasWholes b x e.stage w (wholes x i o n) s t → GranuleBytes b x w i o n t u bs c → bs.length = n → Takes u v b x a n pl →
    v.master m = some b →
    (∀ nm, e.op ≠ .fill → objectOf e = some nm → ∃ y, b.bar nm = some y ∧ (y.failed = true ∨ y.arrivals b.liveWarps = false)) →
    let clamped := e.clamp.or (if x.tr = 3 ∧ x.spill < c then some (i, c) else none)
    ∃ r b' xm, exec (.granuleLand m k) s = .next r ∧ r.master m = some b' ∧ (∀ j, j ≠ m → r.master j = v.master j) ∧
      (e.op ≠ .fill ∨ clamped = none → ∀ p, r.mem.read p = match pl with
        | some pl => if pl.key ≤ p ∧ p < pl.key + n then bs.getD (p - pl.key) 0 else v.mem.read p
        | none => v.mem.read p) ∧
      (pl = none → (∀ j, j < n → xm.read (swizzle x.dstSw (a + j)) = bs.getD j 0) ∧
        ∀ p, (∀ j, j < n → swizzle x.dstSw (a + j) ≠ p) → xm.read p = b.x.read p) ∧
      (pl.isSome → xm = b.x) ∧ (∀ j, j ≠ k → e.landed + n < x.total → aget b'.entries j = aget b.entries j) ∧
      (e.landed + n < x.total → AtObject b b' (objectOf e) (landed n) xm ∧ b'.phase = b.phase ∧ b'.arrays = b.arrays ∧ b'.warps = b.warps ∧
        ∃ g, aget b'.entries k = some { e with landed := e.landed + n, stage := g, clamp := clamped } ∧
          ∀ j ∈ wholes x i o n, aget g j = some (w j)) ∧
      (x.total ≤ e.landed + n →
        let gone : Prop := aget b'.entries k = none ∧ ∀ j, j ≠ k → aget b'.entries j = aget b.entries j
        (∀ tx fo, e.op = .copy tx fo → AtObject b b' (objectOf e) (fun y => { landed n y with inFlight := y.inFlight - 1 }) xm ∧
          b'.phase = b.phase ∧ b'.arrays = b.arrays ∧
          (∀ y, clamped = some y → gone ∧ ∃ d, ReleasedAll b b' e [((e.toks.headD (0, 0)).2,
            Delivery.trap 9 (BitVec.ofNat 32 (y.2 % 2 ^ 14 + 2 ^ 14 * (y.1 % 2 ^ 18))) d)]) ∧
          (clamped = none → fo = false → gone ∧ ReleasedAll b b' e []) ∧
          (clamped = none → fo = true → b.followBad (e.follow tx) = false → b'.warps = b.warps ∧ ∃ k' f, aget b'.entries k' = some f ∧
            f.op = foOp (e.words.getD (if tx then 12 else 8) 0) ∧ f.words = e.fo ∧ f.fmt = e.fmt ∧ f.toks = e.toks ∧ f.warp = e.warp ∧
            f.span = e.span ∧ f.st = .queued ∧ (k ≠ k' → aget b'.entries k = none) ∧
            ∀ j, j ≠ k → j ≠ k' → aget b'.entries j = aget b.entries j)) ∧
        (e.op = .fill → gone ∧ b'.arrays = b.arrays ∧
          (∀ y, clamped = some y → b'.phase = .frozen) ∧
          (clamped = none → (∃ q ∈ b.entries, q.1 ≠ k ∧ q.2.op = .fill) → AtObject b b' (some (.hw 0)) (landed n) xm ∧ b'.phase = .prologue) ∧
          (clamped = none → (∀ q ∈ b.entries, q.1 ≠ k → q.2.op ≠ .fill) → AtObject b b' (some (.hw 0)) (fun _ => Barrier.idle 0 0) xm ∧
            b'.phase = .running)))

/-- R284, R288, R289, R292: where an access of a plain granule fails, nothing lands: the move waits for a translation that is not
present, and stops, its block frozen with the cause, at a violation; a dequantise stops at a tile that R228 refuses, and is
dropped. -/
def Sys2Proof.Claims.GranulesStopPart : Prop :=
  ∀ (s : State) (m k : Nat) (b : Master) (e : Entry) (x : Box), s.master m = some b → aget b.entries k = some e → Moves s b e x →
    e.st = .started → e.wait = .ready → 0 < x.w → 0 < x.h → b.die < 8 →
    let i := e.landed / x.unit
    let o := e.landed % x.unit
    let a := wrapSpace x.dstSp (x.unitAt i + o)
    let n := min (x.unit - o) (128 - a % 128)
    let stops (u : State) (st : ESt) (f : FreezeAt) : Prop := ∃ r b' y, exec (.granuleLand m k) s = .next r ∧ r.master m = some b' ∧
      b'.phase = .frozen ∧ aget b'.entries k = some y ∧ y.st = st ∧ y.landed = e.landed ∧
      (objectOf e = none → b'.x = b.x ∧ ∃ z, z.st = st ∧ z.landed = e.landed ∧
        r = (u.setMaster m { b with entries := aset b.entries k z }).freeze m f) ∧
      ∀ nm z, objectOf e = some nm → b.bar nm = some z → b'.bar nm = some { z with faulted := true }
    let waits : Prop := ∃ r st, exec (.granuleLand m k) s = .next r ∧
      (st = .full ∨ ∃ j, st = .missing j) ∧ ∃ b' y, r.master m = some b' ∧ aget b'.entries k = some y ∧ y.wait = st ∧ y.st = .started ∧
        y.landed = e.landed ∧ b'.phase = b.phase ∧ b'.x = b.x
    let word : Dword := BitVec.ofNat 64 (2 ^ 61 * (if e.op = .fill then 0 else field (e.words.getD 0 0) 29 3) + e.landed % 2 ^ 40)
    (∀ u q, x.tr = 0 → s.engRead b x.srcSp x.srcSw (x.src + x.spitch * i + o) n x.z = (u, q) → u.master m = some b →
      (∀ cause va, q = .bad cause va → stops u .stopped { FreezeAt.blank cause with address := BitVec.ofNat 64 va, info := word }) ∧
      (∀ va lv wr, q = .missing va lv wr → waits) ∧
      ∀ bs u' q', q = .ok bs → u.engWrite m b x.dstSp x.dstSw a x.z bs = (u', q') → u'.master m = some b →
        (∀ cause va, q' = .bad cause va → stops u' .stopped { FreezeAt.blank cause with address := BitVec.ofNat 64 va, info := word }) ∧
        ∀ va lv wr, q' = .missing va lv wr → waits) ∧
    ∀ u bs reason, x.tr = 1 → (∀ p ∈ e.stage, p.1 / ceilDiv x.w 256 ≠ i / 64) → Piece s u b x.srcSp x.srcSw (x.src + x.spitch * (i / 64) +
        splitBytes x.tfmt * (o / x.z / 256)) (splitBytes x.tfmt) 1 bs → u.master m = some b → tileReason bs x.tfmt = some reason →
      stops u .dropped { FreezeAt.blank 0x22 with info := BitVec.ofNat 64 reason }

/-- R280 to R296: copies and prologue fills start, land granule by granule, wait, stop and end. What the model chose here: log 23,
52. -/
def Obligations.CopyGranules : Prop :=
  Sys2Proof.Claims.CopyStartsPart ∧ Sys2Proof.Claims.CopyTotalsPart ∧ Sys2Proof.Claims.GranulesLandPart ∧
  Sys2Proof.Claims.GranulesStopPart

namespace Sys2Proof.Claims

open Sys2Proof.Machine

/-- The page unit reads these bytes at this g: address, all it needs being cached. -/
def Reads (p : PageMem) (b : Master) (a : Nat) (bs : List Byte) : Prop := (pageRead b a bs.length).run p = (.ok bs, p)

/-- Where the structures of the master's die lie (R356). -/
def seqPlace (b : Master) (k : KvCtx) (q : Nat) : Nat := k.seqTable + b.die * k.stride + 32 * q
def poolPlace (b : Master) (k : KvCtx) : Nat := k.pool + b.die * k.stride
def framePlace (b : Master) (k : KvCtx) (f : Nat) : Nat := poolPlace b k + 64 + 8 * f

/-- The page unit reads a sequence entry, a page-list entry, the pool header, a frame descriptor (R357, R358). -/
def ReadsSeq (p : PageMem) (b : Master) (k : KvCtx) (q : Nat) (e : SeqEnt) : Prop :=
  Reads p b (seqPlace b k q) e.bytes ∧ e.length < 2 ^ 32 ∧ e.capacity ≤ 268435456 ∧ e.list < 2 ^ 64 ∧ e.list % 64 = 0
def ReadsPage (p : PageMem) (b : Master) (e : SeqEnt) (j f : Nat) : Prop := Reads p b (e.list + 4 * j) (leBytes 4 f)
def ReadsFrame (p : PageMem) (b : Master) (k : KvCtx) (f next n : Nat) : Prop :=
  next < 2 ^ 32 ∧ n < 2 ^ 16 ∧ Reads p b (framePlace b k f) (leBytes 2 n ++ leBytes 2 0 ++ leBytes 4 next)
def ReadsCount (p : PageMem) (b : Master) (k : KvCtx) (f n : Nat) : Prop := ∃ next, ReadsFrame p b k f next n

/-- The free list of the pool: the frames `held`, which KVCOWs still copying hold (log 86), stand at its front in some order,
and `free` frames from `head` on can be taken. -/
def ReadsPool (p : PageMem) (b : Master) (k : KvCtx) (held : List Nat) (head free : Nat) : Prop :=
  ∃ hs : List Nat, hs.Perm held ∧ hs.Nodup ∧ head ∉ hs ∧ head < 2 ^ 32 ∧ free + hs.length < 2 ^ 32 ∧ (∀ f ∈ hs, f < k.frameCount) ∧
    Reads p b (poolPlace b k) (leBytes 4 (hs.headD head) ++ leBytes 4 (free + hs.length) ++ leBytes 56 0) ∧
    ∀ i f, hs[i]? = some f → ReadsFrame p b k f ((hs ++ [head]).getD (i + 1) 0) 0

/-- No two of the structures, the first `n` entries of a page list among them, begin at one address. -/
def Laid (b : Master) (k : KvCtx) (list n : Nat) : Prop :=
  (∀ q, q < k.seqCount → seqPlace b k q ≠ poolPlace b k ∧ (∀ f, f < k.frameCount → seqPlace b k q ≠ framePlace b k f) ∧
    ∀ j, j < n → list + 4 * j ≠ seqPlace b k q) ∧
  ∀ j, j < n → list + 4 * j ≠ poolPlace b k ∧ ∀ f, f < k.frameCount → list + 4 * j ≠ framePlace b k f

/-- Only these addresses are written. -/
def OnlyWrites (p p' : PageMem) (named : Nat → Prop) : Prop :=
  p'.s = p.s ∧ ∀ a, ¬named a → (p'.writes.find? fun x => x.1 == a) = p.writes.find? fun x => x.1 == a

end Sys2Proof.Claims

/-- R368, R369: what KVEXT and KVFORK leave in the structures when they succeed; the frames that KVCOWs hold keep their place at
the front of the free list. -/
def Sys2Proof.Claims.SequenceGrowsPart : Prop :=
  (∀ (b : Master) (k : KvCtx) (q n : Nat) (p : PageMem) (e : SeqEnt) (head last free : Nat) (fs : List Nat), q < k.seqCount →
    ReadsSeq p b k q e → let len := if e.live then e.length else 0
    let old := ceilDiv len 16
    len + n < 2 ^ 32 → ceilDiv (len + n) 16 ≤ e.capacity → fs.length = ceilDiv (len + n) 16 - old → Laid b k e.list e.capacity →
    ReadsPool p b k p.held head free → fs.length ≤ free → fs.Nodup → (fs ++ [last]).head? = some head → last < 2 ^ 32 →
    last ∉ p.held → (∀ f ∈ fs, f ∉ p.held) →
    (∀ i f, fs[i]? = some f → f < k.frameCount ∧ ∃ next, (fs ++ [last])[i + 1]? = some next ∧ ReadsFrame p b k f next 0) →
    ∃ p', (runKvext b k q n).run p = (.ok (.ended ⟨0, 0, len + n, fs.length, 0⟩), p') ∧
      ReadsSeq p' b k q { e with length := len + n, live := true } ∧ ReadsPool p' b k p.held last (free - fs.length) ∧
      (∀ i f, fs[i]? = some f → ReadsPage p' b e (old + i) f ∧ ReadsFrame p' b k f 0xFFFFFFFF 1) ∧
      OnlyWrites p p' fun a => a = seqPlace b k q ∨ a = poolPlace b k ∨ (∃ f ∈ fs ++ p.held, a = framePlace b k f) ∨
        ∃ i, i < fs.length ∧ a = e.list + 4 * (old + i)) ∧
  ∀ (b : Master) (k : KvCtx) (q r : Nat) (p : PageMem) (e d : SeqEnt) (fs : List Nat) (count : Nat → Nat), q < k.seqCount →
    r < k.seqCount → ReadsSeq p b k q e → ReadsSeq p b k r d → e.live = true → d.live = false → fs.length = ceilDiv e.length 16 →
    fs.length ≤ d.capacity → fs.Nodup → Laid b k d.list d.capacity →
    (∀ i f, fs[i]? = some f → f < k.frameCount ∧ ReadsPage p b e i f ∧ f < 2 ^ 32 ∧ 0 < count f ∧ count f < 65535 ∧
      ReadsCount p b k f (count f)) →
    ∃ p', (runKvfork b k q r).run p = (.ok (.ended ⟨0, 0, e.length, 0, 0⟩), p') ∧
      ReadsSeq p' b k r { d with length := e.length, live := true } ∧
      (∀ i f, fs[i]? = some f → ReadsPage p' b d i f ∧ ReadsFrame p' b k f 0xFFFFFFFF (count f + 1)) ∧
      OnlyWrites p p' fun a => a = seqPlace b k r ∨ (∃ f ∈ fs, a = framePlace b k f) ∨ ∃ i, i < fs.length ∧ a = d.list + 4 * i

/-- R370, R371: what KVFREE leaves in the structures, and what KVCOW does before its copy, where it names the first frame that can
be taken, and after it, where it takes that frame. A frame whose count reaches zero becomes the first that can be taken. -/
def Sys2Proof.Claims.SequenceShrinksPart : Prop :=
  ∀ (b : Master) (k : KvCtx) (q : Nat) (p : PageMem) (e : SeqEnt) (head free : Nat) (count : Nat → Nat), q < k.seqCount →
    ReadsSeq p b k q e → Laid b k e.list (ceilDiv e.length 16) → ReadsPool p b k p.held head free → e.live = true →
    (∀ fs : List Nat, fs.length = ceilDiv e.length 16 → fs.Nodup → (∀ i f, fs[i]? = some f → f < k.frameCount ∧ f < 2 ^ 32 ∧
        ReadsPage p b e i f ∧ 0 < count f ∧ ReadsCount p b k f (count f)) →
      let back : List Nat := fs.filter fun f => count f == 1
      free + back.length + p.held.length < 2 ^ 32 →
      ∃ p', (runKvfree b k q).run p = (.ok (.ended ⟨0, 0, 0, 0, back.length⟩), p') ∧
        ReadsSeq p' b k q { e with length := 0, live := false } ∧
        ReadsPool p' b k p.held (back.getLastD head) (free + back.length) ∧
        (∀ i f, fs[i]? = some f → ReadsPage p' b e i 0xFFFFFFFF ∧
          (1 < count f → ReadsFrame p' b k f 0xFFFFFFFF (count f - 1))) ∧
        (∀ (i f : Nat), back[i]? = some f → ∃ next : Nat, (head :: back)[i]? = some next ∧ ReadsFrame p' b k f next 0) ∧
        OnlyWrites p p' fun a => a = seqPlace b k q ∨ a = poolPlace b k ∨ (∃ f ∈ fs ++ p.held, a = framePlace b k f) ∨
          ∃ i, i < fs.length ∧ a = e.list + 4 * i) ∧
    ∀ j g next, j < ceilDiv e.length 16 → ReadsPage p b e j g → g < k.frameCount → g < 2 ^ 32 → ReadsCount p b k g (count g) →
      (1 < count g → free = 0 → (runKvcow b k q j).run p = (.ok (.ended ⟨1, 0, e.length, 0, 0⟩), p)) ∧
      (1 < count g → 0 < free → head < k.frameCount → ReadsFrame p b k head next 0 →
        (runKvcow b k q j).run p = (.ok (.copy g head), p)) ∧
      ∀ f ∈ p.held, f < 2 ^ 32 → 0 < count g → ∃ p', (endKvcow b k q j g f).run p =
          (.ok ⟨0, 0, e.length, 1, if count g = 1 then 1 else 0⟩, p') ∧ ReadsPage p' b e j f ∧ ReadsFrame p' b k f 0xFFFFFFFF 1 ∧
        (1 < count g → ReadsFrame p' b k g 0xFFFFFFFF (count g - 1) ∧ ReadsPool p' b k (p.held.erase f) head free) ∧
        (count g = 1 → ReadsFrame p' b k g head 0 ∧ ReadsPool p' b k (p.held.erase f) g (free + 1)) ∧
        OnlyWrites p p' fun a => a = e.list + 4 * j ∨ a = poolPlace b k ∨ a = framePlace b k g ∨ ∃ h ∈ p.held, a = framePlace b k h

/-- R361: a write of the page unit whose translation is cached puts its bytes at their home, where no copy of the line is held,
and changes nothing else. -/
def Sys2Proof.Claims.StructureWritesPart : Prop :=
  ∀ (s : State) (b : Master) (a : Nat) (bs : List Byte) (pl : Place), b.die < 8 → 0 < bs.length → b.outside 0 a bs.length = false →
    s.vaPlaces b.die b.queue b.ctx a bs.length .write = (s, .ok [(pl, bs.length)]) → AtHome s b.die pl bs.length →
    (∀ q ∈ (s.die b.die).copies, q.1 / 4 < pl.key / 128 ∨ (pl.key + bs.length - 1) / 128 < q.1 / 4) →
    ∃ t, s.commit b [(a, bs)] = (t, none) ∧ WritesHome s t pl.key bs

/-- R362, R363, R370, R371: what an XLAT lane answers from the structures, and what KVCOW and KVFREE report where they change
nothing. -/
def Sys2Proof.Claims.PageUnitAnswersPart : Prop :=
  ∀ (b : Master) (k : KvCtx) (q p : Nat) (wr : Bool) (m : PageMem) (e : SeqEnt), ReadsSeq m b k q e →
    (k.seqCount ≤ q → (xlatLane b k wr q p).run m = (.ok (0xFFFFFFFF, 4), m)) ∧
    (q < k.seqCount →
      (e.live = false → (xlatLane b k wr q p).run m = (.ok (0xFFFFFFFF, 4), m)) ∧
      (e.live = true → e.length ≤ p → (xlatLane b k wr q p).run m = (.ok (0xFFFFFFFF, 2), m)) ∧
      ∀ f n, e.live = true → p < e.length → ReadsPage m b e (p / 16) f → f < k.frameCount → f < 2 ^ 32 → ReadsCount m b k f n → 0 < n →
        n < 2 ^ 16 →
        let o := k.frameBase + (b.die * k.frameCount + f) * (16 * (k.kBytes + k.vBytes))
        (xlatLane b k wr q p).run m = (.ok (if wr = true ∧ 1 < n then (0xFFFFFFFF, 3)
          else ((o + k.kBytes * (p % 16)) % 2 ^ 32, (o + 16 * k.kBytes + k.vBytes * (p % 16)) % 2 ^ 32)), m)) ∧
    (e.live = false → (runKvfree b k q).run m = (.ok (.ended ⟨3, 0, e.length, 0, 0⟩), m) ∧
      ∀ j, (runKvcow b k q j).run m = (.ok (.ended ⟨3, 0, e.length, 0, 0⟩), m)) ∧
    (e.live = true → ∀ j, (ceilDiv e.length 16 ≤ j → (runKvcow b k q j).run m = (.ok (.ended ⟨5, 0, e.length, 0, 0⟩), m)) ∧
      ∀ f, j < ceilDiv e.length 16 → ReadsPage m b e j f → f < k.frameCount → f < 2 ^ 32 → ReadsCount m b k f 1 →
        (runKvcow b k q j).run m = (.ok (.ended ⟨0, 1, e.length, 0, 0⟩), m))

/-- R359, R361, R363, R367, R370: an operation of the page unit that nothing keeps waiting is performed whole: an XLAT's lanes get
their answers; a KV command writes its status record and releases its count, or starts the copy of a KVCOW, which ends so when it
has landed, and freezes its block where a violation stops it. -/
def Sys2Proof.Claims.PageUnitPerformsPart : Prop :=
  ∀ (s : State) (d k : Nat) (o : PageOp) (b : Master) (kc : KvCtx), d < 8 → (s.die d).pageOps = [(k, o)] → s.master o.m = some b →
    b.die = d → b.kv = some kc → b.phase = .running →
    let ended (w : Nat) (tk off : Nat) (r : KvStatus) (u : State) (out : Host.Outcome State Fault Refusal) : Prop :=
      ∀ b1 e1 v, u.master o.m = some b1 → aget b1.entries o.k = some e1 → e1.toks = [(w, tk)] → b1.warps[w]? = some v →
        PlainBytes b1 off 16 → (u.die d).pageOps = [(k, o)] → ∃ t b' v', out = .next t ∧ t.master o.m = some b' ∧ aget b'.entries o.k = none ∧
          b'.x = writeBytes b1.x off r.bytes ∧ (t.die d).pageOps = [] ∧ t.mem = u.mem ∧ b'.warps[w]? = some v' ∧
          { v' with tokens := v.tokens } = v ∧ (tk < 8 → v'.token tk = v.token tk - 1)
    (o.kv = false → o.st = .waiting → ∀ v x, b.warps[o.w]? = some v → v.op o.k = some x → ∀ f : Nat → Nat × Nat,
      (∀ l ∈ x.lanes, o.lanes.has l.lane = true →
        (xlatLane b kc (decide (x.kind = .xlat true)) l.dst.toNat l.ea.toNat).run ⟨s, [], []⟩ =
          (.ok (f l.lane), ⟨s, [], []⟩)) →
      ∃ t v', exec (.pageUnitOperation d k) s = .next t ∧ (t.die d).pageOps = [] ∧ t.warp ⟨o.m, o.w⟩ = some v' ∧ t.mem = s.mem ∧
        v'.op o.k = some { x with lanes := x.lanes.map fun l => if o.lanes.has l.lane then
          { l with val := leBytes 4 (f l.lane).1 ++ leBytes 4 (f l.lane).2, st := .done } else l }) ∧
    ∀ e w tk, o.kv = true → aget b.entries o.k = some e → e.toks = [(w, tk)] →
      let off := 16 * field (e.words.getD 0 0) 20 12
      ((∀ p ∈ b.entries, o.k ≤ p.1) → entryCycle o.k < s.cycles → o.st = .waiting →
        (∀ u r, s.runPage b (runKv b kc e) = (u, .ok (.ended r)) → ended w tk off r u (exec (.pageUnitOperation d k) s)) ∧
        ∀ u g f, s.runPage b (runKv b kc e) = (u, .ok (.copy g f)) → ∃ t, exec (.pageUnitOperation d k) s = .next t ∧
          ((u.die d).pageOps = [(k, o)] → (t.die d).pageOps = [(k, { o with st := .copying g f })]) ∧ t.mem = u.mem) ∧
      ∀ g f se u n v w' r, o.st = .copying g f → e.st = .started → e.wait = .ready →
        s.runPage b (readSeq b kc (field (e.words.getD 0 0) 0 20)) = (s, .ok se) →
        s.kvCopy o.m b kc e.landed (min 16 (se.length - 16 * field (e.words.getD 1 0) 0 28)) g f = (u, n, v) →
        (∀ l, v = .ok l → (u.entryLands o.m o.k b e n).runPage b
            (endKvcow b kc (field (e.words.getD 0 0) 0 20) (field (e.words.getD 1 0) 0 28) g f) = (w', .ok r) →
          ended w tk off r w' (exec (.kvcowCopyComplete o.m o.k) s)) ∧
        ∀ cause a b1, v = .bad cause a → (u.entryLands o.m o.k b e n).master o.m = some b1 → b1.phase = .running →
          ∃ t b' x, exec (.kvcowCopyComplete o.m o.k) s = .next t ∧ t.master o.m = some b' ∧ b'.phase = .frozen ∧ b'.x = b1.x ∧
            aget b'.entries o.k = some x ∧ x.st = .stopped

/-- R359 to R371: the page unit. What the model chose here: log 40, 54, 59, 86. -/
def Obligations.PageUnit : Prop :=
  Sys2Proof.Claims.PageUnitAnswersPart ∧ Sys2Proof.Claims.PageUnitPerformsPart ∧ Sys2Proof.Claims.SequenceGrowsPart ∧
  Sys2Proof.Claims.SequenceShrinksPart ∧ Sys2Proof.Claims.StructureWritesPart

namespace Sys2Proof.Claims

open Sys2Proof.Machine

/-- The outcome is a next state that differs in queue q alone, which is `x`. -/
def QueueBecomes (s : State) (q : Nat) (x : Queue) (o : Host.Outcome State Fault Refusal) : Prop :=
  ∃ t, o = .next t ∧ t.queue q = x ∧ (∀ j, j ≠ q → t.queue j = s.queue j) ∧ { t with queues := s.queues } = s

/-- Queue q is consuming and the command at its consume index, `c`, is one to consume (R62, R64). -/
structure AtHead (s : State) (q : Nat) (x : Queue) (c : QCmd) : Prop where
  queue : x = s.queue q
  enabled : x.kind ≠ 0
  running : x.state = 1 ∧ x.consuming = true ∧ x.hold = none
  slot : s.headAt q x = some c
  lap : field (BitVec.ofNat 32 (c.byte 1)) 7 1 = (x.consume.toNat / 2 ^ x.sizeExp + 1) % 2
  sound : x.rejects c = none

/-- The queue past the command (R61, R62). -/
def past (x : Queue) : Queue :=
  { x with consume := x.consume + 1, owners := x.owners.filter fun p => p.1 != x.consume.toNat }

/-- The command consumed leaves the state `u`, and consumption goes on from there (`drainQueue`). -/
def Consumes (q : Nat) (x : Queue) (P : State → Prop) (o : Host.Outcome State Fault Refusal) : Prop :=
  ∃ u, P u ∧ o = .next (drainQueue (2 ^ x.sizeExp + 1) q u)

/-- What consuming a command changes by itself: its queue's index, the tickets, and the commands that HOLD waits for. -/
def popped (s : State) (q : Nat) (x : Queue) (waits : Bool) : State :=
  { s with tickets := s.tickets + 1, queues := aset s.queues q (past x)
           pendingCmds := if waits then s.pendingCmds ++ [(q, s.tickets)] else s.pendingCmds }

end Sys2Proof.Claims

/-- R3, R58, R248, R407, R436: what the fields of the register blocks read as. A reserved field, and one that is only written,
reads zero. -/
def Sys2Proof.Claims.RegisterReadsPart : Prop :=
  ∀ (s : State) (ag : Agent) (bl : Blob), s.blob = some bl →
  let reads (r : RegBlock) (fields : List (Nat × List Byte)) : Prop := ∀ p ∈ fields,
    runBackground (.readReg ag r p.1 p.2.length) s = .next { s with reply := some p.2 };
  (∀ q : BitVec 16, let x := s.queue q.toNat;
    reads (.queue q) [(0, leBytes 8 x.ringBase.toNat), (8, leBytes 1 x.sizeExp), (9, leBytes 1 x.kind), (10, leBytes 1 x.priority),
      (11, leBytes 1 x.rights.toNat), (12, leBytes 1 x.taskDie), (13, leBytes 3 0),
      (16, leBytes 4 (if x.threshold = 0 then 50 else x.threshold)), (20, leBytes 4 0), (32, leBytes 8 x.consume.toNat),
      (44, leBytes 4 x.state), (48, leBytes 16 0)]) ∧
  (let x := s.maint;
    reads .maint [(0, leBytes 8 x.regs.addr.toNat), (8, leBytes 8 x.regs.size.toNat), (16, leBytes 2 x.regs.asid), (18, leBytes 1 x.regs.die),
      (19, leBytes 1 x.regs.op), (20, leBytes 4 0), (24, leBytes 4 x.status), (28, leBytes 36 0)]) ∧
  (let x := s.mctl;
    reads .master [(0, leBytes 1 x.op), (1, leBytes 1 x.kind), (2, leBytes 2 0), (4, leBytes 4 x.gridId.toNat), (8, leBytes 8 x.target.toNat),
      (16, leBytes 4 0), (20, leBytes 4 x.status), (24, leBytes 8 s.fqRead), (32, leBytes 8 s.fqWrite), (40, leBytes 24 0)]) ∧
  (let x := s.bring;
    reads .bringUp [(0, leBytes 8 x.objAddr.toNat), (8, leBytes 4 x.objSize), (12, leBytes 4 0), (16, leBytes 4 x.state),
      (20, leBytes 4 x.error), (24, leBytes 4 x.quoteStatus), (28, leBytes 36 0), (64, leBytes 128 s.ready.toNat)])

/-- R58 to R62: the control complex sets a queue's fields and enables and disables it; another agent's write is a queue error;
a permitted read of the reserve index takes it; a permitted doorbell starts consumption. The register blocks read back as
written. What the model chose here: log 12, log 51, log 90 (a field only written reads as zero, and a read of a doorbell or
reserve index without the right is a queue error). -/
def Obligations.QueueRegisters : Prop :=
  Sys2Proof.Claims.RegisterReadsPart ∧
  ∀ (s : State) (q : BitVec 16) (v : Dword) (ag : Agent) (bl : Blob), s.blob = some bl →
    let x := s.queue q.toNat
    let n := v.toNat % 256
    (∀ r : RegField, r = .qPriority q ∨ r = .qThreshold q ∨ r = .qRights q ∨ r = .qTaskDie q ∨ r = .qRingBase q ∨ r = .qSizeExp q →
      ag ≠ .cc → ∃ a, exec (.registerWrite ag r v) s = .next (s.regError q.toNat 0x12 a)) ∧
    QueueBecomes s q.toNat { x with priority := n } (exec (.registerWrite .cc (.qPriority q) v) s) ∧
    QueueBecomes s q.toNat { x with threshold := v.toNat % 2 ^ 32 } (exec (.registerWrite .cc (.qThreshold q) v) s) ∧
    (n < 16 → QueueBecomes s q.toNat { x with rights := v.setWidth 8 } (exec (.registerWrite .cc (.qRights q) v) s)) ∧
    (n < 8 ∨ n = 255 → QueueBecomes s q.toNat { x with taskDie := n } (exec (.registerWrite .cc (.qTaskDie q) v) s)) ∧
    (x.kind = 0 → QueueBecomes s q.toNat { x with ringBase := v } (exec (.registerWrite .cc (.qRingBase q) v) s)) ∧
    (x.kind = 0 → 4 ≤ n → n ≤ 20 → QueueBecomes s q.toNat { x with sizeExp := n } (exec (.registerWrite .cc (.qSizeExp q) v) s)) ∧
    (∀ k : BitVec 8, k = 1 ∨ k = 2 →
      (x.kind = 0 → QueueBecomes s q.toNat { x with kind := k.toNat, state := 1, reserve := 0, consume := 0, consuming := false
                                                    hold := none, owners := [] } (exec (.queueEnable .cc q k) s)) ∧
      (x.kind ≠ 0 → x.kind ≠ k.toNat → ∃ a, exec (.queueEnable .cc q k) s = .next (s.regError q.toNat 0x16 a)) ∧
      (ag ≠ .cc → ∃ a, exec (.queueEnable ag q k) s = .next (s.regError q.toNat 0x12 a))) ∧
    (x.kind ≠ 0 → QueueBecomes s q.toNat { x with kind := 0, state := 0, consuming := false, hold := none, owners := [] }
      (exec (.queueDisable .cc q) s)) ∧
    (x.kind ≠ 0 → x.permits ag = true →
      QueueBecomes { s with reply := some (leBytes 8 x.reserve.toNat) } q.toNat
        { x with reserve := x.reserve + 1, owners := x.owners ++ [(x.reserve.toNat, ag)] } (exec (.reserveIndexRead ag q) s) ∧
      Consumes q.toNat x (fun u => u = s.setQueue q.toNat { x with consuming := true }) (exec (.doorbell ag q) s)) ∧
    (x.permits ag = false → ∃ a a', exec (.doorbell ag q) s = .next (s.regError q.toNat 0x12 a) ∧
      exec (.reserveIndexRead ag q) s = .next (({ s with reply := some (leBytes 8 0) } : State).regError q.toNat 0x12 a')) ∧
    ∀ m, (x.active = true → (s.headAt q.toNat x = none → drainQueue (m + 1) q.toNat s =
        (s.queueError q.toNat (x.consume.toNat % 2 ^ x.sizeExp) 0 0x18 0).setQueue q.toNat { x with consuming := false }) ∧
      (∀ c, s.headAt q.toNat x = some c → x.lapOk c = false →
        drainQueue (m + 1) q.toNat s = s.setQueue q.toNat { x with consuming := false }) ∧
      (∀ c k, s.headAt q.toNat x = some c → x.lapOk c = true → x.rejects c = some k →
        drainQueue (m + 1) q.toNat s = drainQueue m q.toNat ((c.ref.error s k).setQueue q.toNat (past x))) ∧
      ∀ c, s.headAt q.toNat x = some c → x.lapOk c = true → x.rejects c = none → drainQueue (m + 1) q.toNat s = s)

/-- R64, R65, R67 to R69, R74, R76, R265: what SIGNAL, CADD, CSET, HOLD, WSLOAD and a triggered command leave when they are
consumed. -/
def Sys2Proof.Claims.QueueCommandsPart : Prop :=
  ∀ (s : State) (q : BitVec 16) (x : Queue) (c : QCmd), AtHead s q.toNat x c →
    let u0 (waits : Bool) : State := popped s q.toNat x waits
    (c.triggered = true → ∀ i : Instr, [(Instr.launchCommand q, 1), (.taskCommand q, 2), (.signal q, 3), (.cadd q, 4), (.wsload q, 6),
        (.hold q, 7)].contains (i, c.opcode) = true → (aget s.counters (c.num 2 2)).getD 0 < c.num 8 8 → s.trigs.length < 65536 →
      Consumes q.toNat x (fun u => ∃ waits, u = { u0 waits with trigs := s.trigs ++ [⟨c.num 2 2, c.num 8 8, c⟩] }) (exec i s)) ∧
    (c.triggered = false →
      (c.opcode = 4 → s.trigs = [] → Consumes q.toNat x (fun u => { u with counters := s.counters } = u0 false ∧
        ∀ k, (aget u.counters k).getD 0 = (if k = c.num 32 2 then min ((aget s.counters k).getD 0 + c.num 40 8) (2 ^ 64 - 1)
          else (aget s.counters k).getD 0)) (exec (.cadd q) s)) ∧
      (c.opcode = 5 → (∀ y ∈ s.trigs, y.counter ≠ c.num 32 2) → Consumes q.toNat x (fun u =>
        { u with counters := s.counters } = u0 false ∧ (aget u.counters (c.num 32 2)).getD 0 = c.num 40 8 ∧
        ∀ k, k ≠ c.num 32 2 → aget u.counters k = aget s.counters k) (exec (.cset q) s)) ∧
      (c.opcode = 7 → Consumes q.toNat x (fun u => { u with queues := s.queues } = { u0 false with queues := s.queues } ∧
        ((∃ t, (q.toNat, t) ∈ s.pendingCmds ∧ t < c.ref.ticket) → ∃ l, (u.queue q.toNat).hold = some l ∧
          ∀ t, t ∈ l ↔ (q.toNat, t) ∈ s.pendingCmds ∧ t < c.ref.ticket) ∧
        ((∀ t, (q.toNat, t) ∈ s.pendingCmds → c.ref.ticket ≤ t) → (u.queue q.toNat).hold = none)) (exec (.hold q) s)) ∧
      (c.opcode = 6 → ∀ ctx, s.transCtx q.toNat = some ctx → c.ref.queue = q.toNat →
        (∀ g ∈ wsGroups (c.num 36 4) (c.num 40 4), s.ready.getLsbD (384 + 16 * c.byte 32 + g) = true) →
        aget s.wsloads (freshKey s.wsloads) = none →
        Consumes q.toNat x (fun u => { u with wsloads := s.wsloads } = u0 true ∧ ∃ k, aget s.wsloads k = none ∧
          aget u.wsloads k = some ⟨c.ref, c.byte 32, c.num 36 4, c.num 40 4, BitVec.ofNat 64 c.addr, ctx, false⟩) (exec (.wsload q) s)) ∧
      (c.opcode = 3 → let a := c.addr / 64 * 64
        let cancel : Bool := c.byte 32 == 1
        (aget s.signals a = none → s.signals.length < 1048576 →
          Consumes q.toNat x (fun u => u = { u0 false with signals := aset s.signals a (.early 1 cancel) }) (exec (.signal q) s)) ∧
        (∀ n f, aget s.signals a = some (.early n f) →
          Consumes q.toNat x (fun u => u = { u0 false with signals := aset s.signals a (.early (n + 1) (f || cancel)) })
            (exec (.signal q) s)) ∧
        ∀ n f m b, aget s.signals a = some (.pending n f m) → s.master m = some b →
          if n + 1 < b.predecessors then Consumes q.toNat x
            (fun u => u = { u0 false with signals := aset s.signals a (.pending (n + 1) (f || cancel) m) }) (exec (.signal q) s)
          else Consumes q.toNat x (fun u => u.signals = adel s.signals a ∧ ∃ b', u.master m = some b' ∧
            if f || cancel then b'.retiring = true ∧ b'.inPool = b.inPool else b'.inPool = true ∧ b'.poolAt = s.cycles)
            (exec (.signal q) s)))

namespace Sys2Proof.Claims

open Sys2Proof.Machine

/-- Bytes o .. o + w − 1 of a record, as a number. -/
def recField (r : List Byte) (o w : Nat) : Nat := leNat ((r.drop o).take w)

/-- The rows of R56 that break a launch record (R39 to R41) that names no producer, no binding and no region. -/
def LaunchBreaks (r : List Byte) (img : Image) (k : Nat) : Prop :=
  let n := recField r
  let zero (o w : Nat) : Prop := ∀ i, i < w → r.getD (o + i) 0 = 0
  let dies : Nat := if n 39 1 = 0 then 8 else ((List.range 8).filter (BitVec.ofNat 8 (n 39 1)).getLsbD).length
  k = 0x02 ∧ ¬(zero 52 4 ∧ zero 66 6 ∧ zero 176 80 ∧ n 11 1 < 8 ∧
    ∀ i, i < 4 → n (96 + 8 * i) 8 % 16 = 0 ∧ (n 36 1 ≤ i → n (96 + 8 * i) 8 = 0) ∧ n (128 + 8 * i) 8 = 0) ∨
  k = 0x06 ∧ ¬(0 < n 8 1 ∧ n 8 1 < 2 ^ img.variants.length) ∨
  k = 0x07 ∧ ¬(1 ≤ n 16 4 ∧ n 16 4 ≤ 2147483647 ∧ 1 ≤ n 20 4 ∧ n 20 4 ≤ 65535 ∧ 1 ≤ n 24 4 ∧ n 24 4 ≤ 65535 ∧
    (∀ o, o = 28 ∨ o = 30 ∨ o = 32 → 1 ≤ n o 2 ∧ n o 2 ≤ 32768) ∧ n 28 2 * n 30 2 * n 32 2 ≤ 32768 ∧
    ceilDiv (n 28 2 * n 30 2 * n 32 2) 128 = (img.variants.headD default).warps ∧ n 16 4 * n 20 4 * n 24 4 ≤ 4294967295) ∨
  k = 0x08 ∧ ¬(1 ≤ n 34 1 ∧ n 34 1 ≤ n 35 1 ∧ n 35 1 ≤ dies) ∨
  k = 0x09 ∧ ¬(if n 11 1 % 2 = 1 then n 10 1 = 0 ∧ 1 ≤ n 12 4 ∧ n 12 4 ≤ 1000000 else n 10 1 ≤ 30 ∧ n 12 4 = 0) ∨
  k = 0x0A ∧ 4 < n 36 1 ∨
  k = 0x0C ∧ n 88 8 ≠ 0 ∨
  k = 0x0D ∧ n 56 8 ≠ 0 ∨
  k = 0x0E ∧ n 72 8 % 256 ≠ 0 ∨
  k = 0x0F ∧ ¬(n 80 8 ≠ 0 ∧ n 80 8 % 64 = 0 ∧ n 40 8 % 64 = 0 ∧ (n 48 4 = 0 → n 40 8 = 0) ∧ n 48 4 % 4 = 0 ∧ n 48 4 ≤ 65536 ∧
    n 160 8 ≠ 0 ∧ n 160 8 % 4096 = 0 ∧ n 168 8 ≠ 0 ∧ n 168 8 % 4096 = 0)

/-- Counter k has risen by what the command adds on completion, if anything, up to its limit (R63, R67). -/
def CompletionAdded (t u : State) (c : CmdRef) : Prop :=
  ∀ k, (aget u.counters k).getD 0 = match c.compl with
    | some (j, v) => if k = j then min ((aget t.counters k).getD 0 + v) (2 ^ 64 - 1) else (aget t.counters k).getD 0
    | none => (aget t.counters k).getD 0

end Sys2Proof.Claims

/-- R39 to R41, R56: of a launch record with a sound image that names no producer, no binding and no region, the code is that of the
first row of R56 that it breaks, and none when it breaks none. What the model chose here: log 10, 80. -/
def Sys2Proof.Claims.LaunchChecksPart : Prop :=
  ∀ (s t u : State) (q va : Nat) (ctx : TransCtx) (r : List Byte) (im : ImageRead) (img : Image),
    s.readG q ctx va 256 = (t, some r) → t.readImage q ctx (recField r 0 8) = (u, im) → im.image = some img → im.codes = [] →
    recField r 37 1 = 0 → recField r 38 1 = 0 → recField r 64 2 = 0 → (recField r 72 8 = 0 ∨ recField r 72 8 % 256 ≠ 0) →
    ∃ l : LaunchRead, s.readLaunch q (some ctx) va = (u, l) ∧
      (∀ k, l.code = some k ↔ LaunchBreaks r img k ∧ ∀ j, j < k → ¬LaunchBreaks r img j) ∧
      (l.code = none ↔ ∀ k, ¬LaunchBreaks r img k)

/-- R56, R63, R66, R71, R80: a launch that is rejected gives its code to its completion record, state Rejected, which is final, and
its dependants meet a failed producer; where no record can be written, the queue's error path carries the code. A task's rejection
goes there too. What the model chose here: log 10, 80. -/
def Sys2Proof.Claims.WorkRejectedPart : Prop :=
  ∀ (s : State) (q : BitVec 16) (x : Queue) (c : QCmd), AtHead s q.toNat x c → c.triggered = false → c.ref.queue = q.toNat →
    let u0 : State := popped s q.toNat x true
    (c.opcode = 1 → ∀ t r code, u0.readLaunch q.toNat (s.transCtx q.toNat) c.addr = (t, r) → r.code = some code → t.trigs = [] →
      let v := t.completeCmd c.ref
      (r.complKey = none → Consumes q.toNat x (fun u => CompletionAdded t u c.ref ∧
        { u with counters := t.counters } = v.queueError q.toNat c.ref.slot c.ref.tag code 0) (exec (.launchCommand q) s)) ∧
      ∀ key, r.complKey = some key →
        Consumes q.toNat x (fun u => CompletionAdded t u c.ref ∧ u.pendingCmds = v.pendingCmds ∧ key ∈ u.finals ∧
          ((t.grids.map Prod.fst).Nodup → ∀ j g, t.grid j = some g → ∃ g', u.grid j = some g' ∧
            g'.producers = g.producers.filter (fun p => p != key) ∧
            (g'.producerFailed = true ↔ g.producerFailed = true ∨ key ∈ g.producers)) ∧
          (key % 64 = 0 → t.unreachable key 64 = false → t.formOf key ≠ some .mismatched → t.formAgrees key r.complPacked = true →
            (∀ p ∈ t.grids, key ∉ p.2.producers) → u.grids = t.grids ∧
            u.interrupts = t.interrupts + (if r.launch.complInt = true then 1 else 0) ∧
            readBytes u.mem key 64 = complBytes 5 code 0 0 q.toNat c.ref.tag r.imageId 0 0 s.stamp 0 ∧
            ∀ a, a < key ∨ key + 64 ≤ a → u.mem.read a = t.mem.read a)) (exec (.launchCommand q) s)) ∧
    (c.opcode = 2 → field (BitVec.ofNat 32 (c.byte 1)) 2 1 = 0 → ∀ t r,
      u0.readTask q.toNat (s.transCtx q.toNat) (c.addr / 64 * 64) = (t, r) →
      let fails (code : Nat) : Prop := Consumes q.toNat x (fun u =>
        u = (t.completeCmd c.ref).queueError q.toNat c.ref.slot c.ref.tag code 0) (exec (.taskCommand q) s)
      (∀ code, r.code = some code → fails code) ∧
      (r.code = none →
        (∀ n f m, aget t.signals (c.addr / 64 * 64) = some (.pending n f m) → fails 0x17) ∧
        (aget t.signals (c.addr / 64 * 64) = none → r.preds ≠ 0 → 1048576 ≤ t.signals.length → fails 0x10)))

/-- R55, R56, R63, R70, R71, R73, R74, R80: a launch that reads well becomes a grid, its completion record Accepted, which waits for
its unmet producers or, with early start or none of them, in the pools; a task that reads well becomes a pending or ready task; and
what R56 rejects. What the model chose here: log 10, 11, 13, 80. -/
def Obligations.WorkAccepted : Prop :=
  Sys2Proof.Claims.LaunchChecksPart ∧ Sys2Proof.Claims.WorkRejectedPart ∧
  ∀ (s : State) (q : BitVec 16) (x : Queue) (c : QCmd), AtHead s q.toNat x c → c.triggered = false → c.ref.queue = q.toNat →
    let u0 : State := popped s q.toNat x true
    (c.opcode = 1 → ∀ t r ctx key, s.transCtx q.toNat = some ctx → u0.readLaunch q.toNat (some ctx) c.addr = (t, r) → r.code = none →
      r.complKey = some key → key % 64 = 0 → t.unreachable key 64 = false → t.formOf key ≠ some .mismatched →
      t.formAgrees key r.complPacked = true → aget t.grids (freshKey t.grids) = none → t.cycles = s.cycles →
      let unmet : List Nat := (r.producers.filter fun p => decide (p.2 < 2 ∨ 5 < p.2)).map Prod.fst
      let failed : Prop := ∃ p ∈ r.producers, p.2 = 4 ∨ p.2 = 5
      Consumes q.toNat x (fun u => ∃ g k, aget t.grids k = none ∧ u.grid k = some g ∧ g.launch = r.launch ∧ g.image = r.image ∧
        g.queue = q.toNat ∧ g.tag = c.ref.tag ∧ g.started = false ∧ (g.inPool = true ↔ unmet = [] ∨ r.launch.earlyStart = true) ∧
        g.poolAt = s.cycles ∧ g.producers = unmet ∧ (g.producerFailed = true ↔ failed) ∧
        g.complKey = key ∧ g.recState = 1 ∧ g.aborted = false ∧ (∀ j, j ≠ k → u.grid j = t.grid j) ∧
        (failed → readBytes u.mem key 64 = complBytes 1 0 1 0 q.toNat c.ref.tag r.image.id s.stamp 0 0 0) ∧
        (¬failed → readBytes u.mem key 64 = complBytes 1 0 0 0 q.toNat c.ref.tag r.image.id s.stamp 0 0 0) ∧
        ∀ a, a < key ∨ key + 64 ≤ a → u.mem.read a = t.mem.read a) (exec (.launchCommand q) s)) ∧
    (c.opcode = 2 → field (BitVec.ofNat 32 (c.byte 1)) 2 1 = 0 → ∀ t r ctx, s.transCtx q.toNat = some ctx →
      u0.readTask q.toNat (some ctx) (c.addr / 64 * 64) = (t, r) → r.code = none → aget t.signals (c.addr / 64 * 64) = none →
      t.signals.length < 1048576 → aget t.masters (freshKey t.masters) = none →
      Consumes q.toNat x (fun u => ∃ m b, aget t.masters m = none ∧ u.master m = some b ∧ b.isTask = true ∧ b.phase = .waiting ∧
        b.queue = q.toNat ∧ b.tag = c.ref.tag ∧ b.image = r.image ∧ b.varIdx = r.varIdx ∧ b.keyNames = r.keys ∧
        b.predecessors = r.preds ∧ b.coord = r.tile ∧ b.entryOff = r.entry ∧ u.mem = t.mem ∧
        (if r.preds = 0 then b.inPool = true ∧ u.signals = t.signals
         else b.inPool = false ∧ aget u.signals (c.addr / 64 * 64) = some (.pending 0 false m)))
        (exec (.taskCommand q) s))

/-- R171, R172: LAUNCH and SUBMIT report a queue that cannot take the command, and otherwise write the slot at the reserve
index, take it, and ring the queue's doorbell. What the model chose here: log 13. -/
def Obligations.ProgramsPost : Prop :=
  ∀ (s : State) (c : Ctx) (d a b : Reg5) (task : Bool), s.ctx = some c →
    let i : Instr := if task then .submit d a b else .launch d a b
    let q := (c.w.s5 b).toNat
    let t := s.acquireAll c.b.die
    let x := t.queue q
    let reports (n : Nat) : Prop := ∃ w, WritesS c.w w (u5 d) 1 (BitVec.ofNat 64 n) ∧ Completes t c 1 w (exec i s)
    (2 ^ 16 ≤ q → exec i s = .next (illegal s c 8)) ∧
    (q < 2 ^ 16 → c.w.outs = [] →
      if x.kind ≠ (if task then 2 else 1) then reports 0x11
      else if x.permits .program = false then reports 0x12
      else if x.consume.toNat + 2 ^ x.sizeExp ≤ x.reserve.toNat then reports 0x20
      else
        let key := x.slotKey x.reserve.toNat
        let lap := (x.reserve.toNat / 2 ^ x.sizeExp + 1) % 2
        t.unreachable key 64 = false → t.formOf key ≠ some .mismatched → ∃ u : State, u.queue q = { x with
            reserve := x.reserve + 1, owners := x.owners ++ [(x.reserve.toNat, Agent.program)] } ∧
          readBytes u.mem key 64 = leBytes 1 (if task then 2 else 1) ++ leBytes 1 ((if task then 4 else 0) + 128 * lap) ++ leBytes 2 0 ++
            leBytes 4 c.b.gridId.toNat ++ leBytes 8 0 ++ leBytes 8 (c.w.s52 a).toNat ++ leBytes 8 0 ++ leBytes 32 0 ∧
          (∀ y, y < key ∨ key + 64 ≤ y → u.mem.read y = t.mem.read y) ∧
          (task = false → ∃ w, WritesS c.w w (u5 d) 1 0 ∧ Completes (u.ring q) c 1 w (exec i s)) ∧
          (task = true → freshKey s.masters ≠ c.ref.m → ∃ p v n w, p.queue = q ∧ p.addr = (c.w.s52 a).toNat ∧ p.priority = c.b.priority ∧ p.gridId = c.b.gridId ∧
            p.submitDie = some c.b.die ∧ u.pushTask p = (v, n) ∧ WritesS c.w w (u5 d) 1 (BitVec.ofNat 64 n) ∧
            (n ≠ 0 → Completes (v.ring q) c 1 w (exec i s)) ∧
            (n = 0 → ∀ g, c.b.countsFor = some g → Completes ((v.modGrid g fun y =>
              { y with submitted := true, sent := modAt y.sent c.b.die (· + 1) }).ring q) c 1 w (exec i s))))

/-- R64, R67, R69, R76: a HOLD ends when nothing before it is pending; a paused queue resumes when an entry is free; a write to the
counter aperture adds; a held signal is delivered when it can be. -/
def Sys2Proof.Claims.QueuesGoOnPart : Prop :=
  ∀ (s : State) (q : BitVec 16) (bl : Blob), s.blob = some bl →
    let x := s.queue q.toNat
    (∀ l, x.hold = some l →
      ((∀ t ∈ l, (q.toNat, t) ∉ s.pendingCmds) →
        Consumes q.toNat x (fun u => u = s.setQueue q.toNat { x with hold := none }) (exec (.holdRelease q) s)) ∧
      ((∃ t ∈ l, (q.toNat, t) ∈ s.pendingCmds) → exec (.holdRelease q) s = .next s)) ∧
    (x.state = 2 → if s.trigs.length < 65536 then
        Consumes q.toNat x (fun u => u = s.setQueue q.toNat { x with state := 1 }) (exec (.queueResume q) s)
      else exec (.queueResume q) s = .next s) ∧
    (∀ (ag : Agent) (off : Nat) (v : Dword), off % 8 = 0 → off < 524288 → s.trigs = [] →
      ∃ t, exec (.counterApertureWrite ag off 8 v) s = .next t ∧ { t with counters := s.counters } = s ∧
        ∀ k, (aget t.counters k).getD 0 = (if k = off / 8 then min ((aget s.counters k).getD 0 + v.toNat) (2 ^ 64 - 1)
          else (aget s.counters k).getD 0)) ∧
    (∀ (ag : Agent) (off size : Nat) (v : Dword), (off % 8 ≠ 0 ∨ size ≠ 8) →
      exec (.counterApertureWrite ag off size v) s = .next (s.regError 0 0x12 (bl.counterAperture + off))) ∧
    (∀ a f r, s.cancels = (a, f) :: r → a % 64 = 0 → aget s.signals a = none →
      if s.signals.length < 1048576 then
        exec .heldCancelDelivery s = .next { s with cancels := r, signals := aset s.signals a (.early 1 f) }
      else exec .heldCancelDelivery s = .next s) ∧
    ∀ k w, aget s.wsloads k = some w →
      (w.started = false → ∃ t, (if s.mapped w then t = s else t = { s with wsloads := aset s.wsloads k { w with started := true } }) ∧
        exec (.wsloadCopyStart k) s = .next t) ∧
      (w.started = true → ∀ u bs, ({ s with wsloads := adel s.wsloads k } : State).vaRead w.die w.ref.queue w.ctx w.src.toNat w.size =
          (u, .ok bs) → u.unreachable (wsKey w.die w.dest) bs.length = false → u.formOf (wsKey w.die w.dest) ≠ some .mismatched →
        ∃ t v : State, exec (.wsloadComplete k) s = .next t ∧ v.mem = writeBytes u.mem (wsKey w.die w.dest) bs ∧ aget v.wsloads k = none ∧
          t = v.finishCmd w.ref)

namespace Sys2Proof.Claims

open Sys2Proof.Machine

/-- The outcome is a next state with `P`. -/
def Goes (o : Host.Outcome State Fault Refusal) (P : State → Prop) : Prop := ∃ t, o = .next t ∧ P t

/-- R79's order between two pool entries: priority, re-entry after pre-emption, the high-priority bit, time of entry; the model
breaks a tie by an identifier (log 18). -/
def Precedes (a b : Rank) : Prop :=
  b.prio < a.prio ∨ (a.prio = b.prio ∧ ((a.again = true ∧ b.again = false) ∨ (a.again = b.again ∧
    ((a.high = true ∧ b.high = false) ∨ (a.high = b.high ∧ (a.at' < b.at' ∨ (a.at' = b.at' ∧ a.id < b.id)))))))

end Sys2Proof.Claims

/-- R79: a die's pool is examined in the order of its entries' ranks, each entry once. -/
def Obligations.PoolOrder : Prop :=
  ∀ (s : State) (d : Nat), (s.poolOrder d).Perm (s.pool d) ∧ (s.poolOrder d).Pairwise fun a b => ¬Precedes b.2 a.2

/-- R86, R89 to R91, R95, R106, R142, R434: the dispatch step grants to the first entry of the pool that may be placed and fits, unless
a key-eligible blocking entry stands before it; the grant places it with its keys; its warps are released; entries age, block and pre-empt. What the model chose here: log 16, 18,
38, 39, 79, 82. -/
def Obligations.Dispatching : Prop :=
  ∀ (s : State) (d : Nat), d < 8 →
  (∀ l1 e r l2 who keys img vs k cs, (s.die d).grant = none → (∀ x, (s.die d).lastPlace = some x → x + 32 ≤ s.cycles) →
    s.dieOpen d = true → let t0 := (s.grids.foldl (fun t p => t.settleMoves p.1) s).joinAll.prunePassed d
    t0.poolOrder d = l1 ++ (e, r) :: l2 →
    (∀ x ∈ l1, t0.candidate d x.1 = none ∧ ((t0.die d).blocking = some x.1 → t0.keyEligible x.1 = false)) → t0.candidate d e = some (who, keys, img, vs) →
    t0.firstFit d img vs none = some (k, cs) → t0.inSet d e = true →
    Goes (exec (.dispatchStep d) s) fun (t : State) => (t.die d).grant = some ⟨who, k, cs, keys⟩ ∧ t.mem = t0.mem) ∧
  (∀ g, (s.die d).grant = some g → let t0 := s.modDie d fun x => { x with grant := none }
    (t0.grantCores d g = none → exec (.keyGrant d) s = .next t0) ∧
    (∀ cs u lin gr, t0.grantCores d g = some cs → g.who = .block u lin → s.grid u = some gr → aget s.masters (freshKey s.masters) = none →
      (∀ x ∈ gr.skipped, x < gr.nextLin) →
      Goes (exec (.keyGrant d) s) fun (t : State) => (t.die d).grant = none ∧ (t.die d).lastPlace = some s.cycles ∧
        (∀ key ∈ g.keys, key ∉ t.stale) ∧ ∃ m b, aget s.masters m = none ∧ t.master m = some b ∧ b.kind = .block u lin ∧
        b.coord = gr.launch.coord lin ∧ b.varIdx = g.varIdx ∧ b.cores = cs ∧ b.die = d ∧ b.keys = (gr.launch.keyNames lin).eraseDups ∧
        b.warps = [] ∧ b.phase = (if gr.launch.binds.isEmpty then .running else .prologue) ∧
        ∃ g', t.grid u = some g' ∧ lin < g'.nextLin ∧ lin ∉ g'.skipped ∧ g'.diesUsed.getLsbD d = true)) ∧
  (∀ m b g, s.master m = some b → b.phase = .running → b.warps = [] → b.cores ≠ [] → s.gridOf b = some g → b.isTask = false →
    Goes (exec (.warpRelease m) s) fun (t : State) => ∃ b' : Master, t.master m = some b' ∧ { b' with warps := [] } = b ∧
      b'.warps.length = b.variant.warps ∧ ∀ j w, b'.warps[j]? = some w → w.allot = b.variant.frames ∧ w.resident = 0 ∧ w.clause = none ∧
        w.handler = none ∧ w.fflags = 0 ∧ w.fctl = 0 ∧ (∀ r, r < 63 → w.s r = if r = 2 then b.stale.setWidth 32 else 0) ∧
        (∀ p, p < 7 → w.p p = 0) ∧ ∃ e, w.frontier = [e] ∧ e.addr = b.image.base + BitVec.ofNat 64 b.entryOff ∧ e.base = 0 ∧
          ∀ l, l < 128 → (e.lanes.has l = true ↔ 128 * j + l < g.launch.threads)) ∧
  (∀ u g, s.grid u = some g → g.inPool = true → Goes (exec (.entryAged d (.grid u)) s) fun t =>
    ∃ g', t.grid u = some g' ∧ g'.aged = (g.aged || decide (g.poolAt + 1600 * g.threshold < s.cycles)) ∧
      { g' with aged := g.aged } = g ∧ t.masters = s.masters) ∧
  (∀ e a, s.passedFor d 1600000 e = true → s.entryAge e = some a →
    (∀ f ∈ (s.die d).passed, s.passedFor d 1600000 f.1 = true → f.1 ≠ e → ∃ x, s.entryAge f.1 = some x ∧ a.entered < x.entered) →
    ((s.die d).blocking = none → Goes (exec (.placementWaitLimit d e) s) fun (t : State) => (t.die d).blocking = some e) ∧
    ∀ f, (s.die d).blocking = some f → s.stillWaits d f = true → exec (.placementWaitLimit d e) s = .next s) ∧
  (∀ e who keys img vs l, s.passedFor d 160000 e = true → s.candidate d e = some (who, keys, img, vs) →
    s.enough d img vs (s.lowerVictims d (s.prioOf e)) = some l →
    Goes (exec (.preemptionDelayExpiry d e) s) fun t =>
      (∀ m b, s.master m = some b → t.master m = some { b with preempt := b.preempt || l.contains m }) ∧
      ∀ m ∈ l, ∃ p ∈ s.masters, p.1 = m ∧ p.2.die = d ∧ p.2.phase = .running ∧ p.2.priority < s.prioOf e) ∧
  (∀ e who keys img vs, s.passedFor d 160000 e = true → s.candidate d e = some (who, keys, img, vs) →
    let low := s.lowerVictims d (s.prioOf e)
    let step := s.stepVictims d e
    let chosen (l : List Nat) : Prop := Goes (exec (.preemptionDelayExpiry d e) s) fun t =>
      ∀ m b, s.master m = some b → t.master m = some { b with preempt := b.preempt || l.contains m }
    s.enough d img vs low = none → (∀ l, s.enough d img vs step = some l → chosen l) ∧
      (s.enough d img vs step = none → ∀ l, s.enough d img vs (low ++ step.filter fun m => !low.contains m) = some l → chosen l)) ∧
  ∀ m b u l, s.master m = some b → b.gridUid = some u →
    (b.phase = .preempted ∧ b.die = d ∨ b.phase = .migrating ∧ ∃ g, s.gridOf b = some g ∧ g.dieSet = bit8 d) →
    s.passedFor d 16000 (.master m) = true →
    s.enough d b.image [b.varIdx] ((byIndex ((s.blocksOf u).filter fun p => p.2.die == d && p.2.phase == .running && !p.2.preempt &&
      decide (b.linear < p.2.linear))).map Prod.fst) = some l →
    Goes (exec (.readmissionDelayExpiry m) s) fun t =>
      ∀ j c, s.master j = some c → t.master j = some { c with preempt := c.preempt || l.contains j }

/-- R102, R107, R109, R111, R412: a switch carries what its point declares into the new variant; a chosen master gives up its
clauses at their boundaries and, its context saved, its cores; a master without progress past its limit freezes. What the
model chose here: log 19, 20, 26, 47, 64. -/
def Obligations.SwitchAndPreempt : Prop :=
  ∀ (s : State) (m : Nat) (b : Master), s.master m = some b →
  (∀ k cs id p, b.phase = .switching → b.switchTo = some (k, cs, id) → s.quiet m b = true →
    (b.image.variants.getD k default).switches.find? (fun p => p.id == id) = some p → b.x.wf = true →
    Goes (exec (.switchComplete m) s) fun (t : State) => ∃ b' : Master, t.master m = some b' ∧ b'.varIdx = k ∧ b'.cores = cs ∧ b'.phase = .running ∧
      b'.switchTo = none ∧ b'.entries = [] ∧ b'.slots = [] ∧ b'.keys = b.keys ∧ b'.timer = s.cycles ∧
      b'.hw.length = (b.image.variants.getD k default).hwbars ∧ (∀ a, a < p.carried → b'.x.read a = b.x.read a) ∧
      ∀ (i : Nat) (w : Warp), b.warps[i]? = some w → ∃ w' : Warp, b'.warps[i]? = some w' ∧ (w.retired = true →
          w' = { w with allot := (b.image.variants.getD k default).frames }) ∧
        (w.retired = false → w'.allot = (b.image.variants.getD k default).frames ∧ w'.clause = none ∧ w'.handler = none ∧
          (∀ r, r < 8 → w'.s r = w.s r) ∧ (∀ h ∈ w.held, w.held = [h] → ∀ r l, r < 8 → l < 128 → h.lanes.has l = true →
            w'.v 0 r l = w.v h.base r l) ∧
          (w.liveLanes ≠ 0 → ∃ e, w'.frontier = [e] ∧ e.addr = b.image.base + BitVec.ofNat 64 p.resume ∧
            e.lanes = w.liveLanes ∧ e.base = 0))) ∧
  (b.preempt = true → b.phase = .running → b.liveWarps ≠ [] → (∀ w ∈ b.warps, w.atBoundary = true) →
    Goes (exec (.preemptionTakeEffect m) s) fun (t : State) => ∃ b' : Master, t.master m = some b' ∧ b'.phase = .preempting ∧ b'.preempt = false ∧
      b'.switchPend = none ∧ b'.x = b.x ∧ b'.entries = b.entries ∧ t.mem = s.mem ∧
      ∀ (i : Nat) (w : Warp), b.warps[i]? = some w → ∃ w' : Warp, b'.warps[i]? = some w' ∧ w'.clause = none ∧ w'.regs = w.regs ∧ w'.unif = w.unif ∧
        w'.preds = w.preds ∧ w'.liveLanes = w.liveLanes) ∧
  (b.preempt = false → exec (.preemptionTakeEffect m) s = .next s) ∧
  (b.phase = .preempting → s.atRest m b = true → ∀ t u tick, s.fresh = (t, tick) → t.slotWrite b 0 (t.recordOf m b 1 tick) = (u, none) →
    u.master m = some b → ∃ v : State, exec (.contextSaveComplete m) s = .next ((v.joinAll).reexamine b.die) ∧ ∃ b', v.master m = some b' ∧
      b'.phase = .preempted ∧ b'.inPool = true ∧ b'.poolAt = s.cycles ∧ b'.warps = b.warps ∧ b'.x = b.x ∧
      ∀ h ∈ b'.cores, h.warpSlots = [] ∧ h.frames = 0 ∧ h.xSize = 0 ∧ h.slots = 0 ∧ h.tiles = []) ∧
  (b.phase = .preempting → s.atRest m b = false → exec (.contextSaveComplete m) s = .next s) ∧
  let lim := (s.wdLimit b).1
  if (b.phase = .prologue ∨ b.phase = .running ∨ b.phase = .preempting) ∧
      lim ≤ 5 * (s.cycles + s.clockOff) / 8 / 1000 - 5 * (b.timer + s.clockOff) / 8 / 1000 then
    Goes (exec (.watchdogFire m) s) fun (t : State) => ∃ b' f, t.master m = some b' ∧ b'.phase = .frozen ∧ b'.warps = b.warps ∧ b'.x = b.x ∧
      t = s.freeze m f ∧ f.cause = 0x21 ∧ f.warp = none
  else exec (.watchdogFire m) s = .next s

/-- R165, R426 to R428, R433: a warp retires when nothing of it is outstanding, giving its frames to its core's pool; a block
publishes and releases its keys; a task without successors is over; drain agrees on two equal sweeps in a row. What the model
chose here: log 31, 68. -/
def Obligations.Retirement : Prop :=
  ∀ (s : State),
  (∀ (r : WRef) (b : Master) (w : Warp) (c : Clause) (h : CoreHold), s.master r.m = some b → b.warps[r.w]? = some w →
    w.retired = false → b.phase = .running → w.liveLanes = 0 → w.outs = [] → w.exitAt = some c → b.entries = [] → w.deliveries = [] →
    b.cores[b.spanOf r.w]? = some h →
    ((∃ t, t < 8 ∧ w.token t ≠ 0) → exec (.warpRetire r) s = .next s) ∧
    ((∀ t, t < 8 → w.token t = 0) → ∃ (u : State) (b' : Master), exec (.warpRetire r) s = .next (u.warpExits r.m) ∧ { u with masters := s.masters } = s ∧
      u.master r.m = some b' ∧ { b' with warps := b.warps, cores := b.cores } = b ∧
      b'.warps[r.w]? = some { w with retired := true, allot := 0, exitAt := none } ∧ (∀ j, j ≠ r.w → b'.warps[j]? = b.warps[j]?) ∧
      b'.cores[b.spanOf r.w]? = some { h with pool := h.pool + w.allot })) ∧
  (∀ (m u : Nat) (b : Master), s.master m = some b → b.gridUid = some u → b.phase = .running → b.warps ≠ [] →
    (∀ w ∈ b.warps, w.retired = true) → s.engineQuiet m b = true → ∃ v : State, v.master m = none ∧
      exec (.blockRetire m) s = .next (((v.blockEnded u true).joinAll).reexamine b.die) ∧
      v = ((((s.acquireAll b.die).releaseKeys m b.keys false).blockTriggers m).dropMaster m)) ∧
  (∀ (m : Nat) (b : Master), s.master m = some b → b.isTask = true → b.phase = .running → b.warps ≠ [] → b.retiring = false →
    (∀ w ∈ b.warps, w.retired = true) → s.engineQuiet m b = true → b.succCount = 0 → b.signalled = 0 → b.cmd = none → b.sigWait = .ready →
    b.counted = none → ∃ v : State, v.master m = none ∧ exec (.taskRetire m) s = .next ((v.joinAll).reexamine b.die) ∧
      (∀ j, j ≠ m → (v.master j).isSome = (s.master j).isSome)) ∧
  ∀ (u : Nat) (g : Grid), s.grid u = some g → g.sweep.length = 8 →
    let sent := (g.sweep.map Prod.fst).foldl (· + ·) 0
    let got := (g.sweep.map Prod.snd).foldl (· + ·) 0
    let again (x : Drain) : Prop := Goes (exec (.drainSweepEnd u) s) fun (t : State) => ∃ g', t.grid u = some g' ∧ g'.drain = x ∧ g'.sweep = [] ∧
      { g' with drain := g.drain, sweep := g.sweep, sweepAt := g.sweepAt } = g ∧ s.cycles ≤ g'.sweepAt ∧ g.sweepAt + 640 ≤ g'.sweepAt
    (g.drain = .idle → exec (.drainSweepEnd u) s = .next s) ∧
    (g.drain = .first → again (if sent = got then .second sent got else .first)) ∧
    ∀ x y, g.drain = .second x y → if sent = x ∧ got = y then exec (.drainSweepEnd u) s = .next (s.drainAgrees u)
      else again (if sent = got then .second sent got else .first)

namespace Sys2Proof.Claims

open Sys2Proof.Machine

/-- The start event of each maintenance operation, with its number (R248). -/
def maintEvents : List (Nat × (Agent → Instr)) :=
  [(1, .invalidateTranslations), (2, .cleanAndInvalidate), (3, .setPacked), (4, .setUnpacked), (5, .retryMiss), (6, .declineMiss)]

/-- The operands that stand in the block are sound (R248). -/
def MaintSound (s : State) : Prop :=
  let x := s.maint.regs
  s.maint.reserved = [] ∧ 1 ≤ x.op ∧ x.op ≤ 6 ∧
  (x.op ≤ 4 → 0 < x.size.toNat ∧ x.size.toNat % 4096 = 0 ∧ x.die = 0 ∧ (x.op = 1 ↔ x.asid ≠ 0)) ∧
  (x.op = 3 ∨ x.op = 4 → x.addr.toNat % 4096 = 0 ∧ x.addr.toNat + x.size.toNat ≤ hbmBytes) ∧
  (4 < x.op → x.size = 0 ∧ x.asid = 0 ∧ x.die < 8 ∧ aget (s.die x.die).miss x.addr.toNat ≠ none)

/-- One warp of the only master, on the die, waits in the miss table, with operation `o` alone. -/
structure OneWaits (s : State) (d m j : Nat) (b : Master) (w : Warp) (o : MemOp) : Prop where
  masters : s.masters = [(m, b)] ∧ s.colls = [] ∧ b.die = d ∧ b.phase = .running
  warp : b.warps[j]? = some w ∧ w.outs = [o] ∧ w.fetchMiss = none
  plain : o.kind ≠ .lda ∧ ∀ wr, o.kind ≠ .xlat wr
  others : ∀ i v, i ≠ j → b.warps[i]? = some v → v.outs = [] ∧ v.fetchMiss = none
  engines : (∀ p ∈ b.entries, p.2.wait = .ready) ∧ b.sigWait = .ready ∧ ∀ d, (s.die d).pageOps = []

/-- The lanes of an operation, each in the state that `f` gives it. -/
def relane (o : MemOp) (f : LaneSt → LaneSt) : MemOp := { o with lanes := o.lanes.map fun l => { l with st := f l.st } }

/-- R252: a retry has every lane that is attached to the entry, or waits for a free one, walk again and perform; a decline freezes
the master, its record giving the attached lanes and the granule, and leaves those lanes to walk afresh on thaw. -/
def MissAnswered (s : State) (op : Nat) (x : MaintOp) (out : Host.Outcome State Fault Refusal) : Prop :=
  ∀ m j b w o, OneWaits s x.die m j b w o →
    let idx := x.addr.toNat
    let began : State := { s with maint := { s.maint with status := 1, run := x } }
    let free : State := began.modDie x.die fun y => { y with miss := adel y.miss idx }
    (op = 5 → let again := relane o fun l => if l = .missing idx ∨ l = .full then .ready else l
      ∀ t, Perform ⟨m, j⟩ o.k ((List.range again.lanes.length).filter fun i => (again.lanes[i]?).any fun l => decide (l.st = .ready))
          (free.modWarp ⟨m, j⟩ fun w => { w with outs := [again] }) t → out = .next (t.purge ⟨m, j⟩)) ∧
    (op = 6 → (∃ l ∈ o.lanes, l.st = .missing idx) → (∀ l ∈ o.lanes, l.st ≠ .ready ∧ l.st ≠ .full) →
      ∃ f t b' e, out = .next t ∧ aget (s.die x.die).miss idx = some e ∧ t.master m = some b' ∧ b'.phase = .frozen ∧
        b'.frozenFrom = .running ∧ b'.x = b.x ∧ (∀ i, i ≠ j → b'.warps[i]? = b.warps[i]?) ∧
        b'.warps[j]? = some { w with outs := [relane o fun l => if l = .missing idx then .declined else l] } ∧
        f.cause = (if w.handler = none then 0x16 else 0x02) ∧ f.warp = some j ∧ f.pc = o.pc ∧
        f.address = BitVec.ofNat 64 (4096 * e.vpn) ∧
        (∀ i, i < 128 → (f.lanes.has i = true ↔ ∃ l ∈ o.lanes, l.lane = i ∧ l.st = .missing idx)) ∧
        t.mem = (began.freeze m f).mem ∧ t.fqWrite = (began.freeze m f).fqWrite ∧
        ∀ d, (t.die d).records = ((began.freeze m f).die d).records)

/-- R248: the bytes of the range that copies hold dirty are written home, and no other byte of memory changes. -/
def WritesRangeHome (s t : State) (pa size : Nat) : Prop :=
  let dirty (d : Nat) (q : Nat × Sector) (j : Nat) : Prop := d < 8 ∧ q ∈ (s.die d).copies ∧ pa < 32 * q.1 + 32 ∧ 32 * q.1 < pa + size ∧
    j < 32 ∧ q.2.dirty.getLsbD j = true
  (∀ d q j, dirty d q j → s.formOf (32 * q.1) = if q.2.packed then some .packed else none) →
  (∀ d q j d' q', dirty d q j → dirty d' q' j → q.1 = q'.1 → d = d' ∧ q = q') →
  (∀ d q j, dirty d q j → s.unreachable (32 * q.1 + j) 1 = false → t.mem.read (32 * q.1 + j) = q.2.bytes.getD j 0) ∧
  ∀ a, (∀ d q j, dirty d q j → a ≠ 32 * q.1 + j) → t.mem.read a = s.mem.read a

end Sys2Proof.Claims

/-- R247, R248, R251, R252, R254: the control complex's maintenance operations: what each does when it starts, when it may
start, and its completion. What the model chose here: log 8, 29, 30. -/
def Obligations.Maintenance : Prop :=
  ∀ (s : State) (bl : Blob) (op : Nat) (ev : Agent → Instr), s.blob = some bl → (op, ev) ∈ maintEvents → s.maint.regs.op = op →
    let x := s.maint.regs
    (∀ ag, ag ≠ .cc → exec (ev ag) s = .next (s.regError 0 0x12 (bl.mmBlock + 20))) ∧
    (s.maint.status = 1 → exec (ev .cc) s = .next s ∧
      Goes (exec .maintenanceComplete s) fun (t : State) => t.maint = { s.maint with status := 2 }) ∧
    (s.maint.status ≠ 1 → ¬MaintSound s → exec (ev .cc) s = .next { s with maint := { s.maint with status := 3 } }) ∧
    (s.maint.status ≠ 1 → MaintSound s → 4 < op → MissAnswered s op x (exec (ev .cc) s)) ∧
    (s.maint.status ≠ 1 → MaintSound s → Goes (exec (ev .cc) s) fun (t : State) =>
      t.maint = { s.maint with status := 1, run := x } ∧
      (op = 1 → t.mem = s.mem ∧ ∀ d, d < 8 → ∀ e, e ∈ (t.die d).tlb ↔ e ∈ (s.die d).tlb ∧ ¬(e.asid = x.asid ∧
        e.vpre * 2 ^ levelShift e.level < x.addr.toNat + x.size.toNat ∧ x.addr.toNat < (e.vpre + 1) * 2 ^ levelShift e.level)) ∧
      (op = 2 → WritesRangeHome s t (physKey x.addr.toNat) x.size.toNat ∧
        ∀ d, d < 8 → ∀ q ∈ (t.die d).copies, ¬(physKey x.addr.toNat < 32 * q.1 + 32 ∧
          32 * q.1 < physKey x.addr.toNat + x.size.toNat)) ∧
      (op = 3 ∨ op = 4 → (∀ k, k < x.size.toNat / 4096 → t.formOf (x.addr.toNat + 4096 * k) = if op = 3 then some .packed else none) ∧
        ∀ p, (p < x.addr.toNat / 4096 ∨ (x.addr.toNat + x.size.toNat) / 4096 ≤ p) → t.formOf (4096 * p) = s.formOf (4096 * p)) ∧
      (op = 5 ∨ op = 6 → s.masters = [] → s.colls = [] →
        aget (t.die x.die).miss x.addr.toNat = none ∧ ∀ k, k ≠ x.addr.toNat → aget (t.die x.die).miss k = aget (s.die x.die).miss k))

namespace Sys2Proof.Claims

open Sys2Proof.Machine

/-- Block or task m is frozen from outside: it holds its state, and its record has cause 0x25 and this information (R399). -/
def FrozenBy (s t : State) (m : Nat) (b : Master) (info : Nat) : Prop :=
  ∃ f, t = s.freeze m f ∧ f.cause = 0x25 ∧ f.info = BitVec.ofNat 64 info ∧ f.warp = none ∧
    ∃ b', t.master m = some b' ∧ { b' with phase := b.phase, frozenFrom := b.frozenFrom, switchPend := b.switchPend
                                           stoppedAt := b.stoppedAt } = b ∧ b'.phase = .frozen ∧ b'.frozenFrom = b.phase

/-- A frozen block or task that no object's failed phase, no command to be dropped, no lost trap and no lane to walk afresh concerns:
no barrier of it has failed (R327), its entries go on, and a Prologue still has a fill to land (R296, R399). -/
structure Thawable (b : Master) : Prop where
  slot : b.restoring = false
  barriers : (∀ x ∈ b.hw, x.failed = false) ∧ ∀ p ∈ b.slots, p.2.failed = false
  entries : ∀ p ∈ b.entries, p.2.op ≠ .qfence ∧ p.2.st ≠ .delivered ∧ p.2.st ≠ .dropped ∧ p.2.wait = .ready
  warps : ∀ w ∈ b.warps, w.outs = [] ∧ w.fetchMiss = none ∧ w.stall = none
  signals : b.sigWait = .ready
  prologue : b.frozenFrom = .prologue → ∃ p ∈ b.entries, p.2.op = .fill

/-- The part of the state a request's status belongs to. -/
def status (s : State) : Nat := s.mctl.status

/-- The status an operation reports on one master (R408); none for an operation held back or accepted. -/
def opStatus (op : Nat) (b : Master) : Option Nat :=
  match op, b.phase with
  | _, .retired => some 3
  | 2, .frozen => none
  | 2, _ => some 4
  | 1, .frozen | 1, .waiting | 1, .preempted | 4, .frozen | 4, .waiting | 4, .preempted => some 4
  | 1, .running | 4, .running => if b.warps ≠ [] ∧ b.liveWarps = [] then some 3 else none
  | _, _ => none

end Sys2Proof.Claims

/-- R405 to R408, R412, R423: the control complex's requests on a master and the instructions FREEZE and THAW: what each does
to its target in each of its states, and what it reports. What the model chose here: log 32, 43, 46. -/
def Obligations.MasterControl : Prop :=
  ∀ (s : State),
  (∀ (bl : Blob) (op : Nat) (ev : Agent → Instr), s.blob = some bl →
    (op, ev) ∈ [(1, Instr.freezeRequest), (2, .thawRequest), (3, .abortRequest), (4, .preemptRequest)] → s.mctl.op = op →
    let x := s.mctl
    let began : State := { s with mctl := { x with run := x.kind } }
    let sets (n : Nat) : Prop := exec (ev .cc) s = .next { s with mctl := { x with run := x.kind, status := n } }
    (∀ ag, ag ≠ .cc → exec (ev ag) s = .next (s.regError 0 0x12 (bl.mcBlock + 16))) ∧
    (x.status = 1 → exec (ev .cc) s = .next s) ∧
    (x.status ≠ 1 → (x.reserved ≠ [] ∨ 2 < x.kind ∨ (x.kind = 1 ∧ x.target ≠ 0)) → sets 5) ∧
    (x.status ≠ 1 → x.reserved = [] → x.kind ≤ 2 → (x.kind = 1 → x.target = 0) →
      (s.target x.kind x.gridId x.target = .absent → sets 3) ∧
      (∀ u, s.target x.kind x.gridId x.target = .undispatched u → op ≠ 3 → sets 4) ∧
      (∀ u g, s.target x.kind x.gridId x.target = .grid u → s.grid u = some g →
        (op = 3 → exec (ev .cc) s = .next ((began.abortGrid u).setStatus 2)) ∧
        ((s.masters.map Prod.fst).Nodup → op ≠ 3 →
          ((∀ p ∈ s.blocksOf u, opStatus op p.2 ≠ none) → sets (if (∀ p ∈ s.blocksOf u, opStatus op p.2 = some 3) ∧
            g.launch.blocks ≤ g.blocksRetired + (s.blocksOf u).length then 3 else 4)) ∧
          (op = 1 → (∃ p ∈ s.blocksOf u, opStatus 1 p.2 = none) →
            (∀ p ∈ s.blocksOf u, p.2.phase ≠ .switching ∧ p.2.phase ≠ .preempting ∧ p.2.phase ≠ .migrating) →
            Goes (exec (ev .cc) s) fun (t : State) => status t = 2 ∧ ∀ p ∈ s.blocksOf u, ∃ b', t.master p.1 = some b' ∧
              if opStatus 1 p.2 = none then b'.phase = .frozen ∧ b'.frozenFrom = p.2.phase ∧ b'.warps = p.2.warps ∧ b'.x = p.2.x
              else b' = p.2))) ∧
      ∀ m b, s.target x.kind x.gridId x.target = .master m → s.master m = some b →
        (∀ n, op ≠ 3 → opStatus op b = some n → sets n) ∧
        (op = 1 → b.phase = .running ∨ b.phase = .prologue → opStatus 1 b = none → Goes (exec (ev .cc) s) fun (t : State) =>
          status t = 2 ∧ ∃ u, FrozenBy s u m b 0 ∧ t.masters = u.masters) ∧
        (op = 1 → b.phase = .switching ∨ b.phase = .preempting ∨ b.phase = .migrating → Goes (exec (ev .cc) s) fun (t : State) =>
          status t = 1 ∧ t.master m = some { b with heldReq := some .freeze }) ∧
        (op = 4 → b.phase = .running ∨ b.phase = .prologue → opStatus 4 b = none → Goes (exec (ev .cc) s) fun (t : State) =>
          status t = 1 ∧ t.master m = some { b with preempt := true, heldReq := some .chosen }) ∧
        (op = 4 → b.phase = .switching ∨ b.phase = .preempting ∨ b.phase = .migrating → Goes (exec (ev .cc) s) fun (t : State) =>
          status t = 1 ∧ t.master m = some { b with heldReq := some .preempt }) ∧
        (op = 2 → b.phase = .frozen → Thawable b → Goes (exec (ev .cc) s) fun (t : State) => status t = 2 ∧
          t.master m = some { b with
            phase := b.frozenFrom, timer := s.cycles
            entries := b.entries.map fun p => (p.1, if p.2.st = .stopped then { p.2 with st := .started } else p.2) }) ∧
        (op = 3 → b.phase ≠ .retired → Goes (exec (ev .cc) s) fun (t : State) => status t = 2 ∧
          ∃ u, t = { u with mctl := { u.mctl with status := 2 } } ∧
            u = match b.gridUid with | some g => began.abortGrid g | none => began.abortTask m))) ∧
  (∀ (m : Nat) (b : Master) (r : HeldReq), s.master m = some b → b.heldReq = some r → s.mctl.run ≠ 1 →
    (s.masters.map Prod.fst).Nodup → (∀ p ∈ s.masters, p.1 ≠ m → p.2.heldReq = none) →
    (b.phase = .switching ∨ b.phase = .migrating → exec (.heldRequestApply m) s = .next s) ∧
    (r = .freeze → b.phase = .running → opStatus 1 b = none → Goes (exec (.heldRequestApply m) s) fun (t : State) => status t = 2 ∧
      ∃ b', t.master m = some b' ∧ b'.phase = .frozen ∧ b'.heldReq = none) ∧
    (r = .chosen ∧ b.phase = .preempting ∨ r ≠ .freeze ∧ b.phase = .preempted → Goes (exec (.heldRequestApply m) s) fun (t : State) =>
      status t = 2 ∧ t.master m = some { b with heldReq := none }) ∧
    (r ≠ .chosen → b.phase = .preempting → exec (.heldRequestApply m) s = .next s) ∧
    (r = .preempt → b.phase = .running → b.liveWarps ≠ [] → exec (.heldRequestApply m) s =
      .next (s.setMaster m { b with preempt := true, heldReq := some .chosen })) ∧
    (r ≠ .freeze → b.phase = .frozen → Goes (exec (.heldRequestApply m) s) fun (t : State) =>
      status t = 4 ∧ t.master m = some { b with heldReq := none, preempt := false })) ∧
  ∀ (c : Ctx) (d a : Reg5), s.ctx = some c → c.b.privileged = true →
    let kind := (c.w.s (u5 a)).toNat
    let low := c.w.s (u5 a + 1)
    let high := c.w.s2 (u5 a + 2)
    let reports (n : Nat) (i : Instr) : Prop := ∃ w, WritesS { c.w with request := none } w (u5 d) 1 (BitVec.ofNat 64 n) ∧
      Completes s c 1 w (exec i s)
    (2 < kind → exec (.freeze d a) s = .next (illegal s c 8) ∧ exec (.thaw d a) s = .next (illegal s c 8)) ∧
    (kind = 1 → high ≠ 0 → reports 5 (.freeze d a) ∧ reports 5 (.thaw d a)) ∧
    (kind ≤ 2 → (kind = 1 → high = 0) →
      (s.target kind low high = .absent → c.w.request = none → reports 3 (.freeze d a)) ∧
      (s.target kind low high = .absent → reports 3 (.thaw d a)) ∧
      (∀ u, s.target kind low high = .undispatched u → reports 4 (.freeze d a) ∧ reports 4 (.thaw d a)) ∧
      (s.target kind low high = .master c.ref.m → reports 4 (.freeze d a)) ∧
      ∀ m b, s.target kind low high = .master m → s.master m = some b → m ≠ c.ref.m →
        (∀ n, opStatus 1 b = some n → reports n (.freeze d a)) ∧ (∀ n, opStatus 2 b = some n → reports n (.thaw d a)) ∧
        (b.phase = .running ∨ b.phase = .prologue → opStatus 1 b = none → ∃ u w, FrozenBy s u m b c.b.queue ∧
          WritesS { c.w with request := none } w (u5 d) 1 2 ∧ Completes u c 1 w (exec (.freeze d a) s)) ∧
        (b.phase = .frozen → Thawable b → ∃ t, t = s.thaw m ∧ t.master m = some { b with
            phase := b.frozenFrom, timer := s.cycles
            entries := b.entries.map fun p => (p.1, if p.2.st = .stopped then { p.2 with st := .started } else p.2) }) ∧
        (b.phase = .frozen → ∃ w, WritesS { c.w with request := none } w (u5 d) 1 2 ∧ Completes (s.thaw m) c 1 w (exec (.thaw d a) s)) ∧
        (b.phase = .switching ∨ b.phase = .preempting ∨ b.phase = .migrating → Goes (exec (.freeze d a) s) fun (t : State) =>
          t.warp c.ref = some { c.w with request := some false }))

/-- R401: the oldest record that waits at a die enters the ring when there is room, and a window's records share one interrupt. -/
def Sys2Proof.Claims.FaultQueuePart : Prop :=
  ∀ (s : State) (d : Nat) (r : FRecord) (rest : List FRecord) (bl : Blob), d < 8 → s.blob = some bl → (s.die d).records = r :: rest →
    (if s.fqWrite - s.fqRead < 2 ^ bl.fqExp then Goes (exec (.faultRecordAppend d) s) fun (t : State) =>
        (t.die d).records = rest ∧ t.fqWrite = s.fqWrite + 1 ∧
        readBytes t.mem (bl.faultQueue + 64 * (s.fqWrite % 2 ^ bl.fqExp)) 64 = r.bytes ∧
        (∀ x, s.fqWindow = some x → s.cycles < x → t.fqWindow = some x ∧ t.interrupts = s.interrupts) ∧
        (∀ x, s.fqWindow = some x → x ≤ s.cycles → t.fqWindow = some (s.cycles + 1600) ∧ t.interrupts = s.interrupts + 1) ∧
        (s.fqWindow = none → t.fqWindow = some (s.cycles + 1600) ∧ t.interrupts = s.interrupts) ∧
        t.masters = s.masters
      else exec (.faultRecordAppend d) s = .next s) ∧
    (∀ x, s.fqWindow = some x → x ≤ s.cycles → exec .faultInterrupt s = .next { s with fqWindow := none, interrupts := s.interrupts + 1 }) ∧
    ((∀ x, s.fqWindow = some x → s.cycles < x) → exec .faultInterrupt s = .next s)

/-- R400 to R402, R407: freezing a master, and the fault queue. What the model chose here: log 43, 52, 54. -/
def Obligations.FaultRecords : Prop :=
  Sys2Proof.Claims.FreezeRecordPart ∧ Sys2Proof.Claims.FaultQueuePart

namespace Sys2Proof.Claims

open Sys2Proof.Machine

/-- The collective at k goes on: its master is not frozen and it does not wait for a page. -/
structure CollRuns (s : State) (k : Nat) (c : Coll) (b : Master) : Prop where
  coll : s.coll k = some c
  master : s.master c.m = some b
  going : b.phase ≠ .frozen ∧ c.wait = .ready ∧ c.accepted = true ∧ c.ending = none

/-- The instance at k alone changes. -/
def CollBecomes (s : State) (k : Nat) (c : Coll) (o : Host.Outcome State Fault Refusal) : Prop :=
  Goes o fun (t : State) => t.coll k = some c ∧ (∀ j, j ≠ k → t.coll j = s.coll j) ∧ { t with colls := s.colls } = s

/-- The instance at k ends with this state and code when its status record can be written: the record stands at its address, the
instance is gone and its token count released (R385, R392, R395). -/
def CollEnds (s : State) (k : Nat) (c : Coll) (b : Master) (st code step : Nat) (o : Host.Outcome State Fault Refusal) : Prop :=
  ∀ u bs, (s.modColl k fun x => { x with ending := some (st, code, step) }).engWrite c.m b 0 0 c.statusVa.toNat 1
      (c.status st code step s.stamp) = (u, .ok bs) →
    o = .next (({ u with colls := adel u.colls k } : State).modMaster c.m fun b => b.releaseToks [(c.w, c.tok)])

/-- Of a state, the instance at k alone changes: it becomes c. -/
def CollAfter (u : State) (k : Nat) (c : Coll) (o : Host.Outcome State Fault Refusal) : Prop :=
  o = .next { u with colls := aset u.colls k c }

/-- The chunk that execution e of step w sends next: its source chunk, the peer, its buffer and its chunk there (R387); a PUSH's goes
to its chunk of the aperture. -/
def nextChunk (c : Coll) (e : StepExec) (w : List Dword) : Nat × Nat × Nat × Nat :=
  let q := (c.rank + e.next % c.n) % c.n
  if stepOp w = 7 then (e.src + q * e.count + e.next / c.n, q, 0, e.dst + c.rank * e.count + e.next / c.n)
  else if stepOp w = 0 then (e.src + e.next, c.rank, 0, e.dst + e.next)
  else (e.src + e.next, e.peer, stepBits w 0 49 47, e.dst + e.next)

/-- A chunk's contribution under the operation, format and flag of a PUSH (R386). -/
def contribution (c : Coll) (w : List Dword) (q4 : Bool) (bs : List Byte) : Contrib :=
  ⟨c.rank, stepBits w 0 58 56, stepFmt w, q4, stepBits w 0 29 29 == 1, bs⟩

/-- An execution whose next chunk has been requested, or sent with these bytes. -/
def sentOne (e : StepExec) : StepExec := { e with next := e.next + 1 }
def sentChunk (e : StepExec) (x : SentChunk) : StepExec := { sentOne e with out := e.out ++ [x] }

/-- The 256 bytes of the collective block and its program as the engine takes the instance, and what they spell (R383 to R385). -/
structure Taken (s : State) (c : Coll) (b : Master) (bs ps : List Byte) (u : State) (n rank : Nat) : Prop where
  read : ∃ t, s.engRead b 0 0 c.blockVa.toNat 256 1 = (t, .ok bs) ∧ t.groupEntry (recField bs 10 2) = (n, rank) ∧
    t.engRead b 0 0 (recField bs 0 8) (32 * recField bs 8 2) 1 = (u, .ok ps)

/-- The steps of a program (R386). -/
def programSteps (ps : List Byte) (cnt : Nat) : List (List Dword) :=
  (List.range cnt).map fun i => (List.range 4).map fun j => BitVec.ofNat 64 (recField ps (32 * i + 8 * j) 8)

end Sys2Proof.Claims

/-- R385: the engine takes an instance that it has not accepted: the first failure of its block, its steps, its group and its name
rejects it, and otherwise it runs. -/
def Sys2Proof.Claims.TakenPart : Prop :=
  ∀ (s : State) (k : Nat) (c : Coll) (b : Master), s.coll k = some c → s.master c.m = some b → b.phase ≠ .frozen → c.wait = .ready →
    c.accepted = false → c.ending = none →
    let o := exec (.collStepBegin k) s
    (∀ u r, s.engRead b 0 0 c.blockVa.toNat 256 1 = (u, r) → (∀ bs, r ≠ .ok bs) → o = .next (u.collFails k c none r)) ∧
    ∀ bs ps u n rank, Taken s c b bs ps u n rank →
      let d := (parseColl c bs n rank).1
      let steps := programSteps ps (recField bs 8 2)
      let rejects (code : Nat) : Prop := CollEnds (u.modColl k fun _ => d) k d b 3 code 0 o
      let bad : Prop := (parseColl c bs n rank).2 = true
      let malformed : Prop := ∃ p ∈ steps.zipIdx, stepMalformed d.bufs (d.efVa != 0) p.2 p.1 = true
      let taken : Prop := ∃ p ∈ u.colls, p.1 ≠ k ∧ p.2.accepted = true ∧ p.2.group = d.group ∧ p.2.seq = d.seq
      (bad → rejects 0x21) ∧ (¬bad → malformed → rejects 0x22) ∧ (¬bad → ¬malformed → n = 0 → rejects 0x23) ∧
      (¬bad → ¬malformed → n ≠ 0 → taken → rejects 0x24) ∧
      (¬bad → ¬malformed → n ≠ 0 → ¬taken →
        CollAfter u k { d with steps := steps, accepted := true, progressAt := s.cycles } o)

/-- R387 to R389: the next step begins when the one before it has sent or requested all its chunks. WAIT is passed when what it
waits for holds; LOOP counts and jumps; a data step takes its peer and its indices, or aborts with code 0x31. -/
def Sys2Proof.Claims.StepBeginPart (s : State) (k : Nat) (c : Coll) (b : Master) : Prop :=
  let o := exec (.collStepBegin k) s
  (∀ e, c.execs.getLast? = some e → e.next < c.total e → o = .next s) ∧
  ∀ w, c.steps[c.pc]? = some w → (∀ e, c.execs.getLast? = some e → c.total e ≤ e.next) →
    (stepOp w = 5 → stepBits w 0 59 58 = 0 → if ∀ e ∈ c.execs, c.total e ≤ e.landed
      then CollBecomes s k { c with pc := c.pc + 1, execs := [] } o else o = .next s) ∧
    (stepOp w = 5 → stepBits w 0 59 58 = 1 → if stepBits w 1 31 0 + stepBits w 2 63 32 * (c.n - 1) ≤ c.inbound
      then CollBecomes s k { c with pc := c.pc + 1 } o else o = .next s) ∧
    (stepOp w = 6 → let i := stepBits w 0 33 32
      let v := c.ctrs.getD i 0 + 1
      CollBecomes s k (if v < c.limits.getD i 0 then { c with ctrs := modAt c.ctrs i fun _ => v, pc := stepBits w 1 7 0 }
        else { c with ctrs := modAt c.ctrs i fun _ => 0, pc := c.pc + 1 }) o) ∧
    (stepOp w ≠ 5 → stepOp w ≠ 6 → match c.begin w with
      | some e => CollBecomes s k { c with execs := c.execs ++ [e], pc := c.pc + 1 } o
      | none => CollEnds s k c b 2 0x31 c.current.1 o)

/-- R387, R389, R390 and R393: the next chunk of the one execution of a step goes out. PULL and a GET from a peer request it; the
others read their source chunk and send it. A read that fails stops the step, and moves nothing. -/
def Sys2Proof.Claims.ChunkSentPart (s : State) (k : Nat) (c : Coll) (b : Master) (e : StepExec) (w : List Dword) : Prop :=
  let o := exec (.chunkTransfer k e.step) s
  let op := stepOp w
  let (src, peer, buf, dst) := nextChunk c e w
  let asks : Prop := op = 1 ∨ (op = 3 ∧ e.peer ≠ c.rank)
  let q4 : Prop := op = 0 ∧ stepBits w 0 59 59 = 1
  let read := s.readChunk c b (stepBits w 0 52 50) (stepFmt w) src
  let sent (bs : List Byte) : Coll := { c with execs := [sentChunk e ⟨peer, buf, dst, bs⟩], progressAt := s.cycles }
  (asks → CollBecomes s k { c with execs := [sentOne e] } o) ∧
  (¬asks → op ≤ 4 ∨ op = 7 →
    (∀ u r, read = (u, r) → (∀ bs, r ≠ .ok bs) → o = .next (u.collFails k c (some 0) r)) ∧
    ∀ u bs, read = (u, .ok bs) →
      (¬q4 → CollAfter u k (sent bs) o) ∧
      (q4 → c.efMapVa = 0 → let va := c.efVa.toNat + 4096 * src
        ∀ u' x fs, u.engRead b 0 0 va 4096 1 = (u', .ok fs) → u'.writable b va 4096 = (x, .ok []) →
        let (blk, res, exc) := q4Chunk bs fs
        ∀ v, ({ x with colls := aset x.colls k (sent blk) } : State).engWrite c.m b 0 0 va 1 res = (v, .ok []) →
          CollAfter v k { sent blk with efDone := c.efDone + 1, exc := c.exc ||| exc } o))

/-- R380, R385, R387 and R389: when the one execution of a step has sent or requested all its chunks, its next one completes. The
switch accepts the oldest contribution that fits; a PULL's waits for the final result, and an error aborts with code 0x35; a GET's
waits for the peer's answer; one that was sent lands at its peer, or in this instance. -/
def Sys2Proof.Claims.ChunkLandedPart (s : State) (k : Nat) (c : Coll) (b : Master) (e : StepExec) (w : List Dword) : Prop :=
  let o := exec (.chunkTransfer k e.step) s
  let op := stepOp w
  let buf := stepBits w 0 49 47
  let at' := e.src + e.landed
  let own : Prop := op = 2 ∨ op = 4 ∨ op = 7 ∨ (op = 3 ∧ e.peer = c.rank)
  let passes (out : List SentChunk) : Coll := { c with execs := [{ e with landed := e.landed + 1, out := out }], progressAt := s.cycles }
  let moved : Coll := { c with landed := c.landed + 1, progressAt := s.cycles }
  (e.next ≤ e.landed → o = .next s) ∧
  (e.landed < e.next →
    (op = 0 → ((∀ x ∈ e.out, s.pushFits c.group c.seq x.idx = false) → o = .next s) ∧
      ∀ l x r, e.out = l ++ x :: r → (∀ y ∈ l, s.pushFits c.group c.seq y.idx = false) → s.pushFits c.group c.seq x.idx = true →
        CollAfter (s.contribute c.group c.seq x.idx c.n (contribution c w (stepBits w 0 59 59 == 1) x.bytes)) k (passes (l ++ r)) o) ∧
    (own → (e.out = [] → o = .next s) ∧ ∀ x r, e.out = x :: r →
      (x.peer ≠ c.rank → CollAfter (s.progress c.m false) k (passes r) o) ∧
      (x.peer = c.rank → ∀ v, s.landChunk k c b x.buf x.idx x.bytes = (v, .ok []) →
        CollAfter v k { passes r with landed := c.landed + 1, inbound := c.inbound + if op = 2 ∨ op = 7 then 1 else 0 } o)) ∧
    (op = 3 → e.peer ≠ c.rank → (e.answers = [] → o = .next s) ∧
      ∀ bs rest v, e.answers = bs :: rest → s.landChunk k c b buf (e.dst + e.landed) bs = (v, .ok []) →
        CollAfter v k { moved with execs := [{ e with landed := e.landed + 1, answers := rest }] } o) ∧
    (op = 1 → match s.apertureAt c.group c.seq at' with
      | none => o = .next s
      | some a =>
        (a.error = true → CollEnds s k c b 2 0x35 c.current.1 o) ∧
        (a.error = false → a.contribs.length < c.n → o = .next s) ∧
        (a.error = false → c.n ≤ a.contribs.length → let (bs, exc) := a.result (stepFmt w)
          ∀ v, s.landChunk k c b buf (e.dst + e.landed) bs = (v, .ok []) →
            CollAfter (v.pullBy c.group c.seq at' c.n c.rank) k
              { moved with execs := [{ e with landed := e.landed + 1 }], exc := c.exc ||| exc } o)))

/-- R384, R393: a chunk that an instance lands is counted in its status record and restarts its block's watchdog; its bytes, no map
recording them, are the engine's write at its place in the buffer. -/
def Sys2Proof.Claims.ChunkWrittenPart : Prop :=
  ∀ (s u : State) (k : Nat) (c : Coll) (b : Master) (buf idx : Nat) (bs : List Byte), s.coll k = some c → c.mapBuf ≠ buf ∨ c.mapVa = 0 →
    s.engWrite c.m b 0 0 ((c.bufs.getD buf (0, 0)).1.toNat + idx * bs.length) 1 bs = (u, .ok []) → u.coll k = some c →
    u.cycles = s.cycles →
    s.landChunk k c b buf idx bs = ({ u.progress c.m false with
      colls := aset u.colls k { c with landed := c.landed + 1, progressAt := s.cycles } }, .ok [])

/-- R380: a contribution joins those of its chunk, a pull is noted, and a chunk that every member has done with is released. -/
def Sys2Proof.Claims.AperturePart : Prop :=
  ∀ (s : State) (g q ch n : Nat),
  (∀ x, let t := s.contribute g q ch n x
    let a : Aperture := match s.apertureAt g q ch with
      | some a => { a with contribs := a.contribs ++ [x] }
      | none => ⟨g, q, ch, [x], []⟩
    { t with aperture := s.aperture } = s ∧ (a.spent n = false → t.apertureAt g q ch = some a) ∧
      ∀ y ∈ t.aperture, y.group = g → y.spent n = false) ∧
  ∀ r a, s.apertureAt g q ch = some a → let t := s.pullBy g q ch n r
    let a' : Aperture := { a with pulled := a.pulled ++ [r] }
    { t with aperture := s.aperture } = s ∧ (a'.spent n = false → t.apertureAt g q ch = some a') ∧
      ∀ y ∈ t.aperture, y.group = g → y.spent n = false

/-- R380, R385 to R390, R392, R393, R395: the engine takes an instance; a collective's steps begin in order and WAIT and LOOP do
what R388 says; a chunk of each data step is read, sent, requested, accepted and landed; a peer's chunk is received, or waits for its
page; the instance completes, times out and aborts with its status record. What the model chose here: log 28, 57, 72, 77, 78, 87. -/
def Obligations.CollectiveSteps : Prop :=
  Sys2Proof.Claims.AperturePart ∧ Sys2Proof.Claims.TakenPart ∧ Sys2Proof.Claims.ChunkWrittenPart ∧
  ∀ (s : State) (k : Nat) (c : Coll) (b : Master), CollRuns s k c b →
    let settled : Prop := ∀ e ∈ c.execs, c.total e ≤ e.landed
    Sys2Proof.Claims.StepBeginPart s k c b ∧
    (∀ e, c.execs = [e] → e.wait = .ready → c.rank < c.n → let w := c.steps.getD e.step []
      if e.next < c.total e then Sys2Proof.Claims.ChunkSentPart s k c b e w else Sys2Proof.Claims.ChunkLandedPart s k c b e w) ∧
    (∀ buf idx bytes, (bytes.length = 2048 ∨ bytes.length = 4096) →
      (let size := (c.bufs.getD buf (0, 0)).2
       (size < (idx + 1) * bytes.length → exec (.inboundChunk k buf idx bytes) s = .next s) ∧
       ((idx + 1) * bytes.length ≤ size →
         (∀ u, s.putChunk k c b buf idx bytes = (u, .ok []) →
           CollAfter u k { c with inbound := c.inbound + 1, progressAt := s.cycles } (exec (.inboundChunk k buf idx bytes) s)) ∧
         (∀ u cause va, s.putChunk k c b buf idx bytes = (u, .bad cause va) →
           exec (.inboundChunk k buf idx bytes) s = .next (u.collBad k c none cause va)) ∧
         ∀ u va lv wr v st, s.putChunk k c b buf idx bytes = (u, .missing va lv wr) →
           u.joinMiss c.die c.ctx.asid va lv wr = (v, st) →
           CollAfter v k { c with peers := c.peers ++ [st] } (exec (.inboundChunk k buf idx bytes) s)))) ∧
    (c.steps.length ≤ c.pc → settled → CollEnds s k c b 1 0 0 (exec (.collComplete k) s)) ∧
    (¬settled → exec (.collComplete k) s = .next s) ∧
    (if c.progressAt + 1600 * c.timeout ≤ s.cycles then CollEnds s k c b 2 0x30 c.current.1 (exec (.collTimeout k) s)
      else exec (.collTimeout k) s = .next s) ∧
    ∀ code : BitVec 8, code = 0x31 ∨ code = 0x32 ∨ code = 0x34 → CollEnds s k c b 2 code.toNat c.current.1 (exec (.collAbort k code) s)

/-- R168, R338, R376, R378, R399, R403, R443, R444: requests from other packages and from the host are served inside their windows and
refused outside; links and the host's link go down and come back; a refused lane freezes its block with cause 0x17, or, in a handler,
with cause 0x02, the refusal being its inner cause. What the model chose here: log 8, 54, 70. -/
def Obligations.FabricRequests : Prop :=
  ∀ (s : State) (bl : Blob) (pa n : Nat), s.blob = some bl → 0 < n → n ≤ 128 → pa + n ≤ hbmBytes →
    s.poisoned pa n = false → s.unreachable pa n = false → s.formOf pa = none →
    let window : Prop := bl.inCarve pa n = false ∧ ∃ w ∈ bl.windows, w.base ≤ pa ∧ pa + n ≤ w.base + 4096 * w.pages
    (∀ peer, (bl.inCarve pa n = false → (∃ w ∈ bl.windows, w.base ≤ pa ∧ pa + n ≤ w.base + 4096 * w.pages ∧ w.read = true) →
        exec (.inboundRequest peer pa (.read n)) s = .next { s with reply := some (readBytes s.mem pa n) }) ∧
      (∀ bs : List Byte, bs.length = n → bl.inCarve pa n = false →
        (∃ w ∈ bl.windows, w.base ≤ pa ∧ pa + n ≤ w.base + 4096 * w.pages ∧ w.write = true) →
        Goes (exec (.inboundRequest peer pa (.write bs)) s) fun (t : State) => t.reply = some [] ∧ t.dies = s.dies ∧
          ∀ a, t.mem.read a = if pa ≤ a ∧ a < pa + n then bs.getD (a - pa) 0 else s.mem.read a) ∧
      (¬window → Goes (exec (.inboundRequest peer pa (.read n)) s) fun (t : State) => t.reply = none ∧ t.masters = s.masters ∧
        ∃ r, t = ({ s with reply := none } : State).record (pa / 2 ^ 36) r ∧ r.kind = 5 ∧ r.index = BitVec.ofNat 32 peer ∧
          r.address = BitVec.ofNat 64 pa)) ∧
    (let inside : Prop := s.cxlUp = true ∧ bl.cxlBase ≤ pa ∧ pa + n ≤ bl.cxlBase + bl.cxlSize
     (inside → exec (.cxlMemRequest pa (.read n)) s = .next { s with reply := some (readBytes s.mem pa n) } ∧
       ∀ bs : List Byte, bs.length = n → Goes (exec (.cxlMemRequest pa (.write bs)) s) fun (t : State) => t.reply = some [] ∧
         (∀ a, pa ≤ a → a < pa + n → t.mem.read a = bs.getD (a - pa) 0) ∧
         ∀ d, d < 8 → ∀ q ∈ (t.die d).copies, ¬(pa / 128 ≤ q.1 / 4 ∧ q.1 / 4 ≤ (pa + n - 1) / 128)) ∧
     (¬inside → exec (.cxlMemRequest pa (.read n)) s = .next { s with reply := none })) ∧
    (∀ a, Goes (exec (.cxlSnoop a) s) fun (t : State) => ∀ d, d < 8 → ∀ q ∈ (t.die d).copies, q.1 / 4 ≠ hostKey (a / 128 * 128) / 128) ∧
    (Goes (exec .cxlLinkDown s) fun (t : State) => t.cxlUp = false ∧ ∀ d, d < 8 → ∀ q ∈ (t.die d).copies,
      ¬(2 ^ 60 ≤ 32 * q.1 ∧ 32 * q.1 < 2 ^ 61)) ∧
    (∀ bit, s.bring.state = 5 → 520 ≤ bit → bit ≤ 545 →
      let links (v : Bool) : List (Nat × Bool) := if s.ready.getLsbD bit = v then s.links else s.links ++ [(bit, v)]
      (Goes (exec (.linkDown bit) s) fun (t : State) => { t with ready := s.ready, links := s.links } = s ∧ t.links = links false ∧
        ∀ j, t.ready.getLsbD j = (s.ready.getLsbD j && decide (j ≠ bit))) ∧
      (s.halted = false → Goes (exec (.linkUp bit) s) fun (t : State) => { t with ready := s.ready, links := s.links } = s ∧
        t.links = links true ∧ ∀ j, t.ready.getLsbD j = (s.ready.getLsbD j || decide (j = bit)))) ∧
    ∀ (r : WRef) (b : Master) (w : Warp) (o : MemOp) (l : LaneAcc), s.master r.m = some b → b.warps[r.w]? = some w → w.outs = [o] →
      o.lanes = [l] → l.st = .remote → l.lane < 128 → b.phase = .running →
      Goes (exec (.remoteRefusal r o.k (laneBit l.lane)) s) fun (t : State) => ∃ (b' : Master) (f : FreezeAt) (u : State), t.master r.m = some b' ∧ b'.phase = .frozen ∧
        t = u.freeze r.m f ∧ f.cause = (if w.handler.isSome then 0x02 else 0x17) ∧ f.warp = some r.w ∧ f.pc = o.pc ∧ f.address = l.ea

/-- R437 to R441, R445 to R448: bring-up. What the model chose here: log 34, 35, 49, 50. -/
def Obligations.BringUpSequence : Prop :=
  ∀ (s : State), let x := s.bring
  let bring (P : BringUp → Prop) (o : Host.Outcome State Fault Refusal) : Prop :=
    Goes o fun (t : State) => { t with bring := s.bring } = s ∧ P t.bring
  (∀ ag, ag ≠ .cc → ∀ i ∈ [Instr.loadFirmware ag, .loadBlob ag, .extendMeasurement ag, .requestQuote ag],
    exec i s = .next s) ∧
  let begins (size : Prop) (n : Nat) (y : BringUp) : Prop :=
    y.state = n ∧ (y.objOk = true ↔ x.objAddr.toNat % 4096 = 0 ∧ size) ∧
    y.obj = (if y.objOk = true then s.loadRead x.objAddr.toNat x.objSize else none) ∧
    { y with state := x.state, objOk := x.objOk, obj := x.obj } = x
  (x.state = 1 → bring (begins (242 ≤ x.objSize ∧ x.objSize ≤ 2 ^ 26) 2) (exec (.loadFirmware .cc) s)) ∧
  (x.state = 3 → bring (begins (x.objSize = 1024) 4) (exec (.loadBlob .cc) s)) ∧
  (let stops (st : Nat) (y : BringUp) : Prop :=
      y.error = (if x.objOk = false then 1 else 2) ∧ { y with error := x.error } = { x with state := st, obj := none };
    x.objOk = false ∨ x.obj = none → (x.state = 2 → bring (stops 1) (exec .firmwareVerifyDone s)) ∧
      (x.state = 4 → bring (stops 3) (exec .blobVerifyDone s))) ∧
  (x.state ≠ 1 → exec (.loadFirmware .cc) s = .next s) ∧ (x.state ≠ 3 → exec (.loadBlob .cc) s = .next s) ∧
  (x.state = 2 → bring (fun y => (y.state = 3 ∧ x.fwMin ≤ y.fwMin ∧ y.error = x.error) ∨
    (y.state = 1 ∧ y.fwMin = x.fwMin ∧ 1 ≤ y.error ∧ y.error ≤ 6)) (exec .firmwareVerifyDone s)) ∧
  (x.state = 4 → Goes (exec .blobVerifyDone s) fun (t : State) =>
    (t.bring.state = 5 ∧ x.cfgMin ≤ t.bring.cfgMin ∧ t.blob.isSome = true ∧ t.mem = s.mem) ∨
    (t.bring.state = 3 ∧ t.bring.cfgMin = x.cfgMin ∧ 1 ≤ t.bring.error ∧ t.bring.error ≤ 6 ∧ t.blob = s.blob)) ∧
  (x.state = 5 → 1 ≤ x.objSize → x.objSize ≤ 65536 → ∀ bs, s.homeRead (physKey x.objAddr.toNat) x.objSize = some bs →
    bring (fun y => y = { x with meas := modAt x.meas 2 fun m => shake256 (m ++ shake256 bs 64) 64 }) (exec (.extendMeasurement .cc) s)) ∧
  (x.state = 5 → x.quoteStatus ≠ 1 → bring (fun y => y.quoteStatus = 1 ∧ y.quoting = x.nonce ++ x.meas.flatten ++
    leBytes 2 (match s.blob with | some b => b.package | none => 0)) (exec (.requestQuote .cc) s)) ∧
  (x.quoteStatus = 1 → bring (fun y => y.quoteStatus = 2 ∧ y.quote.length = 114) (exec .quoteDone s)) ∧
  (∀ bit, bit ≤ 546 → x.state = 5 → s.halted = false → Goes (exec (.functionReady bit) s) fun (t : State) =>
    { t with ready := s.ready, links := s.links } = s ∧
      (t.links = if 520 ≤ bit ∧ bit ≤ 545 ∧ s.ready.getLsbD bit = false then s.links ++ [(bit, true)] else s.links) ∧
      ∀ j, t.ready.getLsbD j = (s.ready.getLsbD j || decide (j = bit))) ∧
  exec .throttle s = .next { s with throttled := true } ∧ exec .throttleEnd s = .next { s with throttled := false } ∧
  exec .criticalTemperature s = .next { s with halted := true, ready := 0 } ∧
  Goes (exec .packageReset s) fun (t : State) => t.mem = s.mem ∧ t.halted = false ∧ t.masters = [] ∧ t.grids = [] ∧ t.queues = [] ∧
    t.blob = none ∧ t.ready = 0 ∧ t.bring.state = 1 ∧ t.bring.fwMin = x.fwMin ∧ t.bring.cfgMin = x.cfgMin ∧ t.bring.owner = x.owner

namespace Sys2Proof.Claims

open Sys2Proof.Machine

/-- A system instruction that the caller may not execute, or whose operands are bad (R417). -/
def Refuses (s : State) (c : Ctx) (n : Nat) (i : Instr) : Prop := exec i s = .next (illegal s c n)

/-- A warp that may execute SPILLF and FILLF (R398). -/
def MaySpill (c : Ctx) : Prop := c.b.privileged = true ∨ ∃ h, c.w.handler = some h ∧ (h.vector = 10 ∨ h.vector = 11)

/-- The lowest window base of every entry of a warp (R147). -/
def LowestBase (w : Warp) (n : Nat) : Prop := ∀ b ∈ w.bases, n ≤ b

/-- The frames of a SPILLF or FILLF: register key and lane of each access. -/
def frameKeys (lo n : Nat) : List (Nat × Nat) :=
  (List.range (8 * n)).flatMap fun j => (List.range 128).map fun l => (8 * lo + j, l)

/-- The accesses of n frames from frame `lo` at `a` (R413, R420): lane, address, register key, and the bytes it holds. -/
def frameAccesses (w : Warp) (a : Dword) (lo n : Nat) : List (Nat × Dword × Dword × List Byte) :=
  (frameKeys lo n).map fun p => (p.2, a + BitVec.ofNat 64 (512 * (p.1 - 8 * lo) + 4 * p.2), BitVec.ofNat 64 p.1,
    leBytes 4 (((aget w.regs p.1).getD []).getD p.2 0).toNat)

/-- A SPILLF or FILLF that passes its checks issues the accesses of its request and waits at its place; with nothing of the warp
outstanding, they perform one after another as `performLane` says (R417, R420). -/
def IssuesFrames (s : State) (c : Ctx) (i : Instr) (q : MemReq) (a : Dword) (lo n : Nat) : Prop :=
  (s.precheck c.b q).2.1 = [] →
  ((∀ o ∈ c.w.outs, o.k < c.w.opCount) → ∃ t w, exec i s = .next t ∧ t.warp c.ref = some w ∧ SameRegisters c.w w ∧
    w.resident = c.w.resident ∧ w.clause = c.w.clause ∧ ∃ o ∈ w.outs, o.pc = c.c.pc ∧ o.kind = q.kind ∧ o.space = .g ∧ o.bytes = 4 ∧
      o.lanes.map (fun l => (l.lane, l.ea, l.dst, l.data)) = frameAccesses c.w a lo n) ∧
  (c.w.outs = [] → ∀ t, Perform c.ref c.w.opCount (List.range q.lanes.length) ((s.precheck c.b q).1.modWarp c.ref fun w =>
    { w with outs := [opOf c q], opCount := c.w.opCount + 1 }) t → exec i s = .next t)

end Sys2Proof.Claims

/-- R398 and R417: without privilege, the privileged instructions raise illegal instruction with subcode 7, whatever their
operands. -/
def Sys2Proof.Claims.PrivilegeRulePart : Prop :=
  ∀ (s : State) (c : Ctx) (d a : Reg5), s.ctx = some c → c.b.privileged = false →
    (∀ g, Refuses s c 7 (.segset a g)) ∧ Refuses s c 7 (.ctxsv d a) ∧ Refuses s c 7 (.ctxld d a) ∧ Refuses s c 7 (.tlbinv a) ∧
    Refuses s c 7 (.freeze d a) ∧ Refuses s c 7 (.thaw d a) ∧ (∀ n, Refuses s c 7 (.perfsel d a n)) ∧ Refuses s c 7 (.swr a 13) ∧
    (¬MaySpill c → ∀ n, Refuses s c 7 (.spillf a n) ∧ Refuses s c 7 (.fillf a n))

/-- R418, R419, R422 and R424: SWR, SEGSET, TLBINV and PERFSEL. -/
def Sys2Proof.Claims.SystemRegistersPart : Prop :=
  ∀ (s : State) (c : Ctx) (d a : Reg5), s.ctx = some c →
  (∀ n : BitVec 6, let x := (c.w.s52 a).toNat
    let i : Instr := .swr a n
    (23 < n.toNat → Refuses s c 8 i) ∧
    (n.toNat ≤ 14 ∧ n ≠ 13 ∨ n = 22 ∨ n = 23 → Refuses s c 7 i) ∧
    (n = 13 → c.b.privileged = true → if x < s.clockVal then Refuses s c 8 i
      else ∃ k, s.cycles + k = x ∧ Completes { s with clockOff := k } c 1 c.w (exec i s)) ∧
    (n = 15 → Completes s c 1 { c.w with fflags := (c.w.s5 a).setWidth 5 } (exec i s)) ∧
    (n = 16 → Completes s c 1 { c.w with fctl := (c.w.s5 a).setWidth 5 } (exec i s)) ∧
    (17 ≤ n.toNat → n.toNat ≤ 20 → if c.w.handler = none then Refuses s c 7 i
      else ∃ m, Completes s c 1 { c.w with tlanes := m } (exec i s) ∧
        ∀ l, l < 128 → m.has l = if l / 32 = n.toNat - 17 then (c.w.s5 a).getLsbD (l % 32) else c.w.tlanes.has l) ∧
    (n = 21 → (c.w.handler = none → Refuses s c 7 i) ∧
      ∀ h, c.w.handler = some h → if x % 4 ≠ 0 then Refuses s c 8 i
        else Completes s c 1 { c.w with tpc := c.w.s52 a, handler := some { h with tpcWritten := true } } (exec i s))) ∧
  (∀ g : BitVec 3, g.toNat ≤ 4 → c.b.privileged = true →
    let base := (c.w.s2 (u5 a)).toNat
    let limit := (c.w.s2 (u5 a + 2)).toNat
    let old := c.b.segs.getD g.toNat default
    let fits : Prop := if g = 1 then base = (c.b.coreHold c.ref.w).xBase ∧ limit ≤ old.loaded
      else if g = 3 then base = old.base ∧ limit ≤ old.loaded
      else if g = 2 then c.b.ctx.wsBase ≤ base ∧ base + limit ≤ c.b.ctx.wsBase + c.b.ctx.wsLimit
      else base + limit ≤ 2 ^ 57
    (fits → BlockBecomes s c (fun b => { b with segs := c.b.segs } = c.b ∧
      ∀ k, k ≤ 4 → b.segs.getD k default = if k = g.toNat then { old with base := if g = 1 then old.base else base, limit := limit }
        else c.b.segs.getD k default) c.w (exec (.segset a g) s)) ∧
    (¬fits → Refuses s c 8 (.segset a g))) ∧
  (c.b.privileged = true →
    let va := (c.w.s2 (u5 a)).toNat
    let n := (c.w.s (u5 a + 2)).toNat
    let asid := (c.w.s (u5 a + 3)).toNat
    let sound : Prop := va % 4096 = 0 ∧ 1 ≤ n ∧ n ≤ 2 ^ 31 ∧ 1 ≤ asid ∧ asid ≤ 65535
    (¬sound → Refuses s c 8 (.tlbinv a)) ∧
    (sound → ∃ u : State, { u with dies := s.dies } = s ∧ Completes u c 1 c.w (exec (.tlbinv a) s) ∧
      ∀ k, { u.die k with tlb := (s.die k).tlb } = s.die k ∧ ∀ t, t ∈ (u.die k).tlb ↔ t ∈ (s.die k).tlb ∧
        ¬(t.asid = asid ∧ t.vpre * 2 ^ levelShift t.level < va + 4096 * n ∧ va < (t.vpre + 1) * 2 ^ levelShift t.level))) ∧
  ∀ n : BitVec 6, c.b.privileged = true → c.b.die < 8 →
    let e := (c.w.s5 a).toNat
    let i := 8 * (c.b.coreHold c.ref.w).core + n.toNat
    let p := (s.die c.b.die).perf.getD i default
    (7 < n.toNat ∨ 256 ≤ e → Refuses s c 8 (.perfsel d a n)) ∧
    (n.toNat ≤ 7 → e < 256 → (c.b.coreHold c.ref.w).core < 24 → d.toNat ≤ 28 → ∃ (u : State) (w : Warp),
      WritesS c.w w (u5 d) 2 (if p.event = 1 then BitVec.ofNat 64 (s.cycles - p.since) else p.count) ∧
      Completes u c 1 w (exec (.perfsel d a n) s) ∧ { u with dies := s.dies } = s ∧
      (u.die c.b.die).perf.getD i default = ⟨0, BitVec.ofNat 8 e, s.cycles⟩ ∧
      ∀ k, k < 192 → k ≠ i → (u.die c.b.die).perf.getD k default = (s.die c.b.die).perf.getD k default)

/-- R398, R417 to R419, R422, R424: the system registers and their privilege. What the model chose here: log 42, 67. -/
def Obligations.SystemRegisters : Prop :=
  Sys2Proof.Claims.PrivilegeRulePart ∧ Sys2Proof.Claims.SystemRegistersPart

/-- R420 and R421: SPILLF and FILLF issue an access for each lane of each register and move the lowest resident frame when all
have performed; CTXSV and CTXLD report
how they ended. What the model chose here: log 25, 41, 67, 74. -/
def Obligations.SavedState : Prop :=
  ∀ (s : State) (c : Ctx) (d a : Reg5), s.ctx = some c →
  (∀ n : BitVec 6, MaySpill c →
    let rest (o : MemOp) : List MemOp := c.w.outs.filter fun x => x.k != o.k
    let spills : Prop := n ≠ 0 ∧ c.w.resident + n.toNat ≤ 4096 ∧ LowestBase c.w (c.w.resident + n.toNat)
    let lo := c.w.resident - n.toNat
    let fills : Prop := n ≠ 0 ∧ n.toNat ≤ c.w.resident ∧ c.fillTop + 1 - lo ≤ c.w.allot
    (¬spills → Refuses s c 8 (.spillf a n)) ∧ (¬fills → Refuses s c 8 (.fillf a n)) ∧
    (spills → c.frameOp = none →
      IssuesFrames s c (.spillf a n) (c.frameReq .spill (c.w.s52 a) c.w.resident n.toNat) (c.w.s52 a) c.w.resident n.toNat) ∧
    (fills → c.frameOp = none → IssuesFrames s c (.fillf a n) (c.frameReq .fill (c.w.s52 a) lo n.toNat) (c.w.s52 a) lo n.toNat) ∧
    ∀ o, c.frameOp = some o →
      (o.undone = true → (spills → exec (.spillf a n) s = .next s) ∧ (fills → exec (.fillf a n) s = .next s)) ∧
      (o.undone = false →
        (spills → Completes s c 1 { c.w with resident := c.w.resident + n.toNat, outs := rest o } (exec (.spillf a n) s)) ∧
        (fills → (o.lanes.map fun x => (x.dst.toNat, x.lane)) = frameKeys lo n.toNat → (∀ x ∈ o.lanes, x.val.length = 4) →
          c.fillTop ≤ c.c.base + 3 → ∃ w, Completes { s with freeTick := s.freeTick + 1 } c 1 w (exec (.fillf a n) s) ∧
            { w with regs := c.w.regs } = { c.w with resident := lo, outs := rest o } ∧
            (∀ x ∈ o.lanes, x.dst.toNat < 8 * (c.fillTop + 1) →
              (((aget w.regs x.dst.toNat).getD []).getD x.lane 0).toNat = leNat x.val) ∧
            ∀ k, (k < 8 * lo ∨ 8 * c.w.resident ≤ k) → (k < 8 * (c.fillTop + 1) ∨ 8 * (c.c.base + 4) ≤ k) →
              aget w.regs k = aget c.w.regs k))) ∧
  (c.b.privileged = true →
    let at' := (c.w.s2 (u5 a + 2)).toNat
    let id := c.w.s (u5 a)
    let lin := c.w.s (u5 a + 1)
    let status (u : State) (n : Nat) (i : Instr) : Prop :=
      ∃ w, WritesS c.w w (u5 d) 1 (BitVec.ofNat 64 n) ∧ Completes u c 1 w (exec i s)
    let x := s.target 0 id (lin.setWidth 64)
    (at' % 4096 ≠ 0 → Refuses s c 8 (.ctxsv d a) ∧ Refuses s c 8 (.ctxld d a)) ∧
    (at' % 4096 = 0 → (x = .absent → status s 1 (.ctxsv d a) ∧ status s 1 (.ctxld d a)) ∧
      (∀ u, x = .undispatched u → status s 2 (.ctxsv d a) ∧ status s 2 (.ctxld d a)) ∧
      ∀ m b, x = .master m → s.master m = some b →
        (b.phase ≠ .frozen → b.phase ≠ .preempted → status s 2 (.ctxsv d a) ∧ status s 2 (.ctxld d a)) ∧
        (b.phase = .frozen ∨ b.phase = .preempted →
          (∀ u, ({ s with freeTick := s.freeTick + 1 } : State).engWrite c.ref.m c.b 0 0 at' 1
              (({ s with freeTick := s.freeTick + 1 } : State).recordOf m b (if b.phase = .frozen then 3 else 2) s.freeTick) = (u, .ok []) → status u 0 (.ctxsv d a)) ∧
          ∀ u r, s.engRead c.b 0 0 at' b.variant.recordSize 1 = (u, .ok r) →
            (b.agrees r = false → status u 3 (.ctxld d a)) ∧
            (b.agrees r = true → b.phase = .frozen → b.frozenFrom ≠ .preempted → m ≠ c.ref.m →
              status (u.loadRecord m b r) 0 (.ctxld d a)))))

namespace Sys2Proof.Claims

open Sys2Proof.Machine

/-- The state in which a move's turn is taken: its cycles have passed (log 1). -/
def arrives (s : State) (n : Nat) (rest : List Move) : State := ({ s with schedule := rest } : State).pass n

/-- A move from `u` to `t` brings nothing with it: no entry is new and no suspended clause goes on (so no code is read), no warp
has more than 16 entries, no grid has made progress, and no master has frozen. -/
structure NothingToSettle (u t : State) : Prop where
  entries : ∀ p ∈ t.masters, ∀ q ∈ p.2.warps.zipIdx, ∃ v, u.warp ⟨p.1, q.2⟩ = some v ∧ (∀ e ∈ q.1.standing, e ∈ v.standing) ∧
    v.refetched q.1 = [] ∧ v.entryCount ≤ 16 ∧ q.1.entryCount ≤ 16
  progress : ∀ p ∈ t.grids, p.2.progressed = false
  frozen : ∀ p ∈ t.masters, p.2.phase = .frozen → ∃ b, u.master p.1 = some b ∧ b.phase = .frozen

/-- The turn of a warp that may issue (R93, R107, R116): the instruction of its clause, an illegal instruction, a violated
lookahead, a wait, or the next clause (R113, R123, R124, R135, R136, R251). -/
def WarpTurn (s u : State) (r : WRef) (b : Master) (w : Warp) : Prop :=
  let t : State := { u with cur := some r }
  let goes (o : Host.Outcome State Fault Refusal) : Prop := step s = u.sealOutcome o
  (b.mayIssue w = false → goes (.next u)) ∧
  (b.mayIssue w = true →
    (∀ c : Clause, w.clause = some c →
      let x : Ctx := ⟨r, b, w, c⟩
      let word := decode (c.words.getD (c.next - 1) 0) (c.words.getD c.next 0)
      (∀ i : Instr, word = .instr i →
        (w.blocked c i = true → goes (.next t)) ∧
        (w.blocked c i = false →
          (x.dynSubs t i ≠ [] → goes (exec i t)) ∧
          (x.dynSubs t i = [] →
            (w.violates c i = true → goes (.next (t.takeTrap r c 2 c.lanes c.pc (BitVec.ofNat 32 (256 * c.next))))) ∧
            (w.violates c i = false → goes (if Instr.replays i && w.replayFull then .next t else exec i t))))) ∧
      (∀ k : Nat, word = .illegal k none → goes (.next (illegal t x k))) ∧
      ∀ (k : Nat) (i : Instr), word = .illegal k (some i) →
        (w.blocked c i = true → goes (.next t)) ∧
        (w.blocked c i = false → ∀ j ∈ k :: x.dynSubs t i, (∀ y ∈ k :: x.dynSubs t i, j ≤ y) → goes (.next (illegal t x j)))) ∧
    (w.clause = none → goes (if w.frontier = [] then .next t else exec .clauseEntry t)))

end Sys2Proof.Claims

/-- A step takes the next move of the schedule (log 1). A warp's turn executes the instruction its clause holds, or enters the
clause at the head of its frontier; an event's turn executes the event, and the background's does what it names; a part that has
stopped does nothing but reset (R448). What a step brings with it (`sealOutcome`: reads of code, spilled entries, progress lent
to blocks that wait for it, progress words of the masters it froze; R110, R144, R146, R404) is nothing where nothing of that kind
has happened, and of the timers it resets those of blocks in WAITDEP whose producers made progress and of blocks at STEP whose
grid did (R110). What the model chose here: log 1, 7, 76. -/
def Obligations.StepRunsDecoded : Prop :=
  ∀ (s : State) (n : Nat) (rest : List Move),
  let u := arrives s n rest
  (∀ (r : WRef) (b : Master) (w : Warp), s.schedule = ⟨n, .warp r⟩ :: rest → u.halted = false → u.master r.m = some b →
    b.warps[r.w]? = some w → WarpTurn s u r b w) ∧
  (∀ i : Instr, s.schedule = ⟨n, .event i⟩ :: rest → i.isEvent = true → (u.halted = false ∨ i = .packageReset) →
    step s = u.sealOutcome (exec i { u with cur := none })) ∧
  (∀ x, s.schedule = ⟨n, .background x⟩ :: rest → u.halted = false → step s = u.sealOutcome (runBackground x u)) ∧
  (∀ turn, s.schedule = ⟨n, turn⟩ :: rest → u.halted = true → turn ≠ .event .packageReset → step s = .next u) ∧
  (∀ t : State, NothingToSettle u t → u.sealOutcome (.next t) = .next t) ∧
  ∀ (t : State) (m : Nat) (b b' : Master) (g : Grid), u.master m = some b → t.master m = some b' → u.gridOf b = some g →
    let waited := (b.allWaitDep = true ∧ ∃ k ∈ g.producers, ∃ q ∈ t.grids, q.2.complKey = k ∧ q.2.progressed = true) ∨
      (b.atStep = true ∧ ∃ x, t.gridOf b = some x ∧ x.progressed = true)
    (b.phase.timed = true ∧ waited → (u.lend t).master m = some { b' with timer := t.cycles }) ∧
    (¬(b.phase.timed = true ∧ waited) → (u.lend t).master m = some b')

namespace Sys2Proof.Claims

open Sys2Proof.Machine

/-- Every word of a clause of `words` words at `a` can be fetched without changing the state. -/
def FetchesAll (s : State) (b : Master) (a : Dword) (words : List Word) : Prop :=
  ∀ i (h : i < words.length), s.fetchWord b (a + BitVec.ofNat 64 (4 * (i + 1))) = (s, .word words[i])

end Sys2Proof.Claims

/-- R113, R117 and R143: entering the clause at the head of the frontier, in whose order every priority has been read, once its
header's waits hold: it waits for a slot with commands outstanding, takes a trap that waits on a slot, and freezes at a command
that faulted (R306); a header with no words, a reserved class, a clause that breaks a rule of R135, or a word that is no header
traps. What the model chose here:
log 7. -/
def Obligations.ClauseEntered : Prop :=
  ∀ (s : State) (r : WRef) (b : Master) (w : Warp) (e : FEntry) (rest : List FEntry), s.cur = some r → s.master r.m = some b →
    b.warps[r.w]? = some w → b.phase = .running → b.preempt = false → w.retired = false → w.clause = none →
    s.rerank b w.frontier = e :: rest → w.entryCount ≤ 16 →
    ((∀ f ∈ w.frontier, f.prio ≠ 256) → w.frontier = e :: rest) ∧
    let trap (sub : Nat) : Prop := exec .clauseEntry s = .next ((s.modWarp r fun w => { w with frontier := rest }).takeTrap r
      ⟨e.addr, [], 0, e.lanes, e.base, e.prio, []⟩ 1 e.lanes e.addr (BitVec.ofNat 32 sub))
    ∀ x, s.fetchWord b e.addr = (s, .word x) →
      (headerOf x = none → e.vec = false → trap 7) ∧
      ∀ h, headerOf x = some h → (h.n = 0 → trap 1) ∧ (h.n ≠ 0 → 6 ≤ h.cls.toNat → trap 2) ∧
        (h.n ≠ 0 → h.cls.toNat < 6 → ∀ words, words.length = h.n.toNat → FetchesAll s b e.addr words →
          (∀ k sub, clauseCheck h words = some (k, sub) → trap (sub + 256 * k)) ∧ (clauseCheck h words = none →
          let waits := b.slotWait r.w (maskSlots h.tokens.toNat)
          let susp : Clause := ⟨e.addr, [], 0, e.lanes, e.base, e.prio, []⟩
          (waits = .wait → exec .clauseEntry s = .next s) ∧
          (∀ k c i, waits = .fault k c i → exec .clauseEntry s = .next (s.deliver r susp e.addr e.lanes (.fault k c i))) ∧
          (∀ k v i, waits = .trap k v i →
            let left := (s.modWarp r fun w => { w with frontier := rest }).modWarp r fun w =>
              { w with deliveries := w.deliveries.eraseP fun p => p.1 == k }
            exec .clauseEntry s = .next (left.takeTrap r susp v e.lanes e.addr i)) ∧
          (waits = .clear → if w.headerReady h then ∃ t, exec .clauseEntry s = .next t ∧ SameElsewhere s t r ∧
              t.warp r = some { w with frontier := rest, fetchMiss := none,
                                       clause := some ⟨e.addr, words, 1, e.lanes, e.base, h.prio.toNat, []⟩ }
            else exec .clauseEntry s = .next s)))

/-- R263: the end of a refresh window lets what it held back perform; with nothing outstanding it changes nothing. -/
def Sys2Proof.Claims.RefreshWindowPart : Prop :=
  ∀ (s : State) (g : Nat), exec (.wsRefreshWindow g) s = .next (s.masters.foldl (fun t p => t.drainMaster p.1) s) ∧
    ((∀ p ∈ s.masters, ∀ w ∈ p.2.warps, w.outs = []) → exec (.wsRefreshWindow g) s = .next s)

/-- R64 to R76, R263, R265: commands and what waits for them. What the model chose here: log 9, 12. -/
def Obligations.QueueCommands : Prop :=
  Sys2Proof.Claims.QueueCommandsPart ∧ Sys2Proof.Claims.QueuesGoOnPart ∧ Sys2Proof.Claims.RefreshWindowPart

/-- R437 and the values of reset: the part awaits firmware with nothing running; what the spec leaves open is the model's (log 3,
log 4). -/
def Obligations.ResetState : Prop :=
  let s := State.reset
  s.bring.state = 1 ∧ s.bring.error = 0 ∧ s.ready = 0 ∧ s.blob = none ∧ s.masters = [] ∧ s.grids = [] ∧ s.mem = [] ∧ s.memOk ∧
    s.halted = false ∧ s.cycles = 0 ∧ s.dies.length = 8 ∧ (∀ d, (s.die d).tlb = [] ∧ (s.die d).copies = [] ∧ (s.die d).miss = []) ∧
    (∀ q, (s.queue q).kind = 0) ∧ ∀ a, s.mem.read a = 0

/-- Every step keeps the machine's memory in its canonical form. -/
def Obligations.StepKeepsMemory : Prop :=
  ∀ s t : State, s.mem.wf = true → step s = .next t → t.mem.wf = true

/-- Canonical memories that read alike at every address are equal. -/
def Obligations.MemoryCanonical : Prop :=
  ∀ m n : Memory, m.wf = true → n.wf = true → (∀ a, m.read a = n.read a) → m = n

/-- Decoding the words of a well-formed instruction gives the instruction, whatever follows it (R119 to R136). -/
def Obligations.DecodeEncode : Prop :=
  ∀ (i : Instr) (next : Word), i.WellFormed = true →
    decode ((encode i).getD 0 0) ((encode i).getD 1 next) = .instr i ∧
    (encode i).length = if hasLiteral ((encode i).getD 0 0) then 2 else 1

/-- Words written out from the encodings of 05 to 16 decode to the instructions they stand for, and reserved ones are illegal with
their subcode (R135). -/
def Obligations.DecodeWords : Prop :=
  let pt : Pred := ⟨false, 7⟩
  decode 0x01CA5100#32 0 = .instr (.iadd pt 5 5 (.thread 2) .n32) ∧
  decode 0x81C61208#32 0x11000100 = .instr (.ld ⟨pt, 3, 1, 2, 0, .b4, .normal⟩ ⟨.g, some 4, false, .plain, .w, 0x100⟩) ∧
  decode 0x91CA1008#32 0x111B0000 = .instr (.atom ⟨pt, 5, 1, 0, 0, .b4, .normal⟩ ⟨.g, some 4, .acqrel, .p, .add32, 0⟩) ∧
  decode 0x6DC41F80#32 0x10000000 = .instr (.cvt pt 2 1 ⟨.bf16, .f32, .rn, false, false⟩) ∧
  decode 0x7DD01100#32 0 = .instr (.bmand pt 8 1 2) ∧
  decode 0xA1D20F3F#32 0 = .instr (.cpyTx ⟨pt, 2, 16, 15⟩) ∧
  decode 0xA9D88F0D#32 0 = .instr (.mma ⟨pt, 3, 4, 15⟩ 13) ∧
  decode 0xB9C90F3F#32 0 = .instr (.kvext ⟨pt, 1, 8, 15⟩) ∧
  decode 0xBDC90F1F#32 0 = .instr (.coll ⟨pt, 1, 8, 15⟩) ∧
  decode 0xC1D26102#32 0 = .instr (.arrive pt (.slot 6 0x10) 9) ∧
  decode 0xD1FFF030#32 0 = .instr (.fence pt .p) ∧
  decode 0xE9CDFFFD#32 0 = .instr (.brc 6 (-3)) ∧
  decode 0xEDC00185#32 0 = .instr (.trap pt 3) ∧
  decode 0xF1C88007#32 0 = .instr (.freeze 4 8) ∧
  headerOf 0xFA00001E#32 = some ⟨0x80, 0, false, false, 1, 14⟩ ∧
  (∀ x y, (∃ k ∈ [0x0C, 0x0D, 0x0E, 0x0F, 0x37], x = BitVec.ofNat 32 (k * 2 ^ 26)) → decode x y = .illegal 1 none) ∧
  decode 0xE5C00028#32 0 = .illegal 2 (some (.call 0 40)) ∧
  decode 0xF9E00004#32 0 = .illegal 4 none ∧ decode 0xFC000000#32 0 = .illegal 5 none
end

