-- ==== Sys2Proof/Laws/State.lean ====
section
/-! SUPPORT. Field by field what each update of the state, of a master and of a warp leaves, and what keyed lists, register
files and registers read after a write. -/

namespace Sys2Proof.Machine

/-! ## Keyed lists -/

@[simp] theorem aget_aset_same {α : Type} (l : List (Nat × α)) (k : Nat) (v : α) : aget (aset l k v) k = some v := by
  induction l with
  | nil => simp [aset, aget]
  | cons p r ih =>
    obtain ⟨j, u⟩ := p
    simp only [aset]
    split
    · rename_i h
      simp only [aget, beq_iff_eq]
      rw [if_neg (by omega), ih]
    · split <;> simp [aget]

theorem aget_aset_ne {α : Type} (l : List (Nat × α)) (k j : Nat) (v : α) (h : j ≠ k) : aget (aset l k v) j = aget l j := by
  induction l with
  | nil => simp [aset, aget]; omega
  | cons p r ih =>
    obtain ⟨i, u⟩ := p
    simp only [aset]
    split
    · simp only [aget, ih]
    · split
      · rename_i _ h2
        simp only [beq_iff_eq] at h2
        simp only [aget, beq_iff_eq]
        rw [if_neg (by omega), if_neg (by omega)]
      · simp only [aget, beq_iff_eq]
        rw [if_neg (by omega)]

theorem aget_aset {α : Type} (l : List (Nat × α)) (k j : Nat) (v : α) :
    aget (aset l k v) j = if j = k then some v else aget l j := by
  split
  · subst_vars; simp
  · exact aget_aset_ne l k j v ‹_›

theorem aget_adel_ne {α : Type} (l : List (Nat × α)) (k j : Nat) (h : j ≠ k) : aget (adel l k) j = aget l j := by
  induction l with
  | nil => rfl
  | cons p r ih =>
    obtain ⟨i, u⟩ := p
    by_cases hi : i = k
    · subst hi
      simp only [adel, List.filter_cons, bne_self_eq_false, Bool.false_eq_true, if_false, aget, beq_iff_eq]
      rw [if_neg (by omega)]
      exact ih
    · simp only [adel, List.filter_cons, bne_iff_ne, ne_eq, hi, not_false_eq_true, if_true, aget]
      rw [← ih]; rfl

@[simp] theorem aget_adel_same {α : Type} (l : List (Nat × α)) (k : Nat) : aget (adel l k) k = none := by
  induction l with
  | nil => rfl
  | cons p r ih =>
    obtain ⟨i, u⟩ := p
    by_cases hi : i = k
    · subst hi
      simpa only [adel, List.filter_cons, bne_self_eq_false, Bool.false_eq_true, if_false] using ih
    · simp only [adel, List.filter_cons, bne_iff_ne, ne_eq, hi, not_false_eq_true, if_true, aget, beq_iff_eq, if_false]
      exact ih

/-! ## Lists and register files by index -/

theorem modAt_getElem? {α : Type} (l : List α) (i j : Nat) (f : α → α) :
    (modAt l i f)[j]? = if j = i then l[j]?.map f else l[j]? := by
  induction l generalizing i j with
  | nil => cases i <;> simp [modAt]
  | cons a r ih =>
    cases i with
    | zero => cases j <;> simp [modAt]
    | succ i => cases j with
      | zero => simp [modAt]
      | succ j => simp [modAt, ih]

@[simp] theorem modAt_length {α : Type} (l : List α) (i : Nat) (f : α → α) : (modAt l i f).length = l.length := by
  induction l generalizing i with
  | nil => cases i <;> rfl
  | cons a r ih => cases i <;> simp [modAt, ih]

theorem modAt_modAt {α : Type} (l : List α) (i : Nat) (f g : α → α) : modAt (modAt l i f) i g = modAt l i (g ∘ f) := by
  induction l generalizing i with
  | nil => cases i <;> rfl
  | cons a r ih => cases i <;> simp [modAt, ih]

@[simp] theorem fileAt_length {α : Type} [Inhabited α] (n : Nat) (l : List α) (i : Nat) (f : α → α) :
    (fileAt n l i f).length = n := by simp [fileAt]

theorem fileAt_getD {α : Type} [Inhabited α] (n : Nat) (l : List α) (i j : Nat) (f : α → α) (h : j < n) :
    (fileAt n l i f).getD j default = if j = i then f (l.getD j default) else l.getD j default := by
  simp [fileAt, List.getD, h]

/-! ## Masters and warps -/

@[simp] theorem State.setMaster_master (s : State) (m : Nat) (b : Master) : (s.setMaster m b).master m = some b :=
  aget_aset_same ..

theorem State.setMaster_master_ne (s : State) (m n : Nat) (b : Master) (h : n ≠ m) :
    (s.setMaster m b).master n = s.master n := aget_aset_ne _ _ _ _ h

theorem State.modMaster_master (s : State) (m : Nat) (f : Master → Master) :
    (s.modMaster m f).master m = (s.master m).map f := by
  unfold State.modMaster; split <;> simp_all

theorem State.modMaster_master_ne (s : State) (m n : Nat) (f : Master → Master) (h : n ≠ m) :
    (s.modMaster m f).master n = s.master n := by
  unfold State.modMaster; split
  · exact State.setMaster_master_ne _ _ _ _ h
  · rfl

theorem State.modWarp_master (s : State) (r : WRef) (f : Warp → Warp) :
    (s.modWarp r f).master r.m = (s.master r.m).map fun b => b.modWarp r.w f := State.modMaster_master ..

theorem State.modWarp_master_ne (s : State) (r : WRef) (n : Nat) (f : Warp → Warp) (h : n ≠ r.m) :
    (s.modWarp r f).master n = s.master n := State.modMaster_master_ne _ _ _ _ h

theorem Master.modWarp_warp (b : Master) (i j : Nat) (f : Warp → Warp) :
    (b.modWarp i f).warps[j]? = if j = i then b.warps[j]?.map f else b.warps[j]? := modAt_getElem? ..

theorem State.modWarp_warp (s : State) (r : WRef) (f : Warp → Warp) : (s.modWarp r f).warp r = (s.warp r).map f := by
  simp only [State.warp, State.modWarp_master]
  cases s.master r.m <;> simp [Master.modWarp_warp]

/-- What a context says of the state it was read from. -/
theorem State.ctx_spec {s : State} {c : Ctx} (h : s.ctx = some c) :
    s.cur = some c.ref ∧ s.master c.ref.m = some c.b ∧ c.b.warps[c.ref.w]? = some c.w ∧ c.w.clause = some c.c := by
  unfold State.ctx at h
  split at h
  · cases h
  · rename_i r hr
    split at h
    · cases h
    · rename_i b hb
      split at h
      · cases h
      · rename_i w hw
        split at h
        · cases h
        · rename_i k hk
          cases h
          exact ⟨hr, hb, hw, hk⟩

theorem State.ctx_warp {s : State} {c : Ctx} (h : s.ctx = some c) : s.warp c.ref = some c.w := by
  obtain ⟨-, hb, hw, -⟩ := State.ctx_spec h
  simp [State.warp, hb, hw]

/-- A meaning runs on the current warp. -/
theorem withCtx_some {s : State} {c : Ctx} (h : s.ctx = some c) (f : Ctx → State) : withCtx s f = .next (f c) := by
  simp [withCtx, h]

/-! ## Registers (R119, R152, R153) -/

@[simp] theorem Warp.v_zero (w : Warp) (base l : Nat) : w.v base 31 l = 0 := rfl
@[simp] theorem Warp.s_zero (w : Warp) : w.s 63 = 0 := rfl
@[simp] theorem Warp.p_true (w : Warp) : w.p 7 = Mask.all := rfl

theorem getD_map_range {α : Type} (n l : Nat) (f : Nat → α) (d : α) (h : l < n) : ((List.range n).map f).getD l d = f l := by
  simp [List.getD, h]

theorem Warp.setV_v (w : Warp) (base r : Nat) (m : Mask) (f : Nat → Word) (l : Nat) (hr : r ≠ 31) (hl : l < 128) :
    (w.setV base r m f).v base r l = if m.has l then f l else w.v base r l := by
  have h := getD_map_range 128 l (fun l => if m.has l then f l else ((aget w.regs (vKey base r)).getD []).getD l 0) 0 hl
  simpa only [Warp.setV, Warp.v, beq_iff_eq, hr, if_false, aget_aset_same, Option.getD_some] using h

theorem Warp.setV_v_ne (w : Warp) (base r b2 r2 : Nat) (m : Mask) (f : Nat → Word) (l : Nat) (h : vKey b2 r2 ≠ vKey base r) :
    (w.setV base r m f).v b2 r2 l = w.v b2 r2 l := by
  unfold Warp.setV
  split
  · rfl
  · unfold Warp.v; split
    · rfl
    · simp only [aget_aset_ne _ _ _ _ h]

theorem Warp.setV_zero (w : Warp) (base : Nat) (m : Mask) (f : Nat → Word) : w.setV base 31 m f = w := rfl
theorem Warp.setV2_zero (w : Warp) (base : Nat) (m : Mask) (f : Nat → Dword) : w.setV2 base 31 m f = w := rfl
theorem Warp.setS_zero (w : Warp) (x : Word) : w.setS 63 x = w := rfl
theorem Warp.setS2_zero (w : Warp) (x : Dword) : w.setS2 63 x = w := rfl
theorem Warp.setP_true (w : Warp) (m x : Mask) : w.setP 7 m x = w := rfl

theorem Warp.setS_s (w : Warp) (r j : Nat) (x : Word) (hr : r < 63) (hj : j ≤ 63) :
    (w.setS r x).s j = if j = r then x else w.s j := by
  have e : w.setS r x = { w with unif := fileAt 63 w.unif r fun _ => x } := by
    unfold Warp.setS; exact if_neg (by simp; omega)
  rw [e]
  unfold Warp.s
  by_cases h : j = 63
  · rw [if_pos (by simp [h]), if_neg (by omega), if_pos (by simp [h])]
  · have h' : (j == 63) = false := by simp [h]
    simp only [h', Bool.false_eq_true, if_false]
    exact fileAt_getD 63 w.unif r j (fun _ => x) (by omega)

theorem Warp.setP_p (w : Warp) (n j : Nat) (m x : Mask) (hn : n < 7) (hj : j ≤ 7) :
    (w.setP n m x).p j = if j = n then (w.p j &&& ~~~m) ||| (x &&& m) else w.p j := by
  have e : w.setP n m x = { w with preds := fileAt 7 w.preds n fun old => (old &&& ~~~m) ||| (x &&& m) } := by
    unfold Warp.setP; exact if_neg (by simp; omega)
  rw [e]
  unfold Warp.p
  by_cases h : j = 7
  · rw [if_pos (by simp [h]), if_neg (by omega), if_pos (by simp [h])]
  · have h' : (j == 7) = false := by simp [h]
    simp only [h', Bool.false_eq_true, if_false]
    exact fileAt_getD 7 w.preds n j _ (by omega)


/-! ## State.setMaster -/

@[simp] theorem State.setMaster_cycles (s : State) (m : Nat) (b : Master) :
    (s.setMaster m b).cycles = s.cycles := rfl
@[simp] theorem State.setMaster_clockOff (s : State) (m : Nat) (b : Master) :
    (s.setMaster m b).clockOff = s.clockOff := rfl
@[simp] theorem State.setMaster_freeTick (s : State) (m : Nat) (b : Master) :
    (s.setMaster m b).freeTick = s.freeTick := rfl
@[simp] theorem State.setMaster_schedule (s : State) (m : Nat) (b : Master) :
    (s.setMaster m b).schedule = s.schedule := rfl
@[simp] theorem State.setMaster_cur (s : State) (m : Nat) (b : Master) :
    (s.setMaster m b).cur = s.cur := rfl
@[simp] theorem State.setMaster_mem (s : State) (m : Nat) (b : Master) :
    (s.setMaster m b).mem = s.mem := rfl
@[simp] theorem State.setMaster_poison (s : State) (m : Nat) (b : Master) :
    (s.setMaster m b).poison = s.poison := rfl
@[simp] theorem State.setMaster_tags (s : State) (m : Nat) (b : Master) :
    (s.setMaster m b).tags = s.tags := rfl
@[simp] theorem State.setMaster_blob (s : State) (m : Nat) (b : Master) :
    (s.setMaster m b).blob = s.blob := rfl
@[simp] theorem State.setMaster_ready (s : State) (m : Nat) (b : Master) :
    (s.setMaster m b).ready = s.ready := rfl
@[simp] theorem State.setMaster_links (s : State) (m : Nat) (b : Master) :
    (s.setMaster m b).links = s.links := rfl
@[simp] theorem State.setMaster_cxlUp (s : State) (m : Nat) (b : Master) :
    (s.setMaster m b).cxlUp = s.cxlUp := rfl
@[simp] theorem State.setMaster_fqWrite (s : State) (m : Nat) (b : Master) :
    (s.setMaster m b).fqWrite = s.fqWrite := rfl
@[simp] theorem State.setMaster_fqRead (s : State) (m : Nat) (b : Master) :
    (s.setMaster m b).fqRead = s.fqRead := rfl
@[simp] theorem State.setMaster_fqWindow (s : State) (m : Nat) (b : Master) :
    (s.setMaster m b).fqWindow = s.fqWindow := rfl
@[simp] theorem State.setMaster_interrupts (s : State) (m : Nat) (b : Master) :
    (s.setMaster m b).interrupts = s.interrupts := rfl
@[simp] theorem State.setMaster_dies (s : State) (m : Nat) (b : Master) :
    (s.setMaster m b).dies = s.dies := rfl
@[simp] theorem State.setMaster_grids (s : State) (m : Nat) (b : Master) :
    (s.setMaster m b).grids = s.grids := rfl
@[simp] theorem State.setMaster_queues (s : State) (m : Nat) (b : Master) :
    (s.setMaster m b).queues = s.queues := rfl
@[simp] theorem State.setMaster_counters (s : State) (m : Nat) (b : Master) :
    (s.setMaster m b).counters = s.counters := rfl
@[simp] theorem State.setMaster_trigs (s : State) (m : Nat) (b : Master) :
    (s.setMaster m b).trigs = s.trigs := rfl
@[simp] theorem State.setMaster_tickets (s : State) (m : Nat) (b : Master) :
    (s.setMaster m b).tickets = s.tickets := rfl
@[simp] theorem State.setMaster_pendingCmds (s : State) (m : Nat) (b : Master) :
    (s.setMaster m b).pendingCmds = s.pendingCmds := rfl
@[simp] theorem State.setMaster_signals (s : State) (m : Nat) (b : Master) :
    (s.setMaster m b).signals = s.signals := rfl
@[simp] theorem State.setMaster_cancels (s : State) (m : Nat) (b : Master) :
    (s.setMaster m b).cancels = s.cancels := rfl
@[simp] theorem State.setMaster_finals (s : State) (m : Nat) (b : Master) :
    (s.setMaster m b).finals = s.finals := rfl
@[simp] theorem State.setMaster_stale (s : State) (m : Nat) (b : Master) :
    (s.setMaster m b).stale = s.stale := rfl
@[simp] theorem State.setMaster_wsloads (s : State) (m : Nat) (b : Master) :
    (s.setMaster m b).wsloads = s.wsloads := rfl
@[simp] theorem State.setMaster_colls (s : State) (m : Nat) (b : Master) :
    (s.setMaster m b).colls = s.colls := rfl
@[simp] theorem State.setMaster_aperture (s : State) (m : Nat) (b : Master) :
    (s.setMaster m b).aperture = s.aperture := rfl
@[simp] theorem State.setMaster_maint (s : State) (m : Nat) (b : Master) :
    (s.setMaster m b).maint = s.maint := rfl
@[simp] theorem State.setMaster_mctl (s : State) (m : Nat) (b : Master) :
    (s.setMaster m b).mctl = s.mctl := rfl
@[simp] theorem State.setMaster_bring (s : State) (m : Nat) (b : Master) :
    (s.setMaster m b).bring = s.bring := rfl
@[simp] theorem State.setMaster_throttled (s : State) (m : Nat) (b : Master) :
    (s.setMaster m b).throttled = s.throttled := rfl
@[simp] theorem State.setMaster_halted (s : State) (m : Nat) (b : Master) :
    (s.setMaster m b).halted = s.halted := rfl
@[simp] theorem State.setMaster_reply (s : State) (m : Nat) (b : Master) :
    (s.setMaster m b).reply = s.reply := rfl

/-! ## State.modMaster -/

@[simp] theorem State.modMaster_cycles (s : State) (m : Nat) (f : Master → Master) :
    (s.modMaster m f).cycles = s.cycles := by
  unfold State.modMaster; split <;> rfl
@[simp] theorem State.modMaster_clockOff (s : State) (m : Nat) (f : Master → Master) :
    (s.modMaster m f).clockOff = s.clockOff := by
  unfold State.modMaster; split <;> rfl
@[simp] theorem State.modMaster_freeTick (s : State) (m : Nat) (f : Master → Master) :
    (s.modMaster m f).freeTick = s.freeTick := by
  unfold State.modMaster; split <;> rfl
@[simp] theorem State.modMaster_schedule (s : State) (m : Nat) (f : Master → Master) :
    (s.modMaster m f).schedule = s.schedule := by
  unfold State.modMaster; split <;> rfl
@[simp] theorem State.modMaster_cur (s : State) (m : Nat) (f : Master → Master) :
    (s.modMaster m f).cur = s.cur := by
  unfold State.modMaster; split <;> rfl
@[simp] theorem State.modMaster_mem (s : State) (m : Nat) (f : Master → Master) :
    (s.modMaster m f).mem = s.mem := by
  unfold State.modMaster; split <;> rfl
@[simp] theorem State.modMaster_poison (s : State) (m : Nat) (f : Master → Master) :
    (s.modMaster m f).poison = s.poison := by
  unfold State.modMaster; split <;> rfl
@[simp] theorem State.modMaster_tags (s : State) (m : Nat) (f : Master → Master) :
    (s.modMaster m f).tags = s.tags := by
  unfold State.modMaster; split <;> rfl
@[simp] theorem State.modMaster_blob (s : State) (m : Nat) (f : Master → Master) :
    (s.modMaster m f).blob = s.blob := by
  unfold State.modMaster; split <;> rfl
@[simp] theorem State.modMaster_ready (s : State) (m : Nat) (f : Master → Master) :
    (s.modMaster m f).ready = s.ready := by
  unfold State.modMaster; split <;> rfl
@[simp] theorem State.modMaster_links (s : State) (m : Nat) (f : Master → Master) :
    (s.modMaster m f).links = s.links := by
  unfold State.modMaster; split <;> rfl
@[simp] theorem State.modMaster_cxlUp (s : State) (m : Nat) (f : Master → Master) :
    (s.modMaster m f).cxlUp = s.cxlUp := by
  unfold State.modMaster; split <;> rfl
@[simp] theorem State.modMaster_fqWrite (s : State) (m : Nat) (f : Master → Master) :
    (s.modMaster m f).fqWrite = s.fqWrite := by
  unfold State.modMaster; split <;> rfl
@[simp] theorem State.modMaster_fqRead (s : State) (m : Nat) (f : Master → Master) :
    (s.modMaster m f).fqRead = s.fqRead := by
  unfold State.modMaster; split <;> rfl
@[simp] theorem State.modMaster_fqWindow (s : State) (m : Nat) (f : Master → Master) :
    (s.modMaster m f).fqWindow = s.fqWindow := by
  unfold State.modMaster; split <;> rfl
@[simp] theorem State.modMaster_interrupts (s : State) (m : Nat) (f : Master → Master) :
    (s.modMaster m f).interrupts = s.interrupts := by
  unfold State.modMaster; split <;> rfl
@[simp] theorem State.modMaster_dies (s : State) (m : Nat) (f : Master → Master) :
    (s.modMaster m f).dies = s.dies := by
  unfold State.modMaster; split <;> rfl
@[simp] theorem State.modMaster_grids (s : State) (m : Nat) (f : Master → Master) :
    (s.modMaster m f).grids = s.grids := by
  unfold State.modMaster; split <;> rfl
@[simp] theorem State.modMaster_queues (s : State) (m : Nat) (f : Master → Master) :
    (s.modMaster m f).queues = s.queues := by
  unfold State.modMaster; split <;> rfl
@[simp] theorem State.modMaster_counters (s : State) (m : Nat) (f : Master → Master) :
    (s.modMaster m f).counters = s.counters := by
  unfold State.modMaster; split <;> rfl
@[simp] theorem State.modMaster_trigs (s : State) (m : Nat) (f : Master → Master) :
    (s.modMaster m f).trigs = s.trigs := by
  unfold State.modMaster; split <;> rfl
@[simp] theorem State.modMaster_tickets (s : State) (m : Nat) (f : Master → Master) :
    (s.modMaster m f).tickets = s.tickets := by
  unfold State.modMaster; split <;> rfl
@[simp] theorem State.modMaster_pendingCmds (s : State) (m : Nat) (f : Master → Master) :
    (s.modMaster m f).pendingCmds = s.pendingCmds := by
  unfold State.modMaster; split <;> rfl
@[simp] theorem State.modMaster_signals (s : State) (m : Nat) (f : Master → Master) :
    (s.modMaster m f).signals = s.signals := by
  unfold State.modMaster; split <;> rfl
@[simp] theorem State.modMaster_cancels (s : State) (m : Nat) (f : Master → Master) :
    (s.modMaster m f).cancels = s.cancels := by
  unfold State.modMaster; split <;> rfl
@[simp] theorem State.modMaster_finals (s : State) (m : Nat) (f : Master → Master) :
    (s.modMaster m f).finals = s.finals := by
  unfold State.modMaster; split <;> rfl
@[simp] theorem State.modMaster_stale (s : State) (m : Nat) (f : Master → Master) :
    (s.modMaster m f).stale = s.stale := by
  unfold State.modMaster; split <;> rfl
@[simp] theorem State.modMaster_wsloads (s : State) (m : Nat) (f : Master → Master) :
    (s.modMaster m f).wsloads = s.wsloads := by
  unfold State.modMaster; split <;> rfl
@[simp] theorem State.modMaster_colls (s : State) (m : Nat) (f : Master → Master) :
    (s.modMaster m f).colls = s.colls := by
  unfold State.modMaster; split <;> rfl
@[simp] theorem State.modMaster_aperture (s : State) (m : Nat) (f : Master → Master) :
    (s.modMaster m f).aperture = s.aperture := by
  unfold State.modMaster; split <;> rfl
@[simp] theorem State.modMaster_maint (s : State) (m : Nat) (f : Master → Master) :
    (s.modMaster m f).maint = s.maint := by
  unfold State.modMaster; split <;> rfl
@[simp] theorem State.modMaster_mctl (s : State) (m : Nat) (f : Master → Master) :
    (s.modMaster m f).mctl = s.mctl := by
  unfold State.modMaster; split <;> rfl
@[simp] theorem State.modMaster_bring (s : State) (m : Nat) (f : Master → Master) :
    (s.modMaster m f).bring = s.bring := by
  unfold State.modMaster; split <;> rfl
@[simp] theorem State.modMaster_throttled (s : State) (m : Nat) (f : Master → Master) :
    (s.modMaster m f).throttled = s.throttled := by
  unfold State.modMaster; split <;> rfl
@[simp] theorem State.modMaster_halted (s : State) (m : Nat) (f : Master → Master) :
    (s.modMaster m f).halted = s.halted := by
  unfold State.modMaster; split <;> rfl
@[simp] theorem State.modMaster_reply (s : State) (m : Nat) (f : Master → Master) :
    (s.modMaster m f).reply = s.reply := by
  unfold State.modMaster; split <;> rfl

/-! ## State.modWarp -/

@[simp] theorem State.modWarp_cycles (s : State) (r : WRef) (f : Warp → Warp) :
    (s.modWarp r f).cycles = s.cycles := State.modMaster_cycles ..
@[simp] theorem State.modWarp_clockOff (s : State) (r : WRef) (f : Warp → Warp) :
    (s.modWarp r f).clockOff = s.clockOff := State.modMaster_clockOff ..
@[simp] theorem State.modWarp_freeTick (s : State) (r : WRef) (f : Warp → Warp) :
    (s.modWarp r f).freeTick = s.freeTick := State.modMaster_freeTick ..
@[simp] theorem State.modWarp_schedule (s : State) (r : WRef) (f : Warp → Warp) :
    (s.modWarp r f).schedule = s.schedule := State.modMaster_schedule ..
@[simp] theorem State.modWarp_cur (s : State) (r : WRef) (f : Warp → Warp) :
    (s.modWarp r f).cur = s.cur := State.modMaster_cur ..
@[simp] theorem State.modWarp_mem (s : State) (r : WRef) (f : Warp → Warp) :
    (s.modWarp r f).mem = s.mem := State.modMaster_mem ..
@[simp] theorem State.modWarp_poison (s : State) (r : WRef) (f : Warp → Warp) :
    (s.modWarp r f).poison = s.poison := State.modMaster_poison ..
@[simp] theorem State.modWarp_tags (s : State) (r : WRef) (f : Warp → Warp) :
    (s.modWarp r f).tags = s.tags := State.modMaster_tags ..
@[simp] theorem State.modWarp_blob (s : State) (r : WRef) (f : Warp → Warp) :
    (s.modWarp r f).blob = s.blob := State.modMaster_blob ..
@[simp] theorem State.modWarp_ready (s : State) (r : WRef) (f : Warp → Warp) :
    (s.modWarp r f).ready = s.ready := State.modMaster_ready ..
@[simp] theorem State.modWarp_links (s : State) (r : WRef) (f : Warp → Warp) :
    (s.modWarp r f).links = s.links := State.modMaster_links ..
@[simp] theorem State.modWarp_cxlUp (s : State) (r : WRef) (f : Warp → Warp) :
    (s.modWarp r f).cxlUp = s.cxlUp := State.modMaster_cxlUp ..
@[simp] theorem State.modWarp_fqWrite (s : State) (r : WRef) (f : Warp → Warp) :
    (s.modWarp r f).fqWrite = s.fqWrite := State.modMaster_fqWrite ..
@[simp] theorem State.modWarp_fqRead (s : State) (r : WRef) (f : Warp → Warp) :
    (s.modWarp r f).fqRead = s.fqRead := State.modMaster_fqRead ..
@[simp] theorem State.modWarp_fqWindow (s : State) (r : WRef) (f : Warp → Warp) :
    (s.modWarp r f).fqWindow = s.fqWindow := State.modMaster_fqWindow ..
@[simp] theorem State.modWarp_interrupts (s : State) (r : WRef) (f : Warp → Warp) :
    (s.modWarp r f).interrupts = s.interrupts := State.modMaster_interrupts ..
@[simp] theorem State.modWarp_dies (s : State) (r : WRef) (f : Warp → Warp) :
    (s.modWarp r f).dies = s.dies := State.modMaster_dies ..
@[simp] theorem State.modWarp_grids (s : State) (r : WRef) (f : Warp → Warp) :
    (s.modWarp r f).grids = s.grids := State.modMaster_grids ..
@[simp] theorem State.modWarp_queues (s : State) (r : WRef) (f : Warp → Warp) :
    (s.modWarp r f).queues = s.queues := State.modMaster_queues ..
@[simp] theorem State.modWarp_counters (s : State) (r : WRef) (f : Warp → Warp) :
    (s.modWarp r f).counters = s.counters := State.modMaster_counters ..
@[simp] theorem State.modWarp_trigs (s : State) (r : WRef) (f : Warp → Warp) :
    (s.modWarp r f).trigs = s.trigs := State.modMaster_trigs ..
@[simp] theorem State.modWarp_tickets (s : State) (r : WRef) (f : Warp → Warp) :
    (s.modWarp r f).tickets = s.tickets := State.modMaster_tickets ..
@[simp] theorem State.modWarp_pendingCmds (s : State) (r : WRef) (f : Warp → Warp) :
    (s.modWarp r f).pendingCmds = s.pendingCmds := State.modMaster_pendingCmds ..
@[simp] theorem State.modWarp_signals (s : State) (r : WRef) (f : Warp → Warp) :
    (s.modWarp r f).signals = s.signals := State.modMaster_signals ..
@[simp] theorem State.modWarp_cancels (s : State) (r : WRef) (f : Warp → Warp) :
    (s.modWarp r f).cancels = s.cancels := State.modMaster_cancels ..
@[simp] theorem State.modWarp_finals (s : State) (r : WRef) (f : Warp → Warp) :
    (s.modWarp r f).finals = s.finals := State.modMaster_finals ..
@[simp] theorem State.modWarp_stale (s : State) (r : WRef) (f : Warp → Warp) :
    (s.modWarp r f).stale = s.stale := State.modMaster_stale ..
@[simp] theorem State.modWarp_wsloads (s : State) (r : WRef) (f : Warp → Warp) :
    (s.modWarp r f).wsloads = s.wsloads := State.modMaster_wsloads ..
@[simp] theorem State.modWarp_colls (s : State) (r : WRef) (f : Warp → Warp) :
    (s.modWarp r f).colls = s.colls := State.modMaster_colls ..
@[simp] theorem State.modWarp_aperture (s : State) (r : WRef) (f : Warp → Warp) :
    (s.modWarp r f).aperture = s.aperture := State.modMaster_aperture ..
@[simp] theorem State.modWarp_maint (s : State) (r : WRef) (f : Warp → Warp) :
    (s.modWarp r f).maint = s.maint := State.modMaster_maint ..
@[simp] theorem State.modWarp_mctl (s : State) (r : WRef) (f : Warp → Warp) :
    (s.modWarp r f).mctl = s.mctl := State.modMaster_mctl ..
@[simp] theorem State.modWarp_bring (s : State) (r : WRef) (f : Warp → Warp) :
    (s.modWarp r f).bring = s.bring := State.modMaster_bring ..
@[simp] theorem State.modWarp_throttled (s : State) (r : WRef) (f : Warp → Warp) :
    (s.modWarp r f).throttled = s.throttled := State.modMaster_throttled ..
@[simp] theorem State.modWarp_halted (s : State) (r : WRef) (f : Warp → Warp) :
    (s.modWarp r f).halted = s.halted := State.modMaster_halted ..
@[simp] theorem State.modWarp_reply (s : State) (r : WRef) (f : Warp → Warp) :
    (s.modWarp r f).reply = s.reply := State.modMaster_reply ..

/-! ## State.modDie -/

@[simp] theorem State.modDie_cycles (s : State) (d : Nat) (f : Die → Die) :
    (s.modDie d f).cycles = s.cycles := rfl
@[simp] theorem State.modDie_clockOff (s : State) (d : Nat) (f : Die → Die) :
    (s.modDie d f).clockOff = s.clockOff := rfl
@[simp] theorem State.modDie_freeTick (s : State) (d : Nat) (f : Die → Die) :
    (s.modDie d f).freeTick = s.freeTick := rfl
@[simp] theorem State.modDie_schedule (s : State) (d : Nat) (f : Die → Die) :
    (s.modDie d f).schedule = s.schedule := rfl
@[simp] theorem State.modDie_cur (s : State) (d : Nat) (f : Die → Die) :
    (s.modDie d f).cur = s.cur := rfl
@[simp] theorem State.modDie_mem (s : State) (d : Nat) (f : Die → Die) :
    (s.modDie d f).mem = s.mem := rfl
@[simp] theorem State.modDie_poison (s : State) (d : Nat) (f : Die → Die) :
    (s.modDie d f).poison = s.poison := rfl
@[simp] theorem State.modDie_tags (s : State) (d : Nat) (f : Die → Die) :
    (s.modDie d f).tags = s.tags := rfl
@[simp] theorem State.modDie_blob (s : State) (d : Nat) (f : Die → Die) :
    (s.modDie d f).blob = s.blob := rfl
@[simp] theorem State.modDie_ready (s : State) (d : Nat) (f : Die → Die) :
    (s.modDie d f).ready = s.ready := rfl
@[simp] theorem State.modDie_links (s : State) (d : Nat) (f : Die → Die) :
    (s.modDie d f).links = s.links := rfl
@[simp] theorem State.modDie_cxlUp (s : State) (d : Nat) (f : Die → Die) :
    (s.modDie d f).cxlUp = s.cxlUp := rfl
@[simp] theorem State.modDie_fqWrite (s : State) (d : Nat) (f : Die → Die) :
    (s.modDie d f).fqWrite = s.fqWrite := rfl
@[simp] theorem State.modDie_fqRead (s : State) (d : Nat) (f : Die → Die) :
    (s.modDie d f).fqRead = s.fqRead := rfl
@[simp] theorem State.modDie_fqWindow (s : State) (d : Nat) (f : Die → Die) :
    (s.modDie d f).fqWindow = s.fqWindow := rfl
@[simp] theorem State.modDie_interrupts (s : State) (d : Nat) (f : Die → Die) :
    (s.modDie d f).interrupts = s.interrupts := rfl
@[simp] theorem State.modDie_masters (s : State) (d : Nat) (f : Die → Die) :
    (s.modDie d f).masters = s.masters := rfl
@[simp] theorem State.modDie_grids (s : State) (d : Nat) (f : Die → Die) :
    (s.modDie d f).grids = s.grids := rfl
@[simp] theorem State.modDie_queues (s : State) (d : Nat) (f : Die → Die) :
    (s.modDie d f).queues = s.queues := rfl
@[simp] theorem State.modDie_counters (s : State) (d : Nat) (f : Die → Die) :
    (s.modDie d f).counters = s.counters := rfl
@[simp] theorem State.modDie_trigs (s : State) (d : Nat) (f : Die → Die) :
    (s.modDie d f).trigs = s.trigs := rfl
@[simp] theorem State.modDie_tickets (s : State) (d : Nat) (f : Die → Die) :
    (s.modDie d f).tickets = s.tickets := rfl
@[simp] theorem State.modDie_pendingCmds (s : State) (d : Nat) (f : Die → Die) :
    (s.modDie d f).pendingCmds = s.pendingCmds := rfl
@[simp] theorem State.modDie_signals (s : State) (d : Nat) (f : Die → Die) :
    (s.modDie d f).signals = s.signals := rfl
@[simp] theorem State.modDie_cancels (s : State) (d : Nat) (f : Die → Die) :
    (s.modDie d f).cancels = s.cancels := rfl
@[simp] theorem State.modDie_finals (s : State) (d : Nat) (f : Die → Die) :
    (s.modDie d f).finals = s.finals := rfl
@[simp] theorem State.modDie_stale (s : State) (d : Nat) (f : Die → Die) :
    (s.modDie d f).stale = s.stale := rfl
@[simp] theorem State.modDie_wsloads (s : State) (d : Nat) (f : Die → Die) :
    (s.modDie d f).wsloads = s.wsloads := rfl
@[simp] theorem State.modDie_colls (s : State) (d : Nat) (f : Die → Die) :
    (s.modDie d f).colls = s.colls := rfl
@[simp] theorem State.modDie_aperture (s : State) (d : Nat) (f : Die → Die) :
    (s.modDie d f).aperture = s.aperture := rfl
@[simp] theorem State.modDie_maint (s : State) (d : Nat) (f : Die → Die) :
    (s.modDie d f).maint = s.maint := rfl
@[simp] theorem State.modDie_mctl (s : State) (d : Nat) (f : Die → Die) :
    (s.modDie d f).mctl = s.mctl := rfl
@[simp] theorem State.modDie_bring (s : State) (d : Nat) (f : Die → Die) :
    (s.modDie d f).bring = s.bring := rfl
@[simp] theorem State.modDie_throttled (s : State) (d : Nat) (f : Die → Die) :
    (s.modDie d f).throttled = s.throttled := rfl
@[simp] theorem State.modDie_halted (s : State) (d : Nat) (f : Die → Die) :
    (s.modDie d f).halted = s.halted := rfl
@[simp] theorem State.modDie_reply (s : State) (d : Nat) (f : Die → Die) :
    (s.modDie d f).reply = s.reply := rfl

/-! ## State.modGrid -/

@[simp] theorem State.modGrid_cycles (s : State) (u : Nat) (f : Grid → Grid) :
    (s.modGrid u f).cycles = s.cycles := by
  unfold State.modGrid; split <;> rfl
@[simp] theorem State.modGrid_clockOff (s : State) (u : Nat) (f : Grid → Grid) :
    (s.modGrid u f).clockOff = s.clockOff := by
  unfold State.modGrid; split <;> rfl
@[simp] theorem State.modGrid_freeTick (s : State) (u : Nat) (f : Grid → Grid) :
    (s.modGrid u f).freeTick = s.freeTick := by
  unfold State.modGrid; split <;> rfl
@[simp] theorem State.modGrid_schedule (s : State) (u : Nat) (f : Grid → Grid) :
    (s.modGrid u f).schedule = s.schedule := by
  unfold State.modGrid; split <;> rfl
@[simp] theorem State.modGrid_cur (s : State) (u : Nat) (f : Grid → Grid) :
    (s.modGrid u f).cur = s.cur := by
  unfold State.modGrid; split <;> rfl
@[simp] theorem State.modGrid_mem (s : State) (u : Nat) (f : Grid → Grid) :
    (s.modGrid u f).mem = s.mem := by
  unfold State.modGrid; split <;> rfl
@[simp] theorem State.modGrid_poison (s : State) (u : Nat) (f : Grid → Grid) :
    (s.modGrid u f).poison = s.poison := by
  unfold State.modGrid; split <;> rfl
@[simp] theorem State.modGrid_tags (s : State) (u : Nat) (f : Grid → Grid) :
    (s.modGrid u f).tags = s.tags := by
  unfold State.modGrid; split <;> rfl
@[simp] theorem State.modGrid_blob (s : State) (u : Nat) (f : Grid → Grid) :
    (s.modGrid u f).blob = s.blob := by
  unfold State.modGrid; split <;> rfl
@[simp] theorem State.modGrid_ready (s : State) (u : Nat) (f : Grid → Grid) :
    (s.modGrid u f).ready = s.ready := by
  unfold State.modGrid; split <;> rfl
@[simp] theorem State.modGrid_links (s : State) (u : Nat) (f : Grid → Grid) :
    (s.modGrid u f).links = s.links := by
  unfold State.modGrid; split <;> rfl
@[simp] theorem State.modGrid_cxlUp (s : State) (u : Nat) (f : Grid → Grid) :
    (s.modGrid u f).cxlUp = s.cxlUp := by
  unfold State.modGrid; split <;> rfl
@[simp] theorem State.modGrid_fqWrite (s : State) (u : Nat) (f : Grid → Grid) :
    (s.modGrid u f).fqWrite = s.fqWrite := by
  unfold State.modGrid; split <;> rfl
@[simp] theorem State.modGrid_fqRead (s : State) (u : Nat) (f : Grid → Grid) :
    (s.modGrid u f).fqRead = s.fqRead := by
  unfold State.modGrid; split <;> rfl
@[simp] theorem State.modGrid_fqWindow (s : State) (u : Nat) (f : Grid → Grid) :
    (s.modGrid u f).fqWindow = s.fqWindow := by
  unfold State.modGrid; split <;> rfl
@[simp] theorem State.modGrid_interrupts (s : State) (u : Nat) (f : Grid → Grid) :
    (s.modGrid u f).interrupts = s.interrupts := by
  unfold State.modGrid; split <;> rfl
@[simp] theorem State.modGrid_dies (s : State) (u : Nat) (f : Grid → Grid) :
    (s.modGrid u f).dies = s.dies := by
  unfold State.modGrid; split <;> rfl
@[simp] theorem State.modGrid_masters (s : State) (u : Nat) (f : Grid → Grid) :
    (s.modGrid u f).masters = s.masters := by
  unfold State.modGrid; split <;> rfl
@[simp] theorem State.modGrid_queues (s : State) (u : Nat) (f : Grid → Grid) :
    (s.modGrid u f).queues = s.queues := by
  unfold State.modGrid; split <;> rfl
@[simp] theorem State.modGrid_counters (s : State) (u : Nat) (f : Grid → Grid) :
    (s.modGrid u f).counters = s.counters := by
  unfold State.modGrid; split <;> rfl
@[simp] theorem State.modGrid_trigs (s : State) (u : Nat) (f : Grid → Grid) :
    (s.modGrid u f).trigs = s.trigs := by
  unfold State.modGrid; split <;> rfl
@[simp] theorem State.modGrid_tickets (s : State) (u : Nat) (f : Grid → Grid) :
    (s.modGrid u f).tickets = s.tickets := by
  unfold State.modGrid; split <;> rfl
@[simp] theorem State.modGrid_pendingCmds (s : State) (u : Nat) (f : Grid → Grid) :
    (s.modGrid u f).pendingCmds = s.pendingCmds := by
  unfold State.modGrid; split <;> rfl
@[simp] theorem State.modGrid_signals (s : State) (u : Nat) (f : Grid → Grid) :
    (s.modGrid u f).signals = s.signals := by
  unfold State.modGrid; split <;> rfl
@[simp] theorem State.modGrid_cancels (s : State) (u : Nat) (f : Grid → Grid) :
    (s.modGrid u f).cancels = s.cancels := by
  unfold State.modGrid; split <;> rfl
@[simp] theorem State.modGrid_finals (s : State) (u : Nat) (f : Grid → Grid) :
    (s.modGrid u f).finals = s.finals := by
  unfold State.modGrid; split <;> rfl
@[simp] theorem State.modGrid_stale (s : State) (u : Nat) (f : Grid → Grid) :
    (s.modGrid u f).stale = s.stale := by
  unfold State.modGrid; split <;> rfl
@[simp] theorem State.modGrid_wsloads (s : State) (u : Nat) (f : Grid → Grid) :
    (s.modGrid u f).wsloads = s.wsloads := by
  unfold State.modGrid; split <;> rfl
@[simp] theorem State.modGrid_colls (s : State) (u : Nat) (f : Grid → Grid) :
    (s.modGrid u f).colls = s.colls := by
  unfold State.modGrid; split <;> rfl
@[simp] theorem State.modGrid_aperture (s : State) (u : Nat) (f : Grid → Grid) :
    (s.modGrid u f).aperture = s.aperture := by
  unfold State.modGrid; split <;> rfl
@[simp] theorem State.modGrid_maint (s : State) (u : Nat) (f : Grid → Grid) :
    (s.modGrid u f).maint = s.maint := by
  unfold State.modGrid; split <;> rfl
@[simp] theorem State.modGrid_mctl (s : State) (u : Nat) (f : Grid → Grid) :
    (s.modGrid u f).mctl = s.mctl := by
  unfold State.modGrid; split <;> rfl
@[simp] theorem State.modGrid_bring (s : State) (u : Nat) (f : Grid → Grid) :
    (s.modGrid u f).bring = s.bring := by
  unfold State.modGrid; split <;> rfl
@[simp] theorem State.modGrid_throttled (s : State) (u : Nat) (f : Grid → Grid) :
    (s.modGrid u f).throttled = s.throttled := by
  unfold State.modGrid; split <;> rfl
@[simp] theorem State.modGrid_halted (s : State) (u : Nat) (f : Grid → Grid) :
    (s.modGrid u f).halted = s.halted := by
  unfold State.modGrid; split <;> rfl
@[simp] theorem State.modGrid_reply (s : State) (u : Nat) (f : Grid → Grid) :
    (s.modGrid u f).reply = s.reply := by
  unfold State.modGrid; split <;> rfl

/-! ## Master.modWarp -/

@[simp] theorem Master.modWarp_kind (b : Master) (i : Nat) (f : Warp → Warp) :
    (b.modWarp i f).kind = b.kind := rfl
@[simp] theorem Master.modWarp_queue (b : Master) (i : Nat) (f : Warp → Warp) :
    (b.modWarp i f).queue = b.queue := rfl
@[simp] theorem Master.modWarp_tag (b : Master) (i : Nat) (f : Warp → Warp) :
    (b.modWarp i f).tag = b.tag := rfl
@[simp] theorem Master.modWarp_gridId (b : Master) (i : Nat) (f : Warp → Warp) :
    (b.modWarp i f).gridId = b.gridId := rfl
@[simp] theorem Master.modWarp_privileged (b : Master) (i : Nat) (f : Warp → Warp) :
    (b.modWarp i f).privileged = b.privileged := rfl
@[simp] theorem Master.modWarp_priority (b : Master) (i : Nat) (f : Warp → Warp) :
    (b.modWarp i f).priority = b.priority := rfl
@[simp] theorem Master.modWarp_ctx (b : Master) (i : Nat) (f : Warp → Warp) :
    (b.modWarp i f).ctx = b.ctx := rfl
@[simp] theorem Master.modWarp_kv (b : Master) (i : Nat) (f : Warp → Warp) :
    (b.modWarp i f).kv = b.kv := rfl
@[simp] theorem Master.modWarp_image (b : Master) (i : Nat) (f : Warp → Warp) :
    (b.modWarp i f).image = b.image := rfl
@[simp] theorem Master.modWarp_varIdx (b : Master) (i : Nat) (f : Warp → Warp) :
    (b.modWarp i f).varIdx = b.varIdx := rfl
@[simp] theorem Master.modWarp_phase (b : Master) (i : Nat) (f : Warp → Warp) :
    (b.modWarp i f).phase = b.phase := rfl
@[simp] theorem Master.modWarp_frozenFrom (b : Master) (i : Nat) (f : Warp → Warp) :
    (b.modWarp i f).frozenFrom = b.frozenFrom := rfl
@[simp] theorem Master.modWarp_die (b : Master) (i : Nat) (f : Warp → Warp) :
    (b.modWarp i f).die = b.die := rfl
@[simp] theorem Master.modWarp_cores (b : Master) (i : Nat) (f : Warp → Warp) :
    (b.modWarp i f).cores = b.cores := rfl
@[simp] theorem Master.modWarp_coord (b : Master) (i : Nat) (f : Warp → Warp) :
    (b.modWarp i f).coord = b.coord := rfl
@[simp] theorem Master.modWarp_keys (b : Master) (i : Nat) (f : Warp → Warp) :
    (b.modWarp i f).keys = b.keys := rfl
@[simp] theorem Master.modWarp_keyNames (b : Master) (i : Nat) (f : Warp → Warp) :
    (b.modWarp i f).keyNames = b.keyNames := rfl
@[simp] theorem Master.modWarp_evicted (b : Master) (i : Nat) (f : Warp → Warp) :
    (b.modWarp i f).evicted = b.evicted := rfl
@[simp] theorem Master.modWarp_stale (b : Master) (i : Nat) (f : Warp → Warp) :
    (b.modWarp i f).stale = b.stale := rfl
@[simp] theorem Master.modWarp_segs (b : Master) (i : Nat) (f : Warp → Warp) :
    (b.modWarp i f).segs = b.segs := rfl
@[simp] theorem Master.modWarp_x (b : Master) (i : Nat) (f : Warp → Warp) :
    (b.modWarp i f).x = b.x := rfl
@[simp] theorem Master.modWarp_xPoison (b : Master) (i : Nat) (f : Warp → Warp) :
    (b.modWarp i f).xPoison = b.xPoison := rfl
@[simp] theorem Master.modWarp_slots (b : Master) (i : Nat) (f : Warp → Warp) :
    (b.modWarp i f).slots = b.slots := rfl
@[simp] theorem Master.modWarp_hw (b : Master) (i : Nat) (f : Warp → Warp) :
    (b.modWarp i f).hw = b.hw := rfl
@[simp] theorem Master.modWarp_binds (b : Master) (i : Nat) (f : Warp → Warp) :
    (b.modWarp i f).binds = b.binds := rfl
@[simp] theorem Master.modWarp_timer (b : Master) (i : Nat) (f : Warp → Warp) :
    (b.modWarp i f).timer = b.timer := rfl
@[simp] theorem Master.modWarp_stoppedAt (b : Master) (i : Nat) (f : Warp → Warp) :
    (b.modWarp i f).stoppedAt = b.stoppedAt := rfl
@[simp] theorem Master.modWarp_restoring (b : Master) (i : Nat) (f : Warp → Warp) :
    (b.modWarp i f).restoring = b.restoring := rfl
@[simp] theorem Master.modWarp_placedAt (b : Master) (i : Nat) (f : Warp → Warp) :
    (b.modWarp i f).placedAt = b.placedAt := rfl
@[simp] theorem Master.modWarp_poolAt (b : Master) (i : Nat) (f : Warp → Warp) :
    (b.modWarp i f).poolAt = b.poolAt := rfl
@[simp] theorem Master.modWarp_inPool (b : Master) (i : Nat) (f : Warp → Warp) :
    (b.modWarp i f).inPool = b.inPool := rfl
@[simp] theorem Master.modWarp_aged (b : Master) (i : Nat) (f : Warp → Warp) :
    (b.modWarp i f).aged = b.aged := rfl
@[simp] theorem Master.modWarp_ctxSlot (b : Master) (i : Nat) (f : Warp → Warp) :
    (b.modWarp i f).ctxSlot = b.ctxSlot := rfl
@[simp] theorem Master.modWarp_heldReq (b : Master) (i : Nat) (f : Warp → Warp) :
    (b.modWarp i f).heldReq = b.heldReq := rfl
@[simp] theorem Master.modWarp_preempt (b : Master) (i : Nat) (f : Warp → Warp) :
    (b.modWarp i f).preempt = b.preempt := rfl
@[simp] theorem Master.modWarp_switchPend (b : Master) (i : Nat) (f : Warp → Warp) :
    (b.modWarp i f).switchPend = b.switchPend := rfl
@[simp] theorem Master.modWarp_switchTo (b : Master) (i : Nat) (f : Warp → Warp) :
    (b.modWarp i f).switchTo = b.switchTo := rfl
@[simp] theorem Master.modWarp_entries (b : Master) (i : Nat) (f : Warp → Warp) :
    (b.modWarp i f).entries = b.entries := rfl
@[simp] theorem Master.modWarp_collections (b : Master) (i : Nat) (f : Warp → Warp) :
    (b.modWarp i f).collections = b.collections := rfl
@[simp] theorem Master.modWarp_arrays (b : Master) (i : Nat) (f : Warp → Warp) :
    (b.modWarp i f).arrays = b.arrays := rfl
@[simp] theorem Master.modWarp_cmd (b : Master) (i : Nat) (f : Warp → Warp) :
    (b.modWarp i f).cmd = b.cmd := rfl
@[simp] theorem Master.modWarp_counted (b : Master) (i : Nat) (f : Warp → Warp) :
    (b.modWarp i f).counted = b.counted := rfl
@[simp] theorem Master.modWarp_retiring (b : Master) (i : Nat) (f : Warp → Warp) :
    (b.modWarp i f).retiring = b.retiring := rfl
@[simp] theorem Master.modWarp_sigWait (b : Master) (i : Nat) (f : Warp → Warp) :
    (b.modWarp i f).sigWait = b.sigWait := rfl
@[simp] theorem Master.modWarp_op0 (b : Master) (i : Nat) (f : Warp → Warp) :
    (b.modWarp i f).op0 = b.op0 := rfl
@[simp] theorem Master.modWarp_op1 (b : Master) (i : Nat) (f : Warp → Warp) :
    (b.modWarp i f).op1 = b.op1 := rfl
@[simp] theorem Master.modWarp_submitDie (b : Master) (i : Nat) (f : Warp → Warp) :
    (b.modWarp i f).submitDie = b.submitDie := rfl
@[simp] theorem Master.modWarp_poolDie (b : Master) (i : Nat) (f : Warp → Warp) :
    (b.modWarp i f).poolDie = b.poolDie := rfl
@[simp] theorem Master.modWarp_triggered (b : Master) (i : Nat) (f : Warp → Warp) :
    (b.modWarp i f).triggered = b.triggered := rfl
@[simp] theorem Master.modWarp_signalled (b : Master) (i : Nat) (f : Warp → Warp) :
    (b.modWarp i f).signalled = b.signalled := rfl
@[simp] theorem Master.modWarp_cancelled (b : Master) (i : Nat) (f : Warp → Warp) :
    (b.modWarp i f).cancelled = b.cancelled := rfl
@[simp] theorem Master.modWarp_highPriority (b : Master) (i : Nat) (f : Warp → Warp) :
    (b.modWarp i f).highPriority = b.highPriority := rfl
@[simp] theorem Master.modWarp_predecessors (b : Master) (i : Nat) (f : Warp → Warp) :
    (b.modWarp i f).predecessors = b.predecessors := rfl
@[simp] theorem Master.modWarp_argPtr (b : Master) (i : Nat) (f : Warp → Warp) :
    (b.modWarp i f).argPtr = b.argPtr := rfl
@[simp] theorem Master.modWarp_entryOff (b : Master) (i : Nat) (f : Warp → Warp) :
    (b.modWarp i f).entryOff = b.entryOff := rfl
@[simp] theorem Master.modWarp_succCount (b : Master) (i : Nat) (f : Warp → Warp) :
    (b.modWarp i f).succCount = b.succCount := rfl
@[simp] theorem Master.modWarp_succList (b : Master) (i : Nat) (f : Warp → Warp) :
    (b.modWarp i f).succList = b.succList := rfl
@[simp] theorem Master.modWarp_threshold (b : Master) (i : Nat) (f : Warp → Warp) :
    (b.modWarp i f).threshold = b.threshold := rfl

/-! ## Warp.setV -/

@[simp] theorem Warp.setV_frontier (w : Warp) (base r : Nat) (m : Mask) (f : Nat → Word) :
    (w.setV base r m f).frontier = w.frontier := by
  unfold Warp.setV; split <;> rfl
@[simp] theorem Warp.setV_clause (w : Warp) (base r : Nat) (m : Mask) (f : Nat → Word) :
    (w.setV base r m f).clause = w.clause := by
  unfold Warp.setV; split <;> rfl
@[simp] theorem Warp.setV_preds (w : Warp) (base r : Nat) (m : Mask) (f : Nat → Word) :
    (w.setV base r m f).preds = w.preds := by
  unfold Warp.setV; split <;> rfl
@[simp] theorem Warp.setV_unif (w : Warp) (base r : Nat) (m : Mask) (f : Nat → Word) :
    (w.setV base r m f).unif = w.unif := by
  unfold Warp.setV; split <;> rfl
@[simp] theorem Warp.setV_allot (w : Warp) (base r : Nat) (m : Mask) (f : Nat → Word) :
    (w.setV base r m f).allot = w.allot := by
  unfold Warp.setV; split <;> rfl
@[simp] theorem Warp.setV_resident (w : Warp) (base r : Nat) (m : Mask) (f : Nat → Word) :
    (w.setV base r m f).resident = w.resident := by
  unfold Warp.setV; split <;> rfl
@[simp] theorem Warp.setV_tokens (w : Warp) (base r : Nat) (m : Mask) (f : Nat → Word) :
    (w.setV base r m f).tokens = w.tokens := by
  unfold Warp.setV; split <;> rfl
@[simp] theorem Warp.setV_stray (w : Warp) (base r : Nat) (m : Mask) (f : Nat → Word) :
    (w.setV base r m f).stray = w.stray := by
  unfold Warp.setV; split <;> rfl
@[simp] theorem Warp.setV_deliveries (w : Warp) (base r : Nat) (m : Mask) (f : Nat → Word) :
    (w.setV base r m f).deliveries = w.deliveries := by
  unfold Warp.setV; split <;> rfl
@[simp] theorem Warp.setV_fflags (w : Warp) (base r : Nat) (m : Mask) (f : Nat → Word) :
    (w.setV base r m f).fflags = w.fflags := by
  unfold Warp.setV; split <;> rfl
@[simp] theorem Warp.setV_fctl (w : Warp) (base r : Nat) (m : Mask) (f : Nat → Word) :
    (w.setV base r m f).fctl = w.fctl := by
  unfold Warp.setV; split <;> rfl
@[simp] theorem Warp.setV_sealOn (w : Warp) (base r : Nat) (m : Mask) (f : Nat → Word) :
    (w.setV base r m f).sealOn = w.sealOn := by
  unfold Warp.setV; split <;> rfl
@[simp] theorem Warp.setV_waits (w : Warp) (base r : Nat) (m : Mask) (f : Nat → Word) :
    (w.setV base r m f).waits = w.waits := by
  unfold Warp.setV; split <;> rfl
@[simp] theorem Warp.setV_tlanes (w : Warp) (base r : Nat) (m : Mask) (f : Nat → Word) :
    (w.setV base r m f).tlanes = w.tlanes := by
  unfold Warp.setV; split <;> rfl
@[simp] theorem Warp.setV_tpc (w : Warp) (base r : Nat) (m : Mask) (f : Nat → Word) :
    (w.setV base r m f).tpc = w.tpc := by
  unfold Warp.setV; split <;> rfl
@[simp] theorem Warp.setV_tcause (w : Warp) (base r : Nat) (m : Mask) (f : Nat → Word) :
    (w.setV base r m f).tcause = w.tcause := by
  unfold Warp.setV; split <;> rfl
@[simp] theorem Warp.setV_tinfo (w : Warp) (base r : Nat) (m : Mask) (f : Nat → Word) :
    (w.setV base r m f).tinfo = w.tinfo := by
  unfold Warp.setV; split <;> rfl
@[simp] theorem Warp.setV_handler (w : Warp) (base r : Nat) (m : Mask) (f : Nat → Word) :
    (w.setV base r m f).handler = w.handler := by
  unfold Warp.setV; split <;> rfl
@[simp] theorem Warp.setV_held (w : Warp) (base r : Nat) (m : Mask) (f : Nat → Word) :
    (w.setV base r m f).held = w.held := by
  unfold Warp.setV; split <;> rfl
@[simp] theorem Warp.setV_heldId (w : Warp) (base r : Nat) (m : Mask) (f : Nat → Word) :
    (w.setV base r m f).heldId = w.heldId := by
  unfold Warp.setV; split <;> rfl
@[simp] theorem Warp.setV_arrived (w : Warp) (base r : Nat) (m : Mask) (f : Nat → Word) :
    (w.setV base r m f).arrived = w.arrived := by
  unfold Warp.setV; split <;> rfl
@[simp] theorem Warp.setV_arrival (w : Warp) (base r : Nat) (m : Mask) (f : Nat → Word) :
    (w.setV base r m f).arrival = w.arrival := by
  unfold Warp.setV; split <;> rfl
@[simp] theorem Warp.setV_openBatch (w : Warp) (base r : Nat) (m : Mask) (f : Nat → Word) :
    (w.setV base r m f).openBatch = w.openBatch := by
  unfold Warp.setV; split <;> rfl
@[simp] theorem Warp.setV_outs (w : Warp) (base r : Nat) (m : Mask) (f : Nat → Word) :
    (w.setV base r m f).outs = w.outs := by
  unfold Warp.setV; split <;> rfl
@[simp] theorem Warp.setV_opCount (w : Warp) (base r : Nat) (m : Mask) (f : Nat → Word) :
    (w.setV base r m f).opCount = w.opCount := by
  unfold Warp.setV; split <;> rfl
@[simp] theorem Warp.setV_park (w : Warp) (base r : Nat) (m : Mask) (f : Nat → Word) :
    (w.setV base r m f).park = w.park := by
  unfold Warp.setV; split <;> rfl
@[simp] theorem Warp.setV_fetchMiss (w : Warp) (base r : Nat) (m : Mask) (f : Nat → Word) :
    (w.setV base r m f).fetchMiss = w.fetchMiss := by
  unfold Warp.setV; split <;> rfl
@[simp] theorem Warp.setV_stall (w : Warp) (base r : Nat) (m : Mask) (f : Nat → Word) :
    (w.setV base r m f).stall = w.stall := by
  unfold Warp.setV; split <;> rfl
@[simp] theorem Warp.setV_exitAt (w : Warp) (base r : Nat) (m : Mask) (f : Nat → Word) :
    (w.setV base r m f).exitAt = w.exitAt := by
  unfold Warp.setV; split <;> rfl
@[simp] theorem Warp.setV_retired (w : Warp) (base r : Nat) (m : Mask) (f : Nat → Word) :
    (w.setV base r m f).retired = w.retired := by
  unfold Warp.setV; split <;> rfl
@[simp] theorem Warp.setV_request (w : Warp) (base r : Nat) (m : Mask) (f : Nat → Word) :
    (w.setV base r m f).request = w.request := by
  unfold Warp.setV; split <;> rfl

/-! ## Warp.setV2 -/

@[simp] theorem Warp.setV2_frontier (w : Warp) (base r : Nat) (m : Mask) (f : Nat → Dword) :
    (w.setV2 base r m f).frontier = w.frontier := by
  unfold Warp.setV2; split <;> simp
@[simp] theorem Warp.setV2_clause (w : Warp) (base r : Nat) (m : Mask) (f : Nat → Dword) :
    (w.setV2 base r m f).clause = w.clause := by
  unfold Warp.setV2; split <;> simp
@[simp] theorem Warp.setV2_preds (w : Warp) (base r : Nat) (m : Mask) (f : Nat → Dword) :
    (w.setV2 base r m f).preds = w.preds := by
  unfold Warp.setV2; split <;> simp
@[simp] theorem Warp.setV2_unif (w : Warp) (base r : Nat) (m : Mask) (f : Nat → Dword) :
    (w.setV2 base r m f).unif = w.unif := by
  unfold Warp.setV2; split <;> simp
@[simp] theorem Warp.setV2_allot (w : Warp) (base r : Nat) (m : Mask) (f : Nat → Dword) :
    (w.setV2 base r m f).allot = w.allot := by
  unfold Warp.setV2; split <;> simp
@[simp] theorem Warp.setV2_resident (w : Warp) (base r : Nat) (m : Mask) (f : Nat → Dword) :
    (w.setV2 base r m f).resident = w.resident := by
  unfold Warp.setV2; split <;> simp
@[simp] theorem Warp.setV2_tokens (w : Warp) (base r : Nat) (m : Mask) (f : Nat → Dword) :
    (w.setV2 base r m f).tokens = w.tokens := by
  unfold Warp.setV2; split <;> simp
@[simp] theorem Warp.setV2_stray (w : Warp) (base r : Nat) (m : Mask) (f : Nat → Dword) :
    (w.setV2 base r m f).stray = w.stray := by
  unfold Warp.setV2; split <;> simp
@[simp] theorem Warp.setV2_deliveries (w : Warp) (base r : Nat) (m : Mask) (f : Nat → Dword) :
    (w.setV2 base r m f).deliveries = w.deliveries := by
  unfold Warp.setV2; split <;> simp
@[simp] theorem Warp.setV2_fflags (w : Warp) (base r : Nat) (m : Mask) (f : Nat → Dword) :
    (w.setV2 base r m f).fflags = w.fflags := by
  unfold Warp.setV2; split <;> simp
@[simp] theorem Warp.setV2_fctl (w : Warp) (base r : Nat) (m : Mask) (f : Nat → Dword) :
    (w.setV2 base r m f).fctl = w.fctl := by
  unfold Warp.setV2; split <;> simp
@[simp] theorem Warp.setV2_sealOn (w : Warp) (base r : Nat) (m : Mask) (f : Nat → Dword) :
    (w.setV2 base r m f).sealOn = w.sealOn := by
  unfold Warp.setV2; split <;> simp
@[simp] theorem Warp.setV2_waits (w : Warp) (base r : Nat) (m : Mask) (f : Nat → Dword) :
    (w.setV2 base r m f).waits = w.waits := by
  unfold Warp.setV2; split <;> simp
@[simp] theorem Warp.setV2_tlanes (w : Warp) (base r : Nat) (m : Mask) (f : Nat → Dword) :
    (w.setV2 base r m f).tlanes = w.tlanes := by
  unfold Warp.setV2; split <;> simp
@[simp] theorem Warp.setV2_tpc (w : Warp) (base r : Nat) (m : Mask) (f : Nat → Dword) :
    (w.setV2 base r m f).tpc = w.tpc := by
  unfold Warp.setV2; split <;> simp
@[simp] theorem Warp.setV2_tcause (w : Warp) (base r : Nat) (m : Mask) (f : Nat → Dword) :
    (w.setV2 base r m f).tcause = w.tcause := by
  unfold Warp.setV2; split <;> simp
@[simp] theorem Warp.setV2_tinfo (w : Warp) (base r : Nat) (m : Mask) (f : Nat → Dword) :
    (w.setV2 base r m f).tinfo = w.tinfo := by
  unfold Warp.setV2; split <;> simp
@[simp] theorem Warp.setV2_handler (w : Warp) (base r : Nat) (m : Mask) (f : Nat → Dword) :
    (w.setV2 base r m f).handler = w.handler := by
  unfold Warp.setV2; split <;> simp
@[simp] theorem Warp.setV2_held (w : Warp) (base r : Nat) (m : Mask) (f : Nat → Dword) :
    (w.setV2 base r m f).held = w.held := by
  unfold Warp.setV2; split <;> simp
@[simp] theorem Warp.setV2_heldId (w : Warp) (base r : Nat) (m : Mask) (f : Nat → Dword) :
    (w.setV2 base r m f).heldId = w.heldId := by
  unfold Warp.setV2; split <;> simp
@[simp] theorem Warp.setV2_arrived (w : Warp) (base r : Nat) (m : Mask) (f : Nat → Dword) :
    (w.setV2 base r m f).arrived = w.arrived := by
  unfold Warp.setV2; split <;> simp
@[simp] theorem Warp.setV2_arrival (w : Warp) (base r : Nat) (m : Mask) (f : Nat → Dword) :
    (w.setV2 base r m f).arrival = w.arrival := by
  unfold Warp.setV2; split <;> simp
@[simp] theorem Warp.setV2_openBatch (w : Warp) (base r : Nat) (m : Mask) (f : Nat → Dword) :
    (w.setV2 base r m f).openBatch = w.openBatch := by
  unfold Warp.setV2; split <;> simp
@[simp] theorem Warp.setV2_outs (w : Warp) (base r : Nat) (m : Mask) (f : Nat → Dword) :
    (w.setV2 base r m f).outs = w.outs := by
  unfold Warp.setV2; split <;> simp
@[simp] theorem Warp.setV2_opCount (w : Warp) (base r : Nat) (m : Mask) (f : Nat → Dword) :
    (w.setV2 base r m f).opCount = w.opCount := by
  unfold Warp.setV2; split <;> simp
@[simp] theorem Warp.setV2_park (w : Warp) (base r : Nat) (m : Mask) (f : Nat → Dword) :
    (w.setV2 base r m f).park = w.park := by
  unfold Warp.setV2; split <;> simp
@[simp] theorem Warp.setV2_fetchMiss (w : Warp) (base r : Nat) (m : Mask) (f : Nat → Dword) :
    (w.setV2 base r m f).fetchMiss = w.fetchMiss := by
  unfold Warp.setV2; split <;> simp
@[simp] theorem Warp.setV2_stall (w : Warp) (base r : Nat) (m : Mask) (f : Nat → Dword) :
    (w.setV2 base r m f).stall = w.stall := by
  unfold Warp.setV2; split <;> simp
@[simp] theorem Warp.setV2_exitAt (w : Warp) (base r : Nat) (m : Mask) (f : Nat → Dword) :
    (w.setV2 base r m f).exitAt = w.exitAt := by
  unfold Warp.setV2; split <;> simp
@[simp] theorem Warp.setV2_retired (w : Warp) (base r : Nat) (m : Mask) (f : Nat → Dword) :
    (w.setV2 base r m f).retired = w.retired := by
  unfold Warp.setV2; split <;> simp
@[simp] theorem Warp.setV2_request (w : Warp) (base r : Nat) (m : Mask) (f : Nat → Dword) :
    (w.setV2 base r m f).request = w.request := by
  unfold Warp.setV2; split <;> simp

/-! ## Warp.setS and Warp.setS2 -/

@[simp] theorem Warp.setS_frontier (w : Warp) (r : Nat) (x : Word) :
    (w.setS r x).frontier = w.frontier := by
  unfold Warp.setS; split <;> rfl
@[simp] theorem Warp.setS2_frontier (w : Warp) (r : Nat) (x : Dword) :
    (w.setS2 r x).frontier = w.frontier := by
  unfold Warp.setS2; split <;> simp
@[simp] theorem Warp.setS_clause (w : Warp) (r : Nat) (x : Word) :
    (w.setS r x).clause = w.clause := by
  unfold Warp.setS; split <;> rfl
@[simp] theorem Warp.setS2_clause (w : Warp) (r : Nat) (x : Dword) :
    (w.setS2 r x).clause = w.clause := by
  unfold Warp.setS2; split <;> simp
@[simp] theorem Warp.setS_regs (w : Warp) (r : Nat) (x : Word) :
    (w.setS r x).regs = w.regs := by
  unfold Warp.setS; split <;> rfl
@[simp] theorem Warp.setS2_regs (w : Warp) (r : Nat) (x : Dword) :
    (w.setS2 r x).regs = w.regs := by
  unfold Warp.setS2; split <;> simp
@[simp] theorem Warp.setS_preds (w : Warp) (r : Nat) (x : Word) :
    (w.setS r x).preds = w.preds := by
  unfold Warp.setS; split <;> rfl
@[simp] theorem Warp.setS2_preds (w : Warp) (r : Nat) (x : Dword) :
    (w.setS2 r x).preds = w.preds := by
  unfold Warp.setS2; split <;> simp
@[simp] theorem Warp.setS_allot (w : Warp) (r : Nat) (x : Word) :
    (w.setS r x).allot = w.allot := by
  unfold Warp.setS; split <;> rfl
@[simp] theorem Warp.setS2_allot (w : Warp) (r : Nat) (x : Dword) :
    (w.setS2 r x).allot = w.allot := by
  unfold Warp.setS2; split <;> simp
@[simp] theorem Warp.setS_resident (w : Warp) (r : Nat) (x : Word) :
    (w.setS r x).resident = w.resident := by
  unfold Warp.setS; split <;> rfl
@[simp] theorem Warp.setS2_resident (w : Warp) (r : Nat) (x : Dword) :
    (w.setS2 r x).resident = w.resident := by
  unfold Warp.setS2; split <;> simp
@[simp] theorem Warp.setS_tokens (w : Warp) (r : Nat) (x : Word) :
    (w.setS r x).tokens = w.tokens := by
  unfold Warp.setS; split <;> rfl
@[simp] theorem Warp.setS_stray (w : Warp) (r : Nat) (x : Word) :
    (w.setS r x).stray = w.stray := by
  unfold Warp.setS; split <;> rfl
@[simp] theorem Warp.setS2_tokens (w : Warp) (r : Nat) (x : Dword) :
    (w.setS2 r x).tokens = w.tokens := by
  unfold Warp.setS2; split <;> simp
@[simp] theorem Warp.setS2_stray (w : Warp) (r : Nat) (x : Dword) :
    (w.setS2 r x).stray = w.stray := by
  unfold Warp.setS2; split <;> simp
@[simp] theorem Warp.setS_deliveries (w : Warp) (r : Nat) (x : Word) :
    (w.setS r x).deliveries = w.deliveries := by
  unfold Warp.setS; split <;> rfl
@[simp] theorem Warp.setS2_deliveries (w : Warp) (r : Nat) (x : Dword) :
    (w.setS2 r x).deliveries = w.deliveries := by
  unfold Warp.setS2; split <;> simp
@[simp] theorem Warp.setS_fflags (w : Warp) (r : Nat) (x : Word) :
    (w.setS r x).fflags = w.fflags := by
  unfold Warp.setS; split <;> rfl
@[simp] theorem Warp.setS2_fflags (w : Warp) (r : Nat) (x : Dword) :
    (w.setS2 r x).fflags = w.fflags := by
  unfold Warp.setS2; split <;> simp
@[simp] theorem Warp.setS_fctl (w : Warp) (r : Nat) (x : Word) :
    (w.setS r x).fctl = w.fctl := by
  unfold Warp.setS; split <;> rfl
@[simp] theorem Warp.setS_sealOn (w : Warp) (r : Nat) (x : Word) :
    (w.setS r x).sealOn = w.sealOn := by
  unfold Warp.setS; split <;> rfl
@[simp] theorem Warp.setS_waits (w : Warp) (r : Nat) (x : Word) :
    (w.setS r x).waits = w.waits := by
  unfold Warp.setS; split <;> rfl
@[simp] theorem Warp.setS2_fctl (w : Warp) (r : Nat) (x : Dword) :
    (w.setS2 r x).fctl = w.fctl := by
  unfold Warp.setS2; split <;> simp
@[simp] theorem Warp.setS2_sealOn (w : Warp) (r : Nat) (x : Dword) :
    (w.setS2 r x).sealOn = w.sealOn := by
  unfold Warp.setS2; split <;> simp
@[simp] theorem Warp.setS2_waits (w : Warp) (r : Nat) (x : Dword) :
    (w.setS2 r x).waits = w.waits := by
  unfold Warp.setS2; split <;> simp
@[simp] theorem Warp.setS_tlanes (w : Warp) (r : Nat) (x : Word) :
    (w.setS r x).tlanes = w.tlanes := by
  unfold Warp.setS; split <;> rfl
@[simp] theorem Warp.setS2_tlanes (w : Warp) (r : Nat) (x : Dword) :
    (w.setS2 r x).tlanes = w.tlanes := by
  unfold Warp.setS2; split <;> simp
@[simp] theorem Warp.setS_tpc (w : Warp) (r : Nat) (x : Word) :
    (w.setS r x).tpc = w.tpc := by
  unfold Warp.setS; split <;> rfl
@[simp] theorem Warp.setS2_tpc (w : Warp) (r : Nat) (x : Dword) :
    (w.setS2 r x).tpc = w.tpc := by
  unfold Warp.setS2; split <;> simp
@[simp] theorem Warp.setS_tcause (w : Warp) (r : Nat) (x : Word) :
    (w.setS r x).tcause = w.tcause := by
  unfold Warp.setS; split <;> rfl
@[simp] theorem Warp.setS2_tcause (w : Warp) (r : Nat) (x : Dword) :
    (w.setS2 r x).tcause = w.tcause := by
  unfold Warp.setS2; split <;> simp
@[simp] theorem Warp.setS_tinfo (w : Warp) (r : Nat) (x : Word) :
    (w.setS r x).tinfo = w.tinfo := by
  unfold Warp.setS; split <;> rfl
@[simp] theorem Warp.setS2_tinfo (w : Warp) (r : Nat) (x : Dword) :
    (w.setS2 r x).tinfo = w.tinfo := by
  unfold Warp.setS2; split <;> simp
@[simp] theorem Warp.setS_handler (w : Warp) (r : Nat) (x : Word) :
    (w.setS r x).handler = w.handler := by
  unfold Warp.setS; split <;> rfl
@[simp] theorem Warp.setS2_handler (w : Warp) (r : Nat) (x : Dword) :
    (w.setS2 r x).handler = w.handler := by
  unfold Warp.setS2; split <;> simp
@[simp] theorem Warp.setS_held (w : Warp) (r : Nat) (x : Word) :
    (w.setS r x).held = w.held := by
  unfold Warp.setS; split <;> rfl
@[simp] theorem Warp.setS2_held (w : Warp) (r : Nat) (x : Dword) :
    (w.setS2 r x).held = w.held := by
  unfold Warp.setS2; split <;> simp
@[simp] theorem Warp.setS_heldId (w : Warp) (r : Nat) (x : Word) :
    (w.setS r x).heldId = w.heldId := by
  unfold Warp.setS; split <;> rfl
@[simp] theorem Warp.setS2_heldId (w : Warp) (r : Nat) (x : Dword) :
    (w.setS2 r x).heldId = w.heldId := by
  unfold Warp.setS2; split <;> simp
@[simp] theorem Warp.setS_arrived (w : Warp) (r : Nat) (x : Word) :
    (w.setS r x).arrived = w.arrived := by
  unfold Warp.setS; split <;> rfl
@[simp] theorem Warp.setS2_arrived (w : Warp) (r : Nat) (x : Dword) :
    (w.setS2 r x).arrived = w.arrived := by
  unfold Warp.setS2; split <;> simp
@[simp] theorem Warp.setS_arrival (w : Warp) (r : Nat) (x : Word) :
    (w.setS r x).arrival = w.arrival := by
  unfold Warp.setS; split <;> rfl
@[simp] theorem Warp.setS2_arrival (w : Warp) (r : Nat) (x : Dword) :
    (w.setS2 r x).arrival = w.arrival := by
  unfold Warp.setS2; split <;> simp
@[simp] theorem Warp.setS_openBatch (w : Warp) (r : Nat) (x : Word) :
    (w.setS r x).openBatch = w.openBatch := by
  unfold Warp.setS; split <;> rfl
@[simp] theorem Warp.setS2_openBatch (w : Warp) (r : Nat) (x : Dword) :
    (w.setS2 r x).openBatch = w.openBatch := by
  unfold Warp.setS2; split <;> simp
@[simp] theorem Warp.setS_outs (w : Warp) (r : Nat) (x : Word) :
    (w.setS r x).outs = w.outs := by
  unfold Warp.setS; split <;> rfl
@[simp] theorem Warp.setS2_outs (w : Warp) (r : Nat) (x : Dword) :
    (w.setS2 r x).outs = w.outs := by
  unfold Warp.setS2; split <;> simp
@[simp] theorem Warp.setS_opCount (w : Warp) (r : Nat) (x : Word) :
    (w.setS r x).opCount = w.opCount := by
  unfold Warp.setS; split <;> rfl
@[simp] theorem Warp.setS2_opCount (w : Warp) (r : Nat) (x : Dword) :
    (w.setS2 r x).opCount = w.opCount := by
  unfold Warp.setS2; split <;> simp
@[simp] theorem Warp.setS_park (w : Warp) (r : Nat) (x : Word) :
    (w.setS r x).park = w.park := by
  unfold Warp.setS; split <;> rfl
@[simp] theorem Warp.setS2_park (w : Warp) (r : Nat) (x : Dword) :
    (w.setS2 r x).park = w.park := by
  unfold Warp.setS2; split <;> simp
@[simp] theorem Warp.setS_fetchMiss (w : Warp) (r : Nat) (x : Word) :
    (w.setS r x).fetchMiss = w.fetchMiss := by
  unfold Warp.setS; split <;> rfl
@[simp] theorem Warp.setS2_fetchMiss (w : Warp) (r : Nat) (x : Dword) :
    (w.setS2 r x).fetchMiss = w.fetchMiss := by
  unfold Warp.setS2; split <;> simp
@[simp] theorem Warp.setS_stall (w : Warp) (r : Nat) (x : Word) :
    (w.setS r x).stall = w.stall := by
  unfold Warp.setS; split <;> rfl
@[simp] theorem Warp.setS2_stall (w : Warp) (r : Nat) (x : Dword) :
    (w.setS2 r x).stall = w.stall := by
  unfold Warp.setS2; split <;> simp
@[simp] theorem Warp.setS_exitAt (w : Warp) (r : Nat) (x : Word) :
    (w.setS r x).exitAt = w.exitAt := by
  unfold Warp.setS; split <;> rfl
@[simp] theorem Warp.setS2_exitAt (w : Warp) (r : Nat) (x : Dword) :
    (w.setS2 r x).exitAt = w.exitAt := by
  unfold Warp.setS2; split <;> simp
@[simp] theorem Warp.setS_retired (w : Warp) (r : Nat) (x : Word) :
    (w.setS r x).retired = w.retired := by
  unfold Warp.setS; split <;> rfl
@[simp] theorem Warp.setS2_retired (w : Warp) (r : Nat) (x : Dword) :
    (w.setS2 r x).retired = w.retired := by
  unfold Warp.setS2; split <;> simp
@[simp] theorem Warp.setS_request (w : Warp) (r : Nat) (x : Word) :
    (w.setS r x).request = w.request := by
  unfold Warp.setS; split <;> rfl
@[simp] theorem Warp.setS2_request (w : Warp) (r : Nat) (x : Dword) :
    (w.setS2 r x).request = w.request := by
  unfold Warp.setS2; split <;> simp

/-! ## Warp.setP -/

@[simp] theorem Warp.setP_frontier (w : Warp) (n : Nat) (m x : Mask) :
    (w.setP n m x).frontier = w.frontier := by
  unfold Warp.setP; split <;> rfl
@[simp] theorem Warp.setP_clause (w : Warp) (n : Nat) (m x : Mask) :
    (w.setP n m x).clause = w.clause := by
  unfold Warp.setP; split <;> rfl
@[simp] theorem Warp.setP_regs (w : Warp) (n : Nat) (m x : Mask) :
    (w.setP n m x).regs = w.regs := by
  unfold Warp.setP; split <;> rfl
@[simp] theorem Warp.setP_unif (w : Warp) (n : Nat) (m x : Mask) :
    (w.setP n m x).unif = w.unif := by
  unfold Warp.setP; split <;> rfl
@[simp] theorem Warp.setP_allot (w : Warp) (n : Nat) (m x : Mask) :
    (w.setP n m x).allot = w.allot := by
  unfold Warp.setP; split <;> rfl
@[simp] theorem Warp.setP_resident (w : Warp) (n : Nat) (m x : Mask) :
    (w.setP n m x).resident = w.resident := by
  unfold Warp.setP; split <;> rfl
@[simp] theorem Warp.setP_tokens (w : Warp) (n : Nat) (m x : Mask) :
    (w.setP n m x).tokens = w.tokens := by
  unfold Warp.setP; split <;> rfl
@[simp] theorem Warp.setP_stray (w : Warp) (n : Nat) (m x : Mask) :
    (w.setP n m x).stray = w.stray := by
  unfold Warp.setP; split <;> rfl
@[simp] theorem Warp.setP_deliveries (w : Warp) (n : Nat) (m x : Mask) :
    (w.setP n m x).deliveries = w.deliveries := by
  unfold Warp.setP; split <;> rfl
@[simp] theorem Warp.setP_fflags (w : Warp) (n : Nat) (m x : Mask) :
    (w.setP n m x).fflags = w.fflags := by
  unfold Warp.setP; split <;> rfl
@[simp] theorem Warp.setP_fctl (w : Warp) (n : Nat) (m x : Mask) :
    (w.setP n m x).fctl = w.fctl := by
  unfold Warp.setP; split <;> rfl
@[simp] theorem Warp.setP_sealOn (w : Warp) (n : Nat) (m x : Mask) :
    (w.setP n m x).sealOn = w.sealOn := by
  unfold Warp.setP; split <;> rfl
@[simp] theorem Warp.setP_waits (w : Warp) (n : Nat) (m x : Mask) :
    (w.setP n m x).waits = w.waits := by
  unfold Warp.setP; split <;> rfl
@[simp] theorem Warp.setP_tlanes (w : Warp) (n : Nat) (m x : Mask) :
    (w.setP n m x).tlanes = w.tlanes := by
  unfold Warp.setP; split <;> rfl
@[simp] theorem Warp.setP_tpc (w : Warp) (n : Nat) (m x : Mask) :
    (w.setP n m x).tpc = w.tpc := by
  unfold Warp.setP; split <;> rfl
@[simp] theorem Warp.setP_tcause (w : Warp) (n : Nat) (m x : Mask) :
    (w.setP n m x).tcause = w.tcause := by
  unfold Warp.setP; split <;> rfl
@[simp] theorem Warp.setP_tinfo (w : Warp) (n : Nat) (m x : Mask) :
    (w.setP n m x).tinfo = w.tinfo := by
  unfold Warp.setP; split <;> rfl
@[simp] theorem Warp.setP_handler (w : Warp) (n : Nat) (m x : Mask) :
    (w.setP n m x).handler = w.handler := by
  unfold Warp.setP; split <;> rfl
@[simp] theorem Warp.setP_held (w : Warp) (n : Nat) (m x : Mask) :
    (w.setP n m x).held = w.held := by
  unfold Warp.setP; split <;> rfl
@[simp] theorem Warp.setP_heldId (w : Warp) (n : Nat) (m x : Mask) :
    (w.setP n m x).heldId = w.heldId := by
  unfold Warp.setP; split <;> rfl
@[simp] theorem Warp.setP_arrived (w : Warp) (n : Nat) (m x : Mask) :
    (w.setP n m x).arrived = w.arrived := by
  unfold Warp.setP; split <;> rfl
@[simp] theorem Warp.setP_arrival (w : Warp) (n : Nat) (m x : Mask) :
    (w.setP n m x).arrival = w.arrival := by
  unfold Warp.setP; split <;> rfl
@[simp] theorem Warp.setP_openBatch (w : Warp) (n : Nat) (m x : Mask) :
    (w.setP n m x).openBatch = w.openBatch := by
  unfold Warp.setP; split <;> rfl
@[simp] theorem Warp.setP_outs (w : Warp) (n : Nat) (m x : Mask) :
    (w.setP n m x).outs = w.outs := by
  unfold Warp.setP; split <;> rfl
@[simp] theorem Warp.setP_opCount (w : Warp) (n : Nat) (m x : Mask) :
    (w.setP n m x).opCount = w.opCount := by
  unfold Warp.setP; split <;> rfl
@[simp] theorem Warp.setP_park (w : Warp) (n : Nat) (m x : Mask) :
    (w.setP n m x).park = w.park := by
  unfold Warp.setP; split <;> rfl
@[simp] theorem Warp.setP_fetchMiss (w : Warp) (n : Nat) (m x : Mask) :
    (w.setP n m x).fetchMiss = w.fetchMiss := by
  unfold Warp.setP; split <;> rfl
@[simp] theorem Warp.setP_stall (w : Warp) (n : Nat) (m x : Mask) :
    (w.setP n m x).stall = w.stall := by
  unfold Warp.setP; split <;> rfl
@[simp] theorem Warp.setP_exitAt (w : Warp) (n : Nat) (m x : Mask) :
    (w.setP n m x).exitAt = w.exitAt := by
  unfold Warp.setP; split <;> rfl
@[simp] theorem Warp.setP_retired (w : Warp) (n : Nat) (m x : Mask) :
    (w.setP n m x).retired = w.retired := by
  unfold Warp.setP; split <;> rfl
@[simp] theorem Warp.setP_request (w : Warp) (n : Nat) (m x : Mask) :
    (w.setP n m x).request = w.request := by
  unfold Warp.setP; split <;> rfl

end Sys2Proof.Machine
end

