-- ==== Sys2Proof/Laws/Ops.lean ====
section
/-! SUPPORT. What ending an instruction or a clause does to the rest of the machine, said once: the warp is the one given, and
everything else is the same. -/

namespace Sys2Proof.Machine

/-! ## SameElsewhere -/

theorem SameElsewhere.refl (s : State) (r : WRef) : SameElsewhere s s r :=
  ⟨rfl, fun _ _ => rfl, fun _ => rfl, fun _ _ => rfl, fun b hb => ⟨b, hb, rfl, fun _ _ => rfl⟩⟩

theorem SameElsewhere.trans {s t u : State} {r : WRef} (h : SameElsewhere s t r) (k : SameElsewhere t u r) :
    SameElsewhere s u r where
  rest := by
    have h1 := h.rest
    have k1 := k.rest
    have e : ({ u with masters := s.masters, grids := s.grids, dies := s.dies } : State) =
        { ({ u with masters := t.masters, grids := t.grids, dies := t.dies } : State) with
          masters := s.masters, grids := s.grids, dies := s.dies } := rfl
    rw [e, k1, h1]
  dies := fun d hd => by
    have h1 := h.dies d hd
    have k1 := k.dies d hd
    have e : ({ u.die d with perf := (s.die d).perf } : Die) =
        { ({ u.die d with perf := (t.die d).perf } : Die) with perf := (s.die d).perf } := rfl
    rw [e, k1, h1]
  grids := fun x => (k.grids x).trans (h.grids x)
  masters := fun m hm => (k.masters m hm).trans (h.masters m hm)
  own := fun b hb => by
    obtain ⟨b1, hb1, e1, w1⟩ := h.own b hb
    obtain ⟨b2, hb2, e2, w2⟩ := k.own b1 hb1
    refine ⟨b2, hb2, ?_, fun j hj => (w2 j hj).trans (w1 j hj)⟩
    have e : ({ b2 with warps := b.warps, timer := b.timer } : Master) =
        { ({ b2 with warps := b1.warps, timer := b1.timer } : Master) with warps := b.warps, timer := b.timer } := rfl
    rw [e, e2, e1]

theorem sameElsewhere_modWarp (s : State) (r : WRef) (f : Warp → Warp) : SameElsewhere s (s.modWarp r f) r where
  rest := by
    unfold State.modWarp State.modMaster
    split <;> rfl
  dies := fun d _ => by simp [State.die]
  grids := fun u => by simp
  masters := fun m hm => State.modWarp_master_ne s r m f hm
  own := fun b hb => by
    refine ⟨b.modWarp r.w f, by simp [State.modWarp_master, hb], rfl, fun j hj => ?_⟩
    rw [Master.modWarp_warp, if_neg hj]

theorem State.modDie_die (s : State) (d e : Nat) (f : Die → Die) (he : e < 8) :
    (s.modDie d f).die e = if e = d then f (s.die e) else s.die e := fileAt_getD 8 s.dies d e f he

theorem sameElsewhere_perf (s : State) (r : WRef) (d core event n : Nat) : SameElsewhere s (s.perf d core event n) r where
  rest := rfl
  dies := fun e he => by
    unfold State.perf
    rw [State.modDie_die _ _ _ _ he]
    split <;> rfl
  grids := fun _ => rfl
  masters := fun _ _ => rfl
  own := fun b hb => ⟨b, hb, rfl, fun _ _ => rfl⟩

@[simp] theorem State.perf_master (s : State) (d core event n m : Nat) : (s.perf d core event n).master m = s.master m := rfl
@[simp] theorem State.perf_warp (s : State) (d core event n : Nat) (r : WRef) :
    (s.perf d core event n).warp r = s.warp r := rfl

theorem sameElsewhere_progress (s : State) (r : WRef) (a : Bool) : SameElsewhere s (s.progress r.m a) r := by
  unfold State.progress
  cases hb : s.master r.m with
  | none => exact .refl s r
  | some b =>
    simp only
    split
    · have h1 : SameElsewhere s (s.setMaster r.m { b with timer := s.cycles }) r :=
        ⟨rfl, fun _ _ => rfl, fun _ => rfl, fun m hm => State.setMaster_master_ne _ _ _ _ hm,
         fun b' hb' => ⟨{ b with timer := s.cycles }, by simp, by rw [hb] at hb'; cases hb'; rfl,
           fun j _ => by rw [hb] at hb'; cases hb'; rfl⟩⟩
      split
      · rename_i u _
        split
        · rename_i g hg
          refine ⟨rfl, fun _ _ => rfl, fun v => ?_, h1.masters, h1.own⟩
          simp only [aget_aset, State.setMaster_grids]
          split
          · subst_vars
            simp only [State.setMaster_grids] at hg
            simp [hg]
          · rfl
        · exact h1
      · exact h1
    · exact .refl s r

@[simp] theorem State.progress_warp (s : State) (m : Nat) (a : Bool) (r : WRef) : (s.progress m a).warp r = s.warp r := by
  unfold State.progress
  cases hb : s.master m with
  | none => rfl
  | some b =>
    simp only
    split
    · have h1 : (s.setMaster m { b with timer := s.cycles }).warp r = s.warp r := by
        unfold State.warp
        by_cases h : r.m = m
        · subst h; simp [hb]
        · rw [State.setMaster_master_ne _ _ _ _ h]
      split
      · split
        · exact h1
        · exact h1
      · exact h1
    · rfl

theorem sameElsewhere_retire (s : State) (c : Ctx) : SameElsewhere s (s.retireInstr c) c.ref :=
  (sameElsewhere_perf s c.ref _ _ _ _).trans (sameElsewhere_progress _ c.ref _)

@[simp] theorem State.retireInstr_warp (s : State) (c : Ctx) (r : WRef) : (s.retireInstr c).warp r = s.warp r := by
  simp [State.retireInstr]

/-! ## Ending an instruction and a clause -/

theorem done_same (s : State) (c : Ctx) (n : Nat) (w : Warp) : SameElsewhere s (done s c n w) c.ref :=
  (sameElsewhere_modWarp s c.ref _).trans (sameElsewhere_retire _ c)

theorem done_warp {s : State} {c : Ctx} {w0 : Warp} (h : s.warp c.ref = some w0) (n : Nat) (w : Warp) :
    (done s c n w).warp c.ref = some (s.stepOver c.b w c.c n) := by
  simp [done, State.modWarp_warp, h]

theorem doneTo_same (s : State) (c : Ctx) (w : Warp) (rs : List Reach) : SameElsewhere s (doneTo s c w rs) c.ref :=
  (sameElsewhere_modWarp s c.ref _).trans (sameElsewhere_retire _ c)

theorem doneTo_warp {s : State} {c : Ctx} {w0 : Warp} (h : s.warp c.ref = some w0) (w : Warp) (rs : List Reach) :
    (doneTo s c w rs).warp c.ref = some (s.endClause c.b w rs) := by
  simp [doneTo, State.modWarp_warp, h]

/-- An instruction that ends in `done` of a state that still holds the warp. -/
theorem completes_done {u : State} {c : Ctx} {w0 : Warp} (h : u.warp c.ref = some w0) (n : Nat) (w : Warp) :
    Completes u c n w (.next (done u c n w)) := ⟨_, rfl, done_same u c n w, done_warp h n w⟩

theorem completesTo_doneTo {u : State} {c : Ctx} {w0 : Warp} (h : u.warp c.ref = some w0) (w : Warp) (rs : List Reach) :
    CompletesTo u c w rs (.next (doneTo u c w rs)) := ⟨_, rfl, doneTo_same u c w rs, doneTo_warp h w rs⟩

/-- A check that is met leaves the instruction its effect. -/
theorem checked_nil {s : State} {c : Ctx} {f : State} {subs : List Nat} (h : subs = []) : checked s c subs f = f := by
  subst h; rfl

end Sys2Proof.Machine
end

