-- ==== Sys2Proof/Laws/Regs.lean ====
section
/-! SUPPORT. What writing a destination does to a warp, said once for the operand forms of Machine/Operands.lean. -/

namespace Sys2Proof.Machine

theorem low_setWidth (x : Word) : (x.setWidth 64).extractLsb' 0 32 = x := by
  apply BitVec.eq_of_toNat_eq
  have := x.isLt
  simp; omega

theorem setWidth_low (x : Dword) : x.setWidth 32 = x.extractLsb' 0 32 := by
  apply BitVec.eq_of_toNat_eq
  simp

/-- A field that names `n` registers: vz, or one register, or an even pair (R119). -/
theorem regs5_nil {f : Reg5} {n : Nat} (h : regs5 f n = []) : f = 31 ∨ (f.toNat % n = 0 ∧ f.toNat + n ≤ 31) := by
  unfold regs5 need at h
  split at h
  · rename_i hc
    simp only [Bool.or_eq_true, beq_iff_eq, Bool.and_eq_true, decide_eq_true_eq] at hc
    exact hc
  · cases h

theorem vKey_inj {base r q : Nat} (h : vKey base r = vKey base q) : r = q := by unfold vKey at h; omega

theorem Warp.setV_rest (w : Warp) (base r : Nat) (m : Mask) (f : Nat → Word) :
    { w.setV base r m f with regs := w.regs } = w := by
  unfold Warp.setV; split <;> rfl

theorem Warp.setV2_rest (w : Warp) (base r : Nat) (m : Mask) (f : Nat → Dword) :
    { w.setV2 base r m f with regs := w.regs } = w := by
  unfold Warp.setV2
  split
  · rfl
  · have h1 := Warp.setV_rest (w.setV base r m fun l => (f l).extractLsb' 0 32) base (r + 1) m fun l => (f l).extractLsb' 32 32
    have h2 := Warp.setV_rest w base r m fun l => (f l).extractLsb' 0 32
    generalize (w.setV base r m fun l => (f l).extractLsb' 0 32) = w1 at *
    generalize w1.setV base (r + 1) m (fun l => (f l).extractLsb' 32 32) = w2 at *
    have e : ({ w2 with regs := w.regs } : Warp) = { ({ w2 with regs := w1.regs } : Warp) with regs := w.regs } := rfl
    rw [e, h1, h2]

/-- A single destination. -/
theorem writesV_putV (c : Ctx) (d : Reg5) (m : Mask) (f : Nat → Word) :
    WritesV c.w (c.putV d m f) c.c.base d 1 m (fun l => (f l).setWidth 64) where
  low := fun hd l hl hm => by
    have h31 : d.toNat ≠ 31 := fun h => hd (BitVec.eq_of_toNat_eq h)
    rw [Ctx.putV, Warp.setV_v _ _ _ _ _ _ h31 hl, if_pos hm, low_setWidth]
  high := fun _ h => absurd h (by decide)
  kept := fun b r l hr hl h => by
    by_cases hd : d = 31
    · subst hd; rfl
    have h31 : d.toNat ≠ 31 := fun h => hd (BitVec.eq_of_toNat_eq h)
    by_cases hk : vKey b r = vKey c.c.base d.toNat
    · obtain h | h | h := h
      · exact absurd h hd
      · have e : ∀ w : Warp, w.v b r l = w.v c.c.base d.toNat l := fun w => by simp [Warp.v, hr, h31, hk]
        rw [e, e, Ctx.putV, Warp.setV_v _ _ _ _ _ _ h31 hl, h]; rfl
      · exact absurd hk h.1
    · exact Warp.setV_v_ne _ _ _ _ _ _ _ _ hk
  rest := Warp.setV_rest _ _ _ _ _

/-- One register or an even pair. -/
theorem writesV_putVn (c : Ctx) (d : Reg5) (n : Nat) (m : Mask) (f : Nat → Dword) (hn : n = 1 ∨ n = 2)
    (hd : regs5 d n = []) : WritesV c.w (c.putVn n d m f) c.c.base d n m f := by
  obtain rfl | rfl := hn
  · have h := writesV_putV c d m fun l => (f l).setWidth 32
    refine ⟨fun a l b e => ?_, fun _ h => absurd h (by decide), h.kept, h.rest⟩
    have := h.low a l b e
    simp only [Ctx.putVn, Ctx.putV] at *
    rw [if_neg (by decide), this, low_setWidth, setWidth_low]
  · obtain rfl | ⟨h2, h3⟩ := regs5_nil hd
    · exact ⟨fun h => absurd rfl h, fun h => absurd rfl h, fun _ _ _ _ _ _ => rfl, rfl⟩
    have h31 : d.toNat ≠ 31 := by omega
    have hne : d ≠ 31 := fun h => h31 (by subst h; rfl)
    have h32 : d.toNat + 1 ≠ 31 := by omega
    have hk : vKey c.c.base d.toNat ≠ vKey c.c.base (d.toNat + 1) := fun h => by have := vKey_inj h; omega
    have e : c.putVn 2 d m f = (c.w.setV c.c.base d.toNat m fun l => (f l).extractLsb' 0 32).setV c.c.base (d.toNat + 1) m
        fun l => (f l).extractLsb' 32 32 := by simp [Ctx.putVn, Warp.setV2, h31]
    refine ⟨fun _ l hl hm => ?_, fun _ _ l hl hm => ?_, fun b r l hr hl h => ?_, ?_⟩
    · rw [e, Warp.setV_v_ne _ _ _ _ _ _ _ _ hk, Warp.setV_v _ _ _ _ _ _ h31 hl, if_pos hm]
    · rw [e, Warp.setV_v _ _ _ _ _ _ h32 hl, if_pos hm]
    · have hv : ∀ (w : Warp) (q : Nat), q ≠ 31 → vKey b r = vKey c.c.base q → w.v b r l = w.v c.c.base q l := fun w q hq hk => by
        simp [Warp.v, hr, hq, hk]
      obtain h | h | h := h
      · exact absurd h hne
      · rw [e]
        by_cases k2 : vKey b r = vKey c.c.base (d.toNat + 1)
        · rw [hv _ _ h32 k2, hv _ _ h32 k2, Warp.setV_v _ _ _ _ _ _ h32 hl, h, if_neg (by decide),
            Warp.setV_v_ne _ _ _ _ _ _ _ _ hk.symm]
        · rw [Warp.setV_v_ne _ _ _ _ _ _ _ _ k2]
          by_cases k1 : vKey b r = vKey c.c.base d.toNat
          · rw [hv _ _ h31 k1, hv _ _ h31 k1, Warp.setV_v _ _ _ _ _ _ h31 hl, h]; rfl
          · exact Warp.setV_v_ne _ _ _ _ _ _ _ _ k1
      · rw [e, Warp.setV_v_ne _ _ _ _ _ _ _ _ (h.2 rfl), Warp.setV_v_ne _ _ _ _ _ _ _ _ h.1]
    · exact Warp.setV2_rest c.w c.c.base d.toNat m f

theorem Warp.setS_rest (w : Warp) (r : Nat) (x : Word) : { w.setS r x with unif := w.unif } = w := by
  unfold Warp.setS; split <;> rfl

/-- A single uniform destination. -/
theorem writesS_setS (w : Warp) (r : Nat) (hr : r ≤ 63) (x : Word) : WritesS w (w.setS r x) r 1 (x.setWidth 64) where
  low := fun h => by
    rw [Warp.setS_s w r r x h (by omega), if_pos rfl, low_setWidth]
  high := fun h => absurd h (by decide)
  kept := fun k hk h => by
    by_cases h63 : r = 63
    · subst h63; rfl
    obtain h | h := h
    · exact absurd h h63
    rw [Warp.setS_s w r k x (by omega) hk, if_neg h.1]
  rest := Warp.setS_rest _ _ _

/-- A pair of uniform registers. -/
theorem writesS_setS2 (w : Warp) (r : Nat) (hr : r = 63 ∨ r + 1 < 63) (x : Dword) : WritesS w (w.setS2 r x) r 2 x := by
  obtain rfl | hr := hr
  · exact ⟨fun h => absurd h (by decide), fun _ h => absurd h (by decide), fun _ _ _ => rfl, rfl⟩
  have e : w.setS2 r x = (w.setS r (x.extractLsb' 0 32)).setS (r + 1) (x.extractLsb' 32 32) := by
    simp only [Warp.setS2]; rw [if_neg (by simp; omega)]
  refine ⟨fun h => ?_, fun _ h => ?_, fun k hk h => ?_, ?_⟩
  · rw [e, Warp.setS_s _ _ _ _ (by omega) (by omega), if_neg (by omega), Warp.setS_s _ _ _ _ h (by omega), if_pos rfl]
  · rw [e, Warp.setS_s _ _ _ _ h (by omega), if_pos rfl]
  · obtain h | h := h
    · omega
    · rw [e, Warp.setS_s _ _ _ _ (by omega) hk, if_neg (h.2 rfl), Warp.setS_s _ _ _ _ (by omega) hk, if_neg h.1]
  · have h1 := Warp.setS_rest (w.setS r (x.extractLsb' 0 32)) (r + 1) (x.extractLsb' 32 32)
    have h2 := Warp.setS_rest w r (x.extractLsb' 0 32)
    rw [e]
    generalize (w.setS r (x.extractLsb' 0 32)) = w1 at *
    generalize w1.setS (r + 1) (x.extractLsb' 32 32) = w2 at *
    have e : ({ w2 with unif := w.unif } : Warp) = { ({ w2 with unif := w1.unif } : Warp) with unif := w.unif } := rfl
    rw [e, h1, h2]

theorem u5_le (r : Reg5) : u5 r ≤ 63 := by unfold u5; split <;> omega

/-- One register or an even pair of uniform registers. -/
theorem writesS_putSn (c : Ctx) (d : Reg5) (n : Nat) (x : Dword) (hn : n = 1 ∨ n = 2) (hd : regs5 d n = []) :
    WritesS c.w (c.putSn n d x) (u5 d) n x := by
  obtain rfl | rfl := hn
  · have h := writesS_setS c.w (u5 d) (u5_le d) (x.setWidth 32)
    refine ⟨fun a => ?_, fun h => absurd h (by decide), h.kept, h.rest⟩
    have := h.low a
    simp only [Ctx.putSn, Warp.setS5]
    rw [if_neg (by decide), this, low_setWidth, setWidth_low]
  · simp only [Ctx.putSn]
    rw [if_pos (by decide)]
    refine writesS_setS2 c.w (u5 d) ?_ x
    obtain rfl | h := regs5_nil hd
    · exact .inl rfl
    · refine .inr ?_
      unfold u5
      rw [if_neg (by intro h'; simp only [beq_iff_eq] at h'; subst h'; simp at h)]
      omega

theorem Mask.has_and_or (o m x : Mask) (l : Nat) (hl : l < 128) :
    Mask.has ((o &&& ~~~m) ||| (x &&& m)) l = if m.has l then x.has l else o.has l := by
  simp only [Mask.has, BitVec.getLsbD_or, BitVec.getLsbD_and, BitVec.getLsbD_not, hl, decide_true, Bool.true_and]
  by_cases h : m.getLsbD l = true
  · simp [h]
  · simp [h]

/-- A predicate destination. -/
theorem writesP_setP (w : Warp) (q : Nat) (hq : q ≤ 7) (m x : Mask) : WritesP w (w.setP q m x) q m x where
  value := fun h l hl => by
    rw [Warp.setP_p w q q m x h (by omega), if_pos rfl]
    exact Mask.has_and_or _ _ _ _ hl
  kept := fun k hk h => by
    by_cases h7 : q = 7
    · subst h7; rfl
    · rw [Warp.setP_p w q k m x (by omega) hk, if_neg h]
  rest := by unfold Warp.setP; split <;> rfl

end Sys2Proof.Machine
end

