-- ==== Sys2Proof/Laws/Memory.lean ====
section
/-! SUPPORT. Memory: what a read after a write gives, and that every operation on memory keeps its canonical form. -/

namespace Sys2Proof.Machine

/-! ## The canonical form -/

theorem Memory.wf_cons (a : Nat) (b : Byte) (r : Memory) :
    Memory.wf ((a, b) :: r) = true ↔ b ≠ 0 ∧ (∀ p ∈ r, a < p.1) ∧ Memory.wf r = true := by
  induction r generalizing a b with
  | nil => simp [Memory.wf]
  | cons q r ih =>
    obtain ⟨c, d⟩ := q
    have h := ih c d
    have e : Memory.wf ((a, b) :: (c, d) :: r) = (b != 0 && decide (a < c) && Memory.wf ((c, d) :: r)) := rfl
    rw [e]
    simp only [Bool.and_eq_true, bne_iff_ne, decide_eq_true_eq, List.mem_cons, forall_eq_or_imp]
    constructor
    · rintro ⟨⟨h1, h2⟩, h3⟩
      exact ⟨h1, ⟨h2, fun p hp => Nat.lt_trans h2 ((h.1 h3).2.1 p hp)⟩, h3⟩
    · rintro ⟨h1, h2, h3⟩
      exact ⟨⟨h1, h2.1⟩, h3⟩

theorem aset_mem {α : Type} (l : List (Nat × α)) (k : Nat) (v : α) (p : Nat × α) (h : p ∈ aset l k v) :
    p = (k, v) ∨ p ∈ l := by
  induction l with
  | nil => simpa [aset] using h
  | cons q r ih =>
    obtain ⟨j, u⟩ := q
    unfold aset at h
    split at h
    · simp only [List.mem_cons] at h ⊢
      rcases h with h | h
      · exact .inr (.inl h)
      · exact (ih h).imp id .inr
    · split at h
      · simp only [List.mem_cons] at h ⊢
        exact h.imp id .inr
      · simp only [List.mem_cons] at h ⊢
        exact h

theorem Memory.aset_wf (m : Memory) (a : Nat) (b : Byte) (hb : b ≠ 0) (h : m.wf = true) :
    Memory.wf (aset m a b) = true := by
  induction m with
  | nil => simpa [aset, Memory.wf] using hb
  | cons q r ih =>
    obtain ⟨c, d⟩ := q
    obtain ⟨hd, hr, hw⟩ := (Memory.wf_cons c d r).1 h
    unfold aset
    split
    · rename_i hc
      refine (Memory.wf_cons _ _ _).2 ⟨hd, fun p hp => ?_, ih hw⟩
      rcases aset_mem r a b p hp with rfl | hp
      · exact hc
      · exact hr p hp
    · rename_i hc
      split
      · rename_i he
        simp only [beq_iff_eq] at he
        subst he
        exact (Memory.wf_cons _ _ _).2 ⟨hb, hr, hw⟩
      · rename_i he
        simp only [beq_iff_eq] at he
        refine (Memory.wf_cons _ _ _).2 ⟨hb, fun p hp => ?_, h⟩
        simp only [List.mem_cons] at hp
        rcases hp with rfl | hp
        · show a < c; omega
        · have := hr p hp; omega

theorem Memory.filter_wf (m : Memory) (f : Host.Cell → Bool) (h : m.wf = true) : Memory.wf (m.filter f) = true := by
  induction m with
  | nil => rfl
  | cons q r ih =>
    obtain ⟨c, d⟩ := q
    obtain ⟨hd, hr, hw⟩ := (Memory.wf_cons c d r).1 h
    rw [List.filter_cons]
    split
    · exact (Memory.wf_cons _ _ _).2 ⟨hd, fun p hp => hr p (List.mem_filter.1 hp).1, ih hw⟩
    · exact ih hw

/-- Writing a byte keeps the canonical form. -/
theorem Memory.write_wf (m : Memory) (a : Nat) (b : Byte) (h : m.wf = true) : (m.write a b).wf = true := by
  unfold Memory.write
  split
  · exact Memory.filter_wf m _ h
  · rename_i hb
    exact Memory.aset_wf m a b (fun h => hb (by simp [h])) h

/-- What a byte reads as after a write. -/
theorem Memory.read_write (m : Memory) (a c : Nat) (b : Byte) :
    (m.write a b).read c = if c = a then b else m.read c := by
  unfold Memory.write Memory.read
  split
  · rename_i hb
    simp only [beq_iff_eq] at hb
    split
    · rename_i hc; subst hc; simp [hb]
    · rename_i hc; rw [aget_adel_ne _ _ _ hc]
  · rw [aget_aset]
    split <;> rfl

/-! ## Runs of bytes -/

theorem foldl_write_wf (l : List (Byte × Nat)) (k : Nat) (m : Memory) (h : m.wf = true) :
    (l.foldl (fun acc p => acc.write (k + p.2) p.1) m).wf = true := by
  induction l generalizing m with
  | nil => exact h
  | cons p r ih => exact ih _ (Memory.write_wf _ _ _ h)

theorem writeBytes_wf (m : Memory) (k : Nat) (bs : List Byte) (h : m.wf = true) : (writeBytes m k bs).wf = true :=
  foldl_write_wf _ k m h

theorem foldl_write_read (bs : List Byte) (k i a : Nat) (m : Memory) :
    ((bs.zipIdx i).foldl (fun acc p => acc.write (k + p.2) p.1) m).read a =
      if k + i ≤ a ∧ a < k + i + bs.length then bs.getD (a - (k + i)) 0 else m.read a := by
  induction bs generalizing i m with
  | nil => exact (if_neg fun h => by have := h.2; simp only [List.length_nil] at this; omega).symm
  | cons b r ih =>
    rw [List.zipIdx_cons, List.foldl_cons, ih, Memory.read_write]
    by_cases h1 : k + (i + 1) ≤ a ∧ a < k + (i + 1) + r.length
    · rw [if_pos h1, if_pos (by simp only [List.length_cons]; omega)]
      have e : a - (k + i) = (a - (k + (i + 1))) + 1 := by omega
      rw [e, List.getD_cons_succ]
    · rw [if_neg h1]
      by_cases h2 : a = k + i
      · rw [if_pos h2, if_pos (by simp only [List.length_cons]; omega)]
        simp [h2]
      · rw [if_neg h2, if_neg (by simp only [List.length_cons]; omega)]

/-- What a byte reads as after a run of bytes is written. -/
theorem read_writeBytes (m : Memory) (k a : Nat) (bs : List Byte) :
    (writeBytes m k bs).read a = if k ≤ a ∧ a < k + bs.length then bs.getD (a - k) 0 else m.read a :=
  foldl_write_read bs k 0 a m

/-- A run of bytes read back. -/
theorem readBytes_writeBytes (m : Memory) (k : Nat) (bs : List Byte) : readBytes (writeBytes m k bs) k bs.length = bs := by
  apply List.ext_getElem
  · simp [readBytes]
  · intro i h1 h2
    simp only [readBytes, List.getElem_map, List.getElem_range, read_writeBytes]
    rw [if_pos ⟨by omega, by omega⟩]
    simp [h2]

/-! ## The machine's own writes -/

/-- A memory that keeps its form whatever form it had. -/
def KeepsMem (s t : State) : Prop := s.mem.wf = true → t.mem.wf = true

theorem KeepsMem.refl (s : State) : KeepsMem s s := id
theorem KeepsMem.trans {s t u : State} (h : KeepsMem s t) (k : KeepsMem t u) : KeepsMem s u := fun x => k (h x)
theorem KeepsMem.of_eq {s t : State} (h : t.mem = s.mem) : KeepsMem s t := fun x => h ▸ x

theorem keepsMem_foldl {α : Type} (l : List α) (f : State → α → State) (h : ∀ s a, KeepsMem s (f s a)) (s : State) :
    KeepsMem s (l.foldl f s) := by
  induction l generalizing s with
  | nil => exact .refl s
  | cons a r ih => exact (h s a).trans (ih _)

theorem fqAppend_keepsMem {s t : State} {r : FRecord} (h : s.fqAppend r = some t) : KeepsMem s t := by
  unfold State.fqAppend at h
  split at h
  · cases h
  · split at h
    · cases h; exact writeBytes_wf _ _ _
    · cases h

theorem record_keepsMem (s : State) (d : Nat) (r : FRecord) : KeepsMem s (s.record d r) := by
  unfold State.record
  split
  · cases h : s.fqAppend r with
    | none => exact .of_eq rfl
    | some t => exact fqAppend_keepsMem h
  · exact .of_eq rfl

theorem checkForm_keepsMem (s : State) (k : Nat) (p : Bool) : KeepsMem s (s.checkForm k p) := by
  unfold State.checkForm
  split
  · split
    · exact .refl s
    · exact .refl s
    · exact .refl s
    · exact fun h => record_keepsMem _ _ _ h
  · exact .refl s

theorem homeWrite_keepsMem (s : State) (k : Nat) (bs : List Byte) : KeepsMem s (s.homeWrite k bs) := by
  unfold State.homeWrite
  split
  · exact .refl s
  · exact writeBytes_wf _ _ _

theorem publishSector_keepsMem (s : State) (i : Nat) (x : Sector) : KeepsMem s (s.publishSector i x) := by
  refine KeepsMem.trans (t := if x.dirty == 0 then s else s.checkForm (32 * i) x.packed) ?_ ?_
  · split
    · exact .refl s
    · exact checkForm_keepsMem _ _ _
  · exact keepsMem_foldl _ _ (fun s a => by
      split
      · exact homeWrite_keepsMem _ _ _
      · exact .refl s) _

theorem modDie_keepsMem {s t : State} (d : Nat) (f : Die → Die) (h : KeepsMem s t) : KeepsMem s (t.modDie d f) :=
  fun x => h x

theorem publishAll_keepsMem (l : List (Nat × Sector)) (s : State) :
    KeepsMem s (l.foldl (fun t p => t.publishSector p.1 p.2) s) := by
  induction l generalizing s with
  | nil => exact .refl s
  | cons a r ih => exact (publishSector_keepsMem s a.1 a.2).trans (ih _)

theorem dropCopies_keepsMem (s : State) (d : Nat) (f : Nat → Bool) : KeepsMem s (s.dropCopies d f) := by
  unfold State.dropCopies
  dsimp only
  exact modDie_keepsMem _ _ (publishAll_keepsMem _ s)

theorem publishCopies_keepsMem (s : State) (d : Nat) (f : Nat → Bool) : KeepsMem s (s.publishCopies d f) := by
  unfold State.publishCopies
  dsimp only
  exact modDie_keepsMem _ _ (publishAll_keepsMem _ s)

theorem fillSector_keepsMem (s : State) (d i : Nat) (p : Bool) : KeepsMem s (s.fillSector d i p).1 := by
  unfold State.fillSector
  split
  · exact .refl s
  · dsimp only
    split
    · exact checkForm_keepsMem _ _ _
    · exact modDie_keepsMem _ _ (checkForm_keepsMem _ _ _)

theorem touch_mem (s : State) (k n : Nat) : (s.touch k n).mem = s.mem := by
  unfold State.touch
  simp only
  split <;> rfl

theorem dieRead_keepsMem (s : State) (d k n : Nat) (fresh packed : Bool) : KeepsMem s (s.dieRead d k n fresh packed).1 := by
  unfold State.dieRead
  split
  · exact checkForm_keepsMem _ _ _
  · split
    · exact (dropCopies_keepsMem _ _ _).trans (checkForm_keepsMem _ _ _)
    · have h := fillSector_keepsMem s d (k / 32) packed
      dsimp only
      split <;> exact h

theorem dieWrite_keepsMem (s : State) (d k : Nat) (bs : List Byte) (fresh packed : Bool) :
    KeepsMem s (s.dieWrite d k bs fresh packed) := by
  refine (KeepsMem.of_eq (touch_mem s k bs.length)).trans ?_
  unfold State.dieWrite
  generalize s.touch k bs.length = u
  dsimp only
  split
  · exact (checkForm_keepsMem _ _ _).trans (homeWrite_keepsMem _ _ _)
  · split
    · exact ((dropCopies_keepsMem _ _ _).trans (checkForm_keepsMem _ _ _)).trans (homeWrite_keepsMem _ _ _)
    · have h := fillSector_keepsMem u d (k / 32) packed
      split
      · exact h.trans (homeWrite_keepsMem _ _ _)
      · exact h

theorem engineWrite_keepsMem (s : State) (d k : Nat) (bs : List Byte) (packed : Bool) :
    KeepsMem s (s.engineWrite d k bs packed) :=
  ((checkForm_keepsMem s k packed).trans (.of_eq (touch_mem _ _ _))).trans
    ((dropCopies_keepsMem _ _ _).trans (homeWrite_keepsMem _ _ _))

theorem engineRead_keepsMem (s : State) (k n : Nat) (packed : Bool) : KeepsMem s (s.engineRead k n packed).1 :=
  checkForm_keepsMem s k packed

end Sys2Proof.Machine
end

