-- ==== Sys2Proof/Laws/Operands.lean ====
section
/-! SUPPORT. What the shared forms of the computing instructions do, said once: each moves on with its result written. -/

namespace Sys2Proof.Machine

theorem wf_static {i : Instr} (h : i.WellFormed = true) : i.staticSubs = [] := by
  simp only [Instr.WellFormed, Bool.and_eq_true, List.isEmpty_iff] at h
  exact h.2

theorem ctx_warp {s : State} {c : Ctx} (h : s.ctx = some c) : s.warp c.ref = some c.w := by
  unfold State.ctx at h
  unfold State.warp
  split at h <;> try cases h
  split at h <;> try cases h
  split at h <;> try cases h
  split at h <;> try cases h
  simp_all

theorem withCtx_eq {s : State} {c : Ctx} (h : s.ctx = some c) (f : Ctx → State) : withCtx s f = .next (f c) := by
  simp [withCtx, h]

theorem ofFn_has (f : Nat → Bool) (l : Nat) (h : l < 128) : (Mask.ofFn f).has l = f l := by
  have h2 : ∀ b : BitVec (List.map f (List.range 128)).length, b = BitVec.ofBoolListLE ((List.range 128).map f) → b.getLsbD l = f l := by
    intro b hb
    rw [hb, BitVec.getLsbD_ofBoolListLE]; simp [h]
  exact h2 _ rfl

/-! ## Integer forms -/

theorem intBin_writes {s : State} {c : Ctx} (h : s.ctx = some c) (p d a b t nd na nb f) (R : Nat → Dword → Prop)
    (hn : nd = 1 ∨ nd = 2) (hd : regs5 d nd = [])
    (hR : ∀ l, R l (f (opA c b.uniform na a l) (c.intB b nb t l))) :
    Writes s c b.uniform d nd b.len (c.active p) R (intBin s p d a b t nd na nb f) := by
  unfold intBin
  rw [withCtx_eq h]
  unfold Writes
  split
  · rename_i hu
    refine ⟨_, f (c.sn na a) (c.intB b nb t 0), ?_, writesS_putSn c d nd _ hn hd, completes_done (ctx_warp h) _ _⟩
    have := hR 0
    rwa [opA, if_pos hu] at this
  · rename_i hu
    refine ⟨_, fun l => f (c.vn na a l) (c.intB b nb t l), fun l _ _ => ?_, writesV_putVn c d nd _ _ hn hd, completes_done (ctx_warp h) _ _⟩
    have := hR l
    rwa [opA, if_neg hu] at this

theorem intUn_writes {s : State} {c : Ctx} (h : s.ctx = some c) (p d a u nd na f) (R : Nat → Dword → Prop)
    (hn : nd = 1 ∨ nd = 2) (hd : regs5 d nd = [])
    (hR : ∀ l, R l (f (opA c (unUniform u) na a l))) :
    Writes s c (unUniform u) d nd 1 (c.active p) R (intUn s p d a u nd na f) := by
  unfold intUn
  rw [withCtx_eq h]
  cases u
  · exact ⟨_, fun l => f (c.vn na a l), fun l _ _ => hR l, writesV_putVn c d nd _ _ hn hd, completes_done (ctx_warp h) _ _⟩
  · exact ⟨_, f (c.sn na a), hR 0, writesS_putSn c d nd _ hn hd, completes_done (ctx_warp h) _ _⟩

theorem laneOp_writes {s : State} {c : Ctx} (h : s.ctx = some c) (p : Pred) (d : Reg5) (f : Ctx → Nat → Word) (R : Nat → Word → Prop)
  (hR : ∀ l, l < 128 → R l (f c l)) : Writes s c false d 1 1 (c.active p) (fun l x => R l (x.extractLsb' 0 32)) (laneOp s p d f) := by
  unfold laneOp
  rw [withCtx_eq h]
  exact ⟨_, fun l => (f c l).setWidth 64, fun l hl _ => by show R l _; rw [low_setWidth]; exact hR l hl, writesV_putV c d _ _, completes_done (ctx_warp h) _ _⟩

/-! ## Floating-point forms -/

theorem headD_filter_range (n : Nat) (q : Nat → Bool) (k : Nat) (hk : k < n) (h1 : q k = true) (h2 : ∀ j, j < k → q j = false) :
    ((List.range n).filter q).headD 0 = k := by
  have e : List.range n = List.range k ++ (k :: (List.range (n - k - 1)).map (· + (k + 1))) := by
    apply List.ext_getElem
    · simp; omega
    · intro i h h'
      simp only [List.getElem_range]
      by_cases hi : i < k
      · rw [List.getElem_append_left (by simpa using hi)]; simp
      · rw [List.getElem_append_right (by simpa using hi)]
        by_cases hk' : i = k
        · subst hk'; simp
        · obtain ⟨j, rfl⟩ : ∃ j, i = k + 1 + j := ⟨i - k - 1, by omega⟩
          have : k + 1 + j - (List.range k).length = j + 1 := by simp; omega
          simp only [this, List.getElem_cons_succ, List.getElem_map, List.getElem_range]; omega
  have h3 : (List.range k).filter q = [] := List.filter_eq_nil_iff.2 fun j hj => by simp [h2 j (List.mem_range.1 hj)]
  rw [e, List.filter_append, h3, List.nil_append, List.filter_cons_of_pos h1]; rfl

theorem lowestClass_eq (e : Exc) (k : Nat) (hk : k < 5) (h1 : e.getLsbD k = true) (h2 : ∀ j, j < k → e.getLsbD j = false) : lowestClass e = k :=
  headD_filter_range 5 _ k hk h1 h2

theorem excInfo (e : Exc) (n : Nat) (j : Nat) (hj : j < 5) : (BitVec.ofNat 32 (e.toNat + 256 * n)).getLsbD j = e.getLsbD j := by
  have he := e.isLt
  rw [BitVec.getLsbD_ofNat, BitVec.getLsbD]
  have : (e.toNat + 256 * n) = 2^8 * n + e.toNat := by omega
  rw [this, Nat.testBit_two_pow_mul_add _ (by omega)]
  simp [show j < 32 by omega, show j < 8 by omega]

theorem unionExc_bit (m : Mask) (f : Nat → Exc) (k : Nat) : (unionExc m f).getLsbD k = raises m f k := by
  unfold unionExc raises
  have : ∀ (ls : List Nat) (e : Exc), (ls.foldl (fun e l => e ||| f l) e).getLsbD k = (e.getLsbD k || ls.any fun l => (f l).getLsbD k) := by
    intro ls
    induction ls with
    | nil => simp
    | cons a r ih => intro e; simp [ih, Bool.or_assoc]
  rw [this]; simp

theorem fpDone_ends {s : State} {c : Ctx} (h : s.ctx = some c) (n : Nat) (m : Mask) (w : Warp) (hf : w.fflags = c.w.fflags) (hc : w.fctl = c.w.fctl) (exc) :
   FloatEnds s c n m w exc (.next (fpDone s c n m w exc)) := by
  have hu := unionExc_bit m exc
  refine ⟨w.fflags ||| unionExc m exc, fun k hk => by simp [hu, hf], fun hn => ?_, fun k hk h1 h2 h3 => ?_⟩
  · have : unionExc m exc &&& w.fctl = 0 := by
      apply BitVec.eq_of_getLsbD_eq
      intro i hi
      have := hn i hi
      rw [BitVec.getLsbD_and, hu, hc]
      cases hb : c.w.fctl.getLsbD i
      · simp
      · simp [this hb]
    unfold fpDone
    dsimp only
    rw [if_pos (by simp [this])]
    exact completes_done (ctx_warp h) _ _
  · have h0 : unionExc m exc &&& w.fctl ≠ 0 := fun h => by
      have : (unionExc m exc &&& w.fctl).getLsbD k = false := by rw [h]; simp
      simp [hu, hc, h1, h2] at this
    have hl : lowestClass (unionExc m exc &&& w.fctl) = k := lowestClass_eq _ k hk (by simp [hu, hc, h1, h2]) fun j hj => by
      rw [BitVec.getLsbD_and, hu, hc]
      cases hb : c.w.fctl.getLsbD j
      · simp
      · simp [h3 j hj hb]
    unfold fpDone
    dsimp only
    rw [if_neg (by simpa using h0), hl]
    refine ⟨_, _, _, rfl, ?_, ?_, ?_, ?_, ?_, ?_⟩
    · exact (sameElsewhere_modWarp s c.ref _).trans (sameElsewhere_retire _ c)
    · simp [State.modWarp_warp, ctx_warp h]
    · intro l hl
      have : ∀ a b : Mask, (a &&& b).has l = (a.has l && b.has l) := fun a b => by simp [Mask.has]
      rw [this, ofFn_has _ _ hl, hc]
      simp
    · exact fun j hj => (excInfo _ _ j hj).trans (hu j)
    · have := (unionExc m exc).isLt
      unfold field
      rw [BitVec.toNat_ofNat]
      omega
    · intro hn
      have := (unionExc m exc).isLt
      rw [BitVec.toNat_ofNat]
      omega

theorem fpLane_ends {s : State} {c : Ctx} (h : s.ctx = some c) (p d n) (f : Ctx → Nat → Word × Exc) :
    ∃ w, WritesV c.w w c.c.base d 1 (c.active p) (fun l => (f c l).1.setWidth 64) ∧
      FloatEnds s c n (c.active p) w (fun l => (f c l).2) (fpLane s p d n f) := by
  unfold fpLane
  rw [withCtx_eq h]
  have hw := writesV_putV c d (c.active p) fun l => (f c l).1
  have hr := hw.rest
  refine ⟨_, hw, fpDone_ends h _ _ _ ?_ ?_ _⟩
  · have := congrArg Warp.fflags hr; exact this
  · have := congrArg Warp.fctl hr; exact this

end Sys2Proof.Machine
end

