-- ==== Sys2Proof/Tests/Slice0.lean ====
section
/-! SUPPORT. Tests of one step each, words written out from the encodings of the spec, an ill-formed term for each check, and
for every statement with hypotheses a concrete state and operands that meet them. -/

namespace Sys2Proof.Tests

set_option Elab.async false

open Sys2Proof.Machine Sys2Proof.Claims

def pt : Pred := ⟨false, 7⟩

/-! ## Words of the spec's encodings (R118 to R134 and the examples of 06 to 16) -/

theorem test_decode_integer : decode 0x01CA5100#32 0 = .instr (.iadd pt 5 5 (.thread 2) .n32) ∧
    decode 0x11C61F83#32 0 = .instr (.popc pt 3 1 .thread .n32) := by decide +kernel

theorem test_decode_float : decode 0x6DC41F80#32 0x10000000 = .instr (.cvt pt 2 1 ⟨.bf16, .f32, .rn, false, false⟩) ∧
    decode 0x5DD28F88#32 0 = .instr (.sqrt pt 9 8 false) := by decide +kernel

theorem test_decode_lane : decode 0x79CA3FA0#32 0 = .instr (.scan pt 5 3 true .add .n32) ∧
    decode 0x7DD01100#32 0 = .instr (.bmand pt 8 1 2) := by decide +kernel

theorem test_decode_memory :
    decode 0x81C61208#32 0x11000100 = .instr (.ld ⟨pt, 3, 1, 2, 0, .b4, .normal⟩ ⟨.g, some 4, false, .plain, .w, 0x100⟩) ∧
    decode 0x81FE2F08#32 0x11800000 = .instr (.ld ⟨pt, 31, 2, 15, 0, .b4, .normal⟩ ⟨.g, some 6, false, .plain, .w, 0⟩) ∧
    decode 0x85CE1F08#32 0x11000010 = .instr (.st ⟨pt, 7, 1, 15, 0, .b4, .normal⟩ ⟨.g, some 4, false, .plain, .w, 0x10⟩) ∧
    decode 0x84402F08#32 0x80000000 = .instr (.st ⟨⟨false, 1⟩, 0, 2, 15, 0, .b4, .normal⟩ ⟨.k, none, false, .plain, .w, 0⟩) ∧
    decode 0x89C81F70#32 0x11000000 = .instr (.lda ⟨pt, 4, 1, 15, 3, .b16, .normal⟩ ⟨.g, some 4, false, .plain, .w, 0⟩) ∧
    decode 0x91CA1008#32 0x111B0000 = .instr (.atom ⟨pt, 5, 1, 0, 0, .b4, .normal⟩ ⟨.g, some 4, .acqrel, .p, .add32, 0⟩) := by
  decide +kernel

theorem test_decode_shuttle : decode 0xA1D20F3F#32 0 = .instr (.cpyTx ⟨pt, 2, 16, 15⟩) ∧
    decode 0xA1C10F1F#32 0 = .instr (.cpy ⟨pt, 0, 8, 15⟩) := by decide +kernel

theorem test_decode_array : decode 0xA9D88F0D#32 0 = .instr (.mma ⟨pt, 3, 4, 15⟩ 13) ∧
    decode 0xB1C10F5F#32 0 = .instr (.accz ⟨pt, 0, 8, 15⟩) ∧ decode 0xB1C14F1F#32 0 = .instr (.accrd ⟨pt, 0, 10, 15⟩) ∧
    decode 0xADCA0F1F#32 0 = .instr (.enct ⟨pt, 1, 16, 15⟩) ∧ decode 0xADCA0F3F#32 0 = .instr (.enctAuto ⟨pt, 1, 16, 15⟩) ∧
    decode 0xA5DB0F1F#32 0 = .instr (.ldws ⟨pt, 3, 24, 15⟩) ∧ decode 0xA5D80F5F#32 0 = .instr (.swapw pt 3 15) := by
  decide +kernel

theorem test_decode_page_unit : decode 0xB9C90F3F#32 0 = .instr (.kvext ⟨pt, 1, 8, 15⟩) ∧
    decode 0xB9C94F1F#32 0 = .instr (.kvfork ⟨pt, 1, 10, 15⟩) ∧ decode 0xB4420F22#32 0 = .instr (.xlatWr ⟨false, 1⟩ 16 15 2) ∧
    decode 0xB8D24F5F#32 0 = .instr (.kvcow ⟨⟨false, 3⟩, 2, 18, 15⟩) ∧ decode 0xB9CAAF7F#32 0 = .instr (.kvfree ⟨pt, 1, 21, 15⟩) := by
  decide +kernel

theorem test_decode_collective : decode 0xBDC90F1F#32 0 = .instr (.coll ⟨pt, 1, 8, 15⟩) := by decide +kernel

theorem test_decode_synchronisation : decode 0xC1FFF00A#32 0 = .instr (.arrive pt (.hw 0) 31) ∧
    decode 0xC1D26102#32 0 = .instr (.arrive pt (.slot 6 16) 9) ∧ decode 0xC5FFF008#32 0 = .instr (.waitph pt (.hw 0) 31) ∧
    decode 0xC5C3F009#32 0 = .instr (.testph pt (.hw 0) 1) ∧ decode 0xC9FFF042#32 0 = .instr (.waitt pt 4) ∧
    decode 0xCDD84270#32 0 = .instr (.parkG pt 12 4 39) ∧ decode 0xD1FFF030#32 0 = .instr (.fence pt .p) ∧
    decode 0xD1FFF022#32 0 = .instr (.xfence pt .d) := by decide +kernel

theorem test_decode_control : decode 0xE07FFFFC#32 0 = .instr (.bra ⟨false, 1⟩ (-4)) ∧
    decode 0xE9CDFFFD#32 0 = .instr (.brc 6 (-3)) ∧ decode 0xE5E00028#32 0 = .instr (.call 2 40) ∧
    decode 0xEDC00004#32 0 = .instr (.exit pt) ∧ decode 0xEDC00006#32 0 = .instr .tret ∧
    decode 0xEDC00185#32 0 = .instr (.trap pt 3) ∧ decode 0xEDC0018C#32 0 = .instr (.switchpt 3) ∧
    decode 0xEDC09011#32 0 = .instr (.keydrop 9) ∧ decode 0xEDC20007#32 0 = .instr (.srd pt 1 false 0) ∧
    decode 0xEDE90887#32 0 = .instr (.srd pt 20 true 17) ∧ decode 0xEDF10A87#32 0 = .instr (.srd pt 24 true 21) := by
  decide +kernel

theorem test_decode_system : decode 0xF1C09400#32 0 = .instr (.swr 9 16) ∧ decode 0xF1C0C082#32 0 = .instr (.spillf 12 2) ∧
    decode 0xF1C88007#32 0 = .instr (.freeze 4 8) := by decide +kernel

theorem test_headers : headerOf 0xF9E00004#32 = some ⟨0x78, 0, false, false, 0, 4⟩ ∧
    headerOf 0xFA000045#32 = some ⟨0x80, 0, false, false, 4, 5⟩ ∧ headerOf 0xFA00001E#32 = some ⟨0x80, 0, false, false, 1, 14⟩ := by
  decide +kernel

/-- R135: unassigned majors, headers and the reserved major at an instruction's place, a call that advances nothing. -/
theorem test_decode_illegal : decode 0x30000000#32 0 = .illegal 1 none ∧ decode 0xDC000000#32 0 = .illegal 1 none ∧
    decode 0xF9E00004#32 0 = .illegal 4 none ∧ decode 0xFC000000#32 0 = .illegal 5 none ∧
    decode 0xE5C00028#32 0 = .illegal 2 (some (.call 0 40)) := by decide +kernel

/-! ## Ill-formed terms, one for each check -/

/-- The reserved predicate, a predicate where none may stand, a pair and a quad at a wrong register. -/
theorem test_ill_formed_fields : Instr.WellFormed (.nop ⟨true, 7⟩) = false ∧
    Instr.WellFormed (.iadd ⟨false, 0⟩ 1 2 (.allUni 3) .n32) = false ∧ Instr.WellFormed (.iadd ⟨false, 0⟩ 1 2 (.lit 3) .n32) = false ∧
    Instr.WellFormed (.not ⟨true, 0⟩ 1 2 .uni .n32) = false ∧ Instr.WellFormed (.srd ⟨false, 0⟩ 1 true 9) = false ∧
    Instr.WellFormed (.iadd pt 1 2 (.thread 4) .n64) = false ∧ Instr.WellFormed (.iadd pt 30 2 (.thread 4) .n64) = false ∧
    Instr.WellFormed (.ctxsv 0 6) = false ∧ Instr.WellFormed (.segset 28 0) = false ∧ Instr.WellFormed (.spillf 1 2) = false ∧
    Instr.WellFormed (.perfsel 1 0 0) = false ∧ Instr.WellFormed (.parkG pt 0 1 0) = false ∧ Instr.WellFormed (.unbind pt 0 30) = false := by
  decide

/-- Memory: space, ordering, size, hint, swizzle, scope, sign extension, base register; atomics: width, RED's operations. -/
theorem test_ill_formed_memory :
    let f : MFields := ⟨pt, 1, 2, 0, 0, .b4, .normal⟩
    let a : AddrWord := ⟨.x, none, false, .plain, .w, 0⟩
    Instr.WellFormed (.ld f a) = true ∧ Instr.WellFormed (.st f { a with space := .c }) = false ∧
    Instr.WellFormed (.ldw f { a with space := .w, ord := .acq }) = false ∧ Instr.WellFormed (.pref { f with size := .b16 } a) = false ∧
    Instr.WellFormed (.ld { f with hint := .stream } a) = false ∧ Instr.WellFormed (.ld { f with sw := 1 } { a with space := .k }) = false ∧
    Instr.WellFormed (.ld f { a with scope := .p }) = false ∧ Instr.WellFormed (.st f { a with sext := true }) = false ∧
    Instr.WellFormed (.ld f { a with space := .g, base := some 5 }) = false ∧ Instr.WellFormed (.ld { f with a := 1 } { a with space := .g }) = false ∧
    Instr.WellFormed (.cctl { f with d := 4, size := .b1 } { a with space := .g }) = false ∧
    Instr.WellFormed (.atom { f with size := .b8 } ⟨.x, none, .plain, .w, .add32, 0⟩) = false ∧
    Instr.WellFormed (.atom f ⟨.k, none, .plain, .w, .add32, 0⟩) = false ∧
    Instr.WellFormed (.red f ⟨.x, none, .plain, .w, .cas32, 0⟩) = false := by decide

/-- Conversions, calls, segments and events. -/
theorem test_ill_formed_rest : Instr.WellFormed (.cvt pt 1 2 ⟨.i8, .f32, .rn, true, false⟩) = false ∧
    Instr.WellFormed (.cvtMx pt 1 2 3 ⟨.f32, .f32, .rn, false, false⟩) = false ∧
    Instr.WellFormed (.qblk pt 1 2 ⟨.w4, .w4, .rn, false, false⟩) = false ∧ Instr.WellFormed (.qdec pt 1 2 ⟨.f32, .f32, .rn, false, false⟩) = false ∧
    Instr.WellFormed (.qscale pt 1 2 ⟨.e4m3, .f32, .rz, false, false⟩) = false ∧ Instr.WellFormed (.call 0 1) = false ∧
    Instr.WellFormed (.callx 0 (.thread 1)) = false ∧ Instr.WellFormed (.segset 0 5) = false ∧ Instr.WellFormed .throttle = false := by
  decide

/-! ## One step -/

/-- The probe's block with its warp's registers and its own fields as given. -/
def blockOf (f : Master → Master) (g : Warp → Warp) : Master :=
  f { probeBlock 0 0 0 0 with warps := [g (probeWarp 0 0)] }

/-- The machine with that block, its warp's turn. -/
def stateOf (f : Master → Master) (g : Warp → Warp) : State :=
  { State.reset with cur := some ⟨0, 0⟩, grids := [(0, probeGrid)], masters := [(0, blockOf f g)] }

/-- Register r of every lane of frame 0. -/
def lanesOf (r : Nat) (f : Nat → Nat) : Nat × Lanes := (r, (List.range 128).map fun l => BitVec.ofNat 32 (f l))

/-- The warp after an instruction. -/
def after (i : Instr) (s : State) : Warp :=
  match exec i s with
  | .next t => (t.warp ⟨0, 0⟩).getD default
  | .fault _ | .refused _ => default

/-- The master after an instruction. -/
def masterAfter (i : Instr) (s : State) : Master :=
  match exec i s with
  | .next t => (t.master 0).getD default
  | .fault _ | .refused _ => default

/-- The state after an instruction. -/
def next (i : Instr) (s : State) : State := match exec i s with | .next t => t | .fault _ | .refused _ => default

/-- Lanes 0, 2, 3 and 5 are active, and v1 holds lane + 1 (the example after R214). -/
def partially : State := stateOf id fun w => { w with
  regs := [lanesOf 1 (· + 1)], clause := w.clause.map fun c => { c with lanes := 0x2D } }

def lanes4 (w : Warp) (r : Nat) : List Nat := [0, 2, 3, 5].map fun l => (w.v 0 r l).toNat

theorem test_scan_example : lanes4 (after (.scan pt 2 1 false .add .n32) partially) 2 = [1, 4, 8, 14] ∧
    lanes4 (after (.scan pt 3 1 true .add .n32) partially) 3 = [0, 1, 4, 8] := by decide +kernel

theorem test_shfl_example : lanes4 (after (.shfl pt 4 1 (.lit 1) .down .s4) partially) 4 = [1, 4, 4, 6] := by decide +kernel

theorem test_redux_example : ((after (.redux pt 3 1 .add .n32) partially).s 3).toNat = 14 := by decide +kernel

/-- v1 = 0x7FFFFFFF, v2 = 1, v3 = 0x80000000 and v4 = 40 in every lane. -/
def corners : State := stateOf id fun w => { w with
  regs := [lanesOf 1 fun _ => 0x7FFFFFFF, lanesOf 2 fun _ => 1, lanesOf 3 fun _ => 0x80000000, lanesOf 4 fun _ => 40] }

/-- R184: sums wrap, saturating ones stay at the type's ends, the magnitude of the least number is itself. -/
theorem test_integer_corners :
    ((after (.iadd pt 5 1 (.thread 2) .i32) corners).v 0 5 0).toNat = 0x80000000 ∧
    ((after (.iaddSat pt 5 1 (.thread 2) .i32) corners).v 0 5 0).toNat = 0x7FFFFFFF ∧
    ((after (.iabs pt 5 3 .thread .i32) corners).v 0 5 127).toNat = 0x80000000 := by decide +kernel

/-- R187: a shift by the width or more gives zero, or the sign. -/
theorem test_shift_corners :
    ((after (.shl pt 5 1 (.thread 4) .n32) corners).v 0 5 0).toNat = 0 ∧
    ((after (.sar pt 5 3 (.thread 4) .i32) corners).v 0 5 0).toNat = 0xFFFFFFFF ∧
    ((after (.rot pt 5 3 (.thread 4) .n32) corners).v 0 5 0).toNat = 0x80 := by decide +kernel

/-- R119: vz discards. -/
theorem test_zero_register : (after (.iadd pt 31 1 (.thread 2) .i32) corners).regs = (after (.nop pt) corners).regs := by decide +kernel

/-- 1.0 + 2^-24 in FP32: inexact under R196, and a trap when the class is enabled. -/
def inexact (ctl : BitVec 5) : State := stateOf id fun w => { w with
  fctl := ctl, regs := [lanesOf 1 fun _ => 0x3F800000, lanesOf 2 fun _ => 0x33800000] }

theorem test_fadd_rounds : ((after (.fadd pt 3 1 (.thread 2) .rn false .f32) (inexact 0)).v 0 3 0).toNat = 0x3F800000 ∧
    ((after (.fadd pt 3 1 (.thread 2) .rp false .f32) (inexact 0)).v 0 3 0).toNat = 0x3F800001 ∧
    (after (.fadd pt 3 1 (.thread 2) .rn false .f32) (inexact 0)).fflags = 0x10 := by decide +kernel

theorem test_fadd_traps : (after (.fadd pt 3 1 (.thread 2) .rn false .f32) (inexact 0x10)).tcause = 0x80000007 ∧
    (after (.fadd pt 3 1 (.thread 2) .rn false .f32) (inexact 0x10)).tlanes = Mask.all := by decide +kernel

/-- R160 with s6 = 1: the counter reaches zero and the warp falls through. -/
theorem test_brc : let s := stateOf id fun w => { w with unif := w.unif.set 6 1 }
    (after (.brc 6 (-3)) s).frontier.map (fun e => (e.addr, e.lanes)) = [(0x1000C, Mask.all)] ∧ (after (.brc 6 (-3)) s).s 6 = 0 := by
  decide +kernel

/-- R167: TRAP #3 takes vector 19. -/
theorem test_trap : let w := after (.trap pt 3) (stateOf id id)
    w.tcause = 0x80000013 ∧ w.tpc = 0x10004 ∧ w.tlanes = Mask.all ∧ w.tinfo = 0 ∧ w.frontier.map FEntry.addr = [0x10400] := by
  decide +kernel

/-- R135: an illegal instruction takes vector 0 with its subcode and word index, and has not completed. -/
theorem test_illegal : let w := after (.swr 2 40) (stateOf id id)
    w.tcause = 0 ∧ w.tinfo = 0x108 ∧ w.tpc = 0x10004 ∧ w.handler.isSome = true := by decide +kernel

/-- R418: the upper bits of the source are ignored. -/
theorem test_swr_fctl : (after (.swr 2 16) (stateOf id fun w => { w with unif := w.unif.set 2 0xFF })).fctl = 0x1F := by decide +kernel

/-- R266: two bytes of x: in little-endian order, sign-extended. -/
theorem test_load_signed : let s := stateOf (fun b => { b with x := [(16, 0x34), (17, 0x92)] }) fun w => { w with regs := [lanesOf 1 fun _ => 16] }
    let o := (after (.ld ⟨pt, 2, 1, 0, 0, .b2, .normal⟩ ⟨.x, none, true, .plain, .w, 0⟩) s).outs.head!
    (o.lanes.map LaneAcc.val).head! = [0x34, 0x92] ∧ ((o.write default).v 0 2 5).toNat = 0xFFFF9234 := by decide +kernel

/-- R273: an atomic returns the old value to each lane, in lane order. -/
theorem test_atomic_add : let s := stateOf id fun w => { w with regs := [lanesOf 1 fun _ => 32, lanesOf 2 fun _ => 1] }
    let i : Instr := .atom ⟨pt, 2, 1, 0, 0, .b4, .normal⟩ ⟨.x, none, .plain, .w, .add32, 0⟩
    (masterAfter i s).x = [(32, 0x80)] ∧ ((after i s).outs.head!.lanes.map LaneAcc.val).getLast! = [0x7F, 0, 0, 0] := by decide +kernel

/-- A word laid out by `withFetchWord` runs as the next step (log 37). -/
theorem test_step_runs : (match step (State.reset.withFetchWord 32 0xF1C09400) with
    | .next t => (t.warp ⟨0, 0⟩).map fun w => (w.fctl, w.clause.map Clause.next)
    | _ => none) = some (0, some 2) := by decide +kernel

/-- Reset memory lists nothing (log 4). -/
theorem test_reset_memory : State.reset.mem.wf = true ∧ State.reset.mem.read 0x1234 = 0 := by decide

/-! ## Witnesses: states and operands that meet the statements' hypotheses -/

/-- What an instruction sees in `stateOf f g`. -/
def ctxOf (f : Master → Master) (g : Warp → Warp) : Ctx :=
  let b := blockOf f g
  let w := g (probeWarp 0 0)
  ⟨⟨0, 0⟩, b, w, w.clause.getD default⟩

/-- A predicate that is false in every lane. -/
def pf : Pred := ⟨true, 0⟩
def none' : Warp → Warp := fun w => { w with preds := List.replicate 7 Mask.all }

theorem witness_IntBinaryResults : (stateOf id id).ctx = some (ctxOf id id) ∧
    (intBinary.all fun e => (e.1 pt 6 2 (.thread 4) .n64).WellFormed && (e.1 pt 31 31 (.lit 5) .i8).WellFormed) = true ∧
    (intImmediate.all fun e => (e.1 pt 31 2 255).WellFormed) = true := by decide +kernel

theorem witness_IntShiftResults : (stateOf id id).ctx = some (ctxOf id id) ∧
    (intShift.all fun e => (e.1 pt 6 2 (.thread 5) .i64).WellFormed) = true ∧ 32 ≤ IntTy.bits .i64 ∧ IntTy.bits .n16 < 32 := by
  decide +kernel

theorem witness_IntUnaryResults : (stateOf id id).ctx = some (ctxOf id id) ∧
    (intUnary.all fun e => (e.1 pt 6 2 .uni .i64).WellFormed) = true ∧
    (intCount.all fun e => (e.1 pt 5 2 .thread .n64).WellFormed) = true ∧ IntTy.signed .i64 = true ∧ IntTy.signed .n64 = false ∧
    Instr.WellFormed (.mov pt 6 (.lit 9) .i64) = true := by decide +kernel

theorem witness_IntWideResults : (stateOf id id).ctx = some (ctxOf id id) ∧ pt.ok = [] ∧
    Instr.WellFormed (.imad pt 6 2 4 8 .i64) = true ∧ Instr.WellFormed (.iaddc pt 6 2 (.uni 3)) = true ∧
    Instr.WellFormed (.iset pt 7 2 4 true .le .n64) = true := by decide +kernel

theorem witness_FloatLaneResults : (stateOf id id).ctx = some (ctxOf id id) ∧
    ([Instr.fadd pt 1 2 (.lit 0) .rp true .f16, .cvtMx pt 1 2 3 ⟨.e4m3, .f32, .rn, false, false⟩].all fun i => (floatLane i).isSome) = true := by
  decide +kernel

theorem witness_FloatGroupResults : (stateOf id id).ctx = some (ctxOf id id) := by decide +kernel

/-- No lane executes, and every lane does. -/
theorem witness_LaneExchange : (stateOf id none').ctx = some (ctxOf id none') ∧ (ctxOf id none').active pf = 0 ∧
    (ctxOf id none').active pt = Mask.all ∧ Instr.WellFormed (.ballot pt 24 7) = true ∧ Instr.WellFormed (.bmand pt 28 1 2) = true ∧
    Mask.all ≠ 0 := by decide +kernel

theorem witness_LaneScan : (stateOf id none').ctx = some (ctxOf id none') ∧ (ctxOf id none').active pf = 0 ∧
    (ctxOf id none').active pt ≠ 0 := by decide +kernel

/-! ### A part whose first gibibyte is mapped -/

/-- A blob with its structures in the second gibibyte. -/
def probeBlob : Blob := { (default : Blob) with
  fqExp := 8, taskSlotSize := 65536, queueAperture := 0x50000000, counterAperture := 0x58000000, transTable := 0x40000000
  kvTable := 0x41000000, mmBlock := 0x42000000, mcBlock := 0x43000000, faultQueue := 0x44000000, groupTable := 0x45000000
  perfBlock := 0x46000000, taskSpill := 0x47000000, taskCtx := 0x48000000, cxlBase := 0, cxlSize := 0x10000 }

/-- Address space 1 reads, writes and executes its first gibibyte in place, from the dies' cached translations; `m` is what
memory holds. -/
def mapped (m : Memory) (f : Master → Master) (g : Warp → Warp) : State :=
  { stateOf (fun b => f { b with ctx := { b.ctx with pkr := 3 } }) g with
    mem := m, blob := some probeBlob, ready := BitVec.allOnes 1024
    dies := List.replicate 8 { Die.reset with tlb := [⟨1, 3, 0, 0x1F⟩] } }

def mappedCtx (f : Master → Master) (g : Warp → Warp) : Ctx := ctxOf (fun b => f { b with ctx := { b.ctx with pkr := 3 } }) g

/-- A clause header of class 1 with one word, at `a`, and an EXIT after it. -/
def exitAt (a : Nat) : Memory := writeBytes (writeBytes [] a (leBytes 4 0xFA000011)) (a + 4) (leBytes 4 0xEDC00004)

theorem witness_TrapEntry : let s := mapped (exitAt 0x10400) id id
    s.warp ⟨0, 0⟩ = some (mappedCtx id id).w ∧ (mappedCtx id id).w.handler = none ∧ s.gridOf (mappedCtx id id).b = some probeGrid ∧
    probeGrid.launch.traps[31]? = some 0x10400 ∧ (s.fetchWord (mappedCtx id id).b 0x10400).2 = .word 0xFA000011 ∧
    (headerOf 0xFA000011).map (fun h => h.prio.toNat) = some 0x80 ∧
    ((s.takeTrap ⟨0, 0⟩ (mappedCtx id id).c 31 5 8 9).warp ⟨0, 0⟩).map (fun w => (w.tlanes, w.tpc, w.tinfo, w.tcause)) =
      some (5, 8, 9, 0x8000001F) := by decide +kernel

/-- In a handler; without a vector; at a vector that is no header. -/
theorem witness_TrapFreezes :
    let h : Handler := ⟨default, [], 0, false, [], 0⟩
    let s := stateOf id fun w => { w with handler := some h }
    ((s.takeTrap ⟨0, 0⟩ default 31 5 8 9).master 0).map Master.phase = some .frozen ∧
    (let s := { stateOf id id with grids := [(0, { probeGrid with launch := { probeGrid.launch with traps := [] } })] }
     ((s.takeTrap ⟨0, 0⟩ default 0 5 8 9).master 0).map Master.phase = some .frozen) ∧
    (let s := mapped [] id id
     (s.fetchWord (mappedCtx id id).b 0x10400).2 = .word 0 ∧ headerOf 0 = none ∧
     ((s.takeTrap ⟨0, 0⟩ default 31 5 8 9).master 0).map Master.phase = some .frozen) := by decide +kernel

/-- The last lanes of a handler that kept, completed or replaced what TRET resumes. -/
def handling (h : Handler) (cause : Word) (pc : Dword) : Warp → Warp := fun w =>
  { w with handler := some h, frontier := [], tpc := pc, tcause := cause }

def susp1 : Clause := ⟨0x10100, [0xEDC00002, 0xEDC00002, 0xEDC00004], 2, Mask.all, 3, 7, []⟩

theorem witness_HandlerReturn : let h : Handler := ⟨susp1, [], 0, false, [], 3⟩
    (stateOf id id).ctx = some (ctxOf id id) ∧ (ctxOf id id).w.handler = none ∧
    (stateOf id (handling h 0 0x10108)).ctx = some (ctxOf id (handling h 0 0x10108)) ∧
    (ctxOf id (handling h 0 0x10108)).w.held = [] ∧ (ctxOf id (handling h 0 0x10108)).c.lanes ≠ 0 ∧
    ((after .tret (stateOf id (handling h 0 0x10108))).clause.map Clause.next) = some 2 ∧
    ((after .tret (stateOf id (handling h 0x80000003 0x10108))).clause.map Clause.next) = some 3 ∧
    (after .tret (stateOf id (handling { h with tpcWritten := true } 0 0x10200))).frontier.map FEntry.addr = [0x10200] := by
  decide +kernel

theorem witness_Branches : (stateOf id id).ctx = some (ctxOf id id) ∧ (∀ l ∈ ((ctxOf id id).active pt).lanes, target (ctxOf id id) (.uni 0) l % 4 = 0) ∧
    (after (.brx pt (.uni 0)) (stateOf id id)).frontier.map FEntry.addr = [0x10000] := by decide +kernel

theorem witness_CallsAndReturns : (stateOf id id).ctx = some (ctxOf id id) ∧
    (∀ l ∈ (ctxOf id id).c.lanes.lanes, target (ctxOf id id) (.uni 0) l % 4 = 0) ∧
    (let c := ctxOf id id
     ¬(4095 < c.c.base + 3 + 3 ∨ 2 ^ 32 ≤ (jumpTo c 1 - c.b.image.base).toNat) ∧ ¬c.w.allot < c.c.base + 3 + 3 - c.w.resident + 1) ∧
    ((after (.call 3 0) (stateOf id id)).v 3 30 9).toNat = 8 + 3 ∧
    ((after (.call 3 0) (stateOf id fun w => { w with allot := 5 })).tcause = 10) ∧
    ((after .ret (stateOf id fun w => { w with regs := [lanesOf 30 fun _ => 9] })).tcause = 11) ∧
    (after .ret (stateOf id id)).tinfo = 0x108 := by decide +kernel

theorem witness_NopAndBeat : (stateOf id id).ctx = some (ctxOf id id) := by decide +kernel

theorem witness_TrapInstruction : let s := mapped (exitAt 0x10400) id none'
    s.ctx = some (mappedCtx id none') ∧ (mappedCtx id none').active pf = 0 ∧ (mappedCtx id none').active pt ≠ 0 ∧
    (mappedCtx id none').w.handler = none ∧ s.gridOf (mappedCtx id none').b = some probeGrid ∧
    probeGrid.launch.traps[31]? = some 0x10400 ∧ (s.fetchWord (mappedCtx id none').b 0x10400).2 = .word 0xFA000011 := by decide +kernel

def asTask (b : Master) : Master := { b with kind := .task 0x4000 }

theorem witness_LanesLeave : (stateOf id id).ctx = some (ctxOf id id) ∧ (ctxOf id id).w.deliveries = [] ∧ (ctxOf id id).w.outs = [] ∧
    (ctxOf id id).b.isTask = false ∧ ((ctxOf id id).b.variant.switches.any fun p => p.id == (0 : BitVec 10).toNat) = true ∧
    (ctxOf id id).w.heldId = none ∧ ((ctxOf id id).b.warps.all fun w => !w.arrived) = true ∧
    (stateOf asTask id).ctx = some (ctxOf asTask id) ∧ (ctxOf asTask id).b.isTask = true := by decide +kernel

/-- Bounds: 23 is read, 24 is not; lane numbers are not uniform. -/
theorem witness_ReadSpecial : (stateOf id none').ctx = some (ctxOf id none') ∧ Instr.WellFormed (.srd pt 2 false 13) = true ∧
    Instr.WellFormed (.srd pt 2 true 23) = true ∧ Instr.WellFormed (.srd pt 2 true 24) = true ∧ perLane 8 = true ∧
    (after (.srd pt 2 true 24) (stateOf id none')).tinfo = 0x108 ∧ (after (.srd pt 2 true 1) (stateOf id none')).s 2 = 0 := by decide +kernel

/-- %stage and %core; %pos in the last lane; %wsphase at 0, 5 and 64 µs. -/
theorem witness_SpecialValues : [2, 11].map (fun n => (after (.srd pt 2 true n) (stateOf id id)).s 2) = [0, 0] ∧
    [6, 7, 8].map (fun n => (after (.srd pt 2 false n) (stateOf id id)).v 0 2 127) = [127, 0, 0] ∧
    [0, 8000, 102400].map (fun n => (after (.srd pt 2 true 14) { stateOf id id with cycles := n }).s2 2) = [0x100000, 0x21388, 0x100000] := by decide +kernel

def early (ps : List Nat) : State := { stateOf id id with
  grids := [(0, { probeGrid with producers := ps, launch := { probeGrid.launch with earlyStart := true } })] }

theorem witness_TriggerAndDependency : (stateOf asTask id).ctx = some (ctxOf asTask id) ∧ (ctxOf asTask id).b.isTask = true ∧
    (ctxOf asTask id).b.gridUid = none ∧ (stateOf id id).gridOf (ctxOf id id).b = some probeGrid ∧ probeGrid.launch.earlyStart = false ∧
    (early []).ctx = some (ctxOf id id) ∧ ((early [64]).gridOf (ctxOf id id).b).map Grid.producers = some [64] := by decide +kernel

def keyed (b : Master) : Master := { b with keys := [5, 9] }

theorem witness_FramesAndKeys : (stateOf keyed id).ctx = some (ctxOf keyed id) ∧
    ((ctxOf keyed id).b.cores[(ctxOf keyed id).b.spanOf 0]?).isSome = true ∧
    (after (.reggive 12) (stateOf keyed id)).allot = 4 ∧ (after (.reggive 13) (stateOf keyed id)).tinfo = 0x108 ∧
    (masterAfter (.keydrop 3) (stateOf keyed fun w => { w with unif := w.unif.set 3 9 })).keys = [5] := by decide +kernel

/-! ### Synchronisation -/

/-- A uniform register file with some registers set. -/
def unis (l : List (Nat × Nat)) : Warp → Warp := fun w =>
  { w with unif := l.foldl (fun u p => u.set p.1 (BitVec.ofNat 32 p.2)) w.unif }

def slotAt16 (x : Barrier) : Master → Master := fun b => { b with slots := [(16, x)] }

/-- A live slot may not be initialised, an idle one retires; 1 and 65,535 are the bounds of its count. -/
theorem witness_BarrierLife : let c := ctxOf (slotAt16 (.idle 0 2)) (unis [(3, 65535)])
    (stateOf (slotAt16 (.idle 0 2)) (unis [(3, 65535)])).ctx = some c ∧ c.active pt ≠ 0 ∧
    c.barName (.slot 31 1) = .slot 16 ∧ aget c.b.slots 16 = some (.idle 0 2) ∧ 16 + 16 ≤ c.b.variant.scratch ∧
    aget (masterAfter (.binit pt (.slot 31 2) 3) (stateOf (slotAt16 (.idle 0 2)) (unis [(3, 65535)]))).slots 32 = some (.idle 0 65535) ∧
    (after (.binit pt (.slot 31 2) 31) (stateOf id id)).tinfo = 0x108 ∧
    (after (.binit pt (.slot 31 1) 3) (stateOf (slotAt16 (.idle 0 2)) (unis [(3, 1)]))).tinfo = 0x108 ∧
    (masterAfter (.bretire pt 31 1) (stateOf (slotAt16 (.idle 0 2)) id)).slots = [] ∧
    (after (.bretire pt 31 1) (stateOf (slotAt16 { Barrier.idle 0 2 with posted := true }) id)).tinfo = 0x108 := by decide +kernel

/-- The last arrival completes the phase; with a byte still to land it does not. -/
theorem witness_BarrierPhase : let s := stateOf (slotAt16 (.idle 7 1)) id
    let y : Barrier := { Barrier.idle 7 1 with arrived := 1, posted := true }
    s.master 0 = some (blockOf (slotAt16 (.idle 7 1)) id) ∧ (blockOf (slotAt16 (.idle 7 1)) id).bar (.slot 16) = some (.idle 7 1) ∧
    y.failed = false ∧ y.overflow = false ∧ y.landed ≤ y.expBytes ∧ (y.inFlight = 0 → y.landed = y.expBytes) ∧
    (((s.barEvent 0 (.slot 16) fun _ => y).master 0).bind fun b => (b.bar (.slot 16)).map Barrier.phase) = some 8 ∧
    (((s.barEvent 0 (.slot 16) fun _ => { y with arrived := 0 }).master 0).bind fun b => (b.bar (.slot 16)).map Barrier.phase) = some 7 := by
  decide +kernel

theorem witness_ArriveAndExpect : let c := ctxOf (slotAt16 (.idle 7 2)) (unis [(3, 2 ^ 31 - 1), (4, 2 ^ 31)])
    let s := stateOf (slotAt16 (.idle 7 2)) (unis [(3, 2 ^ 31 - 1), (4, 2 ^ 31)])
    s.ctx = some c ∧ c.active pt ≠ 0 ∧ c.b.bar (c.barName (.slot 31 1)) = some (.idle 7 2) ∧ c.w.outs = [] ∧
    ((masterAfter (.arrive pt (.slot 31 1) 3) s).bar (.slot 16)).map (fun x => (x.arrived, x.expBytes)) = some (1, 2 ^ 31 - 1) ∧
    (after (.arrive pt (.slot 31 1) 3) s).arrival = some (.slot 16, 7) ∧ (after (.arrive pt (.slot 31 1) 4) s).tinfo = 0x108 ∧
    ((masterAfter (.expect pt (.slot 31 1) 3) s).bar (.slot 16)).map (fun x => (x.arrived, x.posted)) = some (0, true) := by decide +kernel

/-- The comparand is the phase, or is not; sealed batches at their bound; a token that counts. -/
theorem witness_Waits : let f := slotAt16 (.idle 7 2)
    let g : Warp → Warp := fun w => { unis [(3, 0x10007)] w with arrival := some (.slot 16, 6), openBatch := 15, tokens := [0, 1, 0, 0, 0, 0, 0, 0] }
    (stateOf f g).ctx = some (ctxOf f g) ∧ (ctxOf f g).active pt ≠ 0 ∧ (ctxOf f g).b.entries = [] ∧ (ctxOf f g).w.deliveries = [] ∧
    (after (.waitph pt (.slot 31 1) 3) (stateOf f g)).clause.map Clause.next = some 1 ∧
    (after (.waitph pt (.slot 31 1) 31) (stateOf f g)).clause.map Clause.next = some 2 ∧
    ((after (.testph pt (.slot 31 1) 2) (stateOf f g)).p 2).has 127 = true ∧
    (after (.testph pt (.slot 31 1) 2) (stateOf f id)).tinfo = 0x108 ∧
    (after (.waitb pt 16) (stateOf f g)).tinfo = 0x108 ∧ (after (.waitb pt 15) (stateOf f g)).clause.map Clause.next = some 2 ∧
    (after (.waitt pt 0) (stateOf f g)).tinfo = 0x108 ∧ (after (.waitt pt 0xFD) (stateOf f g)).clause.map Clause.next = some 2 ∧
    (after (.waitt pt 2) (stateOf f g)).clause.map Clause.next = some 1 ∧
    (after (.seal pt) (stateOf f g)).openBatch = 16 := by decide +kernel

theorem witness_SyncUnexecuted : (stateOf id none').ctx = some (ctxOf id none') ∧ (ctxOf id none').active pf = 0 ∧
    (syncForms (ctxOf id none') pf (.hw 0) 3 8 1 2 .p).length = 18 ∧ 0 < (ctxOf id none').b.variant.hwbars := by decide +kernel

/-- One state in which every synchronisation form passes its checks. -/
theorem witness_SyncForms : let f : Master → Master := slotAt16 (.idle 0 2)
    let g : Warp → Warp := fun w => { unis [(3, 2)] w with arrival := some (.hw 0, 6) }
    ∀ e ∈ syncForms (ctxOf f g) pf (.hw 0) 3 8 1 2 .p, e.2 := by
  intro f g
  have n : (ctxOf f g).barName (.hw 0) = .hw 0 := rfl
  have m : (ctxOf f g).barName (.slot 8 1) = .slot 16 := by decide +kernel
  have k : ((ctxOf f g).w.s5 3).toNat = 2 := by decide +kernel
  have live : IsLive (ctxOf f g) (.hw 0) := by
    refine ⟨?_, fun x h => by rw [n] at h; cases h⟩
    simp only [InRange, n]; decide +kernel
  have rec' : recorded (ctxOf f g) (.hw 0) ≠ none := by decide +kernel
  have h16 : IsLive (ctxOf f g) (.slot 8 1) := by
    refine ⟨?_, fun x h => ?_⟩
    · simp only [InRange, m]; decide +kernel
    · rw [m] at h; injection h with h; subst h; decide +kernel
  have init : MayInit (ctxOf f g) (.hw 0) ((ctxOf f g).w.s5 3).toNat := by
    rw [k]
    refine ⟨live.1, fun x h => (by rw [n] at h; cases h), fun x h => ?_⟩
    rw [n] at h; injection h with h; subst h
    exact ⟨by decide, fun y hy => by
      have : y.inFlight = ((ctxOf f g).b.hw[0]?.getD default).inFlight := by rw [hy]; rfl
      rw [this]; decide +kernel⟩
  intro e he
  simp only [syncForms, List.mem_cons, List.not_mem_nil, or_false] at he
  rcases he with rfl | rfl | rfl | rfl | rfl | rfl | rfl | rfl | rfl | rfl | rfl | rfl | rfl | rfl | rfl | rfl | rfl | rfl
  all_goals first
    | trivial
    | exact ⟨live, fun _ => rec'⟩
    | exact ⟨live, rec'⟩
    | exact ⟨16, _, m, h16, rfl, by decide +kernel⟩

/-- A word past the limit, one within it; waking by a write and by time. -/
theorem witness_Parking : let g := unis [(4, 65536), (6, 65532)]
    (stateOf id g).ctx = some (ctxOf id g) ∧ (ctxOf id g).active pt ≠ 0 ∧ (ctxOf id g).w.park = none ∧
    (after (.parkX pt 2 4 0) (stateOf id g)).s 2 = 3 ∧
    (after (.parkX pt 2 6 9) (stateOf id g)).park = some ⟨false, 65532, 1600, false, false, 2⟩ ∧
    (after (.parkG pt 2 6 9) (mapped [] id (unis [(6, 0x2004)]))).park = some ⟨true, 0x2000, 1600, false, false, 2⟩ ∧
    (after (.parkG pt 2 6 9) (stateOf id (unis [(6, 2)]))).s 2 = 3 ∧
    (let p : Bool → Bool → Warp → Warp := fun hit late w => { w with park := some ⟨false, 0, 5, hit, late, 2⟩ }
     (after (.parkWake ⟨0, 0⟩ 0) (stateOf id (p true false))).park = none ∧
     (after (.parkWake ⟨0, 0⟩ 1) (stateOf id (p true false))).park.isSome = true ∧
     (after (.parkWake ⟨0, 0⟩ 1) { stateOf id (p true false) with cycles := 5 }).park.isSome = true ∧
     (after (.parkWake ⟨0, 0⟩ 1) { stateOf id (p false true) with cycles := 5 }).s 2 = 1 ∧
     (after (.parkWake ⟨0, 0⟩ 0) { stateOf id (p true true) with cycles := 5 }).park.isSome = true) := by decide +kernel

/-- One store of the warp that has not performed. -/
def storing (k : MemKind) : Warp → Warp := fun w => { w with outs := [{ (default : MemOp) with kind := k, lanes := [default] }], opCount := 1 }

theorem witness_Fences : (stateOf id id).ctx = some (ctxOf id id) ∧ (ctxOf id id).active pt ≠ 0 ∧ (ctxOf id id).w.outs = [] ∧
    (∀ o ∈ (ctxOf id (storing .st)).w.outs, o.kind = .st ∧ o.undone = true) ∧
    (after (.fence pt .p) (stateOf id id)).clause.map Clause.next = some 2 ∧
    (after (.fence pt .p) (stateOf id (storing .st))).clause.map Clause.next = some 1 ∧
    (after (.acq pt .p) (stateOf id (storing .ld))).clause.map Clause.next = some 1 ∧
    (after (.qfence pt 0) (stateOf id id)).tinfo = 0x108 ∧ (masterAfter (.qfence pt 3) (stateOf id id)).entries.length = 1 := by decide +kernel

/-- The 32-byte entry in s8 to s15: base 0x4000, size 128, kind 1 (a hardware barrier's number 0). -/
def region : List (Nat × Nat) := [(8, 0x4000), (10, 128)]

theorem witness_Bindings : (stateOf id (unis region)).ctx = some (ctxOf id (unis region)) ∧
    (after (.bind pt 2 24) (stateOf id (unis region))).tinfo = 0x108 ∧
    ((List.range 4).any fun k => (after (.bind pt 2 8) (stateOf id (unis (region ++ [(12, k)])))).s 2 == 0) = true ∧
    (after (.bind pt 2 8) (stateOf id (unis [(12, 0xFF)]))).s 2 = 3 ∧ (after (.unbind pt 2 8) (stateOf id (unis region))).s 2 = 1 := by
  decide +kernel

/-! ### Memory -/

/-- At a segment's end, past it, and misaligned. -/
theorem witness_EffectiveAddress : let s := stateOf id id
    let b := blockOf id id
    (s.check b .x 65532 4 .read).2 = .ok (.x 65532) ∧ (s.check b .x 65536 4 .read).2 = .bad 2 0x11 ∧
    (s.check b .x 65534 4 .read).2 = .bad 1 0x10 ∧ (s.check b .x 65538 4 .read).2 = .bad 1 0x10 ∧
    ((ctxOf id (unis [(4, 0xFFFFFFFF)])).memEa .x (some 4) 31 17 0 0).toNat = 16 ∧
    ((mapped [] id id).check (mappedCtx id id).b .g 0x2000 4 .read).2 = .ok (.mem ⟨0x2000, 0, false⟩) := by decide +kernel

def ldx : Instr := .ld ⟨pt, 2, 1, 3, 0, .b4, .normal⟩ ⟨.x, none, false, .plain, .w, 0⟩
def stx : Instr := .st ⟨pt, 2, 1, 0, 0, .b4, .normal⟩ ⟨.x, none, false, .plain, .w, 0⟩

/-- Every lane passes its checks; lane 127 alone fails. -/
theorem witness_MemoryIssue :
    let g : Nat → Warp → Warp := fun k w => { w with regs := [lanesOf 1 fun l => k * l] }
    (stateOf id (g 4)).ctx = some (ctxOf id (g 4)) ∧ ((memRequest (ctxOf id (g 4)) ldx).map Prod.fst) = some 3 ∧
    ((memRequest (ctxOf id (g 4)) stx).map fun q => ((stateOf id (g 4)).precheck (ctxOf id (g 4)).b q.2).2.1) = some [] ∧
    ((memRequest (ctxOf id (g 520)) stx).map fun q => (((stateOf id (g 520)).precheck (ctxOf id (g 520)).b q.2).2.1).map LaneBad.lane) = some [127] ∧
    (masterAfter stx (stateOf id (g 520))).phase = .frozen ∧ (masterAfter stx (stateOf id (g 520))).x = [] ∧
    (after ldx (stateOf id (g 4))).outs.length = 1 := by decide +kernel

/-- A lane's accesses in x: at 65,532, and at home in g:. -/
theorem witness_LaneAccess : let b := blockOf (fun b => { b with x := [(65532, 9)] }) id
    let s := stateOf (fun b => { b with x := [(65532, 9)] }) id
    let o : MemOp := { (default : MemOp) with kind := .atom .add32, space := .x, bytes := 4 }
    let l : LaneAcc := { (default : LaneAcc) with ea := 65532, data := [1, 0, 0, 0] }
    s.master 0 = some b ∧ 65532 + o.bytes ≤ (b.seg .x).limit ∧ b.slots = [] ∧ (∀ w ∈ b.warps, w.park = none) ∧
    (s.performLane ⟨0, 0⟩ b o l).2.1.val = [9, 0, 0, 0] ∧
    ((s.performLane ⟨0, 0⟩ b o l).1.master 0).map Master.x = some [(65532, 10)] ∧
    (let t := mapped [(0x2000, 7)] id id
     let c := mappedCtx id id
     let p : MemOp := { (default : MemOp) with kind := .ld, space := .g, bytes := 4 }
     homeOf 0x2000 = some 0 ∧ t.poisoned 0x2000 4 = false ∧ t.formOf 0x2000 = none ∧ c.b.die = 0 ∧
     (t.check c.b .g 0x2000 4 p.kind.access).2 = .ok (.mem ⟨0x2000, 0, false⟩) ∧
     (t.performLane ⟨0, 0⟩ c.b p { l with ea := 0x2000 }).2.1.val = [7, 0, 0, 0] ∧
     (t.performLane ⟨0, 0⟩ c.b { p with kind := .st } { l with ea := 0x2000 }).1.mem = [(0x2000, 1)]) := by decide +kernel

/-- Lane 0 alone, with an address in v1. -/
def lane0 (a : Nat) : Warp → Warp := fun w =>
  { w with clause := w.clause.map fun c => { c with lanes := 1 }, regs := [(1, [BitVec.ofNat 32 a])] }
def atx : Instr := .atom ⟨pt, 2, 1, 3, 0, .b4, .normal⟩ ⟨.x, none, .plain, .w, .add32, 0⟩
def ldg : Instr := .ld ⟨pt, 2, 1, 3, 0, .b4, .normal⟩ ⟨.g, some 63, false, .plain, .w, 0⟩
def stg : Instr := .st ⟨pt, 2, 1, 0, 0, .b4, .normal⟩ ⟨.g, some 63, false, .plain, .w, 0⟩
def ldw1 : Instr := .ldw ⟨pt, 2, 1, 3, 0, .b4, .normal⟩ ⟨.w, none, false, .plain, .w, 0⟩

/-- One lane at 64 of x: stores, loads and adds; no slot, no PARK and no poison is there. -/
theorem witness_InScratch : let c := ctxOf id (lane0 64)
    let s := stateOf id (lane0 64)
    s.ctx = some c ∧ c.w.outs = [] ∧ c.b.slots = [] ∧ (∀ w ∈ c.b.warps, w.park = none) ∧ c.b.xPoison = [] ∧
    ([stx, ldx, atx].all fun i => (memRequest c i).any fun q => q.2.space == .x && q.2.bytes == 4 &&
      q.2.lanes.map (fun l => (l.lane, l.ea)) == [(0, 64)]) = true ∧
    ((memRequest c stx).map fun q => q.2.lanes.map fun l => l.data.length) = some [4] ∧
    ((memRequest c atx).map fun q => q.2.lanes.map fun l => l.data.length) = some [4] ∧
    ((after atx s).outs.flatMap fun o => o.lanes.map fun l => (l.st, l.val)) = [(.done, [0, 0, 0, 0])] := by decide +kernel

/-- One lane at home in g:, and of the weight store with its bank refreshing or not. -/
theorem witness_MemoryAtHome : let s := mapped [(0x2000, 7)] id (lane0 0x2000)
    let c := mappedCtx id (lane0 0x2000)
    s.ctx = some c ∧ ([stg, ldg, ldw1].all fun i => (memRequest c i).any fun q => q.2.lanes.length == 1 && q.2.bytes == 4) = true ∧
    s.check c.b .g 0x2000 4 .read = (s, .ok (.mem ⟨0x2000, 0, false⟩)) ∧
    s.check c.b .g 0x2000 4 .write = (s, .ok (.mem ⟨0x2000, 0, false⟩)) ∧
    s.check c.b .w 0x2000 4 .read = (s, .ok (.mem ⟨wsKey 0 0x2000, 0, false⟩)) ∧
    (∀ m ∈ s.masters, ∀ w ∈ m.2.warps, w.park = none) ∧
    s.refreshing (wsKey 0 0x2000) = true ∧ ({ s with cycles := 1600 } : State).refreshing (wsKey 0 0x2000) = false ∧
    ((after ldg s).outs.flatMap fun o => o.lanes.map LaneAcc.val) = [[7, 0, 0, 0]] ∧ (next stg s).mem = [] := by decide +kernel

/-- A page of die 1's memory whose line die 0 holds: read, written, released to and acquired from. -/
theorem witness_LaneAway : let k := 2 ^ 36 + 0x2000
    let s : State := { mapped [(k, 9)] id id with
      dies := { Die.reset with tlb := [⟨1, 3, 1, 2 ^ 36 + 0x1F⟩], copies := [(k / 32, { (default : Sector) with bytes := List.replicate 32 5 })] } ::
        List.replicate 7 Die.reset }
    let b := (mappedCtx id id).b
    let o : MemOp := { (default : MemOp) with kind := .ld, space := .g, bytes := 4 }
    let l : LaneAcc := { (default : LaneAcc) with ea := BitVec.ofNat 64 (2 ^ 30 + 0x2000), data := [1, 2, 3, 4] }
    (s.check b .g l.ea.toNat 4 .read).2 = .ok (.mem ⟨k, 0, false⟩) ∧ (s.check b .g l.ea.toNat 4 .write).2 = .ok (.mem ⟨k, 0, false⟩) ∧
    b.die = 0 ∧ homeOf k = some 1 ∧ (aget (s.die 0).copies (k / 32)).isSome = true ∧ s.formOf k = none ∧
    (s.dieRead 0 k 4 true false).2 = some [9, 0, 0, 0] ∧
    (s.performLane ⟨0, 0⟩ b o l).2.1.val = [5, 5, 5, 5] ∧
    (s.performLane ⟨0, 0⟩ b { o with ord := .acq, scope := .p } l).2.1.val = [9, 0, 0, 0] ∧
    (s.performLane ⟨0, 0⟩ b { o with kind := .st } l).1.mem = [(k, 9)] ∧
    (s.performLane ⟨0, 0⟩ b { o with kind := .st, ord := .rel, scope := .p } l).1.mem = writeBytes [] k [1, 2, 3, 4] := by decide +kernel

/-- Die 0 holds a line of die 1's memory with one byte written; lane 0's address is there. -/
def away : Nat := 2 ^ 36 + 0x2000
def holding : Die := { Die.reset with
  tlb := [⟨1, 3, 1, 2 ^ 36 + 0x1F⟩], copies := [(away / 32, { (default : Sector) with bytes := List.replicate 32 5, dirty := 2 })] }
def dirty (g : Warp → Warp) : State := { mapped [(away, 9)] id g with dies := holding :: List.replicate 7 Die.reset }

/-- Acquire and release; clean, clean and invalidate, and write back: the dirty byte stands at home. PREF copies the line. -/
theorem witness_CopiesHome : let g := lane0 (2 ^ 30 + 0x2000)
    let s := dirty g
    let after' := fun (t : State) => (t.mem, (t.die 0).copies.map fun c => c.2.dirty)
    let cctl (d : BitVec 5) : State := next (.cctl ⟨pt, d, 1, 0, 0, .b1, .normal⟩ ⟨.g, some 63, false, .plain, .w, 0⟩) s
    s.formOf away = none ∧ s.unreachable away 1 = false ∧ s.formAgrees away false = true ∧
    [s.acquireAll 0, s.releaseAll 0, cctl 0, cctl 2, cctl 3].map after' =
      [([(away, 9), (away + 1, 5)], []), ([(away, 9), (away + 1, 5)], [0]), ([(away, 9), (away + 1, 5)], [0]),
       ([(away, 9), (away + 1, 5)], []), ([(away, 9), (away + 1, 5)], [0])] ∧
    ((next (.pref ⟨pt, 0, 1, 0, 0, .b1, .normal⟩ ⟨.g, some 63, false, .plain, .w, 0⟩) s).die 0).copies.length = 4 := by decide +kernel

/-- The arguments at c:'s last word; a page of another package; and a page that is not present. -/
theorem witness_LaneWaits : let s : State := { mapped [] id id with
      grids := [(0, { probeGrid with args := [(0, [7])] })]
      dies := List.replicate 8 { Die.reset with tlb := [⟨1, 3, 0, 0x1F⟩, ⟨1, 3, 1, 2 ^ 42 + 0x21F⟩, ⟨1, 3, 2, 0⟩] } }
    let b := (mappedCtx id id).b
    let o : MemOp := { (default : MemOp) with kind := .ld, space := .c, bytes := 4 }
    let l : LaneAcc := { (default : LaneAcc) with st := .ready }
    let g : MemOp := { o with space := .g }
    (s.gridOf b).isSome = true ∧ (b.seg .c).limit = 65536 ∧ (s.performLane ⟨0, 0⟩ b o l).2.1.val = [7, 0, 0, 0] ∧
    (s.performLane ⟨0, 0⟩ b g { l with ea := 0x40000000 }).2.1.st = .remote ∧
    (s.performLane ⟨0, 0⟩ b g { l with ea := 0x80000000 }).2.1.st = .missing 0 ∧ b.die = 0 := by decide +kernel

/-- A completed load of one lane, and an LDA lane that is ready. -/
def loaded : Warp → Warp := fun w => { w with opCount := 1, outs := [{ (default : MemOp) with
  kind := .ld, space := .x, bytes := 2, dests := [.v 3], sext := true, lanes := [{ (default : LaneAcc) with lane := 127, val := [1, 0x80], st := .done }] }] }

def lda1 : Warp → Warp := fun w => { w with opCount := 1, outs := [{ (default : MemOp) with
  kind := .lda, space := .g, bytes := 16, lanes := [{ (default : LaneAcc) with lane := 127, ea := 0x2000, dst := 64, st := .ready }] }] }

theorem witness_LoadCompletes : (blockOf id loaded).warps[0]? = some (loaded (probeWarp 0 0)) ∧ (blockOf id loaded).phase = .running ∧
    ((after (.loadComplete ⟨0, 0⟩ 0) (stateOf id loaded)).v 0 3 127).toNat = 0xFFFF8001 ∧
    (let s := mapped [(0x200F, 5)] id lda1
     (s.check (mappedCtx id lda1).b .g 0x2000 16 .read).2 = .ok (.mem ⟨0x2000, 0, false⟩) ∧
     (masterAfter (.ldaLanePerform ⟨0, 0⟩ 0 127) s).x = [(79, 5)] ∧ (after (.ldaLanePerform ⟨0, 0⟩ 0 127) s).outs = []) := by decide +kernel

theorem witness_CacheHints : let g : Warp → Warp := fun w => { w with clause := w.clause.map fun c => { c with lanes := 1 }, regs := [(1, [0x2000#32])] }
    (mapped [] id g).ctx = some (mappedCtx id g) ∧ (mappedCtx id g).w.outs = [] ∧ (mappedCtx id g).b.die < 8 ∧
    (after (.cctl ⟨pt, 3, 1, 0, 0, .b1, .normal⟩ ⟨.g, some 63, false, .plain, .w, 0⟩) (mapped [] id g)).clause.map Clause.next = none ∧
    (after (.cctl ⟨pt, 3, 1, 0, 0, .b1, .normal⟩ ⟨.g, some 63, false, .plain, .w, 0⟩) (mapped [] id g)).outs = [] := by decide +kernel

/-! ### Engine commands issue -/

/-- The block's variant with `n` accumulators. -/
def accs (n : Nat) (b : Master) : Master :=
  { b with image := { b.image with variants := b.image.variants.map fun v => { v with acc := n } } }

/-- The number of commands issued, the count of token slot 2, and the trap taken. -/
def issued (i : Instr) (s : State) : Nat × Nat × Nat :=
  ((masterAfter i s).entries.length, (after i s).token 2, (after i s).tinfo.toNat % 256)

/-- ACCZ of the tiles of s8 = 1, 3 and, past the variant's two, 4; a descriptor whose registers do not exist. -/
theorem witness_ArrayCommandIssue : let f := accs 2
    let s := fun k => stateOf f (unis [(8, k)])
    let i : Instr := .accz ⟨pt, 2, 8, 15⟩
    (s 3).ctx = some (ctxOf f (unis [(8, 3)])) ∧ arrayForm i = some (pt, 2, 8, 1, .accz) ∧ (ctxOf f (unis [(8, 3)])).w.outs = [] ∧
    (issued i (s 1), issued i (s 3), issued i (s 4)) = ((1, 1, 0), (1, 1, 0), (0, 0, 8)) ∧
    issued (.accz ⟨pf, 2, 8, 15⟩) (stateOf f none') = (0, 0, 8) ∧ issued (.accz ⟨pf, 2, 8, 15⟩) (stateOf f fun w => unis [(8, 3)] (none' w)) = (0, 0, 0) ∧ issued (.ldws ⟨pt, 2, 60, 15⟩) (s 3) = (0, 0, 8) ∧
    issued i (stateOf f fun w => storing .st (unis [(8, 3)] w)) = (0, 0, 0) := by decide +kernel

/-- A format word of FP8 rows, its reserved bit set, and a lane that differs. -/
theorem witness_MatrixIssue : let f := accs 2
    let g : (Nat → Nat) → Warp → Warp := fun h w => { w with regs := [lanesOf 1 h] }
    let i : Instr := .mma ⟨pt, 2, 8, 15⟩ 1
    (stateOf f (g fun _ => 0x84000000)).ctx = some (ctxOf f (g fun _ => 0x84000000)) ∧
    (mmaForm i).map (fun q => q.2.2) = some .mma ∧
    issued i (stateOf f (g fun _ => 0x84000000)) = (1, 1, 0) ∧ issued i (stateOf f (g fun _ => 0x84000001)) = (0, 0, 8) ∧
    (let w := after i (stateOf f (g fun l => if l = 5 then 0 else 0x84000000))
     (w.tcause, w.tlanes, w.tinfo) = (8, 32, 0x100)) := by decide +kernel

def kvPart (b : Master) : Master := { b with kv := some ⟨0x100000, 0x200000, 0, 4, 16, 0x300000, 128, 128⟩ }

/-- Sequence 3 of four, and sequence 4. -/
theorem witness_PageUnitIssue : let s := fun k => mapped [] kvPart (unis [(8, k), (9, 1)])
    (s 3).ctx = some (mappedCtx kvPart (unis [(8, 3), (9, 1)])) ∧ (mappedCtx kvPart (unis [(8, 3), (9, 1)])).b.die = 0 ∧
    issued (.kvext ⟨pt, 2, 8, 15⟩) (s 3) = (1, 1, 0) ∧ issued (.kvext ⟨pt, 2, 8, 15⟩) (s 4) = (0, 0, 8) ∧
    (match exec (.kvext ⟨pt, 2, 8, 15⟩) (s 3) with | .next t => (t.die 0).pageOps.length | _ => 9) = 1 ∧
    (after (.xlat pt 8 0 1) (s 3)).outs.map (fun o => (o.kind, o.lanes.length)) = [(.xlat false, 128)] ∧
    (after (.xlat pt 8 0 1) (s 4)).tinfo.toNat % 256 = 8 := by decide +kernel

/-- x: to x:, 160 bytes at 0x1000, alone or the first of two slices. -/
def copyWords (src slices : Nat) : List (Nat × Nat) :=
  [(8, 2688 + slices * 2 ^ 21), (9, src), (11, 0x1000), (13, 2 ^ 16 + 40), (14, 160)]

theorem witness_CopySlices : let s := fun n => stateOf id (unis (copyWords 64 n))
    let e : EFields := ⟨pt, 2, 8, 15⟩
    (s 0).ctx = some (ctxOf id (unis (copyWords 64 0))) ∧ copySubs (ctxOf id (unis (copyWords 64 0))) e false false = [] ∧
    copySubs (ctxOf id (unis (copyWords 64 1))) e false false = [] ∧
    issued (.cpy e) (s 0) = (1, 1, 0) ∧ issued (.cpy e) (s 1) = (0, 1, 0) ∧ (masterAfter (.cpy e) (s 1)).collections.length = 1 ∧
    issued (.cpy e) (stateOf (fun b => { b with collections := (masterAfter (.cpy e) (s 1)).collections }) (unis (copyWords 65 1))) =
      (0, 0, 8) ∧ issued (.cpy ⟨pt, 2, 60, 15⟩) (s 0) = (0, 0, 8) ∧
    (let b := slotAt16 (.idle 7 2)
     let g := unis (copyWords 64 0 ++ [(15, 2 ^ 15 + 1)])
     boundTo ((ctxOf b g).desc 8 8) = some (.slot 16) ∧ (Barrier.idle 7 2).arrivals [0] = false ∧ issued (.cpy e) (stateOf b g) = (1, 1, 0) ∧
     ((masterAfter (.cpy e) (stateOf b g)).bar (.slot 16)).map Barrier.inFlight = some 1 ∧
     issued (.cpy e) (stateOf id (unis (copyWords 64 0 ++ [(15, 2 ^ 15 + 4096)]))) = (0, 0, 8)) := by decide +kernel

/-- The transform and follow-on words, at their bounds. -/
theorem witness_CopyDescriptors : let ws : List Word := [2688, 64, 0, 0x1000, 0, 0x10028, 160, 0]
    (copyLegal (ctxOf id id) ws false false ∧ ¬copyLegal (ctxOf id id) (ws.set 5 40) false false) ∧
    (transformLegal (ws ++ [BitVec.ofNat 32 (2 ^ 24 + 16 * 2 ^ 19), 0, 0, 0]) ∧ ¬transformLegal (ws ++ [BitVec.ofNat 32 (5 * 2 ^ 24), 0, 0, 0])) ∧
    followLegal (ctxOf (accs 1) id) (ws ++ [BitVec.ofNat 32 (2 ^ 29 + 59 * 2 ^ 23), 0, 0, 0]) 8 ∧
    ¬followLegal (ctxOf (accs 1) id) (ws ++ [BitVec.ofNat 32 (2 ^ 29 + 60 * 2 ^ 23), 0, 0, 0]) 8 := by
  refine ⟨⟨?_, ?_⟩, ⟨?_, ?_⟩, ?_, ?_⟩ <;> simp (decide := true) [copyLegal, transformLegal, followLegal, IsSplit, boundTo]

/-- A misaligned collective block, and one that is not readable: its instance is there still. -/
theorem witness_CollectiveIssue : let g := unis [(8, 0x2000)]
    (mapped [] id g).ctx = some (mappedCtx id g) ∧ (mappedCtx id g).w.s2 8 = 0x2000 ∧
    (after (.coll ⟨pt, 2, 8, 15⟩) (mapped [] id g)).token 2 ≤ 1 ∧
    (after (.coll ⟨pt, 2, 8, 15⟩) (mapped [] id (unis [(8, 0x2020)]))).tinfo.toNat % 256 = 8 ∧
    (after (.coll ⟨pt, 2, 62, 15⟩) (mapped [] id g)).tinfo.toNat % 256 = 8 := by decide +kernel

/-! ### Engines -/

/-- An array command of warp 0 on token slot 2. -/
def cmdOf (op : EOp) (ws : List Word) (fmt : Word) (st : ESt) : Entry := ⟨op, ws, [], fmt, 0, 0, [(0, 2)], st, 0, none, [], none, .ready⟩
def arrays (p : PlaneTile) (b : Master) : Master :=
  { b with arrays := [⟨[some p, none, none, none], List.replicate 4 none, List.replicate 2 ⟨none, []⟩⟩] }
def ordered (es : List (Nat × Entry)) (b : Master) : Master := { b with entries := es }
def counting (w : Warp) : Warp := { w with tokens := [0, 0, 1, 0, 0, 0, 0, 0] }

theorem witness_ArrayCommands : let p : PlaneTile := ⟨16, 4, 4, []⟩
    let s := fun es => { stateOf (fun b => ordered es (arrays p b)) counting with cycles := 1 }
    let b := fun es => blockOf (fun b => ordered es (arrays p b)) counting
    let w1 := cmdOf .swapw [] 0
    let z := cmdOf .accz [1] 0 .started
    (s [(0, w1 .queued)]).master 0 = some (b [(0, w1 .queued)]) ∧ (b []).phase = .running ∧ (b []).arrays.length = 1 ∧
    ((masterAfter (.engineCommandStart 0 0) (s [(0, w1 .queued)])).entries.map fun q => q.2.st) = [.started] ∧
    ((masterAfter (.engineCommandStart 0 1) (s [(0, w1 .started), (1, w1 .queued)])).entries.map fun q => q.2.st) = [.started, .queued] ∧
    ((masterAfter (.engineCommandComplete 0 0) (s [(0, w1 .started)])).arrays.map ArraySt.p1) = [[some p, none, none, none]] ∧
    (after (.engineCommandComplete 0 0) (s [(0, w1 .started)])).token 2 = 0 ∧
    (masterAfter (.engineCommandComplete 0 0) (s [(0, z)])).entries = [] ∧
    (b []).slots = [] ∧ (∀ w ∈ (b []).warps, w.park = none) ∧ ((arrayOf (b []) z).tile 0).word 16384 = sideInit 16384 ∧
    ((masterAfter (.engineCommandStart 0 0) (s [(0, cmdOf .mma [0, 0] 0x84000000 .queued)])).entries.map fun q => q.2.st) =
      [.faulted 0x22 ((tileReason (readBytes [] 0 (splitBytes 16)) 16).getD 0)] ∧ entryCycle 0 < (s []).cycles ∧
    (blockOf id id).xPoison = [] ∧
    (let q := fun x => { s [(0, cmdOf .accwr [0, 64] 0 .queued)] with
       masters := [(0, blockOf (fun b => ordered [(0, cmdOf .accwr [0, 64] 0 .queued)] { arrays p b with xPoison := [x] }) counting)] }
     [63, 64, 1087, 1088].map (fun x => (masterAfter (.engineCommandStart 0 0) (q x)).entries.map fun q => q.2.st) =
       [[.started], [.faulted 0x15 (2 ^ 32 * 64)], [.faulted 0x15 (2 ^ 32 * 64)], [.started]]) := by decide +kernel

/-- A tile of one FP8 value at `a`. -/
def tileAt (a : Nat) : Memory := [(a, 16), (a + 2, 1), (a + 4, 1)]

/-- Each command that reads or writes one row of tile 0, or a tile at 0x100; the store's tile at its first byte. -/
theorem witness_ArrayResults : let p : PlaneTile := ⟨16, 4, 4, []⟩
    let n := splitBytes 16
    let b := fun e => (mappedCtx (fun b => ordered [(0, e)] { arrays p b with x := tileAt 0x100 }) counting).b
    let s := fun e => { mapped (tileAt (wsKey 0 0)) (fun b => ordered [(0, e)] { arrays p b with x := tileAt 0x100 }) counting with cycles := 2000 }
    let m := fun k => BitVec.ofNat 32 (k * 2 ^ 27)
    let w1 : Word := 0x100
    (∀ e ∈ [(EOp.accrd, [m 1, w1]), (.accrd, [m 2, w1]), (.accwr, [m 1, w1]), (.accwr, [m 2, w1]), (.accsc, [m 0, w1]),
        (.accsc, [m 1, w1]), (.accsc, [m 2, w1]), (.ldws false, [w1, 0, 1, 16]), (.ldws true, [0, 0, 1, 16]), (.enct false, [m 16, w1, 0, 0x2000]),
        (.mmaChain, [w1, BitVec.ofNat 32 (2 ^ 25), 0, 0]), (.mmaSmx, [w1, 0, 0x2000, 0])],
      let e := cmdOf e.1 e.2 0x84000000 .started
      (s e).master 0 = some (b e) ∧ aget (b e).entries 0 = some e ∧ e.st = .started ∧ e.toks = [(e.warp, 2)] ∧
      e.span < (b e).arrays.length ∧ (∀ p ∈ (b e).entries, p.2.op ≠ .qfence) ∧ (b e).slots = [] ∧ (∀ w ∈ (b e).warps, w.park = none) ∧
      (b e).xPoison = [] ∧ 1 < (arrayOf (b e) e).tiles.length) ∧
    [m 0, m 1, m 2].map (fun w => (field w 29 3, field w 27 2, field w 15 6, field w 21 6)) = [(0, 0, 0, 0), (0, 1, 0, 0), (0, 2, 0, 0)] ∧
    (let e := cmdOf .mma [w1, 0, 0, 0] 0x84000000 .started
     let img := readBytes (tileAt 0x100) 0x100 n
     tileReason img 16 = none ∧ mmaFault (arrayOf (b e) e) img e.fmt true = none ∧ mmaFault (arrayOf (b e) e) img e.fmt false = none ∧
     (PlaneTile.ofBytes img).rows = 1 ∧ field (BitVec.ofNat 32 (2 ^ 25)) 25 3 = 1 ∧ tileReason (readBytes (s e).mem (wsKey 0 0) n) 16 = none ∧
     (s e).poisoned (wsKey 0 0) n = false ∧ (s e).formOf (wsKey 0 0) = none ∧
     ((List.range n).all fun i => !(s e).refreshing (wsKey 0 0 + i)) = true ∧ ((b e).seg .w).base = 0) := by decide +kernel

/-- ENCT of 258 zeros at threshold zero clamps two of them, more than an allowance of none. -/
theorem witness_TileClamps : 0 < (splitEncode (fun r c => fp32.decode ((⟨none, []⟩ : AccTile).elem r c).toNat) 2 129 16 (some (bfp16.decode 0)) 0 .rn).2 := by
  have hq : ((1, 128) : Nat × Nat) ∈ (((List.range 2).flatMap fun r => (List.range 129).map fun c => (r, c)).filter
      fun p => !(fp32.decode ((⟨none, []⟩ : AccTile).elem p.1 p.2).toNat).isNaN).filter
      fun p => !(fp32.decode ((⟨none, []⟩ : AccTile).elem p.1 p.2).toNat).abs.lt (bfp16.decode 0) := by decide +kernel
  simp only [splitEncode]
  refine List.length_pos_of_mem (List.mem_filter.mpr ⟨hq, ?_⟩)
  simp only [List.contains_eq_mem, Bool.not_eq_true', decide_eq_false_iff_not]
  exact fun h => absurd (List.mem_filter.mp h).2 (by decide +kernel)

/-- Two granules: 128 bytes, then 32. -/
theorem witness_CopyGranules : let e : ESt → Nat → Entry := fun st n =>
      { cmdOf (.copy false false) [2688, 64, 0, 0x1000, 0, 0x10028, 160, 0] 0 st with landed := n }
    let f := fun st n b => ordered [(0, e st n)] { b with x := [(64, 7), (223, 9)] }
    let s := fun st n => { stateOf (f st n) counting with cycles := 1 }
    let x := copyBox false [2688, 64, 0, 0x1000, 0, 0x10028, 160, 0]
    (s .queued 0).master 0 = some (blockOf (f .queued 0) counting) ∧
    (x.srcSp, x.dstSp, x.srcSw, x.dstSw, x.total, x.z, x.w) = (1, 1, 0, 0, 160, 4, 40) ∧ copyBound [2688, 64, 0, 0x1000, 0, 0x10028, 160, 0] = none ∧
    ((masterAfter (.copyStart 0 0) (s .queued 0)).entries.map fun q => q.2.st) = [.started] ∧
    ((masterAfter (.granuleLand 0 0) (s .started 0)).entries.map fun q => (q.2.landed, q.2.stage.length)) = [(128, 0)] ∧
    (masterAfter (.granuleLand 0 0) (s .started 0)).x = [(64, 7), (223, 9), (0x1000, 7)] ∧
    (masterAfter (.granuleLand 0 0) (s .started 128)).entries = [] ∧ (after (.granuleLand 0 0) (s .started 128)).token 2 = 0 ∧
    (masterAfter (.granuleLand 0 0) (s .started 128)).x.read 0x109F = 9 ∧
    (blockOf (f .started 0) counting).xPoison.length + (blockOf (f .started 0) counting).slots.length = 0 ∧ ∀ w ∈ (blockOf (f .started 0) counting).warps, w.park = none := by
  decide +kernel

/-- A copy of `w` values of 2 ^ `zx` bytes from 0x2000 to 0x1000, between these spaces and with this transform. -/
def moveWords (sp dp zx h w bound tr fmts par : Nat) : List Word :=
  [BitVec.ofNat 32 (2048 * sp + 512 * dp + 64 * zx), 0x2000, 0, 0x1000, 0, BitVec.ofNat 32 (65536 * h + w), 16, BitVec.ofNat 32 bound,
    BitVec.ofNat 32 (2 ^ 24 * tr + fmts), BitVec.ofNat 32 par, 0, 0]
def movedX : Memory := [(0, 1), (0x2000, 3), (0x2001, 4), (0x2010, 5)]
def mover (e : Entry) (b : Master) : Master := slotAt16 (.idle 7 2) (ordered [(0, e)] { b with x := movedX })
def copyEntry (ws : List Word) (fo : Bool) : Entry := { cmdOf (.copy true fo) ws 0 .started with fo := [2] }
def copying (e : Entry) (f : Master → Master) : State :=
  { mapped [(0x1001, 9), (0x2000, 7), (0x2001, 8)] (fun b => f (mover e b)) counting with cycles := 1 }
/-- The entries left, bytes of x: and of memory, and the token's count. -/
def landing (e : Entry) (f : Master → Master) : List (Nat × ESt) × List Nat :=
  let t := next (.granuleLand 0 0) (copying e f)
  let b := (t.master 0).getD default
  (b.entries.map fun q => (q.2.landed, q.2.st), [16, 18, 26, 0x1000, 0x1001].map (fun a => (b.x.read a).toNat) ++
    [0x1000, 0x1001].map (fun a => (t.mem.read a).toNat) ++ [(t.warp ⟨0, 0⟩).elim 9 (·.token 2)])

/-- x: to x:, g: to x:, x: to g:, bound to a slot; a gather, a transpose, a split-encode; a refused tile; a follow-on command. -/
theorem witness_CopyForms : [moveWords 1 1 0 1 2 0 0 0 0, moveWords 0 1 0 1 2 0 0 0 0, moveWords 1 0 0 1 2 0 0 0 0, moveWords 1 1 0 1 2 0x8001 0 0 0,
      moveWords 1 1 0 1 1 0 4 0 0, moveWords 1 1 1 1 1 0 2 0x8000 0, moveWords 1 1 1 1 1 0 3 0x808000 0, moveWords 1 1 1 64 256 0 1 0x808000 0].map
      (fun ws => landing (copyEntry ws false) id) =
    [([], [0, 0, 0, 3, 4, 0, 9, 0]), ([], [0, 0, 0, 7, 8, 0, 9, 0]), ([], [0, 0, 0, 0, 0, 3, 4, 0]), ([], [7, 2, 2, 3, 4, 0, 9, 0]),
     ([], [0, 0, 0, 5, 0, 0, 9, 0]), ([(64, .started)], [0, 0, 0, 3, 4, 0, 9, 1]), ([(128, .started)], [0, 0, 0, 16, 0, 0, 9, 1]),
     ([(0, .dropped)], [0, 0, 0, 0, 0, 0, 9, 1])] ∧
    landing { copyEntry (moveWords 1 1 0 1 2 0 0 0 0 ++ [0]) true with fmt := 0x84000000, fo := [0x100, 0] } (accs 2) =
      ([(0, .queued)], [0, 0, 0, 3, 4, 0, 9, 1]) := by decide +kernel

/-- The last fill of a prologue; a misaligned source, and one that is not present. -/
def fillBind : XformBind := ⟨0, 0, 0, 0x1000, 0x2000, 1, 2, 16, 0, 0⟩
theorem witness_CopyStops :
    (let s := copying { cmdOf .fill [] 0 .started with toks := [] } fun b => { b with phase := .prologue }
     let b := masterAfter (.granuleLand 0 0) { s with grids := [(0, { probeGrid with launch := { probeGrid.launch with binds := [fillBind] } })] }
     (b.entries.length, b.phase, [0x1000, 0x1001].map b.x.read) = (0, .running, [7, 8])) ∧
    landing (copyEntry ((moveWords 1 1 1 1 1 0 0 0 0).set 1 0x2001) false) id = ([(0, .stopped)], [0, 0, 0, 0, 0, 0, 9, 1]) ∧
    (let s := copying (copyEntry ((moveWords 0 1 1 1 1 0 0 0 0).set 1 0x80000000) false) id
     let d : Die := { Die.reset with tlb := [⟨1, 3, 0, 0x1F⟩, ⟨1, 3, 2, 0⟩] }
     (masterAfter (.granuleLand 0 0) { s with dies := List.replicate 8 d }).entries.map (fun p => p.2.wait) = [.missing 0]) := by decide +kernel

/-- What a granule of a gather from x: and of a plain copy from g: depends on. -/
theorem witness_GranuleBytes :
    (let e := copyEntry (moveWords 1 1 0 1 1 0 4 0 0) false
     let s := copying e id
     let b := (mappedCtx (mover e) counting).b
     let x := copyBox true e.words
     s.master 0 = some b ∧ HasWholes b x [] (fun _ => ([1, 0, 0, 0], 0)) (wholes x 0 0 1) s s ∧
       GranuleBytes b x (fun _ => ([1, 0, 0, 0], 0)) 0 0 1 s s [5] 0 ∧ Takes s s b x 0x1000 1 none) ∧
    (let e := copyEntry (moveWords 0 0 0 1 2 0 0 0 0) false
     let s := copying e id
     let b := (mappedCtx (mover e) counting).b
     let x := copyBox true e.words
     GranuleBytes b x (fun _ => ([], 0)) 0 0 2 s s [7, 8] 0 ∧ Takes s s b x 0x1000 2 (some ⟨0x1000, 0, false⟩)) := by
  refine ⟨⟨by decide +kernel, ⟨_, Or.inr ⟨rfl, ?_, rfl⟩, rfl⟩, ⟨?_, rfl⟩, rfl, rfl, ?_, ?_⟩, ⟨⟨?_, ?_, _, rfl, ?_, ?_⟩, rfl⟩, ?_⟩
  · exact ⟨by decide, rfl, by decide +kernel, by decide +kernel⟩
  · exact ⟨by decide, rfl, by decide +kernel, by decide +kernel⟩
  · decide +kernel
  · unfold PlainBytes; decide +kernel
  · decide +kernel
  · decide +kernel
  · unfold Sound; decide +kernel
  · decide +kernel
  · refine ⟨by decide, by decide +kernel, by decide, rfl, by unfold Sound; decide +kernel, by decide +kernel, by decide +kernel⟩

def storeBytes (m : Memory) (l : List (Nat × List Byte)) : Memory := l.foldl (fun n p => writeBytes n p.1 p.2) m

/-- Sequence 1 has 20 tokens on frames 5 and 6; frame 6 is shared, frame 7 free. -/
def seq1 : SeqEnt := ⟨20, 4, 0x140000, true⟩
def frameBytes (n next : Nat) : List Byte := leBytes 2 n ++ leBytes 2 0 ++ leBytes 4 next
def kvBytes : List (Nat × List Byte) := [(0x100020, seq1.bytes), (0x140000, leBytes 4 5), (0x140004, leBytes 4 6),
  (0x200000, leBytes 4 7 ++ leBytes 4 1 ++ leBytes 56 0), (0x200068, frameBytes 1 0), (0x200070, frameBytes 2 0), (0x200078, frameBytes 0 0xFFFFFFFF)]

def xlats : Warp → Warp := fun w => { w with opCount := 1, outs := [{ (default : MemOp) with
  kind := .xlat false, lanes := [{ (default : LaneAcc) with lane := 3, ea := 17, dst := 1 }] }] }
def paged (o : PageOp) (s : State) : State := s.modDie 0 fun x => { x with pageOps := [(0, o)], pageSeq := 1 }

/-- The page unit with a KVCOW of sequence 1's page `w1`. -/
def cow (w1 : Nat) (st : ESt) (p : PageSt) : State := (fun s : State => { s with cycles := 1 }) (paged ⟨0, 0, 0, true, 0, p⟩
  (mapped (storeBytes [] kvBytes) (fun b => ordered [(0, cmdOf .kvcow [1, BitVec.ofNat 32 w1] 0 st)] (kvPart b)) counting))

/-- Token 17 is on the shared frame 6; 16 is its page's first token, 15 the other page's last. -/
theorem witness_PageUnit : let b := (mappedCtx kvPart xlats).b
    let k := b.kv.getD default
    let m : PageMem := ⟨State.reset, kvBytes, []⟩
    let x := fun wr q p => ((xlatLane b k wr q p).run m).1.toOption
    ReadsSeq m b k 1 seq1 ∧ ReadsPage m b seq1 1 6 ∧ ReadsPage m b seq1 0 5 ∧ ReadsCount m b k 6 2 ∧ ReadsCount m b k 5 1 ∧
    x false 1 17 = some (0x306080, 0x306880) ∧ x true 1 16 = some (0xFFFFFFFF, 3) ∧ x true 1 15 = some (0x305780, 0x305F80) ∧
    x false 1 20 = some (0xFFFFFFFF, 2) ∧ x false 4 0 = some (0xFFFFFFFF, 4) ∧
    ((after (.pageUnitOperation 0 0) (paged ⟨0, 0, 0, false, laneBit 3, .waiting⟩ (mapped (storeBytes [] kvBytes) kvPart xlats))).outs.map
      fun o => o.lanes.map fun l => (l.st, l.val)) = [[(.done, leBytes 4 0x306080 ++ leBytes 4 0x306880)]] ∧
    (masterAfter (.pageUnitOperation 0 0) (cow 0 .queued .waiting)).entries = [] ∧
    ((next (.pageUnitOperation 0 0) (cow 1 .queued .waiting)).die 0).pageOps.map (fun p => p.2.st) = [.copying 6 7] ∧
    (next (.kvcowCopyComplete 0 0) (cow 1 .started (.copying 6 7))).mem.read 0x140004 = 7 ∧
    (after (.kvcowCopyComplete 0 0) (cow 1 .started (.copying 6 7))).token 2 = 0 := by
  refine ⟨⟨rfl, ?_⟩, rfl, rfl, ⟨0, ?_, ?_, rfl⟩, ⟨0, ?_, ?_, rfl⟩, ?_⟩ <;> decide +kernel

/-- The rows of page 1 are moved; the next page of K is not present; a poisoned row stops the copy. -/
theorem witness_CowCopy : let s := cow 1 .started (.copying 6 7)
    let far := fun (b : Master) => { ordered [(0, cmdOf .kvcow [1, 1] 0 .started)] (kvPart b) with
      kv := (kvPart b).kv.map fun k => { k with frameBase := 0x80000000 } }
    let at' := fun (t : State) => (masterAfter (.kvcowCopyComplete 0 0) t).entries.map fun p => (p.2.st, p.2.wait)
    at' s = [] ∧ at' { s with poison := [0x306000] } = [(.stopped, .ready)] ∧
    at' { s with masters := [(0, (mappedCtx far counting).b)] } = [(.started, .missing 0)] := by decide +kernel

/-- Sequence 2 is not live; its page list holds four entries. -/
def seq2 : SeqEnt := ⟨0, 4, 0x150000, false⟩
def kvMem : PageMem := ⟨State.reset, kvBytes ++ [(0x100040, seq2.bytes)], []⟩
def kvBlock : Master := (mappedCtx kvPart id).b
def kvCtx : KvCtx := kvBlock.kv.getD default
/-- What an operation of the page unit reports, and what it leaves at some addresses. -/
def paging {α : Type} (x : Page α) (as : List Nat) (held : List Nat := []) : Option α × List (Option (List Byte)) :=
  match x.run { kvMem with held := held } with
  | (r, p) => (r.toOption, as.map fun a => (p.writes.find? fun w => w.1 == a).map Prod.snd)

/-- KVEXT of sequence 1 to 33 tokens takes frame 7; KVFORK to sequence 2 shares frames 5 and 6; KVFREE gives 5 back and keeps 6;
KVCOW of the shared page 1 takes frame 7, and ends with one use of 6 less. -/
theorem witness_Sequences : ReadsSeq kvMem kvBlock kvCtx 1 seq1 ∧ ReadsSeq kvMem kvBlock kvCtx 2 seq2 ∧
    ReadsPool kvMem kvBlock kvCtx [] 7 1 ∧ ReadsPool kvMem kvBlock kvCtx [7] 0xFFFFFFFF 0 ∧ ReadsFrame kvMem kvBlock kvCtx 7 0xFFFFFFFF 0 ∧ ReadsPage kvMem kvBlock seq1 0 5 ∧
    ReadsPage kvMem kvBlock seq1 1 6 ∧ ReadsFrame kvMem kvBlock kvCtx 5 0 1 ∧ ReadsFrame kvMem kvBlock kvCtx 6 0 2 ∧
    Laid kvBlock kvCtx seq1.list 4 ∧ Laid kvBlock kvCtx seq2.list 4 := by
  refine ⟨⟨rfl, by decide +kernel⟩, ⟨rfl, by decide +kernel⟩, ⟨[], .refl _, by decide, by decide, by decide, by decide, by decide, rfl, fun i f h => by simp at h⟩,
    ⟨[7], .refl _, by decide, by decide, by decide, by decide, by decide, rfl, fun i f h => by
      cases i with
      | zero => cases h; exact ⟨by decide, by decide, rfl⟩
      | succ => simp at h⟩, ⟨by decide, by decide, rfl⟩, rfl, rfl,
    ⟨by decide, by decide, rfl⟩, ⟨by decide, by decide, rfl⟩, ⟨?_, ?_⟩, ⟨?_, ?_⟩⟩ <;> decide +kernel

def told : KvEnd → List Nat
  | .ended r => [r.code, r.flags, r.length, r.taken, r.returned]
  | .copy g f => [g, f]

theorem test_kvext : paging (told <$> runKvext kvBlock kvCtx 1 13) [0x100020, 0x200000, 0x140008, 0x200078] =
    (some [0, 0, 33, 1, 0], [some { seq1 with length := 33 }.bytes, some (leBytes 4 0xFFFFFFFF ++ leBytes 60 0), some (leBytes 4 7),
      some (frameBytes 1 0xFFFFFFFF)]) := by decide +kernel

theorem test_kvfork : paging (told <$> runKvfork kvBlock kvCtx 1 2) [0x100040, 0x150000, 0x150004, 0x200068, 0x200070] =
    (some [0, 0, 20, 0, 0], [some { seq2 with length := 20, live := true }.bytes, some (leBytes 4 5), some (leBytes 4 6),
      some (frameBytes 2 0xFFFFFFFF), some (frameBytes 3 0xFFFFFFFF)]) := by decide +kernel

theorem test_kvfree : paging (told <$> runKvfree kvBlock kvCtx 1) [0x100020, 0x200000, 0x200068, 0x200070] =
    (some [0, 0, 0, 0, 1], [some { seq1 with length := 0, live := false }.bytes, some (leBytes 4 5 ++ leBytes 4 2 ++ leBytes 56 0),
      some (frameBytes 0 7), some (frameBytes 1 0xFFFFFFFF)]) := by decide +kernel

theorem test_kvcow : paging (told <$> runKvcow kvBlock kvCtx 1 1) [0x200000, 0x200078] =
      (some [6, 7], [some (leBytes 4 7 ++ leBytes 4 1 ++ leBytes 56 0), some (frameBytes 0 0xFFFFFFFF)]) ∧
    paging ((told ∘ KvEnd.ended) <$> endKvcow kvBlock kvCtx 1 1 6 7) [0x140004, 0x200070, 0x200078, 0x200000] [7] =
      (some [0, 0, 20, 1, 0], [some (leBytes 4 7), some (frameBytes 1 0xFFFFFFFF), some (frameBytes 1 0xFFFFFFFF),
        some (leBytes 4 0xFFFFFFFF ++ leBytes 60 0)]) ∧
    paging ((told ∘ KvEnd.ended) <$> endKvcow kvBlock kvCtx 1 0 5 7) [0x140000, 0x200068, 0x200000] [7] =
      (some [0, 0, 20, 1, 1], [some (leBytes 4 7), some (frameBytes 0 0xFFFFFFFF), some (leBytes 4 5 ++ leBytes 4 1 ++ leBytes 56 0)]) := by decide +kernel

theorem witness_StructureWrites : let s := mapped [] kvPart id
    kvBlock.outside 0 0x100020 32 = false ∧
    s.vaPlaces kvBlock.die kvBlock.queue kvBlock.ctx 0x100020 32 .write = (s, .ok [(⟨0x100020, 0, false⟩, 32)]) ∧
    homeOf 0x100020 = some 0 ∧ kvBlock.die = 0 ∧ s.poisoned 0x100020 32 = false ∧ s.formOf 0x100020 = none ∧ (s.die 0).copies = [] :=
  ⟨by decide +kernel, rfl, by decide +kernel⟩

/-! ### Queues -/

def ringOf (kind : Nat) : Queue := ⟨0x60000, 4, kind, 0, 0xF, 0, 0, 1, 0, 1, true, none, [(0, .cc)]⟩

/-- Queue 2 with a command in its first slot. -/
def queued (kind : Nat) (m : Memory) (cmd : List (Nat × List Byte)) : State :=
  { mapped m id id with queues := [(2, ringOf kind)]
                        mem := storeBytes (writeBytes m 0x60001 [0x80]) (cmd.map fun p => (0x60000 + p.1, p.2)) }

def headOf (s : State) : QCmd := (s.headAt 2 (s.queue 2)).getD default

/-- Queue 2 is consuming and its head is sound. -/
def ready (s : State) : Bool := s.queue 2 == (ringOf (s.queue 2).kind) && (s.queue 2).kind != 0 && (s.headAt 2 (s.queue 2)).isSome &&
  field (BitVec.ofNat 32 ((headOf s).byte 1)) 7 1 == 1 && ((s.queue 2).rejects (headOf s)).isNone

/-- Disabled; enabled with one entry; a slot not yet written; a slot that is rejected. -/
theorem witness_QueueRegisters : let off : State := { mapped [] id id with queues := [] }
    let x : Queue := { ringOf 1 with consuming := false }
    let on : State := { off with queues := [(2, x)] }
    (off.queue 2).kind = 0 ∧ off.blob.isSome = true ∧ (next (.registerWrite .cc (.qSizeExp 2) 20) off).queue 2 = { Queue.reset with sizeExp := 20 } ∧
    ((next (.queueEnable .cc 2 1) off).queue 2).state = 1 ∧ x.permits .host = true ∧ Queue.permits { x with rights := 1 } .host = false ∧
    (next (.reserveIndexRead .host 2) on).reply = some (leBytes 8 1) ∧ ((next (.reserveIndexRead .host 2) on).queue 2).reserve = 2 ∧
    ((next (.doorbell .host 2) on).queue 2).consuming = false ∧
    (let s := queued 1 [] [(0, [0x77])]
     (s.queue 2).active = true ∧ (s.queue 2).lapOk (headOf s) = true ∧ ((s.queue 2).rejects (headOf s)).isSome = true) := by decide +kernel

/-- The register blocks read back; a reserved field reads zero (R3). -/
theorem test_register_reads : let s := { mapped [] id id with queues := [(2, ringOf 1)] }
    let reads := fun (r : RegBlock) (o n : Nat) => match runBackground (.readReg .host r o n) s with | .next t => t.reply | _ => none
    reads (.queue 2) 0 8 = some (leBytes 8 0x60000) ∧ reads (.queue 2) 48 16 = some (leBytes 16 0) ∧ reads (.queue 2) 16 4 = some (leBytes 4 50) ∧
    reads .master 40 24 = some (leBytes 24 0) ∧ reads .bringUp 64 128 = some (List.replicate 128 0xFF) ∧
    (let u := { s with ready := 0 }
     u.headAt 2 (u.queue 2) = none ∧ (drainQueue 1 2 u).queues.map (fun q => (q.1, q.2.consuming)) = [(2, false)] ∧
     readBytes (drainQueue 1 2 u).mem 0x44000000 2 = [3, 0x18]) := by decide +kernel

/-- One command of each kind at queue 2's head, and what it leaves. -/
theorem witness_QueueCommands :
    let cadd := queued 1 [] [(0, [4]), (32, leBytes 2 9), (40, leBytes 8 5)]
    let cset := queued 1 [] [(0, [5]), (32, leBytes 2 9), (40, leBytes 8 5)]
    let hold := queued 1 [] [(0, [7])]
    let trig := queued 1 [] [(0, [7, 0x81]), (2, leBytes 2 9), (8, leBytes 8 3)]
    let sig := queued 2 [] [(0, [3]), (16, leBytes 8 0x4000)]
    let busy := { hold with pendingCmds := [(2, 0)], tickets := 1 }
    [cadd, cset, hold, trig, sig, busy].all ready = true ∧ (headOf trig).triggered = true ∧
    (next (.cadd 2) cadd).counters = [(9, 5)] ∧ (next (.cset 2) cset).counters = [(9, 5)] ∧
    ((next (.hold 2) hold).queue 2).hold = none ∧ ((next (.hold 2) busy).queue 2).hold = some [0] ∧
    ((next (.holdRelease 2) { next (.hold 2) busy with pendingCmds := [] }).queue 2).hold = none ∧
    (next (.hold 2) trig).trigs.map (fun t => (t.counter, t.threshold)) = [(9, 3)] ∧
    (next (.signal 2) sig).signals = [(0x4000, .early 1 false)] ∧
    (next .heldCancelDelivery { sig with cancels := [(0x4000, true)] }).signals = [(0x4000, .early 1 true)] ∧
    (next (.counterApertureWrite .cc 72 8 6) cadd).counters = [(9, 6)] ∧
    ((next (.queueResume 2) { hold with queues := [(2, { ringOf 1 with state := 2 })] }).queue 2).state = 1 ∧
    (∀ p ∈ (stateOf id id).masters, ∀ w ∈ p.2.warps, w.outs = []) := by decide +kernel

/-- Queue 2's address space maps its first gibibyte in place. -/
def tables : List (Nat × List Byte) := [(0x40000080, leBytes 8 0x40100000), (0x40000088, [1]), (0x4000008C, [3]),
  (0x40100000, leBytes 8 0x40200001), (0x40200000, leBytes 8 0x40300001), (0x40300000, [0x1F])]

/-- An image of one variant of one warp at 0x20000, a launch record of one block at 0x30000, a task record at 0x34000. -/
def workBytes : List (Nat × List Byte) := [
  (0x20000, leBytes 4 0x00584749), (0x20004, [1]), (0x20006, [1]), (0x20008, leBytes 4 4096), (0x20010, [1]), (0x20014, [64]), (0x20028, [7]),
  (0x20042, [1, 0, 1, 16]), (0x2004C, [1]), (0x20050, [1]), (0x20058, [128]), (0x2005C, [128]), (0x20060, [64]),
  (0x30000, leBytes 8 0x20000), (0x30008, [1]), (0x3000A, [20]), (0x30010, [1]), (0x30014, [1]), (0x30018, [1]), (0x3001C, [128]),
  (0x3001E, [1]), (0x30020, [1]), (0x30022, [1, 1]), (0x30027, [1]), (0x30050, leBytes 4 0x31000), (0x300A0, leBytes 4 0x32000),
  (0x300A8, leBytes 4 0x33000), (0x34000, leBytes 8 0x20000), (0x34008, [128])]

def withWork (cmd : List (Nat × List Byte)) (kind : Nat) : State :=
  { queued kind (storeBytes [] (tables ++ workBytes)) cmd with blob := some { probeBlob with taskSlotSize := 131072 } }
def posted (kind op addr : Nat) : State := withWork [(0, [BitVec.ofNat 8 op]), (16, leBytes 8 addr)] kind

theorem witness_WorkAccepted : let s := posted 1 1 0x30000
    let u := posted 2 2 0x34000
    let r := s.readLaunch 2 (s.transCtx 2) 0x30000
    let q := u.readTask 2 (u.transCtx 2) 0x34000
    ready s = true ∧ ready u = true ∧ (s.transCtx 2).isSome = true ∧ (headOf s).triggered = false ∧ (headOf s).ref.queue = 2 ∧
    (headOf s).addr = 0x30000 ∧ r.2.code = none ∧ r.2.complKey = some 0x31000 ∧ r.2.producers = [] ∧ r.1.unreachable 0x31000 64 = false ∧
    r.1.formOf 0x31000 = none ∧ r.1.cycles = s.cycles ∧ aget r.1.grids (freshKey r.1.grids) = none ∧
    (let t := next (.launchCommand 2) s
     (t.grids.map fun p => (p.1, p.2.recState, p.2.inPool), readBytes t.mem 0x31000 8)) =
      ([(0, 0, false), (1, 1, true)], [1, 0, 0, 0, 0, 0, 2, 0]) ∧
    q.2.code = none ∧ q.2.preds = 0 ∧ q.1.signals = [] ∧ field (BitVec.ofNat 32 ((headOf u).byte 1)) 2 1 = 0 ∧
    ((next (.taskCommand 2) u).masters.map fun p => (p.1, p.2.phase, p.2.isTask, p.2.inPool)) =
      [(0, .running, false, false), (1, .waiting, true, true)] := by decide +kernel

/-- The same with these bytes of the records changed. -/
def broken (bs : List (Nat × List Byte)) (kind op addr : Nat) : State :=
  { posted kind op addr with mem := storeBytes (posted kind op addr).mem bs }

/-- The code of the launch record with one byte changed. -/
def codeOf (a v : Nat) : Nat :=
  let r := readBytes (storeBytes [] (workBytes ++ [(a, [BitVec.ofNat 8 v])])) 0x30000 256
  (lowestSub (launchCodes r (parseLaunch r) probeImage [] [] [] false)).getD 0

/-- A record that breaks one row of R56 each, in its order, and one that breaks none. -/
theorem witness_LaunchChecks :
    [(0x30034, 1), (0x30008, 0), (0x30010, 0), (0x30022, 0), (0x3000A, 31), (0x30024, 5), (0x30058, 1), (0x30038, 1), (0x30048, 1),
      (0x30050, 1), (0x30026, 0)].map (fun p => codeOf p.1 p.2) = [2, 6, 7, 8, 9, 10, 12, 13, 14, 15, 0] := by decide +kernel

theorem witness_WorkRejected : let t := next (.launchCommand 2) (broken [(0x30008, [0])] 1 1 0x30000)
    t.grids.length = 1 ∧ readBytes t.mem 0x31000 2 = [5, 6] ∧ t.finals = [0x31000] ∧ t.trigs = [] := by decide +kernel

/-- A launch that has no record to write, and a task. -/
theorem witness_ErrorPath :
    readBytes (next (.launchCommand 2) (broken [(0x30050, leBytes 4 0x31010)] 1 1 0x30000)).mem 0x44000000 2 = [3, 15] ∧
    readBytes (next (.taskCommand 2) (broken [(0x34008, [0])] 2 2 0x34000)).mem 0x44000000 2 = [3, 6] := by decide +kernel

/-- A producer that is accepted, and one that is aborted. -/
theorem witness_Producers : [1, 4].map (fun st =>
      let t := next (.launchCommand 2) (broken [(0x30025, [1]), (0x30080, leBytes 8 0x36000), (0x36000, [st])] 1 1 0x30000)
      (t.grid 1).map fun g => (g.producers, g.producerFailed, g.inPool)) =
    [some ([0x36000], false, false), some ([], true, true)] := by decide +kernel

/-- A WSLOAD of 128 bytes to die 1's weight store at 0x400. -/
theorem witness_WsLoad :
    let s := queued 1 (storeBytes [] (tables.take 3 ++ [(0x20000, [0x49])])) [(0, [6]), (16, leBytes 8 0x20000), (32, [1]), (36, leBytes 4 0x400), (40, leBytes 4 128)]
    let w : WsLoad := ⟨(headOf s).ref, 1, 0x400, 128, 0x20000, ⟨1, 3, 0, 0, 0, 0⟩, true⟩
    let t := next (.wsload 2) s
    ready s = true ∧ (s.transCtx 2).isSome = true ∧ (headOf s).ref.queue = 2 ∧ (headOf s).byte 32 = 1 ∧ wsGroups 0x400 128 = [8] ∧
    s.ready.getLsbD (384 + 16 * 1 + 8) = true ∧ t.wsloads.map (fun p => (p.2.die, p.2.dest, p.2.size, p.2.started)) = [(1, 0x400, 128, false)] ∧
    t.pendingCmds = [(2, 0)] ∧ s.transCtx 2 = some w.ctx ∧
    (next (.wsloadCopyStart 0) { s with wsloads := [(0, { w with started := false })] }).wsloads = [(0, w)] ∧
    (next (.wsloadComplete 0) { s with wsloads := [(0, w)] }).mem.read (wsKey 1 0x400) = 0x49 := by decide +kernel

/-- The block of `withWork` posts to queue 2: a kind that does not match, no right, a full ring, and room. -/
theorem witness_ProgramsPost : let g := unis [(8, 0x30000), (9, 0), (4, 2)]
    let s := fun (x : Queue) => { queued 1 [] [] with masters := (mapped [] id g).masters, queues := [(2, x)] }
    let o := { ringOf 1 with consuming := false }
    (s o).cur = some ⟨0, 0⟩ ∧ (s o).ctx = some (mappedCtx id g) ∧ (mappedCtx id g).w.outs = [] ∧
    [s { o with kind := 2 }, s { o with rights := 0 }, s { o with reserve := 16 }, s o].map (fun t => (after (.launch 5 8 4) t).s 5) =
      [0x11, 0x12, 0x20, 0] ∧
    ((next (.launch 5 8 4) (s o)).queue 2).reserve = 2 ∧ readBytes (next (.launch 5 8 4) (s o)).mem 0x60040 2 = [1, 0x80] ∧
    (after (.launch 5 8 4) { s o with masters := (mapped [] id (unis [(4, 65536)])).masters }).tinfo.toNat % 256 = 8 ∧
    (after (.submit 5 8 4) { posted 2 2 0 with queues := [(2, { o with kind := 2 })], masters := (mapped [] id (unis [(8, 0x34000), (4, 2)])).masters }).s 5 = 0 := by
  decide +kernel

/-- One grid of one block, of priority 5, waits in die 0's pool; `ms` stand. -/
def waiting (ms : List (Nat × Master)) : State :=
  let g := { probeGrid with nextLin := 0, inPool := true, dieSet := 1, launch := { probeGrid.launch with priority := 5 } }
  { mapped [] id id with masters := ms, cur := none, grids := [(0, g), (1, probeGrid)] }

/-- A block of another grid, of priority 0, with every core of die 0. -/
def holder (b : Master) : Master :=
  { b with kind := .block 1 0, cores := (List.range 24).map fun c => { b.cores.headD default with core := c, warpSlots := List.range 64 } }

/-- The waiting grid, passed over for lack of room since cycle 0. -/
def passedOver (now : Nat) : State :=
  { (waiting [(0, blockOf holder id)]).modDie 0 fun x => { x with passed := [(.grid 0, 0)] } with cycles := now }

theorem witness_Dispatching : let s := waiting []
    let t := next (.dispatchStep 0) s
    let u := next (.keyGrant 0) t
    (s.die 0).grant = none ∧ (s.die 0).lastPlace = none ∧ s.dieOpen 0 = true ∧ (s.joinAll.poolOrder 0).map Prod.fst = [.grid 0] ∧
    (s.joinAll.candidate 0 (.grid 0)).isSome = true ∧ s.joinAll.inSet 0 (.grid 0) = true ∧
    ((t.die 0).grant.map fun g => (g.who, g.varIdx, g.cores.map CoreHold.core)) = some (.block 0 0, 0, [0]) ∧
    (u.die 0).grant = none ∧ (u.die 0).lastPlace = some 0 ∧ u.masters.map (fun p => (p.2.phase, p.2.warps.length)) = [(.running, 0)] ∧
    (next (.warpRelease 0) u).masters.map (fun p => p.2.warps.map fun w => (w.allot, w.frontier.map fun e => (e.addr, e.lanes))) =
      [[(16, [(0x10000, Mask.all)])]] ∧
    (next (.keyGrant 0) { t with grids := [] }).masters = [] := by decide +kernel

/-- A key-eligible blocking entry that does not fit lets nothing pass. -/
theorem witness_Blocking : let s := (passedOver 1).modDie 0 fun x => { x with blocking := some (.grid 0) }
    s.keyEligible (.grid 0) = true ∧ (s.candidate 0 (.grid 0)).isSome = true ∧ ((next (.dispatchStep 0) s).die 0).grant = none := by decide +kernel

theorem witness_PoolWaits : let s := passedOver 1600000
    (s.grid 0).map Grid.inPool = some true ∧ s.passedFor 0 1600000 (.grid 0) = true ∧ (passedOver 1599999).passedFor 0 1600000 (.grid 0) = false ∧
    ((next (.entryAged 0 (.grid 0)) { s with cycles := 1 }).grid 0).map Grid.aged = some true ∧
    ((next (.entryAged 0 (.grid 0)) { s with cycles := 0 }).grid 0).map Grid.aged = some false ∧
    ((next (.placementWaitLimit 0 (.grid 0)) s).die 0).blocking = some (.grid 0) ∧
    s.lowerVictims 0 (s.prioOf (.grid 0)) = [0] ∧
    (next (.preemptionDelayExpiry 0 (.grid 0)) (passedOver 160000)).masters.map (fun p => p.2.preempt) = [true] ∧
    (let early := { blockOf (fun b => { holder b with kind := .block 1 3 }) id with priority := 9 }
     let lost := { blockOf (fun b => { b with kind := .block 1 2, cores := [], phase := .preempted, inPool := true }) id with warps := [] }
     let u := { (waiting [(0, early), (1, lost)]).modDie 0 fun x => { x with passed := [(.master 1, 0)] } with cycles := 16000 }
     u.passedFor 0 16000 (.master 1) = true ∧ (next (.readmissionDelayExpiry 1) u).masters.map (fun p => p.2.preempt) = [true, false] ∧
     let v := (u.modMaster 1 fun b => { b with phase := .migrating, die := 1 }).modGrid 1 fun g => { g with dieSet := 1 }
     v.passedFor 0 16000 (.master 1) = true ∧ (v.gridOf ((v.master 1).getD default)).map Grid.dieSet = some (bit8 0) ∧
     (next (.readmissionDelayExpiry 1) v).masters.map (fun p => p.2.preempt) = [true, false]) := by
  decide +kernel

/-- Core 0 is a block's of priority `prio`, core 1 a block's that waits at STEP while its grid drains, the others a block's of
priority 9; a counted task of the grid, with a variant over `span` cores, has waited since cycle 0. -/
def crowded (prio span : Nat) : State :=
  let on (lin : Nat) (cs : List Nat) (b : Master) : Master := { holder b with
    kind := .block 1 lin, priority := 9, cores := cs.map fun c => { b.cores.headD default with core := c, warpSlots := List.range 64 } }
  let task : Master := { blockOf asTask id with
    priority := 5, phase := .waiting, cores := [], warps := [], inPool := true, counted := some 1
    image := { probeImage with variants := probeImage.variants.map fun v => { v with warps := span, span := span } } }
  let s := waiting [(0, { blockOf (on 0 [0]) id with priority := prio }),
    (1, blockOf (on 1 [1]) fun w => { w with clause := none, frontier := [], held := [⟨0x10008, Mask.all, 0, true, 0⟩], arrived := true }),
    (2, blockOf (on 2 ((List.range 22).map (· + 2))) id), (5, task)]
  { s.modDie 0 fun x => { x with passed := [(.master 5, 0)] } with cycles := 160000, grids := [(1, { probeGrid with drain := .first })] }

/-- R434: a task that fits only when both the lower block and the one at STEP are gone, and one that the block at STEP makes room for. -/
theorem witness_StepVictims : let chosen := fun s : State => (next (.preemptionDelayExpiry 0 (.master 5)) s).masters.map fun p => p.2.preempt
    (crowded 0 2).passedFor 0 160000 (.master 5) = true ∧ ((crowded 0 2).candidate 0 (.master 5)).isSome = true ∧
    ((crowded 0 2).lowerVictims 0 5, (crowded 0 2).stepVictims 0 (.master 5)) = ([0], [1]) ∧
    chosen (crowded 0 2) = [true, true, false, false] ∧ chosen (crowded 9 1) = [false, true, false, false] := by decide +kernel

def switching (b : Master) : Master := { b with phase := .switching, switchTo := some (0, b.cores, 0), x := [(3, 7)] }
def heldWarp (w : Warp) : Warp :=
  { w with clause := none, frontier := [], held := [⟨0x10008, Mask.all, 2, false, 0⟩], heldId := some 0, regs := [(18, List.replicate 128 5)] }
/-- At a clause boundary. -/
def between (w : Warp) : Warp := { w with clause := none, frontier := [⟨0, 0x10000, Mask.all, 0, false⟩] }
def saving (b : Master) : Master := { asTask b with phase := .preempting, ctxSlot := some 0 }
def bare (b : Master) : Master :=
  { b with image := { b.image with variants := b.image.variants.map fun v => { v with acc := 0, frames := 1, scratch := 0, hwbars := 0, slots := 0 } } }

/-- A point that the image does not have; another warp of the block has arrived at point 3, and at point 0. -/
theorem witness_LanesClash : let s := fun k => { stateOf id id with masters := [(0, { blockOf id id with
      warps := [probeWarp 0 0, { heldWarp (probeWarp 0 0) with heldId := some k, arrived := true }] })] }
    (after (.switchpt 5) (stateOf id id)).tinfo = 0x108 ∧
    [3, 0].map (fun k => (after (.switchpt 0) (s k)).tinfo) = [0x108, 0] := by decide +kernel

theorem witness_SwitchAndPreempt : let s := stateOf switching heldWarp
    let w := after (.switchComplete 0) s
    s.quiet 0 (blockOf switching heldWarp) = true ∧ (blockOf switching heldWarp).x.wf = true ∧
    ((masterAfter (.switchComplete 0) s).phase, w.allot, w.v 0 2 7, w.frontier.map FEntry.addr) = (.running, 16, 5, [0x10000]) ∧
    (∀ v ∈ (blockOf id between).warps, v.atBoundary = true) ∧ (blockOf id between).liveWarps ≠ [] ∧
    (masterAfter (.preemptionTakeEffect 0) (stateOf (fun b => { b with preempt := true }) between)).phase = .preempting ∧
    (let g : Warp → Warp := fun w => { between w with allot := 1 }
     let p := mapped [] (fun b => bare (saving b)) g
     p.atRest 0 (mappedCtx (fun b => bare (saving b)) g).b = true ∧ (masterAfter (.contextSaveComplete 0) p).phase = .preempted) ∧
    [1600 * 2 ^ 20 - 1, 1600 * 2 ^ 20].map (fun n => (masterAfter (.watchdogFire 0) { stateOf id between with cycles := n }).phase) =
      [.running, .frozen] := by decide +kernel

/-- Its lanes have exited. -/
def gone (k : Nat) (w : Warp) : Warp :=
  { w with clause := none, frontier := [], exitAt := w.clause, tokens := [0, 0, k, 0, 0, 0, 0, 0] }
def retired (w : Warp) : Warp := { gone 0 w with retired := true, allot := 0, exitAt := none }
def sweeping (d : Drain) : State :=
  { stateOf id id with grids := [(0, { probeGrid with drain := d, sweep := (5, 2) :: (0, 3) :: List.replicate 6 (0, 0) })] }

theorem witness_Retirement : (gone 0 (probeWarp 0 0)).liveLanes = 0 ∧
    [0, 1].map (fun k => (after (.warpRetire ⟨0, 0⟩) (stateOf id (gone k))).retired) = [true, false] ∧
    ((masterAfter (.warpRetire ⟨0, 0⟩) (stateOf id (gone 0))).cores.map CoreHold.pool) = [16] ∧
    (∀ w ∈ (blockOf id retired).warps, w.retired = true) ∧ (stateOf id retired).engineQuiet 0 (blockOf id retired) = true ∧
    (next (.blockRetire 0) (stateOf id retired)).masters = [] ∧ (next (.taskRetire 0) (mapped [] asTask retired)).masters = [] ∧
    [Drain.idle, .first, .second 5 5, .second 5 4].map (fun d => ((next (.drainSweepEnd 0) (sweeping d)).grid 0).map Grid.drain) =
      [some .idle, some (.second 5 5), ((sweeping (.second 5 5)).drainAgrees 0 |>.grid 0).map Grid.drain, some (.second 5 5)] := by
  decide +kernel

/-! ### The control complex -/

def asking (x : Maint) : State := { mapped [] id id with maint := x }

/-- Translations at the window's edges: the first and last bytes of the gibibyte, one past it. -/
theorem witness_Maintenance : let x := fun op a n asid => (⟨⟨a, n, asid, 0, op⟩, [], 0, default⟩ : Maint)
    (let s := asking (x 1 0x3FFFF000 0x1000 1)
     s.blob.isSome = true ∧ s.maint.status ≠ 1 ∧ ((next (.invalidateTranslations .cc) s).die 0).tlb = [] ∧
     (next (.invalidateTranslations .cc) s).maint.status = 1 ∧ (next .maintenanceComplete (next (.invalidateTranslations .cc) s)).maint.status = 2) ∧
    ((next (.invalidateTranslations .cc) (asking (x 1 0x40000000 0x1000 1))).die 0).tlb.length = 1 ∧
    (next (.invalidateTranslations .cc) (asking (x 1 0x40000000 0x1000 0))).maint.status = 3 ∧
    (next (.cleanAndInvalidate .cc) (asking (x 2 0x2000 0x1000 0))).maint.status = 1 ∧
    (let t := next (.setPacked .cc) (asking (x 3 0x2000 0x1000 0))
     (t.formOf 0x1FFF, t.formOf 0x2000, t.formOf 0x2FFF, t.formOf 0x3000) = (none, some .packed, some .packed, none)) ∧
    (next (.setUnpacked .cc) (asking (x 4 0x2001 0x1000 0))).maint.status = 3 ∧
    (let s := { (asking (x 5 3 0 0)).modDie 0 fun d => { d with miss := [(3, ⟨1, 0, 0, false⟩)] } with masters := [] }
     s.colls = [] ∧ s.maint.status ≠ 1 ∧ ((next (.retryMiss .cc) s).die 0).miss = []) := by decide +kernel

/-- Lane 5 of a load of 0x2000 waits on entry 3, which has been answered. -/
def waits3 (op : Nat) : State :=
  let o : MemOp := { (default : MemOp) with
    kind := .ld, space := .g, bytes := 4, lanes := [{ (default : LaneAcc) with lane := 5, ea := 0x2000, st := .missing 3 }] }
  { (mapped [(0x2000, 7)] id fun w => { w with outs := [o], opCount := 1 }).modDie 0 fun d => { d with miss := [(3, ⟨1, 2, 0, false⟩)] } with
    maint := ⟨⟨3, 0, 0, 0, op⟩, [], 0, default⟩ }

/-- A retry performs the lane's load; a decline freezes its block. Operation 2 writes a dirty byte home. -/
theorem witness_MissAnswered : ((next (.retryMiss .cc) (waits3 5)).warp ⟨0, 0⟩).map Warp.outs = some [] ∧
    (let t := next (.declineMiss .cc) (waits3 6)
     (t.warp ⟨0, 0⟩).map (fun w => w.outs.flatMap fun o => o.lanes.map LaneAcc.st) = some [.declined] ∧
     (t.die 0).miss.length = 0 ∧ (t.master 0).map Master.phase = some .frozen ∧ readBytes t.mem 0x44000000 2 = [1, 0x16]) ∧
    (let t := next (.cleanAndInvalidate .cc) { dirty id with maint := ⟨⟨BitVec.ofNat 64 away, 0x1000, 0, 0, 2⟩, [], 0, default⟩ }
     (t.mem, (t.die 0).copies.length) = ([(away, 9), (away + 1, 5)], 0)) := by decide +kernel

def control (op kind target : Nat) (f : Master → Master) (g : Warp → Warp) : State :=
  { mapped [] f g with mctl := ⟨op, kind, 1, BitVec.ofNat 64 target, [], 0, 0, 0⟩ }

def thawable (b : Master) : Master := { slotAt16 (.idle 7 2) b with phase := .frozen, frozenFrom := .running }

theorem witness_MasterControl : (control 1 0 0 id id).target 0 1 0 = .master 0 ∧ (control 1 0 0 id id).target 0 1 9 = .absent ∧
    (waiting []).target 0 1 0 = .undispatched 0 ∧
    [(1, Instr.freezeRequest .cc), (2, .thawRequest .cc), (3, .abortRequest .cc), (4, .preemptRequest .cc)].map (fun p =>
      (next p.2 (control p.1 0 0 id id)).mctl.status) = [2, 4, 2, 1] ∧
    (next (.freezeRequest .cc) (control 1 0 9 id id)).mctl.status = 3 ∧ (next (.freezeRequest .cc) (control 1 3 0 id id)).mctl.status = 5 ∧
    (let s := control 2 0 0 thawable id
     (blockOf thawable id).hw.length = 16 ∧ (blockOf thawable id).slots.length = 1 ∧ (next (.thawRequest .cc) s).mctl.status = 2 ∧
     (masterAfter (.thawRequest .cc) s).phase = .running ∧ (masterAfter (.thawRequest .cc) s).slots.length = 1) ∧
    (let s := control 1 0 0 (fun b => { b with heldReq := some .freeze }) id
     (masterAfter (.heldRequestApply 0) s).phase = .frozen ∧ (next (.heldRequestApply 0) s).mctl.status = 2) ∧
    [(HeldReq.chosen, Phase.preempting), (.preempt, .preempting), (.preempt, .preempted), (.chosen, .frozen)].map (fun p =>
       let s := control 4 0 0 (fun b => { b with heldReq := some p.1, phase := p.2 }) id
       ((masterAfter (.heldRequestApply 0) s).heldReq, (next (.heldRequestApply 0) s).mctl.status)) =
      [(none, 2), (some .preempt, 0), (none, 2), (none, 4)] ∧
    (let s := { control 1 1 0 id id with masters := [] }
     s.target 1 1 0 = .grid 0 ∧ (next (.freezeRequest .cc) s).mctl.status = 4) ∧
    (next (.freezeRequest .cc) { control 1 0 0 id id with mctl := { (control 1 0 0 id id).mctl with reserved := [2] } }).mctl.status = 5 := by
  decide +kernel

/-- A block in its prologue, frozen, thawed and pre-empted; a grid of one block frozen. -/
theorem witness_PrologueControl :
    [(1, Instr.freezeRequest .cc), (4, .preemptRequest .cc)].map (fun p =>
      let t := next p.2 (control p.1 0 0 (fun b => { b with phase := .prologue }) id)
      (t.mctl.status, (t.master 0).map fun b => (b.phase, b.preempt))) =
      [(2, some (.frozen, false)), (1, some (.prologue, true))] ∧
    (let b := masterAfter (.thawRequest .cc)
      (control 2 0 0 (fun b => { thawable b with frozenFrom := .prologue, entries := [(0, cmdOf .fill [] 0 .stopped)] }) id)
     (b.phase, b.entries.map fun p => p.2.st) = (.prologue, [.started])) ∧
    (masterAfter (.freezeRequest .cc) (control 1 1 0 id id)).phase = .frozen := by decide +kernel

/-- A privileged block freezes and thaws another of its grid. -/
theorem witness_FreezeAndThaw : let g := unis [(8, 0), (9, 1), (10, 5)]
    let s := fun f => { mapped [] (fun b => { b with privileged := true }) g with
      masters := [(0, (mappedCtx (fun b => { b with privileged := true }) g).b), (1, blockOf (fun b => f { b with kind := .block 0 5 }) id)] }
    let c := mappedCtx (fun b => { b with privileged := true }) g
    (s id).ctx = some c ∧ c.b.privileged = true ∧ (s id).target 0 1 5 = .master 1 ∧
    (after (.freeze 5 8) (s id)).s 5 = 2 ∧ ((next (.freeze 5 8) (s id)).master 1).map Master.phase = some .frozen ∧
    (after (.thaw 5 8) (s thawable)).s 5 = 2 ∧ ((next (.thaw 5 8) (s thawable)).master 1).map Master.phase = some .running ∧
    (after (.freeze 5 8) (s fun b => { b with phase := .preempting })).request = some false := by decide +kernel

theorem witness_FaultRecords : let s := mapped [] id id
    let f : FreezeAt := { FreezeAt.blank 0x21 with address := 0x1234 }
    let r : FRecord := { (default : FRecord) with kind := 1, cause := 7 }
    let t := { s.modDie 0 fun x => { x with records := [r] } with fqWindow := some 9 }
    s.blob.isSome = true ∧ (s.die 0).records = [] ∧ s.fqWrite - s.fqRead < 2 ^ 8 ∧
    readBytes (s.freeze 0 f).mem (0x44000000 + 48) 2 = [0x34, 0x12] ∧ ((s.freeze 0 f).master 0).map Master.phase = some .frozen ∧
    ((next (.faultRecordAppend 0) t).die 0).records = [] ∧ (next (.faultRecordAppend 0) t).fqWrite = 1 ∧
    ((next (.faultRecordAppend 0) { t with fqWrite := 256 }).die 0).records = [r] ∧
    [8, 9].map (fun n => (next .faultInterrupt { t with cycles := n }).interrupts) = [0, 1] := by decide +kernel

/-! ### Collectives and the package -/

/-- An instance of rank 0 of two at these steps, its one buffer of 8,192 bytes at 0x8000. -/
def coll1 (steps : List (List Dword)) (es : List StepExec) : Coll := { (default : Coll) with
  n := 2, timeout := 10, statusVa := 0x9000, bufs := [(0x8000, 8192)], limits := [2, 0, 0, 0], steps := steps, ctrs := [0, 0, 0, 0]
  execs := es, wait := .ready, ctx := { (blockOf id id).ctx with pkr := 3 }, accepted := true, tok := 2 }
def colling (c : Coll) : State := { mapped [] id counting with colls := [(0, c)] }
def collAfter (i : Instr) (c : Coll) : Option Coll := (next i (colling c)).coll 0

/-- WAIT for everything, WAIT for a chunk, LOOP, PUSH of four chunks of a buffer of two, and each step's turn. -/
theorem witness_CollectiveSteps : let wait : List Dword := [BitVec.ofNat 64 (5 * 2 ^ 60), 0, 0, 0]
    let inb : List Dword := [BitVec.ofNat 64 (5 * 2 ^ 60 + 2 ^ 58), 1, 0, 0]
    let loop : List Dword := [BitVec.ofNat 64 (6 * 2 ^ 60), 0, 0, 0]
    let pull : List Dword := [BitVec.ofNat 64 (2 ^ 60), 4, 0, 0]
    let e : StepExec := { (default : StepExec) with count := 4 }
    let c := coll1 [wait] []
    (colling c).coll 0 = some c ∧ (colling c).master c.m = some (mappedCtx id counting).b ∧ c.wait = .ready ∧
    (stepOp wait, stepBits wait 0 59 58, stepOp inb, stepBits inb 0 59 58, stepOp loop, stepOp pull) = (5, 0, 5, 1, 6, 1) ∧
    (collAfter (.collStepBegin 0) c).map Coll.pc = some 1 ∧ (collAfter (.collStepBegin 0) (coll1 [inb] [])).map Coll.pc = some 0 ∧
    (collAfter (.collStepBegin 0) { coll1 [inb] [] with inbound := 1 }).map Coll.pc = some 1 ∧
    (collAfter (.collStepBegin 0) (coll1 [loop] [])).map (fun c => (c.pc, c.ctrs)) = some (0, [1, 0, 0, 0]) ∧
    (collAfter (.collStepBegin 0) { coll1 [loop] [] with ctrs := [1, 0, 0, 0] }).map (fun c => (c.pc, c.ctrs)) = some (1, [0, 0, 0, 0]) ∧
    (collAfter (.chunkTransfer 0 0) (coll1 [pull] [e])).map (fun c => c.execs.map StepExec.next) = some [1] ∧
    (collAfter (.collComplete 0) (coll1 [] [])) = none ∧ (next (.collComplete 0) (colling (coll1 [] []))).mem.read 0x9000 = 1 ∧
    (after (.collComplete 0) (colling (coll1 [] []))).token 2 = 0 ∧
    [15999, 16000].map (fun n => (next (.collTimeout 0) { colling c with cycles := n }).colls.length) = [1, 0] ∧
    (collAfter (.collAbort 0 0x32) c) = none ∧
    (collAfter (.inboundChunk 0 0 1 (List.replicate 4096 0)) c).map Coll.inbound = some 1 ∧
    (collAfter (.inboundChunk 0 0 2 (List.replicate 4096 0)) c).map Coll.inbound = some 0 := by decide +kernel

/-- One execution of the one step `op`, with chunks at 0 of the buffer for chunk 1; memory holds 7 at the buffer. -/
def moving (op : Nat) (e : StepExec) : State :=
  let c := coll1 [[BitVec.ofNat 64 (2 ^ 60 * op), 1, 0, 0]] [{ e with dst := 1, count := 1 }]
  { mapped [(0x8000, 7)] id counting with colls := [(0, c)] }
def moved (op : Nat) (e : StepExec) : List Nat :=
  match (next (.chunkTransfer 0 0) (moving op e)).coll 0 with
  | some c => c.execs.flatMap fun x => [x.next, x.landed, x.out.length, c.inbound]
  | none => []
def asked : StepExec := { (default : StepExec) with next := 1 }
def toPeer (e : StepExec) : StepExec := { e with peer := 1 }

/-- A chunk of PUSH, PULL, PUT to the peer and to itself, GET from the peer, COPY and TPOSE; a PUT's and a GET's landing. -/
theorem witness_Chunks : let e : StepExec := default
    [moved 0 e, moved 1 e, moved 2 (toPeer e), moved 2 e, moved 3 (toPeer e), moved 4 e, moved 7 e] =
      [[1, 0, 1, 0], [1, 0, 0, 0], [1, 0, 1, 0], [1, 0, 1, 0], [1, 0, 0, 0], [1, 0, 1, 0], [1, 0, 1, 0]] ∧
    (next (.chunkTransfer 0 0) (moving 0 e)).aperture.length = 0 ∧
    moved 2 { toPeer asked with out := [⟨1, 0, 1, [7]⟩] } = [1, 1, 0, 0] ∧ moved 3 (toPeer asked) = [1, 0, 0, 0] ∧
    moved 3 { toPeer asked with answers := [List.replicate 4096 3] } = [1, 1, 0, 0] := by decide +kernel

def sentOut (idx : Nat) (e : StepExec) : StepExec := { e with next := 1, out := [⟨e.peer, 0, idx, [7, 8]⟩] }

/-- What a later transfer takes: a PUSH's contribution, an own PUT's and a COPY's chunk. -/
theorem witness_ChunksLand : let e : StepExec := default
    ((next (.chunkTransfer 0 0) (moving 0 (sentOut 1 e))).aperture.flatMap fun a => a.chunk :: a.contribs.map fun x => x.bytes.length) = [1, 2] ∧
    [moved 0 (sentOut 1 e), moved 2 (sentOut 1 e), moved 4 (sentOut 1 e)] = [[1, 1, 0, 0], [1, 1, 0, 1], [1, 1, 0, 0]] ∧
    (next (.chunkTransfer 0 0) (moving 4 (sentOut 1 e))).mem.read 0x8003 = 8 := by decide +kernel

/-- An instance whose block at 0x8000 names a program of one WAIT at 0xA000, group 3 of two members and buffer 0 of 4,096 bytes at
0xB000; these bytes changed. -/
def taking (bs : List (Nat × List Byte)) : State :=
  let m := storeBytes [] ([(0x8000, leBytes 8 0xA000 ++ [1, 0, 3]), (0x8018, leBytes 8 0x9000), (0x8040, leBytes 8 0xB000 ++ leBytes 4 4096),
    (0xA000, leBytes 8 (5 * 2 ^ 60)), (0x45000030, [2])] ++ bs)
  { mapped m id counting with colls := [(0, { (default : Coll) with
      blockVa := 0x8000, wait := .ready, tok := 2, ctx := { (blockOf id id).ctx with pkr := 3 } })] }
/-- Which instances are accepted, and the status record's first bytes. -/
def taken (s : State) : List Bool × List Byte :=
  let t := next (.collStepBegin 0) s
  (t.colls.map fun p => p.2.accepted, readBytes t.mem 0x9000 2)

/-- Taken; its block, its step, its group and its name refused; a poisoned block. -/
theorem witness_Taken : [taking [], taking [(0x8000, [1])], taking [(0xA000, leBytes 8 (15 * 2 ^ 60))], taking [(0x45000030, [0])],
      { taking [] with colls := (taking []).colls ++ [(1, { coll1 [] [] with group := 3 })] }, { taking [] with poison := [0x8000] }].map taken =
    [([true], [0, 0]), ([], [3, 0x21]), ([], [3, 0x22]), ([], [3, 0x23]), ([true], [3, 0x24]), ([false], [0, 0])] := by decide +kernel

/-- A peer's chunk for a page that is not present waits; a landed chunk counts. -/
theorem witness_ChunkWritten :
    (let s : State := { colling { coll1 [] [] with bufs := [(0x80000000, 8192)] } with
       dies := List.replicate 8 { Die.reset with tlb := [⟨1, 3, 0, 0x1F⟩, ⟨1, 3, 2, 0⟩] } }
     ((next (.inboundChunk 0 0 0 (List.replicate 2048 0)) s).coll 0).map (fun c => (c.peers, c.inbound)) = some ([.missing 0], 0)) ∧
    ((next (.chunkTransfer 0 0) (moving 4 (sentOut 1 default))).coll 0).map (fun c => (c.landed, c.inbound)) = some (1, 0) := by decide +kernel

/-- A PULL waits, lands the sum 5 + 6, and aborts where a member has contributed twice. -/
theorem witness_Pull : let at' (rank : Nat) : State := { moving 1 asked with
      aperture := [⟨0, 0, 0, [⟨0, 0, 2, false, false, [5]⟩, ⟨rank, 0, 2, false, false, [6]⟩], []⟩] }
    moved 1 asked = [1, 0, 0, 0] ∧ ((at' 1).aperture ++ (at' 0).aperture).map Aperture.error = [false, true] ∧
    ((at' 1).aperture.flatMap fun a => (a.result 2).1.take 4) = [11, 0, 0, 0] ∧ moved 1 asked = [1, 0, 0, 0] ∧
    ((next (.chunkTransfer 0 0) (at' 1)).coll 0).map Coll.landed = some 1 ∧
    (next (.chunkTransfer 0 0) (at' 1)).aperture.map Aperture.pulled = [[0]] ∧
    (next (.chunkTransfer 0 0) (at' 0)).colls.length = 0 := by decide +kernel

/-- A PUSH of q4 blocks: what it reads and writes. -/
theorem witness_QuantisedPush : let s := moving 0 default
    let c := (s.coll 0).getD default
    let t : State := { s with colls := [(0, { c with efVa := 0x10000, steps := [[BitVec.ofNat 64 (2 ^ 59), 1, 0, 0]] })] }
    ((next (.chunkTransfer 0 0) t).coll 0).map Coll.efDone = some 1 := by decide +kernel

/-- A window of one page at 0x10000 that reads; the host's range is 0 to 0xFFFF; a refused lane. -/
theorem witness_FabricRequests : let bl := { probeBlob with windows := [⟨0x10000, 1, true, false⟩] }
    let s := { mapped [(0x10FFF, 5), (0xFFFF, 6)] id id with blob := some bl }
    let rem : Warp → Warp := fun w => { w with outs := [{ (default : MemOp) with lanes := [{ (default : LaneAcc) with lane := 3, st := .remote }] }] }
    s.poisoned 0x10FFF 1 = false ∧ s.unreachable 0x10FFF 1 = false ∧ s.formOf 0x10FFF = none ∧ bl.inCarve 0x10FFF 1 = false ∧
    (next (.inboundRequest 1 0x10FFF (.read 1)) s).reply = some [5] ∧ (next (.inboundRequest 1 0x11000 (.read 1)) s).reply = none ∧
    (next (.cxlMemRequest 0xFFFF (.read 1)) s).reply = some [6] ∧ (next (.cxlMemRequest 0x10000 (.read 1)) s).reply = none ∧
    (next .cxlLinkDown s).cxlUp = false ∧
    (let t := { s with bring := { s.bring with state := 5 } }
     [520, 545].map (fun b => ((next (.linkDown b) t).ready.getLsbD b, (next (.linkUp b) { t with ready := 0 }).ready.getLsbD b)) =
       [(false, true), (false, true)]) ∧
    (masterAfter (.remoteRefusal ⟨0, 0⟩ 0 (laneBit 3)) (stateOf id rem)).phase = .frozen ∧
    [none, some ⟨default, [], 10, false, [], 0⟩].map (fun h =>
      let u := mapped [] id fun w => { rem w with handler := h }
      readBytes (next (.remoteRefusal ⟨0, 0⟩ 0 (laneBit 3)) u).mem 0x44000000 2) = [[1, 0x17], [1, 2]] := by decide +kernel

theorem witness_BringUpSequence : let at' : Nat → State := fun n => { State.reset with bring := { State.reset.bring with state := n, objSize := 64 } }
    (next (.loadFirmware .cc) (at' 1)).bring.state = 2 ∧ (next (.loadFirmware .host) (at' 1)).bring.state = 1 ∧
    (next (.loadBlob .cc) (at' 3)).bring.state = 4 ∧ (next (.requestQuote .cc) (at' 5)).bring.quoteStatus = 1 ∧
    State.homeRead { at' 5 with ready := BitVec.allOnes 1024 } (physKey 0) 64 ≠ none ∧ (at' 5).halted = false ∧ (next (.functionReady 546) (at' 5)).ready.getLsbD 546 = true ∧
    (next .criticalTemperature (at' 5)).halted = true ∧ (next .packageReset (at' 5)).bring.state = 1 ∧
    (let refused (n : Nat) (ok : Bool) (i : Instr) : Nat × Nat :=
       let y := (next i { at' n with bring := { (at' n).bring with objOk := ok } }).bring
       (y.state, y.error)
     [refused 2 false .firmwareVerifyDone, refused 2 true .firmwareVerifyDone, refused 4 false .blobVerifyDone, refused 4 true .blobVerifyDone] =
       [(1, 1), (1, 2), (3, 1), (3, 2)]) := by decide +kernel

/-! ### System instructions -/

def boss (b : Master) : Master := { b with privileged := true }

theorem witness_SystemRegisters : let plain : Master → Master := fun b => { b with privileged := false }
    let h : Handler := ⟨default, [], 10, false, [], 0⟩
    let g := unis [(8, 0x20000), (10, 64)]
    (stateOf plain id).ctx = some (ctxOf plain id) ∧ (ctxOf plain id).b.privileged = false ∧ (ctxOf plain id).w.handler = none ∧
    [Instr.segset 8 0, .ctxsv 5 8, .ctxld 5 8, .tlbinv 8, .freeze 5 8, .thaw 5 8, .perfsel 5 8 0, .swr 8 13, .spillf 8 1, .fillf 8 1].all
      (fun i => (after i (stateOf plain id)).tinfo == 0x107) = true ∧
    (stateOf boss g).ctx = some (ctxOf boss g) ∧ ((ctxOf boss g).w.s52 8) = 0x20000 ∧
    ((masterAfter (.segset 8 0) (stateOf boss g)).segs.map fun x => (x.base, x.limit)).head? = some (0x20000, 64) ∧
    [24, 14, 15].map (fun n => (after (.swr 8 n) (stateOf boss g)).tinfo.toNat % 256) = [8, 7, 0] ∧
    (next (.swr 8 13) (stateOf boss g)).clockOff = 0x20000 ∧
    (after (.swr 8 21) (stateOf boss fun w => { g w with handler := some h })).tpc = 0x20000 ∧
    ((next (.tlbinv 8) (mapped [] boss (unis [(8, 0x3FFFF000), (10, 1), (11, 1)]))).die 0).tlb = [] ∧
    ((next (.tlbinv 8) (mapped [] boss (unis [(8, 0x40000000), (10, 1), (11, 1)]))).die 0).tlb.length = 1 ∧
    (after (.tlbinv 8) (mapped [] boss (unis [(8, 0x40000000), (10, 0), (11, 1)]))).tinfo.toNat % 256 = 8 ∧
    (((next (.perfsel 4 8 7) (stateOf boss (unis [(8, 1)]))).die 0).perf.getD 7 default).event = 1 ∧
    (after (.perfsel 4 8 8) (stateOf boss g)).tinfo.toNat % 256 = 8 := by decide +kernel

/-- Frame `n` is the lowest resident one, the window at frame 1. -/
def frames (n : Nat) (w : Warp) : Warp := { w with resident := n, clause := w.clause.map fun c => { c with base := 1 } }

theorem mapped_check (n a : Nat) (h : a < 2 ^ 30) (h4 : a % 4 = 0) (acc : Access) (ha : acc = .read ∨ acc = .write) :
    ((mapped [] boss (frames n)).check (mappedCtx boss (frames n)).b .g a 4 acc) = (mapped [] boss (frames n), .ok (.mem ⟨a, 0, false⟩)) := by
  have hd : a / 1073741824 = 0 := by omega
  have h3 : (mapped [] boss (frames n)).tlbFind 0 1 3 a = some 0x1F#64 := by
    show (([⟨1, 3, 0, 0x1F⟩] : List TlbEnt).find? _).map TlbEnt.entry = _
    simp [levelShift, hd]
  have h5 : (mapped [] boss (frames n)).tlbFind 0 1 5 a = none := by
    show (([⟨1, 3, 0, 0x1F⟩] : List TlbEnt).find? _).map TlbEnt.entry = _
    simp
  have h4' : (mapped [] boss (frames n)).tlbFind 0 1 4 a = none := by
    show (([⟨1, 3, 0, 0x1F⟩] : List TlbEnt).find? _).map TlbEnt.entry = _
    simp
  have hl : (mapped [] boss (frames n)).startLevel 0 1 a = 3 := by simp [State.startLevel, h3, h4', h5]
  have hs : ((mappedCtx boss (frames n)).b.seg .g).base = 0 ∧ ((mappedCtx boss (frames n)).b.seg .g).limit = 2 ^ 57 := ⟨rfl, rfl⟩
  have hm : (mapped [] boss (frames n)).pteMalformed 3 0x1F#64 = false := rfl
  have hw : (mapped [] boss (frames n)).translate 0 0 (mappedCtx boss (frames n)).b.ctx a acc = (mapped [] boss (frames n), .ok ⟨a, 0, false⟩) := by
    unfold State.translate
    rw [show (mappedCtx boss (frames n)).b.ctx.asid = 1 from rfl, hl]
    simp only [show (mappedCtx boss (frames n)).b.ctx.pkr = 3 from rfl]
    unfold walkGo
    have : a % 1073741824 = a := by omega
    rcases ha with rfl | rfl <;> simp [h3, hm, pte, leafPermits, keyPermits, State.leafPlace, levelShift, this]
  unfold State.check State.checkVa
  rw [show (mappedCtx boss (frames n)).b.die = 0 from rfl, show (mappedCtx boss (frames n)).b.queue = 0 from rfl, hw]
  simp [h4, hs]; omega

theorem precheck_ok (s : State) (b : Master) (q : MemReq) (hk : q.kind ≠ .lda)
    (h : ∀ l ∈ q.lanes, ∃ x, s.check b q.space l.ea.toNat q.bytes q.kind.access = (s, .ok x)) : s.precheck b q = (s, [], []) := by
  unfold State.precheck
  generalize q.lanes = ls at h
  induction ls with
  | nil => rfl
  | cons l r ih =>
    obtain ⟨x, hx⟩ := h l (by simp)
    rw [List.foldl_cons, hx]
    refine Eq.trans (congrArg (fun p => List.foldl _ p r) ?_) (ih fun l hl => h l (List.mem_cons_of_mem _ hl))
    cases hq : q.kind <;> first | exact absurd hq hk | simp

/-- The accesses of a SPILLF of one frame at address 0 pass their checks. -/
theorem witness_SpillChecked : ((mapped [] boss (frames 0)).precheck (mappedCtx boss (frames 0)).b
    ((mappedCtx boss (frames 0)).frameReq .spill ((mappedCtx boss (frames 0)).w.s52 8) 0 1)).2.1 = [] := by
  rw [precheck_ok _ _ _ (by simp [Ctx.frameReq])]
  intro l hl
  simp only [Ctx.frameReq, List.mem_flatMap, List.mem_map, List.mem_range] at hl
  obtain ⟨j, hj, k, hk, rfl⟩ := hl
  have e : (mappedCtx boss (frames 0)).w.s52 8#5 = 0 := by decide +kernel
  refine ⟨_, mapped_check _ _ ?_ ?_ _ (Or.inr rfl)⟩ <;> simp [e] <;> omega

def filled : MemOp := { (default : MemOp) with
  kind := .fill, space := .g, bytes := 4, pc := 0x10004
  lanes := (frameKeys 0 1).map fun p => { (default : LaneAcc) with lane := p.2, dst := BitVec.ofNat 64 p.1, val := [0, 0, 0, 0], st := .done } }
def filling (w : Warp) : Warp := { frames 1 w with outs := [filled], opCount := 1 }
theorem witness_FillDone : (filled.lanes.map fun x => (x.dst.toNat, x.lane)) = frameKeys 0 1 ∧ (filled.lanes.all fun x => x.val.length == 4) = true ∧
   filled.undone = false ∧ (ctxOf boss filling).frameOp = some filled ∧ (ctxOf boss filling).fillTop ≤ (ctxOf boss filling).c.base + 3 := by decide +kernel
def spilling (st : LaneSt) (w : Warp) : Warp :=
  { frames 0 w with opCount := 1, outs := [{ (default : MemOp) with kind := .spill, space := .g, bytes := 4, pc := 0x10004,
                                                                     lanes := [{ (default : LaneAcc) with st := st }] }] }

/-- And those of a FILLF of frame 0, the lowest resident one being frame 1. -/
theorem witness_FillChecked : ((mapped [] boss (frames 1)).precheck (mappedCtx boss (frames 1)).b
    ((mappedCtx boss (frames 1)).frameReq .fill ((mappedCtx boss (frames 1)).w.s52 8) 0 1)).2.1 = [] := by
  rw [precheck_ok _ _ _ (by simp [Ctx.frameReq])]
  intro l hl
  simp only [Ctx.frameReq, List.mem_flatMap, List.mem_map, List.mem_range] at hl
  obtain ⟨j, hj, k, hk, rfl⟩ := hl
  have e : (mappedCtx boss (frames 1)).w.s52 8#5 = 0 := by decide +kernel
  refine ⟨_, mapped_check _ _ ?_ ?_ _ (Or.inl rfl)⟩ <;> simp [e] <;> omega

/-- A spill that has performed, and one that has not; one frame more than stands below the window; statuses of CTXSV and CTXLD. -/
theorem witness_SavedState : let g := unis [(8, 0), (9, 5), (10, 0x1000)]
    MaySpill (ctxOf boss (frames 0)) ∧ (ctxOf boss (frames 0)).w.bases = [1] ∧
    (stateOf boss (frames 0)).ctx = some (ctxOf boss (frames 0)) ∧ (ctxOf boss (frames 0)).frameOp = none ∧
    [2, 0].map (fun n => (after (.spillf 8 n) (mapped [] boss (frames 0))).tinfo.toNat % 256) = [8, 8] ∧
    (ctxOf boss (spilling .done)).frameOp.isSome = true ∧ (ctxOf boss (spilling .ready)).frameOp.isSome = true ∧
    [LaneSt.done, .ready].map (fun st => (after (.spillf 8 1) (stateOf boss (spilling st))).resident) = [1, 0] ∧
    (after (.fillf 8 2) (mapped [] boss (frames 1))).tinfo.toNat % 256 = 8 ∧
    (stateOf boss g).target 0 0 5 = .absent ∧ (after (.ctxsv 5 8) (stateOf boss g)).s 5 = 1 ∧ (after (.ctxld 5 8) (stateOf boss g)).s 5 = 1 ∧
    (after (.ctxsv 5 8) (stateOf boss (unis [(8, 1), (10, 0x1000)]))).s 5 = 2 ∧
    (after (.ctxsv 5 8) (stateOf boss (unis [(10, 0x1001)]))).tinfo.toNat % 256 = 8 := by
  refine ⟨Or.inl rfl, ?_⟩
  decide +kernel

/-- A frozen block of one warp. -/
def frozen5 : Master := { bare (blockOf boss fun w => { w with allot := 1 }) with kind := .block 0 5, phase := .frozen, frozenFrom := .running }
/-- It stands beside the issuing warp, which names `at'`; at 0x30000 is the head of a record of it. -/
def beside (at' : Nat) : State :=
  let g := unis [(8, 1), (9, 5), (10, at')]
  { mapped (writeBytes [] 0x30000 (frozen5.headBytes 3 0)) boss g with masters := [(0, (mappedCtx boss g).b), (1, frozen5)] }
theorem witness_Contexts : (beside 0x20000).target 0 1 5 = .master 1 ∧ (after (.ctxsv 5 8) (beside 0x20000)).s 5 = 0 ∧
    [0x20000, 0x30000].map (fun a => (after (.ctxld 5 8) (beside a)).s 5) = [3, 0] := by decide +kernel

/-! ### Steps -/

/-- A move of a warp whose clause holds an instruction, one that holds an illegal word, an event, and a part that has stopped. -/
theorem witness_StepRunsDecoded : let s := { stateOf id id with schedule := [⟨3, .warp ⟨0, 0⟩⟩] }
    let u := arrives s 3 []
    let c := (ctxOf id id).c
    u.halted = false ∧ u.cycles = 3 ∧ u.master 0 = some (blockOf id id) ∧ (blockOf id id).warps = [(ctxOf id id).w] ∧ (ctxOf id id).w.retired = false ∧
    decode (c.words.getD (c.next - 1) 0) (c.words.getD c.next 0) = .instr (.iadd ⟨false, 0⟩ 0 0 (.thread 0) .n32) ∧
    (ctxOf id id).w.blocked c (.iadd ⟨false, 0⟩ 0 0 (.thread 0) .n32) = false ∧ (ctxOf id id).w.violates c (.iadd ⟨false, 0⟩ 0 0 (.thread 0) .n32) = false ∧
    (ctxOf id id).w.replayFull = false ∧
    (match step s with | .next t => t.cycles | .fault _ | .refused _ => 0) = 3 ∧
    (match step { s with schedule := [⟨0, .event .throttle⟩] } with | .next t => t.throttled | .fault _ | .refused _ => false) = true ∧
    (match step { s with halted := true } with | .next t => t == arrives { s with halted := true } 3 [] | .fault _ | .refused _ => false) = true := by
  decide +kernel

/-- A header of one word whose waits hold; a header with no words, a reserved class, and a word that is no header. -/
theorem witness_ClauseEntered : let s := fun (h : Nat) => mapped (storeBytes [] [(0x10000, leBytes 4 h), (0x10004, leBytes 4 0xEDC00004)]) id between
    let b := (mappedCtx id between).b
    (s 0xFA000011).cur = some ⟨0, 0⟩ ∧ (s 0xFA000011).master 0 = some b ∧ b.warps = [between (probeWarp 0 0)] ∧
    (s 0xFA000011).rerank b (between (probeWarp 0 0)).frontier = (between (probeWarp 0 0)).frontier ∧
    (s 0xFA000011).fetchWord b 0x10000 = (s 0xFA000011, .word 0xFA000011) ∧
    (s 0xFA000011).fetchWord b 0x10004 = (s 0xFA000011, .word 0xEDC00004) ∧
    (headerOf 0xFA000011).map (fun h => (h.n, clauseCheck h [0xEDC00004], h.tokens, (between (probeWarp 0 0)).headerReady h)) = some (1, none, 0, true) ∧
    ((after .clauseEntry (s 0xFA000011)).clause.map fun c => (c.hdr, c.words)) = some (0x10000, [0xEDC00004]) ∧
    [0xFA000010, 0xFA000061, 0].map (fun h => (after .clauseEntry (s h)).tinfo.toNat) = [1, 2, 7] := by decide +kernel

/-- The warp's clause holds these words. -/
def running (w0 w1 : Word) (g : Warp → Warp) : State :=
  { stateOf id (fun w => g { w with clause := w.clause.map fun c => { c with words := [w0, w1] } }) with schedule := [⟨3, .warp ⟨0, 0⟩⟩] }
/-- The cause and information of the trap taken, the next instruction's place, and the accesses outstanding. -/
def ran (s : State) : List Nat := match step s with
  | .next t => (t.warp ⟨0, 0⟩).elim [] fun w => [w.tcause.toNat, w.tinfo.toNat, w.clause.elim 0 Clause.next, w.outs.length]
  | .fault _ | .refused _ => []
def spanning (w : Warp) : Warp := { w with clause := w.clause.map fun c => { c with spans := [{ (default : Span) with dests := [.v 5] }] } }
def fourMisses (w : Warp) : Warp :=
  { w with opCount := 4, outs := List.replicate 4 { (default : MemOp) with lanes := [{ (default : LaneAcc) with st := .missing 0 }] } }

/-- An instruction that goes on, one that violates a lookahead, one without a replay slot, a word of no instruction, and an
instruction that is illegal by its fields. -/
theorem witness_WarpTurn : [running 0x01CA5100 0 id, running 0x01CA5100 0 spanning, running 0x81C61208 0x11000100 fourMisses,
      running 0x30000000 0 id, running 0xE5C00028 0 id].map ran =
    [[0, 0, 2, 0], [2, 0x100, 0, 0], [0, 0, 1, 4], [0, 0x101, 0, 0], [0, 0x102, 0, 0]] := by decide +kernel

/-- A block whose warp stands at `i`, its producer the grid with record 64: its timer after a move. -/
def lent (i : Instr) (progressed : Bool) : Nat :=
  let s := running ((encode i).headD 0) 0 id
  let u := { s with cycles := 9, grids := [(0, { probeGrid with producers := [64] }), (1, { probeGrid with complKey := 64, progressed := progressed })] }
  ((u.lend u).master 0).elim 0 Master.timer
theorem witness_Lend : [lent .waitdep true, lent .waitdep false, lent (.nop pt) true] = [9, 0, 0] := by decide +kernel

/-- Nothing of what a step brings with it stands between a state and itself. -/
theorem witness_NothingToSettle : NothingToSettle (stateOf id id) (stateOf id id) := by
  refine ⟨fun p hp q hq => ⟨q.1, ?_⟩, by decide +kernel, fun p hp h => ?_⟩
  · revert p q; decide +kernel
  · revert p; decide +kernel

def entering (h : Nat) (f : Master → Master) (g : Warp → Warp) : State :=
  mapped (storeBytes [] [(0x10000, leBytes 4 h), (0x10004, leBytes 4 0xEDC00004), (0x10008, leBytes 4 0xEDC00004)]) f fun w => between (g w)
def entered (s : State) : List Nat :=
  let w := after .clauseEntry s
  [w.clause.elim 0 fun c => c.words.length, w.tcause.toNat, w.tinfo.toNat]

/-- The header waits on token slot 2: clear, counting, faulted, with a trap; an EXIT before the last word. -/
theorem witness_HeaderWaits : let faulted := entering 0xFA001011 (ordered [(0, cmdOf .swapw [] 0 (.faulted 0x22 5))]) counting
    (headerOf 0xFA001011).map (fun h => maskSlots h.tokens.toNat) = some [2] ∧
    [entering 0xFA001011 id id, entering 0xFA001011 id counting, faulted,
      entering 0xFA001011 id fun w => { w with deliveries := [(2, .trap 8 5 none)] }, entering 0xFA000012 id id].map entered =
      [[1, 0, 0], [0, 0, 0], [0, 0, 0], [0, 8, 5], [0, 1, 0x104]] ∧ (masterAfter .clauseEntry faulted).phase = .frozen := by decide +kernel

theorem witness_StepKeepsMemory : State.reset.mem.wf = true ∧
    (match step (State.reset.withFetchWord 32 0) with | .next t => t.mem.wf | .fault _ | .refused _ => false) = true := by decide +kernel

theorem witness_MemoryCanonical : Memory.wf [(3, 1), (9, 2)] = true ∧ Memory.wf [(3, 0)] = false ∧ Memory.wf [(3, 1), (3, 2)] = false := by decide

theorem witness_DecodeEncode : Instr.WellFormed (.ld ⟨pt, 3, 1, 2, 0, .b4, .normal⟩ ⟨.g, some 4, false, .plain, .w, 0x100⟩) = true ∧
    Instr.WellFormed (.iadd pt 31 31 (.lit 5) .i8) = true := by decide +kernel

end Sys2Proof.Tests
end

/-! SUPPORT. The register blocks of the control complex and the work queues (R58 to R62, R66, R452): what their fields read
as, what each access to them does, and how consumption goes on at the head of a queue. -/

namespace Sys2Proof.Machine

/-! ## Fields laid end to end -/

@[simp] theorem length_leBytes (n x : Nat) : (leBytes n x).length = n := by
  induction n generalizing x with
  | zero => rfl
  | succ n ih => simp [leBytes, ih]

/-- Fields that follow each other from an offset on, each with the offset at which it begins. -/
def placedFrom (o : Nat) : List (List Byte) → List (Nat × List Byte)
  | [] => []
  | f :: fs => (o, f) :: placedFrom (o + f.length) fs

/-- A field of an image is what the image holds at its offset. -/
theorem slice_of_mem_placedFrom (fs : List (List Byte)) (pre post : List Byte) :
    ∀ p ∈ placedFrom pre.length fs, slice (pre ++ fs.flatten ++ post) p.1 p.2.length = p.2 := by
  induction fs generalizing pre with
  | nil => simp [placedFrom]
  | cons f fs ih =>
    intro p hp
    rcases List.mem_cons.mp hp with rfl | hp
    · simp [slice, List.append_assoc]
    · rw [← List.length_append] at hp
      simpa [List.append_assoc] using ih (pre ++ f) p hp

/-- The fields of a queue's block, in the order of R58. -/
def Queue.regFields (x : Queue) : List (List Byte) :=
  [leBytes 8 x.ringBase.toNat, leBytes 1 x.sizeExp, leBytes 1 x.kind, leBytes 1 x.priority, leBytes 1 x.rights.toNat,
    leBytes 1 x.taskDie, leBytes 3 0, leBytes 4 x.usec, leBytes 4 0, leBytes 8 x.reserve.toNat, leBytes 8 x.consume.toNat,
    leBytes 4 0, leBytes 4 x.state, leBytes 16 0]

/-- The fields of the maintenance block, in the order of R248. -/
def Maint.regFields (x : Maint) : List (List Byte) :=
  [leBytes 8 x.regs.addr.toNat, leBytes 8 x.regs.size.toNat, leBytes 2 x.regs.asid, leBytes 1 x.regs.die, leBytes 1 x.regs.op,
    leBytes 4 0, leBytes 4 x.status, leBytes 36 0]

/-- The fields of the master control block, in the order of R407. -/
def State.masterFields (s : State) : List (List Byte) :=
  [leBytes 1 s.mctl.op, leBytes 1 s.mctl.kind, leBytes 2 0, leBytes 4 s.mctl.gridId.toNat, leBytes 8 s.mctl.target.toNat,
    leBytes 4 0, leBytes 4 s.mctl.status, leBytes 8 s.fqRead, leBytes 8 s.fqWrite, leBytes 24 0]

/-- The fields of the bring-up block up to the readiness map, in the order of R436. -/
def State.bringFields (s : State) : List (List Byte) :=
  [leBytes 8 s.bring.objAddr.toNat, leBytes 4 s.bring.objSize, leBytes 4 0, leBytes 4 s.bring.state, leBytes 4 s.bring.error,
    leBytes 4 s.bring.quoteStatus, leBytes 36 0, leBytes 128 s.ready.toNat]

theorem Queue.image_begins_with_regFields (x : Queue) : x.regFields.flatten <+: x.image :=
  ⟨[], by simp [Queue.image, Queue.regFields]⟩

theorem Maint.image_begins_with_regFields (x : Maint) : x.regFields.flatten <+: x.image :=
  ⟨[], by simp [Maint.image, Maint.regFields]⟩

theorem State.masterImage_begins_with_fields (s : State) : s.masterFields.flatten <+: s.masterImage :=
  ⟨[], by simp [State.masterImage, State.masterFields]⟩

/-- After the readiness map the bring-up block goes on with the nonce, the measurements and the quote. -/
theorem State.bringImage_begins_with_fields (s : State) : s.bringFields.flatten <+: s.bringImage :=
  ⟨s.bring.nonce ++ s.bring.meas.flatten ++ identityPublic ++ leBytes 7 0 ++ s.bring.quote ++ leBytes 398 0, by
    simp [State.bringImage, State.bringFields]⟩

/-! ## Reading a register block -/

section
variable {s : State} {bl : Blob} (hb : s.blob = some bl)
include hb

/-- Any read of a queue's block that meets neither its reserve index nor its doorbell. -/
theorem readReg_queue (ag : Agent) (q : BitVec 16) (off n : Nat) (hr : ¬(24 ≤ off ∧ off < 32)) (hd : ¬(40 ≤ off ∧ off < 44)) :
    runBackground (.readReg ag (.queue q) off n) s = .next { s with reply := some (slice (s.queue q.toNat).image off n) } := by
  change (if s.blob.isNone then _ else if decide (24 ≤ off ∧ off < 32) then _
    else if decide (40 ≤ off ∧ off < 44) && _ then _ else _) = _
  rw [if_neg (by simp [hb]), if_neg (by simpa using hr), if_neg (by simp [hd])]

theorem readReg_maint (ag : Agent) (off n : Nat) :
    runBackground (.readReg ag .maint off n) s = .next { s with reply := some (slice s.maint.image off n) } := by
  change (if s.blob.isNone then _ else _) = _
  rw [if_neg (by simp [hb])]

theorem readReg_master (ag : Agent) (off n : Nat) :
    runBackground (.readReg ag .master off n) s = .next { s with reply := some (slice s.masterImage off n) } := by
  change (if s.blob.isNone then _ else _) = _
  rw [if_neg (by simp [hb])]

end

theorem readReg_bringUp (s : State) (ag : Agent) (off n : Nat) :
    runBackground (.readReg ag .bringUp off n) s = .next { s with reply := some (slice s.bringImage off n) } := rfl

/-- Fields of an image read back where a read of the block returns bytes of that image. -/
theorem readReg_of_placed {s : State} {ag : Agent} {r : RegBlock} {im : List Byte} {all : List (List Byte)}
    (him : all.flatten <+: im) {fields : List (Nat × List Byte)} (hall : fields ⊆ placedFrom 0 all)
    (hread : ∀ p ∈ fields,
      runBackground (.readReg ag r p.1 p.2.length) s = .next { s with reply := some (slice im p.1 p.2.length) }) :
    ∀ p ∈ fields, runBackground (.readReg ag r p.1 p.2.length) s = .next { s with reply := some p.2 } := by
  intro p hp
  obtain ⟨post, rfl⟩ := him
  have hslice : slice (all.flatten ++ post) p.1 p.2.length = p.2 := slice_of_mem_placedFrom all [] post p (hall hp)
  rw [hread p hp, hslice]

/-! ## One queue of the part -/

@[simp] theorem State.queue_setQueue_same (s : State) (q : Nat) (x : Queue) : (s.setQueue q x).queue q = x := by
  simp [State.queue, State.setQueue]

theorem State.queue_setQueue_ne (s : State) (q j : Nat) (x : Queue) (h : j ≠ q) : (s.setQueue q x).queue j = s.queue j := by
  simp only [State.queue, State.setQueue, aget_aset_ne _ _ _ _ h]

/-! ## Writes to control fields (R58, R59) -/

theorem controlWrite_of_ne_cc {ag : Agent} (h : ag ≠ .cc) (s : State) (q off : Nat) (bad : Queue → Bool) (f : Queue → Queue) :
    s.controlWrite ag q off bad f = s.regError q 0x12 (s.qAddr q off) := by
  simp [State.controlWrite, h]

theorem controlWrite_cc {s : State} {q : Nat} {bad : Queue → Bool} (h : bad (s.queue q) = false) (off : Nat) (f : Queue → Queue) :
    s.controlWrite .cc q off bad f = s.setQueue q (f (s.queue q)) := by
  simp [State.controlWrite, h]

/-- The control fields of queue q besides its kind, each with its offset, the states in which the value v is refused, and what
it sets. -/
inductive ControlField (q : BitVec 16) (v : Dword) : RegField → Nat → (Queue → Bool) → (Queue → Queue) → Prop where
  | ringBase : ControlField q v (.qRingBase q) 0 (fun x => x.kind != 0) fun x => { x with ringBase := v }
  | sizeExp : ControlField q v (.qSizeExp q) 8 (fun x => x.kind != 0 || !decide (4 ≤ v.toNat % 256 ∧ v.toNat % 256 ≤ 20))
      fun x => { x with sizeExp := v.toNat % 256 }
  | priority : ControlField q v (.qPriority q) 10 (fun _ => false) fun x => { x with priority := v.toNat % 256 }
  | rights : ControlField q v (.qRights q) 11 (fun _ => decide (16 ≤ v.toNat % 256)) fun x => { x with rights := v.setWidth 8 }
  | taskDie : ControlField q v (.qTaskDie q) 12 (fun _ => decide (8 ≤ v.toNat % 256 ∧ v.toNat % 256 ≤ 0xFE))
      fun x => { x with taskDie := v.toNat % 256 }
  | threshold : ControlField q v (.qThreshold q) 16 (fun _ => false) fun x => { x with threshold := v.toNat % 2 ^ 32 }

section
variable {s : State} {bl : Blob} (hb : s.blob = some bl)
include hb

theorem exec_registerWrite_control {q : BitVec 16} {v : Dword} {r : RegField} {off : Nat} {bad : Queue → Bool} {f : Queue → Queue}
    (hr : ControlField q v r off bad f) (ag : Agent) :
    exec (.registerWrite ag r v) s = .next (s.controlWrite ag q.toNat off bad f) := by
  have hblob : s.blob.isNone = false := by simp [hb]
  cases hr <;> simp only [exec, execRegisterWrite, hblob, Bool.false_eq_true, if_false, State.regWrite]

/-- What a write to a control field does when it is not the control complex's. -/
theorem exec_registerWrite_control_ne_cc {q : BitVec 16} {v : Dword} {r : RegField} {off : Nat} {bad : Queue → Bool}
    {f : Queue → Queue} (hr : ControlField q v r off bad f) {ag : Agent} (h : ag ≠ .cc) :
    exec (.registerWrite ag r v) s = .next (s.regError q.toNat 0x12 (s.qAddr q.toNat off)) := by
  rw [exec_registerWrite_control hb hr, controlWrite_of_ne_cc h]

/-- What the control complex's write to a control field does within the field's limits. -/
theorem exec_registerWrite_control_cc {q : BitVec 16} {v : Dword} {r : RegField} {off : Nat} {bad : Queue → Bool}
    {f : Queue → Queue} (hr : ControlField q v r off bad f) (h : bad (s.queue q.toNat) = false) :
    exec (.registerWrite .cc r v) s = .next (s.setQueue q.toNat (f (s.queue q.toNat))) := by
  rw [exec_registerWrite_control hb hr, controlWrite_cc h]

/-! ## Enabling and disabling (R59) -/

theorem exec_queueEnable_ne_cc {ag : Agent} (h : ag ≠ .cc) (q : BitVec 16) (k : BitVec 8) :
    exec (.queueEnable ag q k) s = .next (s.regError q.toNat 0x12 (s.qAddr q.toNat 9)) := by
  simp [exec, execQueueEnable, State.setKind, hb, h]

/-- A disabled queue takes either kind, and starts empty. -/
theorem exec_queueEnable_of_disabled {q : BitVec 16} {k : BitVec 8} (hk : k = 1 ∨ k = 2) (h : (s.queue q.toNat).kind = 0) :
    exec (.queueEnable .cc q k) s = .next (s.setQueue q.toNat { s.queue q.toNat with
      kind := k.toNat, state := 1, reserve := 0, consume := 0, consuming := false, hold := none, owners := [] }) := by
  rcases hk with rfl | rfl <;> simp [exec, execQueueEnable, State.setKind, hb, h]

/-- The kind of an enabled queue does not change. -/
theorem exec_queueEnable_of_enabled {q : BitVec 16} {k : BitVec 8} (hk : k = 1 ∨ k = 2) (h : (s.queue q.toNat).kind ≠ 0)
    (hne : (s.queue q.toNat).kind ≠ k.toNat) :
    exec (.queueEnable .cc q k) s = .next (s.regError q.toNat 0x16 (s.qAddr q.toNat 9)) := by
  have hlt : ¬3 ≤ k.toNat := by rcases hk with rfl | rfl <;> decide
  have hpos : k.toNat ≠ 0 := by rcases hk with rfl | rfl <;> decide
  simp [exec, execQueueEnable, State.setKind, hb, h, hlt, hpos, Ne.symm hne]

theorem exec_queueDisable_of_enabled {q : BitVec 16} (h : (s.queue q.toNat).kind ≠ 0) :
    exec (.queueDisable .cc q) s = .next (s.setQueue q.toNat { s.queue q.toNat with
      kind := 0, state := 0, consuming := false, hold := none, owners := [] }) := by
  simp [exec, execQueueDisable, State.setKind, hb, Ne.symm h]

/-! ## The reserve index and the doorbell (R60 to R62) -/

theorem exec_reserveIndexRead_of_not_permits {ag : Agent} {q : BitVec 16} (h : (s.queue q.toNat).permits ag = false) :
    exec (.reserveIndexRead ag q) s =
      .next (({ s with reply := some (leBytes 8 0) } : State).regError q.toNat 0x12 (s.qAddr q.toNat 24)) := by
  simp [exec, execReserveIndexRead, hb, h]

theorem exec_reserveIndexRead_of_permits {ag : Agent} {q : BitVec 16} (h : (s.queue q.toNat).permits ag = true)
    (hk : (s.queue q.toNat).kind ≠ 0) :
    exec (.reserveIndexRead ag q) s =
      .next (({ s with reply := some (leBytes 8 (s.queue q.toNat).reserve.toNat) } : State).setQueue q.toNat { s.queue q.toNat with
        reserve := (s.queue q.toNat).reserve + 1
        owners := (s.queue q.toNat).owners ++ [((s.queue q.toNat).reserve.toNat, ag)] }) := by
  simp [exec, execReserveIndexRead, hb, h, hk]

theorem exec_doorbell_of_not_permits {ag : Agent} {q : BitVec 16} (h : (s.queue q.toNat).permits ag = false) :
    exec (.doorbell ag q) s = .next (s.regError q.toNat 0x12 (s.qAddr q.toNat 40)) := by
  simp [exec, execDoorbell, hb, h]

theorem exec_doorbell_of_permits {ag : Agent} {q : BitVec 16} (h : (s.queue q.toNat).permits ag = true)
    (hk : (s.queue q.toNat).kind ≠ 0) :
    exec (.doorbell ag q) s = .next (drainQueue (2 ^ (s.queue q.toNat).sizeExp + 1) q.toNat
      (s.setQueue q.toNat { s.queue q.toNat with consuming := true })) := by
  simp [exec, execDoorbell, State.ring, hb, h, hk]

end

/-! ## Consumption at the head of a queue (R62, R64, R452) -/

section
variable {s : State} {q : Nat} (ha : (s.queue q).active = true)
include ha

theorem drainQueue_of_unreadable (h : s.headAt q (s.queue q) = none) (m : Nat) :
    drainQueue (m + 1) q s = (s.queueError q ((s.queue q).consume.toNat % 2 ^ (s.queue q).sizeExp) 0 0x18 0).setQueue q
      { s.queue q with consuming := false } := by
  simp [drainQueue, ha, h]

theorem drainQueue_of_other_lap {c : QCmd} (h : s.headAt q (s.queue q) = some c) (hl : (s.queue q).lapOk c = false) (m : Nat) :
    drainQueue (m + 1) q s = s.setQueue q { s.queue q with consuming := false } := by
  simp [drainQueue, ha, h, hl]

theorem drainQueue_of_rejected {c : QCmd} {k : Nat} (h : s.headAt q (s.queue q) = some c) (hl : (s.queue q).lapOk c = true)
    (hr : (s.queue q).rejects c = some k) (m : Nat) :
    drainQueue (m + 1) q s = drainQueue m q ((c.ref.error s k).setQueue q (s.queue q).advance) := by
  simp [drainQueue, ha, h, hl, hr]

theorem drainQueue_of_command {c : QCmd} (h : s.headAt q (s.queue q) = some c) (hl : (s.queue q).lapOk c = true)
    (hr : (s.queue q).rejects c = none) (m : Nat) : drainQueue (m + 1) q s = s := by
  simp [drainQueue, ha, h, hl, hr]

end

end Sys2Proof.Machine

namespace Sys2Proof.Claims

open Sys2Proof.Machine

/-! ## The register blocks read back (R3, R58, R248, R407, R436) -/

theorem registerReadsPart : RegisterReadsPart := by
  intro s ag bl hb reads
  refine ⟨fun q => ?queue, ?maint, ?master, ?bringUp⟩
  case queue =>
    refine readReg_of_placed (s.queue q.toNat).image_begins_with_regFields (by simp [placedFrom, Queue.regFields, Queue.usec]) ?_
    intro p hp
    refine readReg_queue hb ag q _ _ ?_ ?_ <;> (revert p; simp)
  case maint =>
    exact readReg_of_placed s.maint.image_begins_with_regFields (by simp [placedFrom, Maint.regFields]) fun p _ =>
      readReg_maint hb ag _ _
  case master =>
    exact readReg_of_placed s.masterImage_begins_with_fields (by simp [placedFrom, State.masterFields]) fun p _ =>
      readReg_master hb ag _ _
  case bringUp =>
    exact readReg_of_placed s.bringImage_begins_with_fields (by simp [placedFrom, State.bringFields]) fun p _ =>
      readReg_bringUp s ag _ _

/-! ## Queue registers, the reserve index and the doorbell -/

/-- Setting queue q of a state changes that queue alone. -/
theorem queueBecomes_setQueue (s : State) (q : Nat) (x : Queue) : QueueBecomes s q x (.next (s.setQueue q x)) :=
  ⟨s.setQueue q x, rfl, s.queue_setQueue_same q x, fun j hj => s.queue_setQueue_ne q j x hj, rfl⟩

section
variable {s : State} {bl : Blob} (hb : s.blob = some bl) {q : BitVec 16}
include hb

/-- Within its limits a write of the control complex sets the control field and nothing else. -/
theorem queueBecomes_registerWrite {v : Dword} {r : RegField} {off : Nat} {bad : Queue → Bool} {f : Queue → Queue}
    (hr : ControlField q v r off bad f) (h : bad (s.queue q.toNat) = false) :
    QueueBecomes s q.toNat (f (s.queue q.toNat)) (exec (.registerWrite .cc r v) s) :=
  exec_registerWrite_control_cc hb hr h ▸ queueBecomes_setQueue s q.toNat _

theorem regError_registerWrite {ag : Agent} (hag : ag ≠ .cc) (v : Dword) (r : RegField)
    (hr : r = .qPriority q ∨ r = .qThreshold q ∨ r = .qRights q ∨ r = .qTaskDie q ∨ r = .qRingBase q ∨ r = .qSizeExp q) :
    ∃ a, exec (.registerWrite ag r v) s = .next (s.regError q.toNat 0x12 a) := by
  have refused {off bad f} (hc : ControlField q v r off bad f) :
      ∃ a, exec (.registerWrite ag r v) s = .next (s.regError q.toNat 0x12 a) :=
    ⟨_, exec_registerWrite_control_ne_cc hb hc hag⟩
  rcases hr with rfl | rfl | rfl | rfl | rfl | rfl
  · exact refused .priority
  · exact refused .threshold
  · exact refused .rights
  · exact refused .taskDie
  · exact refused .ringBase
  · exact refused .sizeExp

end

/-- Settles O38: each clause is what the lemma about its register access, or about its case at the head of the queue, says. -/
theorem queueRegisters : Obligations.QueueRegisters := by
  refine ⟨registerReadsPart, ?_⟩
  intro s q v ag bl hb x n
  refine ⟨fun r hr hag => regError_registerWrite hb hag v r hr, queueBecomes_registerWrite hb .priority rfl,
    queueBecomes_registerWrite hb .threshold rfl, ?rights, ?taskDie, ?ringBase, ?sizeExp, ?enable, ?disable, ?permitted, ?refused,
    fun m ha => ⟨fun h => drainQueue_of_unreadable ha h m, fun c h hl => drainQueue_of_other_lap ha h hl m,
      fun c k h hl hr => drainQueue_of_rejected ha h hl hr m, fun c h hl hr => drainQueue_of_command ha h hl hr m⟩⟩
  case rights => exact fun hn => queueBecomes_registerWrite hb .rights (decide_eq_false (by omega))
  case taskDie => exact fun hn => queueBecomes_registerWrite hb .taskDie (decide_eq_false (by omega))
  case ringBase => exact fun hk => queueBecomes_registerWrite hb .ringBase (bne_eq_false_iff_eq.mpr hk)
  case sizeExp =>
    intro hk hlo hhi
    refine queueBecomes_registerWrite hb .sizeExp ?_
    have hin : 4 ≤ v.toNat % 256 ∧ v.toNat % 256 ≤ 20 := ⟨hlo, hhi⟩
    simp [show (s.queue q.toNat).kind = 0 from hk, hin]
  case enable =>
    intro k hk
    exact ⟨fun h => exec_queueEnable_of_disabled hb hk h ▸ queueBecomes_setQueue s q.toNat _,
      fun h hne => ⟨_, exec_queueEnable_of_enabled hb hk h hne⟩, fun hag => ⟨_, exec_queueEnable_ne_cc hb hag q k⟩⟩
  case disable => exact fun h => exec_queueDisable_of_enabled hb h ▸ queueBecomes_setQueue s q.toNat _
  case permitted =>
    intro hk hp
    exact ⟨exec_reserveIndexRead_of_permits hb hp hk ▸ queueBecomes_setQueue _ q.toNat _,
      ⟨_, rfl, exec_doorbell_of_permits hb hp hk⟩⟩
  case refused =>
    exact fun hp => ⟨_, _, exec_doorbell_of_not_permits hb hp, exec_reserveIndexRead_of_not_permits hb hp⟩

end Sys2Proof.Claims

/-! SUPPORT. The order in which a die's pool is examined (R79). -/

namespace Sys2Proof.Claims

open Sys2Proof.Machine

/-! ## The order of a pool (R79) -/

/-- What R79 compares, the first difference deciding: what goes first is the least. -/
def rankKey (a : Rank) : List Int := [-a.prio, -a.again.toNat, -a.high.toNat, a.at', a.id]

theorem neg_toNat_lt (x y : Bool) : (-(x.toNat : Int) < -(y.toNat : Int)) ↔ x = true ∧ y = false := by
  cases x <;> cases y <;> decide

theorem neg_toNat_eq (x y : Bool) : (-(x.toNat : Int) = -(y.toNat : Int)) ↔ x = y := by
  cases x <;> cases y <;> decide

theorem precedes_iff_rankKey_lt (a b : Rank) : Precedes a b ↔ rankKey a < rankKey b := by
  have hprio : (-(a.prio : Int) < -(b.prio : Int)) ↔ b.prio < a.prio := by omega
  have hprio' : (-(a.prio : Int) = -(b.prio : Int)) ↔ a.prio = b.prio := by omega
  have hend : ¬([] : List Int) < [] := List.not_lt_nil []
  simp only [Precedes, rankKey, List.cons_lt_cons_iff, hprio, hprio', neg_toNat_lt, neg_toNat_eq, Int.ofNat_lt, Int.ofNat_inj,
    hend, and_false, or_false]

theorem Precedes.irrefl (a : Rank) : ¬Precedes a a := fun h => List.lt_irrefl _ ((precedes_iff_rankKey_lt a a).1 h)

theorem Precedes.trans {a b c : Rank} (h : Precedes a b) (k : Precedes b c) : Precedes a c :=
  (precedes_iff_rankKey_lt a c).2 (List.lt_trans ((precedes_iff_rankKey_lt a b).1 h) ((precedes_iff_rankKey_lt b c).1 k))

theorem before_iff_precedes (a b : Rank) : a.before b = true ↔ Precedes a b := by
  unfold Rank.before Precedes
  by_cases hp : a.prio = b.prio
  · by_cases hg : a.again = b.again
    · by_cases hh : a.high = b.high
      · by_cases ht : a.at' = b.at' <;> simp [hp, hg, hh, ht]
      · cases ha : a.high <;> simp_all
    · cases ha : a.again <;> simp_all
  · simp [hp]

/-- No later entry of the list precedes an earlier one. -/
def InPoolOrder (l : List (PoolRef × Rank)) : Prop := l.Pairwise fun a b => ¬Precedes b.2 a.2

theorem insertRank_perm (l : List (PoolRef × Rank)) (e : PoolRef × Rank) : (insertRank l e).Perm (e :: l) := by
  induction l with
  | nil => exact .refl _
  | cons x r ih =>
    unfold insertRank
    split
    · exact .refl _
    · exact (ih.cons x).trans (.swap e x r)

/-- An entry is inserted before the first one that it precedes, so it precedes none before it, and whatever preceded it
would precede that one too. -/
theorem InPoolOrder.insert {l : List (PoolRef × Rank)} (h : InPoolOrder l) (e : PoolRef × Rank) :
    InPoolOrder (insertRank l e) := by
  induction l with
  | nil => exact List.pairwise_singleton _ e
  | cons x r ih =>
    obtain ⟨hx, hr⟩ := List.pairwise_cons.1 h
    unfold insertRank
    split
    case isTrue he =>
      have hex : Precedes e.2 x.2 := (before_iff_precedes _ _).1 he
      refine List.pairwise_cons.2 ⟨fun y hy hye => ?_, h⟩
      rcases List.mem_cons.1 hy with rfl | hy
      · exact Precedes.irrefl _ (hex.trans hye)
      · exact hx y hy (hye.trans hex)
    case isFalse he =>
      refine List.pairwise_cons.2 ⟨fun y hy => ?_, ih hr⟩
      rcases List.mem_cons.1 ((insertRank_perm r e).mem_iff.1 hy) with rfl | hy
      · exact fun hyx => he ((before_iff_precedes _ _).2 hyx)
      · exact hx y hy

theorem foldl_insertRank_perm (l acc : List (PoolRef × Rank)) : (l.foldl insertRank acc).Perm (acc ++ l) := by
  induction l generalizing acc with
  | nil => simp
  | cons e l ih => exact (ih _).trans (((insertRank_perm acc e).append_right l).trans List.perm_middle.symm)

theorem InPoolOrder.insertAll {acc : List (PoolRef × Rank)} (h : InPoolOrder acc) (l : List (PoolRef × Rank)) :
    InPoolOrder (l.foldl insertRank acc) := by
  induction l generalizing acc with
  | nil => exact h
  | cons e l ih => exact ih (h.insert e)

/-- Settles O41: the order is an insertion sort by a strict order. -/
theorem poolOrder : Obligations.PoolOrder := fun s d =>
  ⟨foldl_insertRank_perm (s.pool d) [], InPoolOrder.insertAll .nil (s.pool d)⟩

end Sys2Proof.Claims

/-! SUPPORT. The commands of the work queues and what waits for them (R64 to R69, R74 to R76, R263, R265): what each does to the
state as it takes effect, and how the events beside them go on. -/

namespace Sys2Proof.Machine

/-! ## The command at a queue's head (R62, R64) -/

theorem leNat_lt (l : List Byte) : leNat l < 256 ^ l.length := by
  induction l with
  | nil => simp [leNat]
  | cons b l ih =>
    have hb : b.toNat < 256 := b.isLt
    rw [leNat, List.length_cons, Nat.pow_succ]
    omega

theorem QCmd.byte_lt (c : QCmd) (i : Nat) : c.byte i < 256 := by
  have hlen : ((c.bytes.drop i).take 1).length ≤ 1 := List.length_take_le 1 _
  calc c.byte i < 256 ^ ((c.bytes.drop i).take 1).length := leNat_lt _
    _ ≤ 256 ^ 1 := Nat.pow_le_pow_right (by decide) hlen

/-- The top bit of a command's flags, as the statements read it and as the model does. -/
theorem QCmd.lapBit (c : QCmd) : field (BitVec.ofNat 32 (c.byte 1)) 7 1 = c.byte 1 / 128 := by
  have hlt := c.byte_lt 1
  simp only [field, BitVec.toNat_ofNat]
  omega

theorem State.headAt_ref {s : State} {q : Nat} {x : Queue} {c : QCmd} (h : s.headAt q x = some c) :
    c.ref.queue = q ∧ c.ref.ticket = s.tickets := by
  obtain ⟨bs, -, rfl⟩ := Option.map_eq_some_iff.1 h
  exact ⟨rfl, rfl⟩

/-! ## Carrying out work (R64, R67) -/

@[simp] theorem runWork_nil (n : Nat) (s : State) : runWork n [] s = s := by cases n <;> rfl

/-- A command that causes no further work. -/
theorem State.doWork_cmd {s t : State} {c : QCmd} (h : s.effect c = (t, [])) : s.doWork [.cmd c] = t := by
  simp [State.doWork, runWork, h]

/-- Counter k risen by v, up to its limit (R67). -/
def State.raised (s : State) (k v : Nat) : State :=
  { s with counters := aset s.counters k (min ((aget s.counters k).getD 0 + v) (2 ^ 64 - 1)) }

theorem State.counters_raised (s : State) (k v j : Nat) : (aget (s.raised k v).counters j).getD 0 =
    if j = k then min ((aget s.counters j).getD 0 + v) (2 ^ 64 - 1) else (aget s.counters j).getD 0 := by
  rw [State.raised, aget_aset]
  split
  · subst_vars; rfl
  · rfl

/-- With no triggered command waiting, an addition fires none. -/
theorem State.addCounter_of_no_trigs {s : State} (h : s.trigs = []) (k v : Nat) : s.addCounter k v = (s.raised k v, []) := by
  simp [State.addCounter, State.raised, h]

theorem State.doWork_add {s : State} (h : s.trigs = []) (k v : Nat) : s.doWork [.add k v] = s.raised k v := by
  simp [State.doWork, runWork, State.addCounter_of_no_trigs h]

/-- A command whose one effect is to raise a counter. -/
theorem State.doWork_cmd_add {s : State} (h : s.trigs = []) {c : QCmd} {k v : Nat} (hc : s.effect c = (s, [.add k v])) :
    s.doWork [.cmd c] = s.raised k v := by
  simp [State.doWork, runWork, hc, h, State.addCounter_of_no_trigs h]

/-! ## The effects of single commands (R64, R65, R265) -/

/-- The copy that a WSLOAD asks for, not started (R265). -/
def QCmd.wsLoad (c : QCmd) (ctx : TransCtx) : WsLoad :=
  ⟨c.ref, c.byte 32, c.num 36 4, c.num 40 4, BitVec.ofNat 64 c.addr, ctx, false⟩

section
variable (s : State) {c : QCmd}

/-- A SIGNAL that reaches the signal table. -/
theorem State.effect_signal (h : c.opcode = 3) {t : State}
    (hsend : s.sendSignal (sigAddr c.addr) (c.byte 32 == 1) = some t) : s.effect c = (t, []) := by
  simp only [State.effect, h, hsend, Option.getD_some]

theorem State.effect_cadd (h : c.opcode = 4) : s.effect c = (s, [.add (c.num 32 2) (c.num 40 8)]) := by
  simp only [State.effect, h]

/-- A CSET of a counter that no triggered command watches. -/
theorem State.effect_cset (h : c.opcode = 5) (hno : ∀ y ∈ s.trigs, y.counter ≠ c.num 32 2) :
    s.effect c = ({ s with counters := aset s.counters (c.num 32 2) (c.num 40 8) }, []) := by
  have hany : (s.trigs.any fun y => y.counter == c.num 32 2) = false := by simpa using hno
  simp [State.effect, h, hany]

/-- A WSLOAD of a queue that has an address space, into bank groups that are all ready. -/
theorem State.effect_wsload (h : c.opcode = 6) {ctx : TransCtx} (hctx : s.transCtx c.ref.queue = some ctx)
    (hready : ∀ g ∈ wsGroups (c.num 36 4) (c.num 40 4), s.ready.getLsbD (384 + 16 * c.byte 32 + g) = true) :
    s.effect c = ({ s with wsloads := aset s.wsloads (freshKey s.wsloads) (c.wsLoad ctx) }, []) := by
  simp only [State.effect, h, hctx]
  rw [if_pos (List.all_eq_true.2 hready)]
  rfl

/-- The commands of the queue consumed before this one that have not completed: what a HOLD waits for (R64). -/
def State.pendingBefore (s : State) (c : CmdRef) : List Nat :=
  (s.pendingCmds.filter fun p => p.1 == c.queue && decide (p.2 < c.ticket)).map Prod.snd

theorem State.mem_pendingBefore {c : CmdRef} {t : Nat} : t ∈ s.pendingBefore c ↔ (c.queue, t) ∈ s.pendingCmds ∧ t < c.ticket := by
  simp only [State.pendingBefore, List.mem_map, List.mem_filter, Bool.and_eq_true, beq_iff_eq, decide_eq_true_eq]
  constructor
  · rintro ⟨⟨q, _⟩, ⟨hp, rfl, hlt⟩, rfl⟩
    exact ⟨hp, hlt⟩
  · rintro ⟨hp, hlt⟩
    exact ⟨(c.queue, t), ⟨hp, rfl, hlt⟩, rfl⟩

/-- A HOLD of a queue on which none waits. -/
theorem State.effect_hold (h : c.opcode = 7) (hnone : (s.queue c.ref.queue).hold = none) :
    s.effect c = (s.setQueue c.ref.queue { s.queue c.ref.queue with
      hold := if (s.pendingBefore c.ref).isEmpty then none else some (s.pendingBefore c.ref) }, []) := by
  simp only [State.effect, h, hnone]
  rfl

end

/-! ## Signals (R74 to R76) -/

@[simp] theorem sigAddr_sigAddr (a : Nat) : sigAddr (sigAddr a) = sigAddr a := by
  unfold sigAddr
  omega

theorem State.sigStuck_of_entry {s : State} {a : Nat} {e : SigEnt} (h : aget s.signals (sigAddr a) = some e) :
    s.sigStuck a = false := by
  simp [State.sigStuck, h]

theorem State.sigStuck_of_room {s : State} (h : s.signals.length < 1048576) (a : Nat) : s.sigStuck a = false := by
  have hfull : s.sigFull = false := decide_eq_false (Nat.not_le.2 h)
  simp only [State.sigStuck, hfull, Bool.false_and]

/-- A task's master after the task has become ready: to retirement when it is cancelled, else into its pool (R74, R77). -/
def BecomesReady (now : Nat) (b b' : Master) : Prop :=
  if b.cancelled then b'.retiring = true ∧ b'.inPool = b.inPool else b'.inPool = true ∧ b'.poolAt = now

/-- A task whose master `f` changes, and which then becomes ready. -/
theorem State.taskReady_modMaster {s : State} {m : Nat} {b : Master} (hb : s.master m = some b) (f : Master → Master) :
    ((s.modMaster m f).taskReady m).signals = s.signals ∧
      ∃ b', ((s.modMaster m f).taskReady m).master m = some b' ∧ BecomesReady s.cycles (f b) b' := by
  have hf : (s.modMaster m f).master m = some (f b) := by rw [State.modMaster_master, hb]; rfl
  unfold State.taskReady BecomesReady
  simp only [hf]
  split
  · exact ⟨State.modMaster_signals .., _, State.setMaster_master .., rfl, rfl⟩
  · exact ⟨State.modMaster_signals .., _, State.setMaster_master .., rfl, State.modMaster_cycles ..⟩

section
variable {s : State} {addr a : Nat} (cancel : Bool) (ha : sigAddr addr = a)
include ha

theorem State.sendSignal_new (h : aget s.signals a = none) (hroom : s.signals.length < 1048576) :
    s.sendSignal addr cancel = some { s with signals := aset s.signals a (.early 1 cancel) } := by
  simp [State.sendSignal, ha, h, hroom]

theorem State.sendSignal_full (h : aget s.signals a = none) (hfull : ¬s.signals.length < 1048576) :
    s.sendSignal addr cancel = none := by
  simp [State.sendSignal, ha, h, hfull]

theorem State.sendSignal_early {n : Nat} {f : Bool} (h : aget s.signals a = some (.early n f)) :
    s.sendSignal addr cancel = some { s with signals := aset s.signals a (.early (n + 1) (f || cancel)) } := by
  simp [State.sendSignal, ha, h]

/-- A signal to a pending task that awaits more. -/
theorem State.sendSignal_pending {n m : Nat} {f : Bool} {b : Master} (h : aget s.signals a = some (.pending n f m))
    (hb : s.master m = some b) (hmore : n + 1 < b.predecessors) :
    s.sendSignal addr cancel = some { s with signals := aset s.signals a (.pending (n + 1) (f || cancel) m) } := by
  simp [State.sendSignal, ha, h, hb, Nat.not_le.2 hmore]

/-- The last signal that a pending task awaits takes its entry and makes it ready. -/
theorem State.sendSignal_last {n m : Nat} {f : Bool} {b : Master} (h : aget s.signals a = some (.pending n f m))
    (hb : s.master m = some b) (hlast : b.predecessors ≤ n + 1) :
    ∃ t, s.sendSignal addr cancel = some t ∧ t.signals = adel s.signals a ∧
      ∃ b', t.master m = some b' ∧ BecomesReady s.cycles { b with cancelled := f || cancel } b' := by
  have hready := State.taskReady_modMaster (s := { s with signals := adel s.signals a }) hb
    fun b => { b with cancelled := f || cancel }
  refine ⟨_, ?_, hready⟩
  simp only [State.sendSignal, ha, h, hb, if_pos hlast]

end

/-! ## Reading a range of virtual addresses -/

/-- t differs from s at most as reading and recording may make it: in bytes and fields of the fault queue, in page tags and
in the dies, which hold cached translations and records that wait. -/
def ReadsOnly (s t : State) : Prop :=
  { t with mem := s.mem, tags := s.tags, dies := s.dies, fqWrite := s.fqWrite, fqWindow := s.fqWindow
           interrupts := s.interrupts } = s

theorem ReadsOnly.refl (s : State) : ReadsOnly s s := rfl

theorem ReadsOnly.trans {s t u : State} (h : ReadsOnly s t) (k : ReadsOnly t u) : ReadsOnly s u := by
  unfold ReadsOnly at *
  rw [← k] at h
  exact h

theorem ReadsOnly.wsloads {s t : State} (h : ReadsOnly s t) : t.wsloads = s.wsloads := by
  unfold ReadsOnly at h
  rw [← h]

theorem readsOnly_modDie (s : State) (d : Nat) (f : Die → Die) : ReadsOnly s (s.modDie d f) := rfl

theorem readsOnly_fqAppend {s t : State} {r : FRecord} (h : s.fqAppend r = some t) : ReadsOnly s t := by
  unfold State.fqAppend at h
  split at h
  · cases h
  · split at h
    · rw [← Option.some.inj h]
      unfold ReadsOnly
      rfl
    · cases h

theorem readsOnly_record (s : State) (d : Nat) (r : FRecord) : ReadsOnly s (s.record d r) := by
  unfold State.record
  split
  · cases h : s.fqAppend r with
    | none => exact readsOnly_modDie s d _
    | some t => exact readsOnly_fqAppend h
  · exact readsOnly_modDie s d _

theorem readsOnly_checkForm (s : State) (key : Nat) (packed : Bool) : ReadsOnly s (s.checkForm key packed) := by
  unfold State.checkForm
  split
  · split
    · exact .refl s
    · exact .refl s
    · exact .refl s
    · exact ReadsOnly.trans (t := { s with tags := aset s.tags (key / 4096) .mismatched }) rfl (readsOnly_record _ _ _)
  · exact .refl s

theorem readsOnly_walkGo (d asid va : Nat) (pkr : Word) (acc : Access) (fuel level table : Nat) (s : State) :
    ReadsOnly s (walkGo d asid va pkr acc fuel level table s).1 := by
  induction fuel generalizing level table s with
  | zero => exact .refl s
  | succ fuel ih =>
    unfold walkGo
    dsimp only
    split
    · exact .refl s
    · rename_i e _
      have filled : ReadsOnly s (if (s.tlbFind d asid level va).isSome then s else s.tlbFill d asid level va e) := by
        split
        · exact .refl s
        · exact rfl
      split
      · exact .refl s
      · generalize (if (s.tlbFind d asid level va).isSome then s else s.tlbFill d asid level va e) = t at filled
        split
        · exact filled
        · split
          · exact filled.trans (ih ..)
          · split
            · exact filled
            · split <;> exact filled

theorem readsOnly_translate (s : State) (d q : Nat) (ctx : TransCtx) (va : Nat) (acc : Access) :
    ReadsOnly s (s.translate d q ctx va acc).1 := by
  unfold State.translate
  dsimp only
  split
  · split
    · exact .refl s
    · split
      · exact .refl s
      · exact readsOnly_walkGo ..
  · exact readsOnly_walkGo ..

theorem readsOnly_vaPlaces (s : State) (d q : Nat) (ctx : TransCtx) (va n : Nat) (acc : Access) :
    ReadsOnly s (s.vaPlaces d q ctx va n acc).1 := by
  unfold State.vaPlaces
  split
  · exact .refl s
  · refine List.foldlRecOn (motive := fun p : State × _ => ReadsOnly s p.1) _ _ (.refl s) fun p hp piece _ => ?_
    obtain ⟨t, e | l⟩ := p
    · exact hp
    · have ht := hp.trans (readsOnly_translate t d q ctx piece.1 acc)
      dsimp only
      split <;> (rename_i heq; rw [heq] at ht; exact ht)

theorem readsOnly_vaRead (s : State) (d q : Nat) (ctx : TransCtx) (va n : Nat) :
    ReadsOnly s (s.vaRead d q ctx va n).1 := by
  have hplaces := readsOnly_vaPlaces s d q ctx va n .read
  unfold State.vaRead
  split
  · rename_i heq
    rwa [heq] at hplaces
  · rename_i t l heq
    rw [heq] at hplaces
    refine List.foldlRecOn (motive := fun p : State × _ => ReadsOnly s p.1) _ _ hplaces fun p hp x _ => ?_
    obtain ⟨u, r⟩ := p
    have hread := hp.trans (readsOnly_checkForm u x.1.key x.1.packed)
    cases r with
    | ok bs =>
      dsimp only [State.engineRead]
      cases (u.checkForm x.1.key x.1.packed).homeRead x.1.key x.2 <;> exact hread
    | missing => exact hp
    | bad => exact hp

theorem State.homeWrite_of_reachable {s : State} {key : Nat} {bs : List Byte} (hr : s.unreachable key bs.length = false)
    (hf : s.formOf key ≠ some .mismatched) :
    (s.homeWrite key bs).mem = writeBytes s.mem key bs ∧ (s.homeWrite key bs).wsloads = s.wsloads := by
  have hf' : (s.formOf key == some .mismatched) = false := by simpa using hf
  simp [State.homeWrite, hr, hf']

/-! ## Queues that go on, counters written, signals held (R64, R67, R69, R76) -/

section
variable {s : State} {q : BitVec 16}

theorem exec_holdRelease_of_done {l : List Nat} (h : (s.queue q.toNat).hold = some l)
    (hdone : ∀ t ∈ l, (q.toNat, t) ∉ s.pendingCmds) :
    exec (.holdRelease q) s = .next (drainQueue (2 ^ (s.queue q.toNat).sizeExp + 1) q.toNat
      (s.setQueue q.toNat { s.queue q.toNat with hold := none })) := by
  have hany : (s.pendingCmds.any fun p => p.1 == q.toNat && l.contains p.2) = false := by
    rw [List.any_eq_false]
    rintro ⟨j, t⟩ hp hmatch
    simp only [Bool.and_eq_true, beq_iff_eq, List.contains_iff_mem] at hmatch
    exact hdone t hmatch.2 (hmatch.1 ▸ hp)
  simp only [exec, execHoldRelease, h, hany, Bool.false_eq_true, if_false]

theorem exec_holdRelease_of_pending {l : List Nat} (h : (s.queue q.toNat).hold = some l)
    (hpend : ∃ t ∈ l, (q.toNat, t) ∈ s.pendingCmds) : exec (.holdRelease q) s = .next s := by
  obtain ⟨t, ht, hp⟩ := hpend
  have hany : (s.pendingCmds.any fun p => p.1 == q.toNat && l.contains p.2) = true :=
    List.any_eq_true.2 ⟨_, hp, by simpa using ht⟩
  simp only [exec, execHoldRelease, h, hany, if_true]

theorem exec_queueResume_of_room (h : (s.queue q.toNat).state = 2) (hroom : s.trigs.length < 65536) :
    exec (.queueResume q) s = .next (drainQueue (2 ^ (s.queue q.toNat).sizeExp + 1) q.toNat
      (s.setQueue q.toNat { s.queue q.toNat with state := 1 })) := by
  simp [exec, execQueueResume, h, hroom]

theorem exec_queueResume_of_full (h : (s.queue q.toNat).state = 2) (hfull : ¬s.trigs.length < 65536) :
    exec (.queueResume q) s = .next s := by
  simp [exec, execQueueResume, h, hfull]

end

/-- An aligned write of eight bytes within the aperture. -/
theorem exec_counterApertureWrite_of_slot {s : State} {bl : Blob} (hb : s.blob = some bl) (ag : Agent) {off : Nat} (v : Dword)
    (ha : off % 8 = 0) (hlt : off < 524288) :
    exec (.counterApertureWrite ag off 8 v) s = .next (s.doWork [.add (off / 8) v.toNat]) := by
  simp [exec, execCounterApertureWrite, hb, ha, hlt]

theorem exec_counterApertureWrite_of_misfit {s : State} {bl : Blob} (hb : s.blob = some bl) (ag : Agent) {off size : Nat}
    (v : Dword) (h : off % 8 ≠ 0 ∨ size ≠ 8) :
    exec (.counterApertureWrite ag off size v) s = .next (s.regError 0 0x12 (bl.counterAperture + off)) := by
  have hmis : (off % 8 == 0 && size == 8) = false := by
    rcases h with h | h <;> simp [h]
  simp only [exec, execCounterApertureWrite, hb, hmis, Bool.false_and, Option.isNone_some, Bool.false_eq_true, if_false]

/-- The oldest held signal is delivered when the table takes it. -/
theorem exec_heldCancelDelivery {s : State} {a : Nat} {f : Bool} {r : List (Nat × Bool)} (h : s.cancels = (a, f) :: r) :
    exec .heldCancelDelivery s = .next ((({ s with cancels := r } : State).sendSignal a f).getD s) := by
  simp only [exec, execHeldCancelDelivery, h]
  cases ({ s with cancels := r } : State).sendSignal a f <;> rfl

/-! ## The weight store's copies and refresh windows (R263, R265) -/

section
variable {s : State} {k : Nat} {w : WsLoad} (h : aget s.wsloads k = some w)
include h

theorem exec_wsloadCopyStart (hs : w.started = false) : exec (.wsloadCopyStart k) s =
    .next (if s.mapped w then s else { s with wsloads := aset s.wsloads k { w with started := true } }) := by
  simp [exec, execWsloadCopyStart, h, hs]

/-- A copy whose source reads well is written whole, and its command completes. -/
theorem exec_wsloadComplete_of_read (hs : w.started = true) {u : State} {bs : List Byte}
    (hread : ({ s with wsloads := adel s.wsloads k } : State).vaRead w.die w.ref.queue w.ctx w.src.toNat w.size = (u, .ok bs)) :
    exec (.wsloadComplete k) s = .next ((u.homeWrite (wsKey w.die w.dest) bs).finishCmd w.ref) := by
  simp [exec, execWsloadComplete, h, hs, hread]

end

theorem mem_of_aget {α : Type} {l : List (Nat × α)} {k : Nat} {v : α} (h : aget l k = some v) : (k, v) ∈ l := by
  induction l with
  | nil => cases h
  | cons p r ih =>
    obtain ⟨j, u⟩ := p
    unfold aget at h
    split at h
    · rename_i hj
      cases h
      rw [beq_iff_eq.1 hj]
      exact List.mem_cons_self
    · exact List.mem_cons_of_mem _ (ih h)

/-- With nothing outstanding there is nothing to perform. -/
theorem State.drainOps_of_no_outs {s : State} {r : WRef} (h : ∀ w, s.warp r = some w → w.outs = []) : s.drainOps r = s := by
  unfold State.drainOps
  split
  · rfl
  · rename_i b hb
    split
    · rfl
    · split
      · rfl
      · rename_i w hw
        have hwarp : s.warp r = some w := by simp [State.warp, hb, hw]
        simp [h w hwarp, State.purge, hwarp]

theorem State.drainMaster_of_no_outs {s : State} {m : Nat} (h : ∀ b, s.master m = some b → ∀ w ∈ b.warps, w.outs = []) :
    s.drainMaster m = s := by
  unfold State.drainMaster
  split
  · rename_i b hb
    refine List.foldlRecOn (motive := fun t => t = s) _ _ rfl fun t ht i _ => ?_
    subst ht
    refine State.drainOps_of_no_outs fun w hw => h b hb w ?_
    simp only [State.warp, hb] at hw
    exact List.mem_of_getElem? hw
  · rfl

end Sys2Proof.Machine

namespace Sys2Proof.Claims

open Sys2Proof.Machine

/-! ## The head of a consuming queue (R62, R64) -/

theorem AtHead.active {s : State} {q : Nat} {x : Queue} {c : QCmd} (h : AtHead s q x c) : x.active = true := by
  obtain ⟨hst, hcons, hhold⟩ := h.running
  simp [Queue.active, h.enabled, hst, hcons, hhold]

theorem AtHead.lapOk {s : State} {q : Nat} {x : Queue} {c : QCmd} (h : AtHead s q x c) : x.lapOk c = true :=
  beq_iff_eq.2 (c.lapBit ▸ h.lap)

theorem AtHead.ref_queue {s : State} {q : Nat} {x : Queue} {c : QCmd} (h : AtHead s q x c) : c.ref.queue = q :=
  (State.headAt_ref h.slot).1

/-- Is a command with this opcode one that HOLD waits for (R64)? -/
def isAwaited (op : Nat) : Bool := op == 1 || op == 2 || op == 6

section
variable {s : State} {q : Nat} {x : Queue} {c : QCmd} (h : AtHead s q x c)
include h

/-- A command that is not triggered takes effect once the queue has moved past it, unless it is a SIGNAL that finds the
signal table full. -/
theorem AtHead.consumeOp_untriggered (ht : c.triggered = false) (hs : c.opcode = 3 → s.sigStuck c.addr = false) :
    s.consumeOp q c.opcode =
      drainQueue (2 ^ x.sizeExp + 1) q ((popped s q x (isAwaited c.opcode)).doWork [.cmd c]) := by
  have hstuck : (c.opcode == 3 && s.sigStuck c.addr) = false := by simpa using hs
  obtain rfl := h.queue
  simp only [State.consumeOp, h.active, h.slot, h.lapOk, h.sound, ht, hstuck, Bool.not_true, Bool.not_false, Bool.false_or,
    Bool.true_or, Bool.true_and, Bool.false_and, Option.isSome_none, bne_self_eq_false, Bool.false_eq_true, if_false, if_true]
  rfl

/-- A triggered command below its threshold joins the trigger list, which has room for it. -/
theorem AtHead.consumeOp_triggered (ht : c.triggered = true) (hlt : (aget s.counters (c.num 2 2)).getD 0 < c.num 8 8)
    (hroom : s.trigs.length < 65536) :
    s.consumeOp q c.opcode = drainQueue (2 ^ x.sizeExp + 1) q
      { popped s q x (isAwaited c.opcode) with trigs := s.trigs ++ [⟨c.num 2 2, c.num 8 8, c⟩] } := by
  have hbelow : decide (c.num 8 8 ≤ (aget s.counters (c.num 2 2)).getD 0) = false := decide_eq_false (Nat.not_le.2 hlt)
  have hfits : decide (65536 ≤ s.trigs.length) = false := decide_eq_false (Nat.not_le.2 hroom)
  obtain rfl := h.queue
  simp only [State.consumeOp, h.active, h.slot, h.lapOk, h.sound, ht, hbelow, hfits, Bool.not_true, Bool.not_false, Bool.false_or,
    Bool.and_false, Bool.false_and, Option.isSome_none, bne_self_eq_false, Bool.false_eq_true, if_false]
  rfl

end

/-! ## Commands as they are consumed (R64, R65, R67 to R69, R74, R76, R265) -/

theorem queue_popped (s : State) (q : Nat) (x : Queue) (waits : Bool) : (popped s q x waits).queue q = past x :=
  State.queue_setQueue_same ..

section
variable {s : State} {q : Nat} {x : Queue} {c : QCmd} (h : AtHead s q x c) {i : Instr} {op : Nat}
  (hi : exec i s = .next (s.consumeOp q op)) (hop : c.opcode = op)
include h hi hop

/-- An instruction that consumes `op` commands carries out the one at the head. -/
theorem AtHead.consumes_untriggered {waits : Bool} (hw : isAwaited op = waits) (ht : c.triggered = false)
    (hs : op = 3 → s.sigStuck c.addr = false) {t : State} (hdo : (popped s q x waits).doWork [.cmd c] = t) {P : State → Prop}
    (hP : P t) : Consumes q x P (exec i s) := by
  subst hop hw hdo
  exact ⟨_, hP, by rw [hi, h.consumeOp_untriggered ht hs]⟩

theorem AtHead.consumes_triggered (ht : c.triggered = true) (hlt : (aget s.counters (c.num 2 2)).getD 0 < c.num 8 8)
    (hroom : s.trigs.length < 65536) :
    Consumes q x (fun u => ∃ waits, u = { popped s q x waits with trigs := s.trigs ++ [⟨c.num 2 2, c.num 8 8, c⟩] })
      (exec i s) := by
  subst hop
  exact ⟨_, ⟨_, rfl⟩, by rw [hi, h.consumeOp_triggered ht hlt hroom]⟩

end

theorem queueCommandsPart : QueueCommandsPart := by
  intro s q x c h u0
  refine ⟨fun ht i hi hlt hroom => ?triggered, fun ht => ⟨?cadd, ?cset, ?hold, ?wsload, ?signal⟩⟩
  case triggered =>
    have hmem := List.contains_iff_mem.1 hi
    simp only [List.mem_cons, Prod.mk.injEq, List.not_mem_nil, or_false] at hmem
    rcases hmem with ⟨rfl, hop⟩ | ⟨rfl, hop⟩ | ⟨rfl, hop⟩ | ⟨rfl, hop⟩ | ⟨rfl, hop⟩ | ⟨rfl, hop⟩ <;>
      exact h.consumes_triggered rfl hop ht hlt hroom
  case cadd =>
    intro hop hno
    have hnone : (u0 false).trigs = [] := hno
    refine h.consumes_untriggered rfl hop rfl ht (by simp)
      (State.doWork_cmd_add hnone (State.effect_cadd _ hop)) ⟨rfl, fun k => ?_⟩
    exact (u0 false).counters_raised _ _ k
  case cset =>
    intro hop hno
    refine h.consumes_untriggered rfl hop rfl ht (by simp) (State.doWork_cmd (State.effect_cset (u0 false) hop hno)) ?_
    refine ⟨rfl, ?_, fun k hk => aget_aset_ne _ _ _ _ hk⟩
    simp only [aget_aset_same, Option.getD_some]
  case hold =>
    intro hop
    have hhold : ((u0 false).queue c.ref.queue).hold = none := by
      rw [h.ref_queue, queue_popped]
      obtain ⟨-, -, hnone⟩ := h.running
      exact hnone
    have hmem (t : Nat) : t ∈ (u0 false).pendingBefore c.ref ↔ (q.toNat, t) ∈ s.pendingCmds ∧ t < c.ref.ticket := by
      rw [State.mem_pendingBefore, h.ref_queue]
      rfl
    refine h.consumes_untriggered rfl hop rfl ht (by simp) (State.doWork_cmd (State.effect_hold (u0 false) hop hhold)) ?_
    simp only [h.ref_queue, State.queue_setQueue_same]
    refine ⟨rfl, ?_, ?_⟩
    · rintro ⟨t, ht⟩
      have hne := List.ne_nil_of_mem ((hmem t).2 ht)
      exact ⟨_, if_neg (by simpa using hne), hmem⟩
    · intro hlater
      have hnil : (u0 false).pendingBefore c.ref = [] :=
        List.eq_nil_iff_forall_not_mem.2 fun t ht => Nat.not_le.2 ((hmem t).1 ht).2 (hlater t ((hmem t).1 ht).1)
      rw [hnil]
      rfl
  case wsload =>
    intro hop ctx hctx hq hready hfresh
    have hctx' : (u0 true).transCtx c.ref.queue = some ctx := by rw [hq]; exact hctx
    refine h.consumes_untriggered rfl hop rfl ht (by simp)
      (State.doWork_cmd (State.effect_wsload (u0 true) hop hctx' hready)) ?_
    exact ⟨rfl, _, hfresh, aget_aset_same ..⟩
  case signal =>
    intro hop a cancel
    have ha : sigAddr a = a := sigAddr_sigAddr c.addr
    have sent {t : State} (hs : s.sigStuck c.addr = false) (hsend : (u0 false).sendSignal a cancel = some t) {P : State → Prop}
        (hP : P t) : Consumes q.toNat x P (exec (.signal q) s) :=
      h.consumes_untriggered rfl hop rfl ht (fun _ => hs) (State.doWork_cmd (State.effect_signal _ hop hsend)) hP
    refine ⟨fun hnone hroom => ?_, fun n f he => ?_, fun n f m b he hb => ?_⟩
    · exact sent (State.sigStuck_of_room hroom _) (State.sendSignal_new cancel ha hnone hroom) rfl
    · exact sent (State.sigStuck_of_entry he) (State.sendSignal_early cancel ha he) rfl
    · split
      case isTrue hmore =>
        exact sent (State.sigStuck_of_entry he) (State.sendSignal_pending cancel ha he hb hmore) rfl
      case isFalse hlast =>
        obtain ⟨t, hsend, hready⟩ := State.sendSignal_last (s := u0 false) cancel ha he hb (Nat.not_lt.1 hlast)
        exact sent (State.sigStuck_of_entry he) hsend hready

/-! ## Queues that go on, and the weight store (R64, R67, R69, R76, R263, R265) -/

theorem queuesGoOnPart : QueuesGoOnPart := by
  intro s q bl hb x
  refine ⟨fun l hl => ⟨fun hdone => ?release, fun hpend => exec_holdRelease_of_pending hl hpend⟩, fun h2 => ?resume,
    fun ag off v ha hlt hno => ?counter, fun ag off size v h => exec_counterApertureWrite_of_misfit hb ag v h,
    fun a f r hc ha hnone => ?held, fun k w hw => ⟨fun hs => ?start, fun hs u bs hread hreach hform => ?complete⟩⟩
  case release => exact ⟨_, rfl, exec_holdRelease_of_done hl hdone⟩
  case resume =>
    split
    case isTrue hroom => exact ⟨_, rfl, exec_queueResume_of_room h2 hroom⟩
    case isFalse hfull => exact exec_queueResume_of_full h2 hfull
  case counter =>
    refine ⟨s.raised (off / 8) v.toNat, ?_, rfl, s.counters_raised _ _⟩
    rw [exec_counterApertureWrite_of_slot hb ag v ha hlt, State.doWork_add hno]
  case held =>
    have haddr : sigAddr a = a := by unfold sigAddr; omega
    rw [exec_heldCancelDelivery hc]
    split
    case isTrue hroom => rw [State.sendSignal_new (s := { s with cancels := r }) f haddr hnone hroom]; rfl
    case isFalse hfull => rw [State.sendSignal_full (s := { s with cancels := r }) f haddr hnone hfull]; rfl
  case start =>
    refine ⟨_, ?_, exec_wsloadCopyStart hw hs⟩
    split <;> rfl
  case complete =>
    obtain ⟨hmem, hloads⟩ := State.homeWrite_of_reachable hreach hform
    have hkept : u.wsloads = adel s.wsloads k := by
      have hread' := readsOnly_vaRead { s with wsloads := adel s.wsloads k } w.die w.ref.queue w.ctx w.src.toNat w.size
      rw [hread] at hread'
      exact hread'.wsloads
    refine ⟨_, u.homeWrite (wsKey w.die w.dest) bs, exec_wsloadComplete_of_read hw hs hread, hmem, ?_, rfl⟩
    rw [hloads, hkept, aget_adel_same]

theorem refreshWindowPart : RefreshWindowPart := by
  intro s g
  refine ⟨rfl, fun h => ?_⟩
  have hdrain (m : Nat) : s.drainMaster m = s :=
    State.drainMaster_of_no_outs fun b hb w hw => h (m, b) (mem_of_aget hb) w hw
  have hfold : s.masters.foldl (fun t p => t.drainMaster p.1) s = s :=
    List.foldlRecOn (motive := fun t => t = s) _ _ rfl fun t ht p _ => by rw [ht, hdrain]
  exact congrArg _ hfold

/-- Settles O55: each clause is what the lemma about its command's effect, or about its event, says. -/
theorem queueCommands : Obligations.QueueCommands := ⟨queueCommandsPart, queuesGoOnPart, refreshWindowPart⟩

end Sys2Proof.Claims
